-- ==== Sys2Proof/Word.lean ====
section
/-! DEFINITION. The word types of the block: register words, bytes, symbols and table selectors. -/

namespace Sys2Proof

/-- A register word or a command word: 32 bits (spec/20_memory.md R80, spec/30_encoding.md R110). -/
abbrev Word := BitVec 32

/-- A data byte (R94). -/
abbrev Byte := BitVec 8

/-- A symbol: 9 bits, of which 0..257 are used (spec/00_scope.md R6, R8). -/
abbrev Sym := BitVec 9

/-- A table selector TSEL: 5 bits (spec/30_encoding.md R110). -/
abbrev Tsel := BitVec 5

/-- A context: the key of a table, a sequence of bytes (spec/10_state.md R42). -/
abbrev Context := List Byte

/-- The end-of-stream symbol, 256 (spec/00_scope.md R8). -/
def Sym.eof : Sym := 256

/-- The escape symbol, 257 (spec/00_scope.md R8). -/
def Sym.esc : Sym := 257

/-- The selector of the order-minus-one table, 31 (spec/30_encoding.md R113). -/
def Tsel.m1 : Tsel := 31

/-- The largest value of a 32-bit register or counter. -/
abbrev wordMax : Nat := 4294967295

end Sys2Proof
end

