-- ==== Sys2Proof/Config.lean ====
section
/-! DEFINITION. What an implementation fixes (the open parameters of spec/00_scope.md R6) and the free values. -/

namespace Sys2Proof

/-- The open synthesis parameters a model takes as arguments (spec/00_scope.md R6, spec/92_eei_decisions.md
"Open parameters"); `none` is "unbounded". They are fixed for a machine and software reads them through PARAMS
and CTX_CAP (spec/10_state.md R53). -/
structure Params where
  /-- MAX_ORDER, the largest model order the history window holds (D6). -/
  maxOrder : Nat
  /-- CTX_CAPACITY, the most tables the context store holds, root included (D16). -/
  ctxCapacity : Option Nat
  /-- IN_BYTE_DEPTH, the capacity of the input byte queue in bytes (D22). -/
  inByteDepth : Option Nat
  /-- IN_BIT_DEPTH, the capacity of the input bit queue in bits (D22). -/
  inBitDepth : Option Nat
  deriving DecidableEq, Repr

/-- The defaults the spec gives (spec/92_eei_decisions.md "Open parameters"). -/
def Params.default : Params where
  maxOrder := 8
  ctxCapacity := none
  inByteDepth := none
  inBitDepth := none

/-- `c` is at least `n`, or unbounded. -/
def atLeast (n : Nat) : Option Nat → Bool
  | none => true
  | some c => decide (n ≤ c)

/-- The legal ranges of the open parameters (spec/00_scope.md R6). -/
def Params.legal (p : Params) : Bool :=
  decide (3 ≤ p.maxOrder) && decide (p.maxOrder ≤ 30) && atLeast 1 p.ctxCapacity && atLeast 1 p.inByteDepth
    && atLeast 32 p.inBitDepth

/-- Free value: what the `n`-th unspecified host read returns (spec/20_memory.md R85; log 5). It has no body, so nothing can
be proved of it. -/
opaque Config.freeRead : Nat → Word

/-- Free value: the ranges and the total a table holds after the `n`-th lazy add; the second argument numbers the cells of the
table (spec/10_state.md R41, spec/93_implementation_defined.md U5; log 6). -/
opaque Config.freeRange : Nat → Nat → Word

/-- Free value: what CTX_COUNT shows of a store of `n` contexts, for an `n` that does not fit its 32 bits
(spec/10_state.md R52; log 8). A function of `n` alone: reads of one state agree (spec/20_memory.md R84). -/
opaque Config.freeCount : Nat → Word

end Sys2Proof
end

