-- ==== Sys2Proof/Syntax.lean ====
section
/-! DEFINITION. The commands: one constructor per row of the opcode map (spec/30_encoding.md R115). -/

namespace Sys2Proof

/-- A command. `t` is a TSEL field and `s` a SYM field, as the formats of spec/30_encoding.md R111 give them. -/
inductive Instr where
  /-- NOP, format N (R250). -/
  | nop
  /-- SRST, format X (R251); `ign` holds the 26 bits the command ignores. -/
  | srst (ign : BitVec 26)
  /-- FADD t, s, format TS (R142). -/
  | fadd (t : Tsel) (s : Sym)
  /-- FRECOMP t, format T (R143). -/
  | frecomp (t : Tsel)
  /-- FUPD t, s, format TS (R144). -/
  | fupd (t : Tsel) (s : Sym)
  /-- FLOOK t, s, format TS (R145). -/
  | flook (t : Tsel) (s : Sym)
  /-- CINIT, format N (R170). -/
  | cinit
  /-- ENC t, s, format TS (R171). -/
  | enc (t : Tsel) (s : Sym)
  /-- FIN, format N (R172). -/
  | fin
  /-- DPRIME, format N (R173). -/
  | dprime
  /-- DEC t, format T (R174). -/
  | dec (t : Tsel)
  /-- MINIT, format N (R200). -/
  | minit
  /-- PGET t, format T (R202). -/
  | pget (t : Tsel)
  /-- PUPD s, format S (R204). -/
  | pupd (s : Sym)
  /-- HPUSH s, format S (R203). -/
  | hpush (s : Sym)
  /-- CSYM s, format S (R221). -/
  | csym (s : Sym)
  /-- DSYM, format N (R222). -/
  | dsym
  /-- COMPRESS, format N (R223). -/
  | compress
  /-- DECOMPRESS, format N (R224). -/
  | decompress
  deriving DecidableEq, Repr

/-- A row of the opcode map: a word belongs to the row when its bits under `mask` are `bits` (spec/30_encoding.md R115). -/
structure OpcodeRow where
  mnemonic : String
  bits : Word
  mask : Word
  deriving DecidableEq, Repr

/-- The mnemonic of a command, as the opcode map spells it (spec/30_encoding.md R115). -/
def Instr.mnemonic : Instr → String
  | .nop => "NOP"
  | .srst _ => "SRST"
  | .fadd _ _ => "FADD"
  | .frecomp _ => "FRECOMP"
  | .fupd _ _ => "FUPD"
  | .flook _ _ => "FLOOK"
  | .cinit => "CINIT"
  | .enc _ _ => "ENC"
  | .fin => "FIN"
  | .dprime => "DPRIME"
  | .dec _ => "DEC"
  | .minit => "MINIT"
  | .pget _ => "PGET"
  | .pupd _ => "PUPD"
  | .hpush _ => "HPUSH"
  | .csym _ => "CSYM"
  | .dsym => "DSYM"
  | .compress => "COMPRESS"
  | .decompress => "DECOMPRESS"

end Sys2Proof
end

