-- ==== Sys2Proof/WellFormed.lean ====
section
/-! DEFINITION. Which commands the spec's operand ranges admit (spec/30_encoding.md R113, R114). -/

namespace Sys2Proof

/-- A table selector is legal when it names an order up to MAX_ORDER or is 31, the M1 table (spec/30_encoding.md R113). -/
def tselOk (p : Params) (t : Tsel) : Bool := decide (t.toNat ≤ p.maxOrder) || decide (t = Tsel.m1)

/-- A symbol field is legal when it is at most 257 (spec/30_encoding.md R114). -/
def symOk (s : Sym) : Bool := decide (s.toNat ≤ 257)

/-- A command whose every operand is in the range the spec gives it. -/
def Instr.wellFormed (p : Params) : Instr → Bool
  | .fadd t s => tselOk p t && symOk s
  | .fupd t s => tselOk p t && symOk s
  | .flook t s => tselOk p t && symOk s
  | .enc t s => tselOk p t && symOk s
  | .frecomp t => tselOk p t
  | .dec t => tselOk p t
  | .pget t => tselOk p t
  | .pupd s => symOk s
  | .hpush s => symOk s
  | .csym s => symOk s
  | .srst _ => true
  | .nop => true
  | .cinit => true
  | .fin => true
  | .dprime => true
  | .minit => true
  | .dsym => true
  | .compress => true
  | .decompress => true

end Sys2Proof
end

