-- ==== Sys2Proof/Decode.lean ====
section
/-! DEFINITION. The decoder, total on every 32-bit word, and the encoder (spec/30_encoding.md). -/

namespace Sys2Proof

/-- OPC, bits 31:26 (R110). -/
def opcField (w : Word) : BitVec 6 := w.extractLsb' 26 6

/-- TSEL, bits 25:21 (R110). -/
def tselField (w : Word) : Tsel := w.extractLsb' 21 5

/-- SYM, bits 20:12 (R110). -/
def symField (w : Word) : Sym := w.extractLsb' 12 9

/-- RSV, bits 11:0 (R110). -/
def rsvField (w : Word) : BitVec 12 := w.extractLsb' 0 12

/-- Bits 25:0, which SRST ignores (R111, format X). -/
def ignField (w : Word) : BitVec 26 := w.extractLsb' 0 26

/-- Why a word is illegal: the four cases of R117. -/
inductive Reject where
  /-- R117(a): a reserved opcode. -/
  | reservedOpcode
  /-- R117(b): a field the format leaves unused is not 0. -/
  | unusedField
  /-- R117(c): SYM is 258 or more. -/
  | reservedSym
  /-- R117(d): TSEL is in MAX_ORDER+1..30. -/
  | reservedTsel
  deriving DecidableEq, Repr

/-- TSEL in MAX_ORDER+1..30 (R117(d)). -/
def tselReserved (p : Params) (t : Tsel) : Bool := decide (p.maxOrder < t.toNat) && decide (t.toNat ≤ 30)

/-- SYM of 258 or more (R117(c)). -/
def symReserved (s : Sym) : Bool := decide (258 ≤ s.toNat)

/-- Format N: OPC only (R111). -/
def decodeN (i : Instr) (w : Word) : Except Reject Instr :=
  if tselField w ≠ 0 ∨ symField w ≠ 0 ∨ rsvField w ≠ 0 then .error .unusedField else .ok i

/-- Format T: OPC and TSEL (R111). -/
def decodeT (p : Params) (f : Tsel → Instr) (w : Word) : Except Reject Instr :=
  if symField w ≠ 0 ∨ rsvField w ≠ 0 then .error .unusedField
  else if tselReserved p (tselField w) then .error .reservedTsel
  else .ok (f (tselField w))

/-- Format S: OPC and SYM (R111). -/
def decodeS (f : Sym → Instr) (w : Word) : Except Reject Instr :=
  if tselField w ≠ 0 ∨ rsvField w ≠ 0 then .error .unusedField
  else if symReserved (symField w) then .error .reservedSym
  else .ok (f (symField w))

/-- Format TS: OPC, TSEL and SYM (R111). -/
def decodeTS (p : Params) (f : Tsel → Sym → Instr) (w : Word) : Except Reject Instr :=
  if rsvField w ≠ 0 then .error .unusedField
  else if symReserved (symField w) then .error .reservedSym
  else if tselReserved p (tselField w) then .error .reservedTsel
  else .ok (f (tselField w) (symField w))

/-- The decoder: the row of the opcode map by OPC (R115), then the field checks of R117. -/
def decode (p : Params) (w : Word) : Except Reject Instr :=
  match (opcField w).toNat with
  | 0x00 => decodeN .nop w
  | 0x01 => .ok (.srst (ignField w))
  | 0x08 => decodeTS p .fadd w
  | 0x09 => decodeT p .frecomp w
  | 0x0A => decodeTS p .fupd w
  | 0x0B => decodeTS p .flook w
  | 0x10 => decodeN .cinit w
  | 0x11 => decodeTS p .enc w
  | 0x12 => decodeN .fin w
  | 0x13 => decodeN .dprime w
  | 0x14 => decodeT p .dec w
  | 0x18 => decodeN .minit w
  | 0x19 => decodeT p .pget w
  | 0x1A => decodeS .pupd w
  | 0x1B => decodeS .hpush w
  | 0x20 => decodeS .csym w
  | 0x21 => decodeN .dsym w
  | 0x22 => decodeN .compress w
  | 0x23 => decodeN .decompress w
  | _ => .error .reservedOpcode

/-- A word from its four fields (R110, R116). -/
def packWord (opc : BitVec 6) (t : Tsel) (s : Sym) (rsv : BitVec 12) : Word := opc ++ (t ++ (s ++ rsv))

/-- The encoder: the word of a command (R115, R116). It is also the word a fault inside a driver reports
(spec/44_drivers.md R220). -/
def encode : Instr → Word
  | .nop => packWord 0x00 0 0 0
  | .srst ign => (0x01 : BitVec 6) ++ ign
  | .fadd t s => packWord 0x08 t s 0
  | .frecomp t => packWord 0x09 t 0 0
  | .fupd t s => packWord 0x0A t s 0
  | .flook t s => packWord 0x0B t s 0
  | .cinit => packWord 0x10 0 0 0
  | .enc t s => packWord 0x11 t s 0
  | .fin => packWord 0x12 0 0 0
  | .dprime => packWord 0x13 0 0 0
  | .dec t => packWord 0x14 t 0 0
  | .minit => packWord 0x18 0 0 0
  | .pget t => packWord 0x19 t 0 0
  | .pupd s => packWord 0x1A 0 s 0
  | .hpush s => packWord 0x1B 0 s 0
  | .csym s => packWord 0x20 0 s 0
  | .dsym => packWord 0x21 0 0 0
  | .compress => packWord 0x22 0 0 0
  | .decompress => packWord 0x23 0 0 0

/-- The opcode map of R115, row by row, with its match and mask words. -/
def opcodeMap : List OpcodeRow :=
  [⟨"NOP", 0x00000000, 0xFFFFFFFF⟩, ⟨"SRST", 0x04000000, 0xFC000000⟩, ⟨"FADD", 0x20000000, 0xFC000FFF⟩,
   ⟨"FRECOMP", 0x24000000, 0xFC1FFFFF⟩, ⟨"FUPD", 0x28000000, 0xFC000FFF⟩, ⟨"FLOOK", 0x2C000000, 0xFC000FFF⟩,
   ⟨"CINIT", 0x40000000, 0xFFFFFFFF⟩, ⟨"ENC", 0x44000000, 0xFC000FFF⟩, ⟨"FIN", 0x48000000, 0xFFFFFFFF⟩,
   ⟨"DPRIME", 0x4C000000, 0xFFFFFFFF⟩, ⟨"DEC", 0x50000000, 0xFC1FFFFF⟩, ⟨"MINIT", 0x60000000, 0xFFFFFFFF⟩,
   ⟨"PGET", 0x64000000, 0xFC1FFFFF⟩, ⟨"PUPD", 0x68000000, 0xFFE00FFF⟩, ⟨"HPUSH", 0x6C000000, 0xFFE00FFF⟩,
   ⟨"CSYM", 0x80000000, 0xFFE00FFF⟩, ⟨"DSYM", 0x84000000, 0xFFFFFFFF⟩, ⟨"COMPRESS", 0x88000000, 0xFFFFFFFF⟩,
   ⟨"DECOMPRESS", 0x8C000000, 0xFFFFFFFF⟩]

/-- The word belongs to the row (R115). -/
def OpcodeRow.selects (r : OpcodeRow) (w : Word) : Prop := w &&& r.mask = r.bits

/-- What the decoder reads from the table word `w` at the default parameters. A command is one 32-bit word (R110), so `nbits`
does not matter and a number of more than 32 bits is no command. -/
def decodeTableWord (_nbits w : Nat) : Option Instr :=
  if w ≤ wordMax then
    match decode Params.default (BitVec.ofNat 32 w) with
    | .ok i => some i
    | .error _ => none
  else none

end Sys2Proof
end

