-- ==== Sys2Proof/Machine/State.lean ====
section
/-! DEFINITION. The state of the block as plain data (spec/10_state.md), the reasons a step can stop, and the state after reset. -/

namespace Sys2Proof.Machine

/-- The block's fault codes (spec/60_exceptions.md R260). Raising one is fault entry, a next state, not a stop of the model. -/
inductive FaultCode where
  | illegalCmd
  | badConfig
  | badTsel
  | badSymbol
  | readOnlyTable
  | staleTable
  | symbolAbsent
  | zeroTotal
  | streamCorrupt
  | intervalCollapse
  | countOverflow
  | pendingOverflow
  | ctxFull
  | orderM1Decode
  | hostProtocol
  deriving DecidableEq, Repr

/-- What the model stops on with a fault. Both are stuck states that no run from reset reaches, and stopping is safe. -/
inductive Fault where
  /-- Raised by ENC, DEC and the drivers: the renormalization loop of spec/42_arithmetic_coder.md R162, R166 has not ended after
  `P_ACT` passes, which R165 excludes for `LOW ≤ HIGH ≤ TOP`. Safe (log 10). -/
  | renormDiverges
  /-- Raised by CSYM, DSYM, COMPRESS and DECOMPRESS: SEQ holds the loop state of another command
  (spec/10_state.md R31). Safe (log 11). -/
  | loopMismatch
  deriving DecidableEq, Repr

/-- What the model gives no meaning. -/
inductive Refusal where
  /-- An instruction that has no meaning yet; raised by no arm of this model. Safe. -/
  | notModelled (mnemonic : String)
  /-- A host access of a width other than 32 bits (spec/20_memory.md R81). Safe. -/
  | accessWidth
  /-- A host access at an offset that is no multiple of 4 (spec/20_memory.md R81). Safe. -/
  | misaligned
  /-- A host access beyond offset 0xFC, which is no register of the window (spec/20_memory.md R80, R81; log 16). Safe. -/
  | outsideWindow
  deriving DecidableEq, Repr

/-- One symbol of a table: its count and its cumulative range `[rlo, rhi)` (spec/10_state.md R40). -/
structure Entry where
  sym : Sym
  cnt : Word
  rlo : Word
  rhi : Word
  deriving DecidableEq, Repr

/-- A frequency table (spec/10_state.md R40): `alpha` in first-insertion order, `total`, and the flags `stale` and `ro`. -/
structure Table where
  alpha : List Entry
  total : Word
  stale : Bool
  ro : Bool
  deriving DecidableEq, Repr

/-- The context store: contexts with their tables, contexts strictly rising (spec/10_state.md R42; log 19). -/
abbrev Store := List (Context × Table)

/-- ROOT_SEED (spec/10_state.md R44): ESC, then EOF. -/
def Table.rootSeed : Table where
  alpha := [⟨Sym.esc, 1, 0, 1⟩, ⟨Sym.eof, 1, 1, 2⟩]
  total := 2
  stale := false
  ro := false

/-- RES_RLOW, RES_RHIGH, RES_TOTAL and RES_COUNT (spec/10_state.md R48); also the four values of a table that a driver keeps
for its last step. -/
structure ResRegs where
  rlow : Word
  rhigh : Word
  total : Word
  count : Word
  deriving DecidableEq, Repr

/-- The phases of CSYM and DSYM after step 0, with what each still needs (spec/44_drivers.md R221, R222; log 20). -/
inductive Phase where
  /-- Step DESC at the current order `o`. -/
  | desc (o : Tsel)
  /-- Step FALL, the order below 0. -/
  | fall
  /-- Step UPD for the symbol `x`, `tl` its values in the last table coded. -/
  | upd (x : Sym) (tl : ResRegs)
  /-- Step PUSH. -/
  | push (x : Sym) (tl : ResRegs)
  /-- Step DONE. -/
  | done (x : Sym) (tl : ResRegs)
  deriving DecidableEq, Repr

/-- The loop state of CSYM and DSYM: phase, escape count `e`, created flag `cr` (spec/44_drivers.md R221, R222). -/
structure SymLoop where
  phase : Phase
  e : Nat
  cr : Bool
  deriving DecidableEq, Repr

/-- The loop state `k` of `SEQ = Running(w, k)` (spec/10_state.md R31): which primitive step comes next. -/
inductive Loop where
  /-- The first step of any command. -/
  | start
  /-- Inside CSYM or DSYM, after step 0. -/
  | sym (k : SymLoop)
  /-- COMPRESS: MINIT_BODY comes next (spec/44_drivers.md R223). -/
  | cMinit
  /-- COMPRESS: step 0 of the next symbol. -/
  | cNext
  /-- COMPRESS: inside the CSYM of `s`. -/
  | cSym (s : Sym) (k : SymLoop)
  /-- COMPRESS: FIN_BODY comes next. -/
  | cFin
  /-- DECOMPRESS: MINIT_BODY comes next (spec/44_drivers.md R224). -/
  | dMinit
  /-- DECOMPRESS: DPRIME_BODY comes next. -/
  | dPrime
  /-- DECOMPRESS: step 0 of the next DSYM. -/
  | dNext
  /-- DECOMPRESS: inside a DSYM. -/
  | dSym (k : SymLoop)
  /-- DECOMPRESS: the step that empties IN_BITQ. -/
  | dClear
  deriving DecidableEq, Repr

/-- The sequencer state SEQ (spec/10_state.md R31). -/
inductive Seq where
  | idle
  | running (w : Word) (k : Loop)
  deriving DecidableEq, Repr

/-- A host access (spec/20_memory.md R81): byte offset in the window and width in bytes. -/
inductive HostOp where
  | read (off width : Nat)
  | write (off width : Nat) (v : Word)
  deriving DecidableEq, Repr

/-- Whose step comes next in the interleaving (spec/20_memory.md R99; log 1). -/
inductive Turn where
  /-- The core takes a primitive step, if it runs. -/
  | core
  /-- The host performs an access. -/
  | host (op : HostOp)
  /-- The hardware reset input is asserted (spec/70_reset_and_hazards.md R300). -/
  | rst
  deriving DecidableEq, Repr

/-- The state of the machine. The fields up to `faultIp` are the block's own (spec/10_state.md); `params` holds the synthesis
parameters; the last three are the model's. -/
structure State where
  /-- SEQ (R31); STATUS.BUSY is 1 while it is `running`. -/
  seq : Seq
  /-- P_ACT (R32). -/
  pAct : BitVec 6
  /-- LOW (R33). -/
  low : Word
  /-- HIGH (R33). -/
  high : Word
  /-- PENDING (R34). -/
  pending : Word
  /-- CODE (R35). -/
  code : Word
  /-- OUT_BITCNT (R36). -/
  outBitCnt : Word
  /-- IN_BITCNT (R36). -/
  inBitCnt : Word
  /-- CONFIG.ORDER (R37). -/
  cfgOrder : BitVec 6
  /-- CONFIG.PREC (R37). -/
  cfgPrec : BitVec 6
  /-- ORDER_ACT, two's complement (R38). -/
  orderAct : BitVec 6
  /-- HIST, oldest byte first; HLEN is its length (R39). -/
  hist : List Byte
  /-- CTX (R42). -/
  ctx : Store
  /-- IN_BYTEQ (R45). -/
  inByteQ : List Byte
  /-- IN_BITQ (R45). -/
  inBitQ : List Bool
  /-- OUT_BITQ (R45). -/
  outBitQ : List Bool
  /-- OUT_BYTEQ (R45). -/
  outByteQ : List Byte
  /-- STATUS.FAULT and STATUS.FCODE (R46): `none` is FAULT = 0. -/
  fault : Option FaultCode
  /-- RESULT (R47). -/
  result : Word
  /-- RES_RLOW, RES_RHIGH, RES_TOTAL, RES_COUNT (R48). -/
  res : ResRegs
  /-- FAULT_INFO (R49). -/
  faultInfo : Word
  /-- IRQ_EN.DONE_IE (R50). -/
  doneIe : Bool
  /-- IRQ_EN.FAULT_IE (R50). -/
  faultIe : Bool
  /-- IRQ_PEND.DONE_IP (R50). -/
  doneIp : Bool
  /-- IRQ_PEND.FAULT_IP (R50). -/
  faultIp : Bool
  /-- The synthesis parameters, fixed for a machine (spec/00_scope.md R6; log 3). -/
  params : Params
  /-- The model's own: the turns still to come, the next one first; none left is the core's turn (log 1). -/
  agenda : List Turn
  /-- The model's own: what the host's last read returned (log 17). -/
  rdata : Word
  /-- The model's own: how many free values have been drawn (log 5, log 6). -/
  draws : Nat
  deriving DecidableEq, Repr

/-- The state after reset of a machine with the synthesis parameters `p` (spec/10_state.md R56). -/
def State.resetWith (p : Params) : State where
  seq := .idle
  pAct := 32
  low := 0
  high := 0xFFFFFFFF
  pending := 0
  code := 0
  outBitCnt := 0
  inBitCnt := 0
  cfgOrder := 2
  cfgPrec := 32
  orderAct := 2
  hist := []
  ctx := [([], Table.rootSeed)]
  inByteQ := []
  inBitQ := []
  outBitQ := []
  outByteQ := []
  fault := none
  result := 0
  res := ⟨0, 0, 0, 0⟩
  faultInfo := 0
  doneIe := false
  faultIe := false
  doneIp := false
  faultIp := false
  params := p
  agenda := []
  rdata := 0
  draws := 0

/-- The state after reset at the parameters' defaults (spec/10_state.md R56, spec/92_eei_decisions.md; log 3). -/
def State.reset : State := State.resetWith Params.default

end Sys2Proof.Machine
end

