-- ==== Sys2Proof/Machine/Ops.lean ====
section
/-! DEFINITION. The operations the commands share: fault entry and reset, tables, the context store, the coder's narrowing and
renormalization, and the bit streams. -/

namespace Sys2Proof.Machine

/-! ### Ends of a primitive step -/

/-- A fault raised by a rule: its code and what goes to FAULT_INFO (spec/60_exceptions.md R261). -/
structure Raise where
  code : FaultCode
  info : Word
  deriving DecidableEq, Repr

/-- How the pseudocode of one primitive step ends (spec/60_exceptions.md R261, R266). -/
inductive Body (α : Type) where
  /-- It ran through, with a new state and a value for its caller. -/
  | ok (s : State) (a : α)
  /-- It raised a fault, and its effects are discarded. -/
  | raise (r : Raise)
  /-- It raised PENDING_OVERFLOW inside RENORM_ENC, and the effects in `s` are kept. -/
  | raiseKeeping (r : Raise) (s : State)
  /-- The model stops. -/
  | stuck (f : Fault)

/-- Fault entry (spec/60_exceptions.md R262): taking a fault, the block's one exception. -/
def faultEntry (r : Raise) (s : State) : State :=
  { s with fault := some r.code, faultInfo := r.info, faultIp := true, seq := .idle }

/-- Reset, by RST or SRST: every element takes its reset value (spec/10_state.md R56, spec/70_reset_and_hazards.md R300). It is
the only way out of the fault state (spec/60_exceptions.md R267). The parameters and the model's own fields are no state of
the block and stay. -/
def softReset (s : State) : State :=
  { State.resetWith s.params with agenda := s.agenda, rdata := s.rdata, draws := s.draws }

/-- Completion (spec/60_exceptions.md R269). -/
def complete (s : State) : State := { s with seq := .idle, doneIp := true }

/-- The next primitive step of the command `w` is `k` (spec/10_state.md R31). -/
def goto (w : Word) (k : Loop) (s : State) : State := { s with seq := .running w k }

/-- The loop state in SEQ; a command that SEQ does not hold is at its first step (spec/10_state.md R31). -/
def loopOf (s : State) : Loop :=
  match s.seq with
  | .idle => .start
  | .running _ k => k

/-- Ends the primitive step that began in `s₀`: `cont` says what a step that ran through does next, and a raised fault is entered
from `s₀` (spec/60_exceptions.md R261, R266). -/
def Body.finish {α : Type} (s₀ : State) (cont : State → α → State) : Body α → Host.Outcome State Fault Refusal
  | .ok s a => .next (cont s a)
  | .raise r => .next (faultEntry r s₀)
  | .raiseKeeping r s => .next (faultEntry r s)
  | .stuck f => .fault f

/-- Ends a single-step command (spec/60_exceptions.md R268, R269). -/
def Body.single {α : Type} (s₀ : State) (b : Body α) : Host.Outcome State Fault Refusal :=
  b.finish s₀ fun s _ => complete s

/-! ### Sequences -/

/-- `last(s, k)`, the suffix of length `k` (spec/00_scope.md R11). -/
def last {α : Type} (l : List α) (k : Nat) : List α := l.drop (l.length - k)

/-! ### Frequency tables -/

/-- CTX_SEED (spec/10_state.md R44): ESC only. -/
def Table.ctxSeed : Table where
  alpha := [⟨Sym.esc, 1, 0, 1⟩]
  total := 1
  stale := false
  ro := false

/-- The constant table M1 (spec/10_state.md R43). -/
def Table.m1 : Table where
  alpha := (List.range 256).map fun b => ⟨BitVec.ofNat 9 b, 1, BitVec.ofNat 32 b, BitVec.ofNat 32 (b + 1)⟩
  total := 256
  stale := false
  ro := true

/-- The entry of a symbol, if it is in the alphabet. -/
def Table.entry? (T : Table) (x : Sym) : Option Entry := T.alpha.find? fun e => decide (e.sym = x)

/-- The sum of the counts, an exact integer (spec/00_scope.md R9). -/
def cntSum (es : List Entry) : Nat := (es.map fun e => e.cnt.toNat).sum

/-- Adding 1 would take the count sum past `2^32 - 1` (spec/41_frequency_table.md R142, R148). -/
def Table.countFull (T : Table) : Bool := decide (wordMax < cntSum T.alpha + 1)

/-- `add` on counts and alphabet (spec/41_frequency_table.md R142): a symbol present is counted, a new one goes to the end. The
range of a new entry is overwritten by both callers. -/
def bump (x : Sym) : List Entry → List Entry
  | [] => [⟨x, 1, 0, 0⟩]
  | e :: es => if e.sym = x then { e with cnt := e.cnt + 1 } :: es else e :: bump x es

/-- The ranges in alphabet order, starting at `acc` (spec/41_frequency_table.md R143). -/
def layout : Nat → List Entry → List Entry
  | _, [] => []
  | acc, e :: es =>
    { e with rlo := BitVec.ofNat 32 acc, rhi := BitVec.ofNat 32 (acc + e.cnt.toNat) } :: layout (acc + e.cnt.toNat) es

/-- `recomputeRanges` (spec/41_frequency_table.md R143). -/
def Table.recompute (T : Table) : Table :=
  { T with alpha := layout 0 T.alpha, total := BitVec.ofNat 32 (cntSum T.alpha), stale := false }

/-- The unspecified ranges of a stale table: free values, two cells per entry from cell `i` on (spec/10_state.md R41; log 6). -/
def freeLayout (n : Nat) : Nat → List Entry → List Entry
  | _, [] => []
  | i, e :: es => { e with rlo := Config.freeRange n i, rhi := Config.freeRange n (i + 1) } :: freeLayout n (i + 2) es

/-- The lazy `add` of FADD: the table is stale, and its ranges and total are the `n`-th free values
(spec/41_frequency_table.md R141, R142; log 6). -/
def Table.lazyAdd (n : Nat) (x : Sym) (T : Table) : Table :=
  { T with alpha := freeLayout n 1 (bump x T.alpha), total := Config.freeRange n 0, stale := true }

/-- `updateFreqs`: `add`, then `recomputeRanges` (spec/41_frequency_table.md R144). -/
def Table.eagerAdd (x : Sym) (T : Table) : Table := Table.recompute { T with alpha := bump x T.alpha }

/-- The range, total and count that RES_* report of an entry (spec/42_arithmetic_coder.md R171). -/
def Table.values (T : Table) (e : Entry) : ResRegs := ⟨e.rlo, e.rhi, T.total, e.cnt⟩

/-! ### The context store -/

/-- The order of the store's keys, lexicographic; it only fixes one list for each map (log 19). -/
def ctxLt : Context → Context → Bool
  | [], [] => false
  | [], _ :: _ => true
  | _ :: _, [] => false
  | a :: as, b :: bs => decide (a.toNat < b.toNat) || (decide (a = b) && ctxLt as bs)

/-- The canonical form of a store: keys strictly rising, so a key occurs once (log 19). -/
abbrev Store.wf (m : Store) : Prop := m.Pairwise fun a b => ctxLt a.1 b.1 = true

/-- `CTX[k]`, if `k` is in CTX. -/
def Store.get (k : Context) : Store → Option Table
  | [] => none
  | (k', T) :: m => if k' = k then some T else Store.get k m

/-- `CTX[k] <- T`. -/
def Store.put (k : Context) (T : Table) : Store → Store
  | [] => [(k, T)]
  | (k', T') :: m =>
    if k' = k then (k, T) :: m
    else if ctxLt k k' then (k, T) :: (k', T') :: m
    else (k', T') :: Store.put k T m

/-- The seed of a context's table (spec/43_ppm_context_model.md R201). -/
def seedFor (k : Context) : Table := if k = [] then Table.rootSeed else Table.ctxSeed

/-! ### The coder -/

/-- HALF (spec/00_scope.md R7). -/
def half (P : Nat) : Nat := 2 ^ (P - 1)

/-- QUARTER (spec/00_scope.md R7). -/
def quarter (P : Nat) : Nat := 2 ^ (P - 2)

/-- THREEQ (spec/00_scope.md R7). -/
def threeq (P : Nat) : Nat := 3 * quarter P

/-- TOP (spec/00_scope.md R7). -/
def top (P : Nat) : Nat := 2 ^ P - 1

/-- NARROW (spec/42_arithmetic_coder.md R161): the new LOW and HIGH, or none where the interval would be empty. The second line
is `nh + 1`, so that `nl > nh` reads without a negative number (log 15). -/
def narrow (low high rlo rhi total : Nat) : Option (Nat × Nat) :=
  let width := high + 1 - low
  let nhSucc := low + width * rhi / total
  let nl := low + width * rlo / total
  if nhSucc ≤ nl then none else some (nl, nhSucc - 1)

/-- The three renormalization cases (spec/42_arithmetic_coder.md R162). -/
inductive RenormCase where
  | e1
  | e2
  | e3
  deriving DecidableEq, Repr

/-- The case that holds, tested in the order E1, E2, E3 (spec/42_arithmetic_coder.md R162, R166). -/
def renormCase (P low high : Nat) : Option RenormCase :=
  if high < half P then some .e1
  else if half P ≤ low then some .e2
  else if quarter P ≤ low ∧ high < threeq P then some .e3
  else none

/-- What a case subtracts from the interval before the shift (spec/42_arithmetic_coder.md R162, R166). -/
def RenormCase.offset (P : Nat) : RenormCase → Nat
  | .e1 => 0
  | .e2 => half P
  | .e3 => quarter P

/-- The encoder's registers during renormalization, and the bits emitted so far. -/
structure EncRegs where
  low : Nat
  high : Nat
  pending : Nat
  out : List Bool
  deriving DecidableEq, Repr

/-- One pass of RENORM_ENC (spec/42_arithmetic_coder.md R162). -/
def encPass (P : Nat) (c : RenormCase) (r : EncRegs) : EncRegs where
  low := 2 * (r.low - c.offset P)
  high := 2 * (r.high - c.offset P) + 1
  pending := match c with
    | .e1 => 0
    | .e2 => 0
    | .e3 => r.pending + 1
  out := match c with
    | .e1 => r.out ++ false :: List.replicate r.pending true
    | .e2 => r.out ++ true :: List.replicate r.pending false
    | .e3 => r.out

/-- How RENORM_ENC ends. -/
inductive EncEnd where
  /-- No case holds any more. -/
  | settled (r : EncRegs)
  /-- An E3 found PENDING at `2^32 - 1`; the registers are those before it. -/
  | overflow (r : EncRegs)
  /-- The passes are used up (log 10). -/
  | diverges
  deriving DecidableEq, Repr

/-- RENORM_ENC with at most `n` passes (spec/42_arithmetic_coder.md R162, R165). -/
def renormEnc (P : Nat) : Nat → EncRegs → EncEnd
  | 0, r =>
    match renormCase P r.low r.high with
    | none => .settled r
    | some c => if c = .e3 ∧ r.pending = wordMax then .overflow r else .diverges
  | n + 1, r =>
    match renormCase P r.low r.high with
    | none => .settled r
    | some c => if c = .e3 ∧ r.pending = wordMax then .overflow r else renormEnc P n (encPass P c r)

/-- `nextbit()` (spec/42_arithmetic_coder.md R164): the bit and the rest of IN_BITQ; 0 once it is empty. -/
def nextBit : List Bool → Bool × List Bool
  | [] => (false, [])
  | b :: bs => (b, bs)

/-- The decoder's registers during renormalization, and IN_BITQ. -/
structure DecRegs where
  low : Nat
  high : Nat
  code : Nat
  bits : List Bool
  deriving DecidableEq, Repr

/-- One pass of RENORM_DEC, CODE offset with LOW and HIGH (spec/42_arithmetic_coder.md R166). -/
def decPass (P : Nat) (c : RenormCase) (r : DecRegs) : DecRegs where
  low := 2 * (r.low - c.offset P)
  high := 2 * (r.high - c.offset P) + 1
  code := 2 * (r.code - c.offset P) + (nextBit r.bits).1.toNat
  bits := (nextBit r.bits).2

/-- RENORM_DEC with at most `n` passes; none where they are used up (spec/42_arithmetic_coder.md R166; log 10). -/
def renormDec (P : Nat) : Nat → DecRegs → Option DecRegs
  | 0, r => if renormCase P r.low r.high = none then some r else none
  | n + 1, r =>
    match renormCase P r.low r.high with
    | none => some r
    | some c => renormDec P n (decPass P c r)

/-- The `value` of DEC, floor toward minus infinity (spec/42_arithmetic_coder.md R174, spec/92_eei_decisions.md D39). -/
def decValue (low high code total : Nat) : Int :=
  Int.fdiv (((code : Int) - low + 1) * total - 1) ((high : Int) - low + 1)

/-- The first symbol in alphabet order whose range holds the value (spec/42_arithmetic_coder.md R174). -/
def Table.symbolAt (T : Table) (value : Int) : Option Entry :=
  T.alpha.find? fun e => decide ((e.rlo.toNat : Int) ≤ value) && decide (value < (e.rhi.toNat : Int))

/-- `emit`, once for each bit (spec/42_arithmetic_coder.md R163). -/
def emitBits (bs : List Bool) (s : State) : State :=
  { s with outBitQ := s.outBitQ ++ bs, outBitCnt := s.outBitCnt + BitVec.ofNat 32 bs.length }

/-- IN_BITQ after `nextbit()` has taken bits down to `rest`, and IN_BITCNT with the bits really taken
(spec/42_arithmetic_coder.md R164, spec/10_state.md R36). -/
def consumeTo (rest : List Bool) (s : State) : State :=
  { s with inBitQ := rest, inBitCnt := s.inBitCnt + BitVec.ofNat 32 (s.inBitQ.length - rest.length) }

/-- `n` times `v <- 2 * v + nextbit()` (spec/42_arithmetic_coder.md R173). -/
def takeBits : Nat → Nat → List Bool → Nat × List Bool
  | 0, v, bs => (v, bs)
  | n + 1, v, bs => takeBits n (2 * v + (nextBit bs).1.toNat) (nextBit bs).2

end Sys2Proof.Machine
end

