-- ==== Sys2Proof/Machine/Flags.lean ====
section
/-! DEFINITION. The register words software reads: STATUS, RESULT, the interrupt output and the views of the model state. -/

namespace Sys2Proof.Machine

/-- FCODE (spec/60_exceptions.md R260). -/
def FaultCode.toByte : FaultCode → Byte
  | .illegalCmd => 0x01
  | .badConfig => 0x02
  | .badTsel => 0x03
  | .badSymbol => 0x04
  | .readOnlyTable => 0x05
  | .staleTable => 0x06
  | .symbolAbsent => 0x07
  | .zeroTotal => 0x08
  | .streamCorrupt => 0x09
  | .intervalCollapse => 0x0A
  | .countOverflow => 0x0B
  | .pendingOverflow => 0x0C
  | .ctxFull => 0x0D
  | .orderM1Decode => 0x0E
  | .hostProtocol => 0x0F

/-- STATUS.BUSY: SEQ is Running (spec/10_state.md R46). -/
def State.busy (s : State) : Bool :=
  match s.seq with
  | .idle => false
  | .running _ _ => true

/-- The interrupt output (spec/60_exceptions.md R270). -/
def State.irq (s : State) : Bool := (s.doneIp && s.doneIe) || (s.faultIp && s.faultIe)

/-- STATUS.FCODE: 0 while FAULT = 0 (spec/10_state.md R46). -/
def State.fcode (s : State) : Byte :=
  match s.fault with
  | none => 0
  | some c => c.toByte

/-- STATUS: FCODE at 15:8, IRQ at 2, FAULT at 1, BUSY at 0 (spec/10_state.md R46). -/
def State.statusWord (s : State) : Word :=
  (0 : BitVec 16) ++ (s.fcode ++ ((0 : BitVec 5) ++ (BitVec.ofBool s.irq ++ (BitVec.ofBool s.fault.isSome ++ BitVec.ofBool s.busy))))

/-- The fields of RESULT; a field a rule does not name is 0 (spec/10_state.md R47). -/
structure ResultFields where
  sym : Sym := 0
  valid : Bool := false
  present : Bool := false
  created : Bool := false
  eof : Bool := false
  stale : Bool := false
  escapes : BitVec 5 := 0
  deriving DecidableEq, Repr

/-- RESULT as a word (spec/10_state.md R47). -/
def ResultFields.toWord (f : ResultFields) : Word :=
  (0 : BitVec 11) ++ (f.escapes ++ ((0 : BitVec 2) ++ (BitVec.ofBool f.stale ++ (BitVec.ofBool f.eof ++
    (BitVec.ofBool f.created ++ (BitVec.ofBool f.present ++ (BitVec.ofBool f.valid ++ f.sym)))))))

/-- Writes RESULT and the four RES registers (spec/10_state.md R47, R48). -/
def setResult (f : ResultFields) (r : ResRegs) (s : State) : State := { s with result := f.toWord, res := r }

/-- CONFIG (spec/10_state.md R37). -/
def State.configWord (s : State) : Word := (0 : BitVec 18) ++ (s.cfgPrec ++ ((0 : BitVec 2) ++ s.cfgOrder))

/-- ACTIVE (spec/10_state.md R51). -/
def State.activeWord (s : State) : Word :=
  (0 : BitVec 11) ++ (BitVec.ofNat 5 s.hist.length ++ ((0 : BitVec 2) ++ (s.pAct ++ ((0 : BitVec 2) ++ s.orderAct))))

/-- IRQ_EN (spec/10_state.md R50). -/
def State.irqEnWord (s : State) : Word := (0 : BitVec 30) ++ (BitVec.ofBool s.faultIe ++ BitVec.ofBool s.doneIe)

/-- IRQ_PEND (spec/10_state.md R50). -/
def State.irqPendWord (s : State) : Word := (0 : BitVec 30) ++ (BitVec.ofBool s.faultIp ++ BitVec.ofBool s.doneIp)

/-- A queue level, saturating (spec/20_memory.md R91). -/
def levelWord (n : Nat) : Word := BitVec.ofNat 32 (min n wordMax)

/-- CTX_COUNT: the number of contexts (spec/10_state.md R52); a number that does not fit 32 bits shows as a free value (log 8). -/
def ctxCountWord (n : Nat) : Word := if n ≤ wordMax then BitVec.ofNat 32 n else Config.freeCount n

/-- PARAMS: MAX_ORDER at 4:0, P_MAX = 32 at 13:8 (spec/10_state.md R53). -/
def paramsWord (p : Params) : Word := (0 : BitVec 18) ++ ((32 : BitVec 6) ++ ((0 : BitVec 3) ++ BitVec.ofNat 5 p.maxOrder))

/-- CTX_CAP (spec/10_state.md R53). -/
def ctxCapWord (p : Params) : Word :=
  match p.ctxCapacity with
  | none => 0xFFFFFFFF
  | some c => levelWord c

/-- `HIST[i]`: the byte, or 0 from HLEN on (spec/10_state.md R52). -/
def histWord (i : Nat) (s : State) : Word :=
  match s.hist[i]? with
  | none => 0
  | some b => b.setWidth 32

/-- The byte lane `k` of a register word: bits `[8k+7:8k]` (spec/20_memory.md R82). -/
def byteLane (v : Word) (k : Nat) : Byte := v.extractLsb' (8 * k) 8

end Sys2Proof.Machine
end

