-- ==== Sys2Proof/Machine/Operands.lean ====
section
/-! DEFINITION. The two operand forms: a table by its selector (SELECT) and a symbol. -/

namespace Sys2Proof.Machine

/-- The symbol is a byte (spec/30_encoding.md R114). -/
def isByte (s : Sym) : Bool := decide (s.toNat ≤ 255)

/-- The byte of a byte symbol. -/
def byteOf (s : Sym) : Byte := s.setWidth 8

/-- The symbol of a byte. -/
def symOf (b : Byte) : Sym := b.setWidth 9

/-- A 6-bit order field, sign-extended (spec/00_scope.md R10). -/
abbrev orderVal (v : BitVec 6) : Int := v.toInt

/-- What SELECT gives (spec/43_ppm_context_model.md R201). -/
structure Selection where
  /-- The table `T`. -/
  tab : Table
  /-- Where it stands in CTX; none for M1. -/
  key : Option Context
  /-- CTX, the table in it. -/
  ctx : Store
  /-- The flag `c`: the table was just created. -/
  created : Bool
  deriving DecidableEq, Repr

/-- `CTX_COUNT == CTX_CAPACITY`, for a bounded store (spec/43_ppm_context_model.md R201). -/
def ctxFullAt (p : Params) (n : Nat) : Bool := decide (p.ctxCapacity = some n)

/-- SELECT(t), `w` the word its faults report (spec/43_ppm_context_model.md R201). -/
def select (w : Word) (t : Tsel) (s : State) : Except Raise Selection :=
  if t = Tsel.m1 then .ok ⟨Table.m1, none, s.ctx, false⟩
  else if s.hist.length < t.toNat then .error ⟨.badTsel, w⟩
  else
    let k := last s.hist t.toNat
    match s.ctx.get k with
    | some T => .ok ⟨T, some k, s.ctx, false⟩
    | none =>
      if ctxFullAt s.params s.ctx.length then .error ⟨.ctxFull, w⟩
      else .ok ⟨seedFor k, some k, s.ctx.put k (seedFor k), true⟩

/-- CTX once the selected table has become `T` (spec/41_frequency_table.md R142 to R144). M1 is no entry of CTX. -/
def Selection.update (sel : Selection) (T : Table) : Store :=
  match sel.key with
  | none => sel.ctx
  | some k => sel.ctx.put k T

end Sys2Proof.Machine
end

