-- ==== Sys2Proof/Machine/Coder.lean ====
section
/-! DEFINITION. The coder commands CINIT, ENC, FIN, DPRIME and DEC, and their bodies (spec/42_arithmetic_coder.md). -/

namespace Sys2Proof.Machine

/-- What a coder body hands to its caller: RES_* of the symbol coded, the symbol, and the created flag
(spec/44_drivers.md R220). -/
structure Coded where
  sym : Sym
  regs : ResRegs
  created : Bool
  deriving DecidableEq, Repr

/-- CINIT's pseudocode (R170). -/
def cinitBody (s : State) : Body Unit :=
  if s.cfgPrec.toNat < 2 ∨ 32 < s.cfgPrec.toNat then .raise ⟨.badConfig, encode .cinit⟩
  else
    .ok { s with
      pAct := s.cfgPrec
      low := 0
      high := BitVec.ofNat 32 (top s.cfgPrec.toNat)
      pending := 0
      code := 0
      outBitCnt := 0
      inBitCnt := 0 } ()

/-- The encoder's registers written back, and the bits emitted (R162, R163). -/
def storeEnc (r : EncRegs) (s : State) : State :=
  emitBits r.out
    { s with low := BitVec.ofNat 32 r.low, high := BitVec.ofNat 32 r.high, pending := BitVec.ofNat 32 r.pending }

/-- ENC on a selected table, up to and including RENORM_ENC; `w` is the word its faults report (R171). PENDING_OVERFLOW keeps
LOW, HIGH, PENDING and the bits, and no table (spec/60_exceptions.md R266; log 9). -/
def encWith (w : Word) (sel : Selection) (x : Sym) (s : State) : Body Coded :=
  if sel.tab.stale then .raise ⟨.staleTable, w⟩
  else if sel.tab.total = 0 then .raise ⟨.zeroTotal, w⟩
  else
    match sel.tab.entry? x with
    | none => .raise ⟨.symbolAbsent, w⟩
    | some e =>
      match narrow s.low.toNat s.high.toNat e.rlo.toNat e.rhi.toNat sel.tab.total.toNat with
      | none => .raise ⟨.intervalCollapse, w⟩
      | some (nl, nh) =>
        match renormEnc s.pAct.toNat s.pAct.toNat ⟨nl, nh, s.pending.toNat, []⟩ with
        | .settled r => .ok (storeEnc r { s with ctx := sel.ctx }) ⟨x, sel.tab.values e, sel.created⟩
        | .overflow r => .raiseKeeping ⟨.pendingOverflow, w⟩ (storeEnc r s)
        | .diverges => .stuck .renormDiverges

/-- ENC_BODY(t, s) (R171, spec/44_drivers.md R220). -/
def encBody (t : Tsel) (x : Sym) (s : State) : Body Coded :=
  match select (encode (.enc t x)) t s with
  | .error r => .raise r
  | .ok sel => encWith (encode (.enc t x)) sel x s

/-- FIN's pseudocode (R172). -/
def finBody (s : State) : Body Unit :=
  if s.pending.toNat = wordMax then .raise ⟨.pendingOverflow, encode .fin⟩
  else
    let b := decide (quarter s.pAct.toNat ≤ s.low.toNat)
    .ok (emitBits (b :: List.replicate (s.pending.toNat + 1) (!b)) { s with pending := 0 }) ()

/-- DPRIME's pseudocode (R173). -/
def dprimeBody (s : State) : Body Unit :=
  let p := takeBits s.pAct.toNat 0 s.inBitQ
  .ok (consumeTo p.2 { s with code := BitVec.ofNat 32 p.1 }) ()

/-- The decoder's registers written back, and the bits taken (R164, R166). -/
def storeDec (r : DecRegs) (s : State) : State :=
  consumeTo r.bits
    { s with low := BitVec.ofNat 32 r.low, high := BitVec.ofNat 32 r.high, code := BitVec.ofNat 32 r.code }

/-- DEC on a selected table, up to and including RENORM_DEC; `w` is the word its faults report (R174). An interval with
`LOW > HIGH` holds no CODE, so it raises STREAM_CORRUPT (log 14). -/
def decWith (w : Word) (sel : Selection) (s : State) : Body Coded :=
  if sel.tab.stale then .raise ⟨.staleTable, w⟩
  else if sel.tab.total = 0 then .raise ⟨.zeroTotal, w⟩
  else if s.high.toNat < s.low.toNat then .raise ⟨.streamCorrupt, w⟩
  else
    match sel.tab.symbolAt (decValue s.low.toNat s.high.toNat s.code.toNat sel.tab.total.toNat) with
    | none => .raise ⟨.streamCorrupt, w⟩
    | some e =>
      match narrow s.low.toNat s.high.toNat e.rlo.toNat e.rhi.toNat sel.tab.total.toNat with
      | none => .raise ⟨.intervalCollapse, w⟩
      | some (nl, nh) =>
        match renormDec s.pAct.toNat s.pAct.toNat ⟨nl, nh, s.code.toNat, s.inBitQ⟩ with
        | some r => .ok (storeDec r { s with ctx := sel.ctx }) ⟨e.sym, sel.tab.values e, sel.created⟩
        | none => .stuck .renormDiverges

/-- DEC_BODY(t) (R174, spec/44_drivers.md R220). -/
def decBody (t : Tsel) (s : State) : Body Coded :=
  match select (encode (.dec t)) t s with
  | .error r => .raise r
  | .ok sel => decWith (encode (.dec t)) sel s

/-- RESULT and RES_* of ENC and DEC: SYM, VALID, CREATED (R171, R174). -/
def codedResult (s : State) (c : Coded) : State :=
  complete (setResult { sym := c.sym, valid := true, created := c.created } c.regs s)

/-- CINIT (R170). -/
def execCinit (s : State) : Host.Outcome State Fault Refusal := (cinitBody s).single s

/-- ENC (R171). -/
def execEnc (t : Tsel) (x : Sym) (s : State) : Host.Outcome State Fault Refusal := (encBody t x s).finish s codedResult

/-- FIN (R172). -/
def execFin (s : State) : Host.Outcome State Fault Refusal := (finBody s).single s

/-- DPRIME (R173). -/
def execDprime (s : State) : Host.Outcome State Fault Refusal := (dprimeBody s).single s

/-- DEC (R174). -/
def execDec (t : Tsel) (s : State) : Host.Outcome State Fault Refusal := (decBody t s).finish s codedResult

end Sys2Proof.Machine
end

