-- ==== Sys2Proof/Machine/Model.lean ====
section
/-! DEFINITION. The context model commands MINIT, PGET, HPUSH and PUPD, and their bodies (spec/43_ppm_context_model.md). -/

namespace Sys2Proof.Machine

/-- MINIT's pseudocode (R200). -/
def minitBody (s : State) : Body Unit :=
  let o := orderVal s.cfgOrder
  if o < -1 ∨ (s.params.maxOrder : Int) < o then .raise ⟨.badConfig, encode .minit⟩
  else .ok { s with orderAct := s.cfgOrder, ctx := [([], Table.rootSeed)], hist := [] } ()

/-- PGET's pseudocode (R202). -/
def pgetBody (t : Tsel) (s : State) : Body Unit :=
  match select (encode (.pget t)) t s with
  | .error r => .raise r
  | .ok sel =>
    .ok (setResult { created := sel.created, stale := sel.tab.stale }
      ⟨0, 0, if sel.tab.stale then 0 else sel.tab.total, BitVec.ofNat 32 sel.tab.alpha.length⟩ { s with ctx := sel.ctx }) ()

/-- HPUSH's pseudocode (R203). -/
def hpushBody (x : Sym) (s : State) : Body Unit :=
  if isByte x then
    let o := orderVal s.orderAct
    .ok { s with
      hist := if o ≤ 0 then [] else last (s.hist ++ [byteOf x]) (min (s.hist.length + 1) o.toNat) } ()
  else .raise ⟨.badSymbol, encode (.hpush x)⟩

/-- The contexts PUPD updates, longest first (R204). -/
def updKeys (hist : List Byte) (order : Nat) : List Context :=
  (List.range (min hist.length order + 1)).reverse.map fun k => last hist k

/-- The contexts of `ks` that are not in CTX (R204). -/
def newKeys (ks : List Context) (m : Store) : List Context := ks.filter fun k => (m.get k).isNone

/-- `CTX_COUNT + new > CTX_CAPACITY` (R204). -/
def ctxOverflows (p : Params) (n : Nat) : Bool :=
  match p.ctxCapacity with
  | none => false
  | some c => decide (c < n)

/-- The table PUPD updates for `k`: the one in CTX or a new CTX_SEED (R204). -/
def updTable (k : Context) (m : Store) : Table := (m.get k).getD Table.ctxSeed

/-- PUPD's last loop: FUPD's table update on each context in turn (R204). -/
def updStore (x : Sym) : List Context → Store → Store
  | [], m => m
  | k :: ks, m => updStore x ks (m.put k ((updTable k m).eagerAdd x))

/-- A count sum in CTX among `ks` would pass `2^32 - 1` (R204). -/
def anyCountFull (ks : List Context) (m : Store) : Bool :=
  ks.any fun k =>
    match m.get k with
    | none => false
    | some T => T.countFull

/-- PUPD's pseudocode; the value is `new`, the number of contexts it created (R204, spec/44_drivers.md R220). -/
def pupdBody (x : Sym) (s : State) : Body Nat :=
  let w := encode (.pupd x)
  if isByte x then
    if orderVal s.orderAct < 0 then .ok s 0
    else
      let ks := updKeys s.hist (orderVal s.orderAct).toNat
      let new := (newKeys ks s.ctx).length
      if ctxOverflows s.params (s.ctx.length + new) then .raise ⟨.ctxFull, w⟩
      else if anyCountFull ks s.ctx then .raise ⟨.countOverflow, w⟩
      else .ok { s with ctx := updStore x ks s.ctx } new
  else .raise ⟨.badSymbol, w⟩

/-- MINIT (R200). -/
def execMinit (s : State) : Host.Outcome State Fault Refusal := (minitBody s).single s

/-- PGET (R202). -/
def execPget (t : Tsel) (s : State) : Host.Outcome State Fault Refusal := (pgetBody t s).single s

/-- HPUSH (R203). -/
def execHpush (x : Sym) (s : State) : Host.Outcome State Fault Refusal := (hpushBody x s).single s

/-- PUPD (R204). -/
def execPupd (x : Sym) (s : State) : Host.Outcome State Fault Refusal := (pupdBody x s).single s

end Sys2Proof.Machine
end

