-- ==== Sys2Proof/Machine/Drivers.lean ====
section
/-! DEFINITION. The drivers CSYM, DSYM, COMPRESS and DECOMPRESS, one primitive step at a time (spec/44_drivers.md). -/

namespace Sys2Proof.Machine

/-- The loop state after step 0: DESC at START, or FALL at order -1 (R221, R222, R225). -/
def symStart (s : State) : SymLoop where
  phase :=
    if orderVal s.orderAct < 0 then .fall
    else .desc (BitVec.ofNat 5 (min s.hist.length (orderVal s.orderAct).toNat))
  e := 0
  cr := false

/-- After an ESC coded at order `o`: one order down, FALL below order 0 (R221, R222). -/
def descend (o : Tsel) (e : Nat) (cr : Bool) : SymLoop where
  phase := if o = 0 then .fall else .desc (o - 1)
  e := e + 1
  cr := cr

/-- After the symbol itself is coded: DONE for EOF, UPD for a byte (R221, R222). -/
def resolved (c : Coded) (e : Nat) (cr : Bool) : SymLoop where
  phase := if c.sym = Sym.eof then .done c.sym c.regs else .upd c.sym c.regs
  e := e
  cr := cr

/-- Passes a body's value on. -/
def Body.map {α β : Type} (f : α → β) : Body α → Body β
  | .ok s a => .ok s (f a)
  | .raise r => .raise r
  | .raiseKeeping r s => .raiseKeeping r s
  | .stuck f => .stuck f

/-- Step UPD (R221, R222). -/
def updStep (x : Sym) (tl : ResRegs) (k : SymLoop) (s : State) : Body (Option SymLoop) :=
  (pupdBody x s).map fun new => some { k with phase := .push x tl, cr := k.cr || decide (0 < new) }

/-- Step PUSH (R221, R222). -/
def pushStep (x : Sym) (tl : ResRegs) (k : SymLoop) (s : State) : Body (Option SymLoop) :=
  (hpushBody x s).map fun _ => some { k with phase := .done x tl }

/-- The RESULT and RES_* writes of step DONE (R221, R222). -/
def symResult (x : Sym) (tl : ResRegs) (k : SymLoop) (s : State) : State :=
  setResult
    { sym := x, valid := true, created := k.cr, eof := decide (x = Sym.eof), escapes := BitVec.ofNat 5 k.e } tl s

/-- Step DESC of CSYM: the symbol where the table has it, else ESC. A CTX_FULL of its SELECT reports `ENC o, ESC`
(R220, R221). -/
def csymDesc (x : Sym) (o : Tsel) (k : SymLoop) (s : State) : Body (Option SymLoop) :=
  match select (encode (.enc o Sym.esc)) o s with
  | .error r => .raise r
  | .ok sel =>
    if (sel.tab.entry? x).isSome then
      (encWith (encode (.enc o x)) sel x s).map fun c => some (resolved c k.e (k.cr || c.created))
    else
      (encWith (encode (.enc o Sym.esc)) sel Sym.esc s).map fun c => some (descend o k.e (k.cr || c.created))

/-- Step FALL of CSYM: EOF in the root, a byte in M1 (R221). -/
def csymFall (x : Sym) (k : SymLoop) (s : State) : Body (Option SymLoop) :=
  (encBody (if x = Sym.eof then 0 else Tsel.m1) x s).map fun c => some (resolved c k.e k.cr)

/-- One primitive step of CSYM after step 0; none once step DONE is through (R221). -/
def csymStep (x : Sym) (k : SymLoop) (s : State) : Body (Option SymLoop) :=
  match k.phase with
  | .desc o => csymDesc x o k s
  | .fall => csymFall x k s
  | .upd y tl => updStep y tl k s
  | .push y tl => pushStep y tl k s
  | .done y tl => .ok (symResult y tl k s) none

/-- Step DESC of DSYM (R222). -/
def dsymDesc (o : Tsel) (k : SymLoop) (s : State) : Body (Option SymLoop) :=
  (decBody o s).map fun c =>
    some (if c.sym = Sym.esc then descend o k.e (k.cr || c.created) else resolved c k.e (k.cr || c.created))

/-- Step FALL of DSYM; at order -1 it raises ORDER_M1_DECODE, reporting `DEC m1` (R220, R222). The next phase is UPD. -/
def dsymFall (k : SymLoop) (s : State) : Body (Option SymLoop) :=
  if orderVal s.orderAct < 0 then .raise ⟨.orderM1Decode, encode (.dec Tsel.m1)⟩
  else (decBody Tsel.m1 s).map fun c => some { k with phase := .upd c.sym c.regs }

/-- The output of step DONE of DSYM: a byte goes to OUT_BYTEQ (R222). -/
def outputByte (x : Sym) (s : State) : State :=
  if x = Sym.eof then s else { s with outByteQ := s.outByteQ ++ [byteOf x] }

/-- One primitive step of DSYM after step 0; none once step DONE is through (R222). -/
def dsymStep (k : SymLoop) (s : State) : Body (Option SymLoop) :=
  match k.phase with
  | .desc o => dsymDesc o k s
  | .fall => dsymFall k s
  | .upd x tl => updStep x tl k s
  | .push x tl => pushStep x tl k s
  | .done x tl => .ok (symResult x tl k (outputByte x s)) none

/-- The symbol a loop state is about to finish with, in step DONE. -/
def doneSym (k : SymLoop) : Option Sym :=
  match k.phase with
  | .done x _ => some x
  | .desc _ => none
  | .fall => none
  | .upd _ _ => none
  | .push _ _ => none

/-- Goes on inside a command: to `more k` while its symbol is not done, else to `fin`. -/
def continueSym (more : SymLoop → State → State) (fin : State → State) (s : State) : Option SymLoop → State
  | none => fin s
  | some k => more k s

/-- CSYM (R221). -/
def execCsym (x : Sym) (s : State) : Host.Outcome State Fault Refusal :=
  let w := encode (.csym x)
  match loopOf s with
  | .start =>
    if x = Sym.esc then .next (faultEntry ⟨.badSymbol, w⟩ s) else .next (goto w (.sym (symStart s)) s)
  | .sym k => (csymStep x k s).finish s (continueSym (fun k => goto w (.sym k)) complete)
  | _ => .fault .loopMismatch

/-- DSYM (R222). -/
def execDsym (s : State) : Host.Outcome State Fault Refusal :=
  let w := encode .dsym
  match loopOf s with
  | .start => .next (goto w (.sym (symStart s)) s)
  | .sym k => (dsymStep k s).finish s (continueSym (fun k => goto w (.sym k)) complete)
  | _ => .fault .loopMismatch

/-- COMPRESS (R223): CINIT_BODY, MINIT_BODY, a CSYM for each byte of IN_BYTEQ and for EOF, FIN_BODY. Step 0 of a CSYM takes the
byte from the queue. -/
def execCompress (s : State) : Host.Outcome State Fault Refusal :=
  let w := encode .compress
  match loopOf s with
  | .start => (cinitBody s).finish s fun s _ => goto w .cMinit s
  | .cMinit => (minitBody s).finish s fun s _ => goto w .cNext s
  | .cNext =>
    match s.inByteQ with
    | b :: rest => .next (goto w (.cSym (symOf b) (symStart s)) { s with inByteQ := rest })
    | [] => .next (goto w (.cSym Sym.eof (symStart s)) s)
  | .cSym x k =>
    (csymStep x k s).finish s
      (continueSym (fun k => goto w (.cSym x k)) (goto w (if x = Sym.eof then .cFin else .cNext)))
  | .cFin => (finBody s).single s
  | _ => .fault .loopMismatch

/-- DECOMPRESS (R224): CINIT_BODY, MINIT_BODY, DPRIME_BODY, DSYMs until one decodes EOF, then IN_BITQ is emptied. -/
def execDecompress (s : State) : Host.Outcome State Fault Refusal :=
  let w := encode .decompress
  match loopOf s with
  | .start => (cinitBody s).finish s fun s _ => goto w .dMinit s
  | .dMinit => (minitBody s).finish s fun s _ => goto w .dPrime s
  | .dPrime => (dprimeBody s).finish s fun s _ => goto w .dNext s
  | .dNext => .next (goto w (.dSym (symStart s)) s)
  | .dSym k =>
    (dsymStep k s).finish s
      (continueSym (fun k => goto w (.dSym k)) (goto w (if doneSym k = some Sym.eof then .dClear else .dNext)))
  | .dClear => .next (complete { s with inBitQ := [] })
  | _ => .fault .loopMismatch

end Sys2Proof.Machine
end

