-- ==== Sys2Proof/Machine/FrequencyTable.lean ====
section
/-! DEFINITION. The frequency table commands FADD, FRECOMP, FUPD and FLOOK (spec/41_frequency_table.md). -/

namespace Sys2Proof.Machine

/-- The count of a symbol in a table, 0 where it is absent. -/
def Table.countOf (T : Table) (x : Sym) : Word :=
  match T.entry? x with
  | none => 0
  | some e => e.cnt

/-- FADD's pseudocode (R142). -/
def faddBody (t : Tsel) (x : Sym) (s : State) : Body Unit :=
  let w := encode (.fadd t x)
  match select w t s with
  | .error r => .raise r
  | .ok sel =>
    if sel.tab.ro then .raise ⟨.readOnlyTable, w⟩
    else if sel.tab.countFull then .raise ⟨.countOverflow, w⟩
    else
      let T := sel.tab.lazyAdd s.draws x
      .ok (setResult { sym := x, created := sel.created } ⟨0, 0, 0, T.countOf x⟩
        { s with ctx := sel.update T, draws := s.draws + 1 }) ()

/-- FRECOMP's pseudocode (R143). -/
def frecompBody (t : Tsel) (s : State) : Body Unit :=
  let w := encode (.frecomp t)
  match select w t s with
  | .error r => .raise r
  | .ok sel =>
    if sel.tab.ro then .raise ⟨.readOnlyTable, w⟩
    else
      let T := sel.tab.recompute
      .ok (setResult { created := sel.created } ⟨0, 0, T.total, BitVec.ofNat 32 T.alpha.length⟩
        { s with ctx := sel.update T }) ()

/-- FUPD's pseudocode (R144). -/
def fupdBody (t : Tsel) (x : Sym) (s : State) : Body Unit :=
  let w := encode (.fupd t x)
  match select w t s with
  | .error r => .raise r
  | .ok sel =>
    if sel.tab.ro then .raise ⟨.readOnlyTable, w⟩
    else if sel.tab.countFull then .raise ⟨.countOverflow, w⟩
    else
      let T := sel.tab.eagerAdd x
      let rs := match T.entry? x with
        | none => ⟨0, 0, T.total, 0⟩
        | some e => T.values e
      .ok (setResult { sym := x, created := sel.created } rs { s with ctx := sel.update T }) ()

/-- What FLOOK reports of a symbol in a table (R145). -/
def lookRegs (T : Table) (x : Sym) : ResRegs :=
  match T.stale, T.entry? x with
  | true, none => ⟨0, 0, 0, 0⟩
  | true, some e => ⟨0, 0, 0, e.cnt⟩
  | false, none => ⟨0, 0, T.total, 0⟩
  | false, some e => T.values e

/-- FLOOK's pseudocode (R145). -/
def flookBody (t : Tsel) (x : Sym) (s : State) : Body Unit :=
  match select (encode (.flook t x)) t s with
  | .error r => .raise r
  | .ok sel =>
    .ok (setResult
      { sym := x, present := (sel.tab.entry? x).isSome, created := sel.created, stale := sel.tab.stale }
      (lookRegs sel.tab x) { s with ctx := sel.ctx }) ()

/-- FADD (R142). -/
def execFadd (t : Tsel) (x : Sym) (s : State) : Host.Outcome State Fault Refusal := (faddBody t x s).single s

/-- FRECOMP (R143). -/
def execFrecomp (t : Tsel) (s : State) : Host.Outcome State Fault Refusal := (frecompBody t s).single s

/-- FUPD (R144). -/
def execFupd (t : Tsel) (x : Sym) (s : State) : Host.Outcome State Fault Refusal := (fupdBody t x s).single s

/-- FLOOK (R145). -/
def execFlook (t : Tsel) (x : Sym) (s : State) : Host.Outcome State Fault Refusal := (flookBody t x s).single s

end Sys2Proof.Machine
end

