-- ==== Sys2Proof/Machine/System.lean ====
section
/-! DEFINITION. The system commands NOP and SRST (spec/45_system.md). -/

namespace Sys2Proof.Machine

/-- NOP: no state change but completion (R250). -/
def execNop (s : State) : Host.Outcome State Fault Refusal := .next (complete s)

/-- SRST: every element takes its reset value, and no DONE_IP (R251). -/
def execSrst (s : State) : Host.Outcome State Fault Refusal := .next (softReset s)

end Sys2Proof.Machine
end

