-- ==== Sys2Proof/Machine/Dispatch.lean ====
section
/-! DEFINITION. One arm per command. -/

namespace Sys2Proof.Machine

/-- The primitive step of a command (spec/60_exceptions.md R268). -/
def exec (i : Instr) (s : State) : Host.Outcome State Fault Refusal :=
  match i with
  | .nop => Sys2Proof.Machine.execNop s
  | .srst _ => Sys2Proof.Machine.execSrst s
  | .fadd t x => Sys2Proof.Machine.execFadd t x s
  | .frecomp t => Sys2Proof.Machine.execFrecomp t s
  | .fupd t x => Sys2Proof.Machine.execFupd t x s
  | .flook t x => Sys2Proof.Machine.execFlook t x s
  | .cinit => Sys2Proof.Machine.execCinit s
  | .enc t x => Sys2Proof.Machine.execEnc t x s
  | .fin => Sys2Proof.Machine.execFin s
  | .dprime => Sys2Proof.Machine.execDprime s
  | .dec t => Sys2Proof.Machine.execDec t s
  | .minit => Sys2Proof.Machine.execMinit s
  | .pget t => Sys2Proof.Machine.execPget t s
  | .pupd x => Sys2Proof.Machine.execPupd x s
  | .hpush x => Sys2Proof.Machine.execHpush x s
  | .csym x => Sys2Proof.Machine.execCsym x s
  | .dsym => Sys2Proof.Machine.execDsym s
  | .compress => Sys2Proof.Machine.execCompress s
  | .decompress => Sys2Proof.Machine.execDecompress s

end Sys2Proof.Machine
end

