-- ==== Sys2Proof/Machine/HostBus.lean ====
section
/-! DEFINITION. The host's register accesses (spec/20_memory.md, spec/10_state.md R54). -/

namespace Sys2Proof.Machine

/-- The offset of `HIST[i]` for some `i < MAX_ORDER` (spec/10_state.md R54, spec/20_memory.md R83). -/
def histIndex (p : Params) (off : Nat) : Option Nat :=
  if 0x80 ≤ off ∧ off < 0x80 + 4 * p.maxOrder then some ((off - 0x80) / 4) else none

/-- What a register read returns while it is exact (spec/10_state.md R54). A write-only register and a reserved offset read 0
(R54, spec/20_memory.md R83); the popping registers give what their pop returns. -/
def regValue (off : Nat) (s : State) : Word :=
  match off with
  | 0x04 => s.statusWord
  | 0x08 => s.configWord
  | 0x0C => s.activeWord
  | 0x10 => s.low
  | 0x14 => s.high
  | 0x18 => s.pending
  | 0x1C => s.code
  | 0x20 => s.result
  | 0x24 => s.res.rlow
  | 0x28 => s.res.rhigh
  | 0x2C => s.res.total
  | 0x30 => s.res.count
  | 0x34 => s.faultInfo
  | 0x38 => s.irqEnWord
  | 0x3C => s.irqPendWord
  | 0x50 => levelWord s.inByteQ.length
  | 0x54 => levelWord s.inBitQ.length
  | 0x58 => levelWord s.outByteQ.length
  | 0x5C => levelWord s.outBitQ.length
  | 0x60 => s.outBitCnt
  | 0x64 => s.inBitCnt
  | 0x68 => ctxCountWord s.ctx.length
  | 0x6C => 0x41430007
  | 0x70 => paramsWord s.params
  | 0x74 => ctxCapWord s.params
  | _ =>
    match histIndex s.params off with
    | some i => histWord i s
    | none => 0

/-- The registers whose reads are unspecified while BUSY: ACTIVE, LOW, HIGH, PENDING, CODE, RESULT, RES_*, FAULT_INFO,
OUT_BITCNT, IN_BITCNT, CTX_COUNT and HIST[i] (spec/20_memory.md R85). -/
def volatileReg (p : Params) (off : Nat) : Bool :=
  decide (off ∈ [0x0C, 0x10, 0x14, 0x18, 0x1C, 0x20, 0x24, 0x28, 0x2C, 0x30, 0x34, 0x60, 0x64, 0x68])
    || (histIndex p off).isSome

/-- A read that returns an unspecified value: a volatile register while BUSY, and no other (spec/20_memory.md R85, R99;
log 5). -/
def unstatedRead (off : Nat) (s : State) : Bool := s.busy && volatileReg s.params off

/-- Up to 32 bits as a word, the first in bit 31, zeros below the last (spec/20_memory.md R90). -/
def wordOfBits (bs : List Bool) : Word :=
  BitVec.ofNat 32 (((bs ++ List.replicate 32 false).take 32).foldl (fun v b => 2 * v + b.toNat) 0)

/-- The bits of a word, bit 31 first (spec/20_memory.md R88). -/
def bitsOfWord (v : Word) : List Bool := (List.range 32).map fun j => v.getLsbD (31 - j)

/-- OUT_BYTE read (spec/20_memory.md R89): pops a byte, bit 8 set, or returns 0. -/
def readOutByte (s : State) : State :=
  match s.outByteQ with
  | [] => { s with rdata := 0 }
  | b :: rest => { s with outByteQ := rest, rdata := (0 : BitVec 23) ++ ((1 : BitVec 1) ++ b) }

/-- OUT_BITS read (spec/20_memory.md R90): pops up to 32 bits. -/
def readOutBits (s : State) : State :=
  { s with outBitQ := s.outBitQ.drop 32, rdata := wordOfBits (s.outBitQ.take 32) }

/-- `MemRead(off, 4)`; the value goes to `rdata` (spec/20_memory.md R84, R85). -/
def hostRead (off : Nat) (s : State) : State :=
  if off = 0x48 then readOutByte s
  else if off = 0x4C then readOutBits s
  else if unstatedRead off s then { s with rdata := Config.freeRead s.draws, draws := s.draws + 1 }
  else { s with rdata := regValue off s }

/-- HOST_PROTOCOL(off) (spec/60_exceptions.md R260): the command in progress stops, the write has no effect. -/
def hostProtocol (off : Word) (s : State) : State := faultEntry ⟨.hostProtocol, off⟩ s

/-- CMD write (spec/20_memory.md R86). SRST is performed at once (spec/45_system.md R251). -/
def writeCmd (w : Word) (s : State) : State :=
  if opcField w = 0x01 then softReset s
  else if s.fault.isSome then s
  else if s.busy then hostProtocol 0x00 s
  else goto w .start s

/-- CONFIG write (spec/20_memory.md R92). -/
def writeConfig (v : Word) (s : State) : State :=
  if s.busy then hostProtocol 0x08 s
  else { s with cfgOrder := v.extractLsb' 0 6, cfgPrec := v.extractLsb' 8 6 }

/-- `len(IN_BYTEQ) == IN_BYTE_DEPTH`, for a bounded queue (spec/20_memory.md R87). -/
def byteQueueFull (s : State) : Bool := decide (s.params.inByteDepth = some s.inByteQ.length)

/-- `len(IN_BITQ) + 32 > IN_BIT_DEPTH`, for a bounded queue (spec/20_memory.md R88). -/
def bitQueueFull (s : State) : Bool :=
  match s.params.inBitDepth with
  | none => false
  | some d => decide (d < s.inBitQ.length + 32)

/-- IN_BYTE write (spec/20_memory.md R87). -/
def writeInByte (v : Word) (s : State) : State :=
  if s.fault.isSome then s
  else if s.busy then hostProtocol 0x40 s
  else if byteQueueFull s then hostProtocol 0x40 s
  else { s with inByteQ := s.inByteQ ++ [v.extractLsb' 0 8] }

/-- IN_BITS write (spec/20_memory.md R88). -/
def writeInBits (v : Word) (s : State) : State :=
  if s.fault.isSome then s
  else if s.busy then hostProtocol 0x44 s
  else if bitQueueFull s then hostProtocol 0x44 s
  else { s with inBitQ := s.inBitQ ++ bitsOfWord v }

/-- IRQ_EN write (spec/20_memory.md R92). -/
def writeIrqEn (v : Word) (s : State) : State := { s with doneIe := v.getLsbD 0, faultIe := v.getLsbD 1 }

/-- IRQ_PEND write: a written 1 clears its bit (spec/20_memory.md R92). -/
def writeIrqPend (v : Word) (s : State) : State :=
  { s with doneIp := s.doneIp && !v.getLsbD 0, faultIp := s.faultIp && !v.getLsbD 1 }

/-- `MemWrite(off, 4, v)` (spec/20_memory.md R84). Other offsets ignore the write (R83, R92). -/
def hostWrite (off : Nat) (v : Word) (s : State) : State :=
  match off with
  | 0x00 => writeCmd v s
  | 0x08 => writeConfig v s
  | 0x38 => writeIrqEn v s
  | 0x3C => writeIrqPend v s
  | 0x40 => writeInByte v s
  | 0x44 => writeInBits v s
  | _ => s

/-- Why an access is outside the host contract, if it is (spec/20_memory.md R81; log 16). -/
def accessRefusal (off width : Nat) : Option Refusal :=
  if width ≠ 4 then some .accessWidth
  else if off % 4 ≠ 0 then some .misaligned
  else if 0x100 ≤ off then some .outsideWindow
  else none

/-- The offset and the width of an access. -/
def HostOp.place : HostOp → Nat × Nat
  | .read off width => (off, width)
  | .write off width _ => (off, width)

/-- An access the contract admits. -/
def HostOp.perform (s : State) : HostOp → State
  | .read off _ => hostRead off s
  | .write off _ v => hostWrite off v s

/-- A host step (spec/20_memory.md R81, R96). -/
def hostStep (op : HostOp) (s : State) : Host.Outcome State Fault Refusal :=
  match accessRefusal op.place.1 op.place.2 with
  | some r => .refused r
  | none => .next (op.perform s)

end Sys2Proof.Machine
end

