-- ==== Sys2Proof/Machine/Sequencer.lean ====
section
/-! DEFINITION. A core step and a turn of the interleaving. -/

namespace Sys2Proof.Machine

/-- A core step (spec/60_exceptions.md R268): the word in SEQ is decoded, an illegal one raises ILLEGAL_CMD, and the command takes
its next primitive step. An idle core takes no step. -/
def coreStep (s : State) : Host.Outcome State Fault Refusal :=
  match s.seq with
  | .idle => .next s
  | .running w _ =>
    match decode s.params w with
    | .error _ => .next (faultEntry ⟨.illegalCmd, w⟩ s)
    | .ok i => exec i s

/-- The first turn of the agenda, or the core's where none is left (spec/20_memory.md R99; log 1). -/
def takeTurn (s : State) : Host.Outcome State Fault Refusal :=
  match s.agenda with
  | [] => coreStep s
  | .core :: rest => coreStep { s with agenda := rest }
  | .host op :: rest => hostStep op { s with agenda := rest }
  | .rst :: rest => .next (softReset { s with agenda := rest })

/-- The agenda with the core's turn first. -/
def coreFirst : List Turn → List Turn
  | [] => []
  | t :: ts => .core :: t :: ts

/-- The command `w` in SEQ at its first step, as a CMD write leaves it (spec/20_memory.md R86), and the core to move
(log 2). -/
def loadCommand (w : Word) (s : State) : State := { goto w .start s with agenda := coreFirst s.agenda }

end Sys2Proof.Machine
end

