-- ==== Sys2Proof/Machine/Step.lean ====
section
/-! DEFINITION. One step of the machine. -/

namespace Sys2Proof.Machine

/-- One step: one turn of the interleaving of host and core (spec/20_memory.md R96, R99). -/
def step (s : State) : Host.Outcome State Fault Refusal := takeTurn s

/-- `s` with the command word `w` where the next step fetches it: in SEQ, at its first primitive step, the core to move. -/
def State.withFetchWord (s : State) (_nbits w : Nat) : State := loadCommand (BitVec.ofNat 32 w) s

end Sys2Proof.Machine
end

