-- ==== Sys2Proof/Safety.lean ====
section
/-! DEFINITION. What a safe state is, and the words the statements are written in: the table invariant, the state invariant, what
SELECT means, and what a command leaves alone. -/

namespace Sys2Proof.Machine

/-! ### Tables -/

/-- The ranges of `es` start at `acc`, follow each other in alphabet order, each as wide as its count, and end at `tot`
(spec/10_state.md R41). -/
def Partitioned : Nat → List Entry → Nat → Prop
  | acc, [], tot => tot = acc
  | acc, e :: es, tot => e.rlo.toNat = acc ∧ e.rhi.toNat = acc + e.cnt.toNat ∧ Partitioned (acc + e.cnt.toNat) es tot

/-- The alphabet of a table, in first-insertion order (spec/10_state.md R40). -/
def Table.syms (T : Table) : List Sym := T.alpha.map fun e => e.sym

/-- A symbol is in the alphabet. -/
def Table.Has (T : Table) (x : Sym) : Prop := x ∈ T.syms

/-- A symbol's count as a number, 0 where it is absent. -/
def Table.count (T : Table) (x : Sym) : Nat := ((T.entry? x).map fun e => e.cnt.toNat).getD 0

/-- A table as spec/10_state.md R40 and R41 give it: distinct symbols up to 257, counts of at least 1, a count sum of at most
`2^32 - 1`, and, unless stale, ranges that partition `[0, total)`. -/
structure Table.Ok (T : Table) : Prop where
  distinct : T.syms.Nodup
  symRange : ∀ e ∈ T.alpha, e.sym.toNat ≤ 257
  cntPos : ∀ e ∈ T.alpha, 1 ≤ e.cnt.toNat
  sumBound : cntSum T.alpha ≤ wordMax
  ranges : T.stale = false → Partitioned 0 T.alpha T.total.toNat

/-- An entry of CTX: a sound table that is not read-only and contains ESC, under a context of at most MAX_ORDER bytes
(spec/10_state.md R42, spec/43_ppm_context_model.md R205). -/
structure CtxEntryOk (p : Params) (k : Context) (T : Table) : Prop where
  tab : T.Ok
  writable : T.ro = false
  hasEsc : T.Has Sym.esc
  keyLength : k.length ≤ p.maxOrder

/-! ### The sequencer -/

/-- A phase of CSYM or DSYM is possible with a history of `n` bytes: the order is within the history, and the symbol to update
with is a byte (spec/44_drivers.md R221, R222). -/
def Phase.Ok (n : Nat) : Phase → Prop
  | .desc o => o.toNat ≤ n
  | .fall => True
  | .upd x _ => isByte x = true
  | .push x _ => isByte x = true
  | .done x _ => x = Sym.eof ∨ isByte x = true

/-- CSYM codes this symbol: a byte or EOF (spec/44_drivers.md R221). -/
def Codable (x : Sym) : Prop := x = Sym.eof ∨ isByte x = true

/-- The loop state belongs to the command (spec/44_drivers.md R221 to R224). -/
def Loop.Fits (n : Nat) : Instr → Loop → Prop
  | .csym x, .sym k => Codable x ∧ k.phase.Ok n
  | .dsym, .sym k => k.phase.Ok n
  | .compress, .cMinit => True
  | .compress, .cNext => True
  | .compress, .cSym x k => Codable x ∧ k.phase.Ok n
  | .compress, .cFin => True
  | .decompress, .dMinit => True
  | .decompress, .dPrime => True
  | .decompress, .dNext => True
  | .decompress, .dSym k => k.phase.Ok n
  | .decompress, .dClear => True
  | _, .start => True
  | _, _ => False

/-- SEQ holds a word with a loop state of its command; an illegal word is still at its first step. -/
def Seq.Ok (p : Params) (n : Nat) : Seq → Prop
  | .idle => True
  | .running w k =>
    match decode p w with
    | .ok i => Loop.Fits n i k
    | .error _ => k = .start

/-! ### The state invariant -/

/-- A length within a capacity. -/
def within (n : Nat) : Option Nat → Prop
  | none => True
  | some c => n ≤ c

/-- The context store is sound (spec/10_state.md R42): canonical, every table sound, a root with EOF, within its capacity. -/
structure StoreOk (p : Params) (m : Store) : Prop where
  /-- The list is in its canonical form. -/
  canonical : Store.wf m
  /-- Every table is sound (spec/10_state.md R40 to R42). -/
  tables : ∀ q ∈ m, CtxEntryOk p q.1 q.2
  /-- The root exists and contains EOF (spec/43_ppm_context_model.md R205). -/
  root : ∃ T, Store.get [] m = some T ∧ T.Has Sym.eof
  /-- At most CTX_CAPACITY entries (spec/10_state.md R42). -/
  capacity : within m.length p.ctxCapacity

/-- The data of the block is sound: what holds whatever the core is doing. -/
structure State.Sound (s : State) : Prop where
  /-- The parameters are in their legal ranges (spec/00_scope.md R6). -/
  legal : s.params.legal = true
  /-- `2 ≤ P_ACT ≤ 32` (spec/10_state.md R32). -/
  prec : 2 ≤ s.pAct.toNat ∧ s.pAct.toNat ≤ 32
  /-- `LOW ≤ HIGH ≤ TOP` (spec/10_state.md R33, spec/42_arithmetic_coder.md R177). -/
  interval : s.low.toNat ≤ s.high.toNat ∧ s.high.toNat ≤ top s.pAct.toNat
  /-- `CODE ≤ TOP` (spec/42_arithmetic_coder.md R177). -/
  code : s.code.toNat ≤ top s.pAct.toNat
  /-- `-1 ≤ ORDER_ACT ≤ MAX_ORDER` (spec/10_state.md R38). -/
  order : -1 ≤ orderVal s.orderAct ∧ orderVal s.orderAct ≤ s.params.maxOrder
  /-- `HLEN ≤ max(ORDER_ACT, 0)` (spec/10_state.md R39). -/
  history : (s.hist.length : Int) ≤ max (orderVal s.orderAct) 0
  /-- CTX is sound. -/
  store : StoreOk s.params s.ctx
  /-- The input queues are within their depths (spec/10_state.md R45). -/
  queues : within s.inByteQ.length s.params.inByteDepth ∧ within s.inBitQ.length s.params.inBitDepth

/-- The invariant of every state the block can be in. -/
structure State.Inv (s : State) : Prop extends State.Sound s where
  /-- SEQ holds a loop state of its own command (spec/10_state.md R31). -/
  sequencer : s.seq.Ok s.params s.hist.length
  /-- The core is idle while FAULT = 1 (spec/60_exceptions.md R262, R267). -/
  stopped : s.fault ≠ none → s.seq = .idle

/-! ### What a command selects and leaves alone -/

/-- `k` is the suffix of length `n` of the history (spec/43_ppm_context_model.md R201). -/
def SuffixOf (hist : List Byte) (n : Nat) (k : Context) : Prop := k.length = n ∧ ∃ pre, hist = pre ++ k

/-- `SELECT(t)` succeeds on CTX with the table `T` of the context `k`; `c` says that it is created
(spec/43_ppm_context_model.md R201). -/
def Selects (s : State) (t : Tsel) (k : Context) (T : Table) (c : Bool) : Prop :=
  t ≠ Tsel.m1 ∧ SuffixOf s.hist t.toNat k ∧
    ((c = false ∧ Store.get k s.ctx = some T) ∨
      (c = true ∧ Store.get k s.ctx = none ∧ s.params.ctxCapacity ≠ some s.ctx.length ∧
        T = (if k = [] then Table.rootSeed else Table.ctxSeed)))

/-- SELECT raises the fault `f` (spec/43_ppm_context_model.md R201). -/
def SelectRaises (s : State) (t : Tsel) (f : FaultCode) : Prop :=
  t ≠ Tsel.m1 ∧
    ((f = .badTsel ∧ s.hist.length < t.toNat) ∨
      (f = .ctxFull ∧ ∃ k, SuffixOf s.hist t.toNat k ∧ Store.get k s.ctx = none ∧
        s.params.ctxCapacity = some s.ctx.length))

/-- `SELECT(t)` returns the table `T` and the flag `c`, and CTX is then `m` (spec/43_ppm_context_model.md R201). -/
def Gives (s : State) (t : Tsel) (T : Table) (c : Bool) (m : Store) : Prop :=
  (t = Tsel.m1 ∧ T = Table.m1 ∧ c = false ∧ m = s.ctx) ∨
    ∃ k, Selects s t k T c ∧ ((c = false ∧ m = s.ctx) ∨ (c = true ∧ m = Store.put k T s.ctx))

/-- The coder's registers and counters are the same (spec/10_state.md R32 to R36). -/
structure SameCoder (s t : State) : Prop where
  pAct : t.pAct = s.pAct
  low : t.low = s.low
  high : t.high = s.high
  pending : t.pending = s.pending
  code : t.code = s.code
  outBitCnt : t.outBitCnt = s.outBitCnt
  inBitCnt : t.inBitCnt = s.inBitCnt

/-- The four queues are the same (spec/10_state.md R45). -/
structure SameQueues (s t : State) : Prop where
  inByteQ : t.inByteQ = s.inByteQ
  inBitQ : t.inBitQ = s.inBitQ
  outBitQ : t.outBitQ = s.outBitQ
  outByteQ : t.outByteQ = s.outByteQ

/-- Order, history and context store are the same (spec/10_state.md R38, R39, R42). -/
structure SameModel (s t : State) : Prop where
  orderAct : t.orderAct = s.orderAct
  hist : t.hist = s.hist
  ctx : t.ctx = s.ctx

/-- RESULT and RES_* are the same (spec/10_state.md R47, R48). -/
structure SameResult (s t : State) : Prop where
  result : t.result = s.result
  res : t.res = s.res

/-- What only the host writes is the same: CONFIG, IRQ_EN, the parameters and the model's host side
(spec/10_state.md R37, R50). -/
structure SameHost (s t : State) : Prop where
  cfgOrder : t.cfgOrder = s.cfgOrder
  cfgPrec : t.cfgPrec = s.cfgPrec
  doneIe : t.doneIe = s.doneIe
  faultIe : t.faultIe = s.faultIe
  params : t.params = s.params
  agenda : t.agenda = s.agenda
  rdata : t.rdata = s.rdata

/-- FAULT, FCODE, FAULT_INFO and FAULT_IP are the same (spec/60_exceptions.md R262). -/
structure SameFault (s t : State) : Prop where
  fault : t.fault = s.fault
  faultInfo : t.faultInfo = s.faultInfo
  faultIp : t.faultIp = s.faultIp

/-- The command has completed: SEQ idle, DONE_IP set, no fault raised (spec/60_exceptions.md R269). -/
structure Completed (s t : State) : Prop extends SameFault s t where
  seq : t.seq = .idle
  doneIp : t.doneIp = true

/-- The fault `f` with FAULT_INFO `info` has been entered and nothing else has changed (spec/60_exceptions.md R262). -/
def Faulted (f : FaultCode) (info : Word) (s t : State) : Prop :=
  t = { s with fault := some f, faultInfo := info, faultIp := true, seq := .idle }

/-- The step ends in fault entry with the fault `f` and FAULT_INFO `info` (spec/60_exceptions.md R261, R262). -/
def Traps (o : Host.Outcome State Fault Refusal) (f : FaultCode) (info : Word) (s : State) : Prop :=
  ∃ t, o = .next t ∧ Faulted f info s t

/-! ### Words -/

/-- The command word with the given OPC, TSEL and SYM (spec/30_encoding.md R110, spec/44_drivers.md R220). -/
def cmdWord (opc t x : Nat) : Word := BitVec.ofNat 32 (opc * 2 ^ 26 + t * 2 ^ 21 + x * 2 ^ 12)

/-- A TSEL value that is not reserved (spec/30_encoding.md R113). -/
def TselLegal (p : Params) (t : Nat) : Prop := t ≤ p.maxOrder ∨ t = 31

/-- The opcode `opc` is `i` in format N: the core runs `i` on the one legal word and raises ILLEGAL_CMD on every other
(spec/30_encoding.md R111, R115, R117). -/
def FormatN (opc : Nat) (i : Instr) : Prop :=
  ∀ s w k, s.seq = .running w k → w.toNat / 2 ^ 26 = opc →
    (w.toNat % 2 ^ 26 = 0 → coreStep s = exec i s) ∧
    (w.toNat % 2 ^ 26 ≠ 0 → Traps (coreStep s) .illegalCmd w s)

/-- The same for format T. -/
def FormatT (opc : Nat) (i : Tsel → Instr) : Prop :=
  ∀ s w k, s.seq = .running w k → w.toNat / 2 ^ 26 = opc →
    (w.toNat % 2 ^ 21 = 0 ∧ TselLegal s.params (w.toNat / 2 ^ 21 % 32) →
      coreStep s = exec (i (BitVec.ofNat 5 (w.toNat / 2 ^ 21))) s) ∧
    (¬ (w.toNat % 2 ^ 21 = 0 ∧ TselLegal s.params (w.toNat / 2 ^ 21 % 32)) → Traps (coreStep s) .illegalCmd w s)

/-- The same for format S. -/
def FormatS (opc : Nat) (i : Sym → Instr) : Prop :=
  ∀ s w k, s.seq = .running w k → w.toNat / 2 ^ 26 = opc →
    (w.toNat % 2 ^ 12 = 0 ∧ w.toNat / 2 ^ 21 % 32 = 0 ∧ w.toNat / 2 ^ 12 % 512 ≤ 257 →
      coreStep s = exec (i (BitVec.ofNat 9 (w.toNat / 2 ^ 12))) s) ∧
    (¬ (w.toNat % 2 ^ 12 = 0 ∧ w.toNat / 2 ^ 21 % 32 = 0 ∧ w.toNat / 2 ^ 12 % 512 ≤ 257) →
      Traps (coreStep s) .illegalCmd w s)

/-- The same for format TS. -/
def FormatTS (opc : Nat) (i : Tsel → Sym → Instr) : Prop :=
  ∀ s w k, s.seq = .running w k → w.toNat / 2 ^ 26 = opc →
    (w.toNat % 2 ^ 12 = 0 ∧ TselLegal s.params (w.toNat / 2 ^ 21 % 32) ∧ w.toNat / 2 ^ 12 % 512 ≤ 257 →
      coreStep s = exec (i (BitVec.ofNat 5 (w.toNat / 2 ^ 21)) (BitVec.ofNat 9 (w.toNat / 2 ^ 12))) s) ∧
    (¬ (w.toNat % 2 ^ 12 = 0 ∧ TselLegal s.params (w.toNat / 2 ^ 21 % 32) ∧ w.toNat / 2 ^ 12 % 512 ≤ 257) →
      Traps (coreStep s) .illegalCmd w s)

/-- The illegal words (spec/30_encoding.md R117). -/
def IllegalWord (p : Params) (w : Word) : Prop :=
  let opc := w.toNat / 2 ^ 26
  let t := w.toNat / 2 ^ 21 % 32
  let x := w.toNat / 2 ^ 12 % 512
  let rsv := w.toNat % 2 ^ 12
  (opc ∈ [0x02, 0x03, 0x04, 0x05, 0x06, 0x07, 0x0C, 0x0D, 0x0E, 0x0F, 0x15, 0x16, 0x17, 0x1C, 0x1D, 0x1E, 0x1F] ∨ 0x24 ≤ opc) ∨
    (opc ∈ [0x00, 0x10, 0x12, 0x13, 0x18, 0x21, 0x22, 0x23] ∧ (t ≠ 0 ∨ x ≠ 0 ∨ rsv ≠ 0)) ∨
    (opc ∈ [0x09, 0x14, 0x19] ∧ (x ≠ 0 ∨ rsv ≠ 0 ∨ (p.maxOrder + 1 ≤ t ∧ t ≤ 30))) ∨
    (opc ∈ [0x1A, 0x1B, 0x20] ∧ (t ≠ 0 ∨ rsv ≠ 0 ∨ 258 ≤ x)) ∨
    (opc ∈ [0x08, 0x0A, 0x0B, 0x11] ∧ (rsv ≠ 0 ∨ 258 ≤ x ∨ (p.maxOrder + 1 ≤ t ∧ t ≤ 30)))

/-- Every piece of state has the value the table of resets gives it (spec/10_state.md R56, R44). -/
structure AtReset (t : State) : Prop where
  seq : t.seq = .idle
  config : t.cfgOrder = 2 ∧ t.cfgPrec = 32
  pAct : t.pAct = 32
  interval : t.low = 0 ∧ t.high = 0xFFFFFFFF
  pendingCode : t.pending = 0 ∧ t.code = 0
  counters : t.outBitCnt = 0 ∧ t.inBitCnt = 0
  orderAct : t.orderAct = 2
  hist : t.hist = []
  ctx : t.ctx = [([], ⟨[⟨257, 1, 0, 1⟩, ⟨256, 1, 1, 2⟩], 2, false, false⟩)]
  queues : t.inByteQ = [] ∧ t.inBitQ = [] ∧ t.outBitQ = [] ∧ t.outByteQ = []
  fault : t.fault = none
  result : t.result = 0 ∧ t.res = ⟨0, 0, 0, 0⟩
  faultInfo : t.faultInfo = 0
  irq : t.doneIe = false ∧ t.faultIe = false ∧ t.doneIp = false ∧ t.faultIp = false

/-! ### What a table update does -/

/-- `T'` is `T` after `add` of `x`: one more in its count, a new symbol at the end of the alphabet
(spec/41_frequency_table.md R142). -/
structure AddedTo (x : Sym) (T T' : Table) : Prop where
  alphabet : T'.syms = if x ∈ T.syms then T.syms else T.syms ++ [x]
  counts : ∀ y, T'.count y = T.count y + (if y = x then 1 else 0)
  ro : T'.ro = T.ro

/-- The ranges of `T` partition `[0, total)` (spec/10_state.md R41). -/
structure Table.Fresh (T : Table) : Prop where
  notStale : T.stale = false
  ranges : Partitioned 0 T.alpha T.total.toNat

/-- The seed of a context (spec/10_state.md R44, spec/43_ppm_context_model.md R201). -/
def SeedOf (k : Context) (T : Table) : Prop :=
  T.syms = (if k = [] then [Sym.esc, Sym.eof] else [Sym.esc]) ∧ (∀ e ∈ T.alpha, e.cnt = 1) ∧ T.Fresh ∧ T.ro = false

/-! ### What renormalization does -/

/-- Zero or more passes of RENORM_ENC, the cases tested in the order E1, E2, E3 (spec/42_arithmetic_coder.md R162). -/
inductive EncPasses (P : Nat) : EncRegs → EncRegs → Prop where
  | refl (r : EncRegs) : EncPasses P r r
  | e1 (r r' : EncRegs) : r.high < 2 ^ (P - 1) →
      EncPasses P ⟨2 * r.low, 2 * r.high + 1, 0, r.out ++ false :: List.replicate r.pending true⟩ r' → EncPasses P r r'
  | e2 (r r' : EncRegs) : ¬ r.high < 2 ^ (P - 1) → 2 ^ (P - 1) ≤ r.low →
      EncPasses P ⟨2 * (r.low - 2 ^ (P - 1)), 2 * (r.high - 2 ^ (P - 1)) + 1, 0,
        r.out ++ true :: List.replicate r.pending false⟩ r' → EncPasses P r r'
  | e3 (r r' : EncRegs) : ¬ r.high < 2 ^ (P - 1) → ¬ 2 ^ (P - 1) ≤ r.low → 2 ^ (P - 2) ≤ r.low →
      r.high < 3 * 2 ^ (P - 2) → r.pending ≠ 2 ^ 32 - 1 →
      EncPasses P ⟨2 * (r.low - 2 ^ (P - 2)), 2 * (r.high - 2 ^ (P - 2)) + 1, r.pending + 1, r.out⟩ r' → EncPasses P r r'

/-- Zero or more passes of RENORM_DEC (spec/42_arithmetic_coder.md R166); an empty IN_BITQ gives zeros (R164). -/
inductive DecPasses (P : Nat) : DecRegs → DecRegs → Prop where
  | refl (r : DecRegs) : DecPasses P r r
  | e1 (r r' : DecRegs) : r.high < 2 ^ (P - 1) →
      DecPasses P ⟨2 * r.low, 2 * r.high + 1, 2 * r.code + (r.bits.headD false).toNat, r.bits.tail⟩ r' → DecPasses P r r'
  | e2 (r r' : DecRegs) : ¬ r.high < 2 ^ (P - 1) → 2 ^ (P - 1) ≤ r.low →
      DecPasses P ⟨2 * (r.low - 2 ^ (P - 1)), 2 * (r.high - 2 ^ (P - 1)) + 1,
        2 * (r.code - 2 ^ (P - 1)) + (r.bits.headD false).toNat, r.bits.tail⟩ r' → DecPasses P r r'
  | e3 (r r' : DecRegs) : ¬ r.high < 2 ^ (P - 1) → ¬ 2 ^ (P - 1) ≤ r.low → 2 ^ (P - 2) ≤ r.low →
      r.high < 3 * 2 ^ (P - 2) →
      DecPasses P ⟨2 * (r.low - 2 ^ (P - 2)), 2 * (r.high - 2 ^ (P - 2)) + 1,
        2 * (r.code - 2 ^ (P - 2)) + (r.bits.headD false).toNat, r.bits.tail⟩ r' → DecPasses P r r'

/-- No case of the renormalization holds: its loop exits (spec/42_arithmetic_coder.md R162, R165). -/
def Settled (P low high : Nat) : Prop :=
  ¬ high < 2 ^ (P - 1) ∧ ¬ 2 ^ (P - 1) ≤ low ∧ ¬ (2 ^ (P - 2) ≤ low ∧ high < 3 * 2 ^ (P - 2))

/-- Case E3 holds and PENDING is at its largest value: RENORM_ENC raises PENDING_OVERFLOW
(spec/42_arithmetic_coder.md R162). -/
def PendingFull (P : Nat) (r : EncRegs) : Prop :=
  ¬ r.high < 2 ^ (P - 1) ∧ ¬ 2 ^ (P - 1) ≤ r.low ∧ 2 ^ (P - 2) ≤ r.low ∧ r.high < 3 * 2 ^ (P - 2) ∧ r.pending = 2 ^ 32 - 1

/-- The lower bound NARROW computes (spec/42_arithmetic_coder.md R161). -/
def narrowLow (low high rlo total : Nat) : Nat := low + (high - low + 1) * rlo / total

/-- One more than the upper bound NARROW computes (spec/42_arithmetic_coder.md R161). -/
def narrowEnd (low high rhi total : Nat) : Nat := low + (high - low + 1) * rhi / total

/-- The faults a command can raise once its word is legal (the table of spec/60_exceptions.md R263). -/
def mayRaise : Instr → FaultCode → Bool
  | .nop, _ => false
  | .srst _, _ => false
  | .fadd _ _, f => decide (f ∈ [FaultCode.badTsel, .readOnlyTable, .countOverflow, .ctxFull])
  | .frecomp _, f => decide (f ∈ [FaultCode.badTsel, .readOnlyTable, .ctxFull])
  | .fupd _ _, f => decide (f ∈ [FaultCode.badTsel, .readOnlyTable, .countOverflow, .ctxFull])
  | .flook _ _, f => decide (f ∈ [FaultCode.badTsel, .ctxFull])
  | .cinit, f => decide (f = .badConfig)
  | .enc _ _, f => decide (f ∈ [FaultCode.badTsel, .staleTable, .symbolAbsent, .zeroTotal, .intervalCollapse,
      .pendingOverflow, .ctxFull])
  | .fin, f => decide (f = .pendingOverflow)
  | .dprime, _ => false
  | .dec _, f => decide (f ∈ [FaultCode.badTsel, .staleTable, .zeroTotal, .streamCorrupt, .ctxFull])
  | .minit, f => decide (f = .badConfig)
  | .pget _, f => decide (f ∈ [FaultCode.badTsel, .ctxFull])
  | .pupd _, f => decide (f ∈ [FaultCode.badSymbol, .countOverflow, .ctxFull])
  | .hpush _, f => decide (f = .badSymbol)
  | .csym _, f => decide (f ∈ [FaultCode.badSymbol, .staleTable, .intervalCollapse, .countOverflow, .pendingOverflow,
      .ctxFull])
  | .dsym, f => decide (f ∈ [FaultCode.staleTable, .streamCorrupt, .countOverflow, .ctxFull, .orderM1Decode])
  | .compress, f => decide (f ∈ [FaultCode.badConfig, .staleTable, .intervalCollapse, .countOverflow, .pendingOverflow,
      .ctxFull])
  | .decompress, f => decide (f ∈ [FaultCode.badConfig, .staleTable, .streamCorrupt, .countOverflow, .ctxFull,
      .orderM1Decode])

/-- The turn asserts the reset input or writes an SRST word to CMD (spec/70_reset_and_hazards.md R300). -/
def Turn.Resets : Turn → Prop
  | .core => False
  | .rst => True
  | .host (.read _ _) => False
  | .host (.write off _ v) => off = 0 ∧ v.toNat / 2 ^ 26 = 1

/-- The ENCs of the list, in order, all complete without a fault and lead from `s` to `u`. -/
def EncodesAll : List (Tsel × Sym) → State → State → Prop
  | [], s, u => u = s
  | (t, x) :: ops, s, u => ∃ v, exec (.enc t x) s = .next v ∧ v.fault = none ∧ EncodesAll ops v u

/-- The DECs of the list's tables, run beside the ENCs, all complete and return the list's symbols, LOW and HIGH equal after
each pair (spec/42_arithmetic_coder.md R176). -/
def DecodesBeside : List (Tsel × Sym) → State → State → Prop
  | [], _, _ => True
  | (t, x) :: ops, s, d => ∃ s' d', exec (.enc t x) s = .next s' ∧ exec (.dec t) d = .next d' ∧ d'.fault = none ∧
      d'.result.setWidth 9 = x ∧ d'.low = s'.low ∧ d'.high = s'.high ∧ DecodesBeside ops s' d'

/-- `n` core steps in a row, stopping at the first fault or refusal. -/
def coreRun : Nat → State → Host.Outcome State Fault Refusal
  | 0, s => .next s
  | n + 1, s =>
    match coreStep s with
    | .next t => coreRun n t
    | .fault f => .fault f
    | .refused r => .refused r

end Sys2Proof.Machine
end

