-- ==== Sys2Proof/Certificates/Slice0/Obligations.lean ====
section
/-! DEFINITION. The statements for the provers. Each says which rules of the spec it formalises; `w` is always the word a fault
reports. Where a statement has `State.Sound` or `State.Inv` as a premise, `StepKeepsInvariant` and `ResetIsInvariant` say that every
state of a run meets it. -/

open Sys2Proof Sys2Proof.Machine

/-! ### Encoding -/

/-- The encoding of spec/30_encoding.md R110 to R116 loses nothing: decoding the word of a well-formed command gives the command. -/
def Obligations.DecodeOfEncode : Prop := ∀ p i, i.wellFormed p = true → decode p (encode i) = .ok i

/-- Each word has one meaning, and only well-formed commands are decoded (spec/30_encoding.md R113, R114, R118). -/
def Obligations.EncodeOfDecode : Prop := ∀ p w i, decode p w = .ok i → encode i = w ∧ i.wellFormed p = true

/-- spec/30_encoding.md R117: an illegal word raises ILLEGAL_CMD with the word, before any effect; any other word runs. -/
def Obligations.IllegalWordsRaise : Prop :=
  ∀ s w k, s.seq = .running w k →
    (IllegalWord s.params w → Traps (coreStep s) .illegalCmd w s) ∧
    (¬ IllegalWord s.params w → ∃ i, decode s.params w = .ok i ∧ coreStep s = exec i s)

/-- spec/30_encoding.md R115: a word that runs is selected by the row of its mnemonic and by no other row; a word no row selects
does not run. -/
def Obligations.OpcodeMapSelects : Prop :=
  (∀ p w i, decode p w = .ok i → ∀ r ∈ opcodeMap, r.selects w ↔ r.mnemonic = i.mnemonic) ∧
    ∀ p w, (∀ r ∈ opcodeMap, ¬ r.selects w) → ∃ e, decode p w = .error e

/-- The words of the examples of spec/30_encoding.md R119 and R120. -/
def Obligations.ExampleWordsDecode : Prop :=
  decode Params.default 0x44100000 = .ok (.enc 0 256) ∧
  decode Params.default 0x47E41000 = .ok (.enc 31 65) ∧
  decode Params.default 0x80042000 = .ok (.csym 66) ∧
  decode Params.default 0x50400000 = .ok (.dec 2) ∧
  decode Params.default 0x80100000 = .ok (.csym 256) ∧
  decode Params.default 0x40000000 = .ok .cinit ∧
  decode Params.default 0x60000000 = .ok .minit ∧
  decode Params.default 0x53E00000 = .ok (.dec 31) ∧
  decode Params.default 0x44101000 = .ok (.enc 0 257)

/-! ### A step -/

/-- One step takes one turn of the interleaving (spec/20_memory.md R96, R99, the agenda being log 1's): a core turn runs the
command in SEQ (spec/60_exceptions.md R268), an idle core changes nothing (R268 gives it no step; that its turn is one that leaves the
state as it is, is the choice of log 18), a host turn is a host access, a reset turn resets (spec/70_reset_and_hazards.md R300,
spec/10_state.md R56). -/
def Obligations.StepTakesOneTurn : Prop :=
  (∀ s w k i, s.agenda = [] → s.seq = .running w k → decode s.params w = .ok i → step s = exec i s) ∧
  (∀ s rest w k i, s.agenda = .core :: rest → s.seq = .running w k → decode s.params w = .ok i →
    step s = exec i { s with agenda := rest }) ∧
  (∀ s, s.agenda = [] → s.seq = .idle → step s = .next s) ∧
  (∀ s rest, s.agenda = .core :: rest → s.seq = .idle → step s = .next { s with agenda := rest }) ∧
  (∀ s rest op, s.agenda = .host op :: rest → step s = hostStep op { s with agenda := rest }) ∧
  (∀ s rest, s.agenda = .rst :: rest → ∃ t, step s = .next t ∧ AtReset t ∧ t.params = s.params ∧ t.agenda = rest)

/-- The word that `withFetchWord` places is the one the next step runs, at its first primitive step (log 2). -/
def Obligations.FetchedWordRuns : Prop :=
  ∀ (s : State) n w i, decode s.params (BitVec.ofNat 32 w) = .ok i →
    step (s.withFetchWord n w) = exec i { s with seq := .running (BitVec.ofNat 32 w) .start }

/-! ### Faults, completion and the invariant -/

/-- spec/60_exceptions.md R261, R262: a fault raised by the core changes FAULT, FCODE, FAULT_INFO, FAULT_IP and SEQ and nothing
else; only a PENDING_OVERFLOW in RENORM_ENC also keeps LOW, HIGH, PENDING at `2^32 - 1`, the emitted bits and OUT_BITCNT (the list of
R266, read as complete: log 9). -/
def Obligations.FaultEntryIsPrecise : Prop :=
  ∀ s t w k f, s.seq = .running w k → s.fault = none → coreStep s = .next t → t.fault = some f →
    (∃ info, Faulted f info s t) ∨
      (f = .pendingOverflow ∧
        (w.toNat / 2 ^ 26 = 0x11 ∨ w.toNat / 2 ^ 26 = 0x20 ∨ w.toNat / 2 ^ 26 = 0x22) ∧
        ∃ low high bits info, t = { s with
          low := low, high := high, pending := 0xFFFFFFFF
          outBitQ := s.outBitQ ++ bits, outBitCnt := s.outBitCnt + BitVec.ofNat 32 bits.length
          fault := some .pendingOverflow, faultInfo := info, faultIp := true, seq := .idle })

/-- spec/60_exceptions.md R267: while FAULT = 1 nothing but SRST and reset clears FAULT, FCODE and FAULT_INFO or starts a command,
whatever the turn; command and input writes are ignored, CONFIG and IRQ writes work (clearing FAULT_IP leaves FAULT), and no read returns
an unspecified value. -/
def Obligations.FaultIsSticky : Prop :=
  ∀ s f, s.fault = some f → s.seq = .idle →
    (∀ t, step s = .next t → (∀ u ∈ s.agenda.head?, ¬ u.Resets) →
      t.fault = some f ∧ t.faultInfo = s.faultInfo ∧ t.seq = .idle) ∧
    (∀ w, w.toNat / 2 ^ 26 ≠ 1 → hostWrite 0x00 w s = s) ∧
    (∀ v, hostWrite 0x40 v s = s ∧ hostWrite 0x44 v s = s) ∧
    (∀ v, hostWrite 0x08 v s = { s with cfgOrder := BitVec.ofNat 6 v.toNat, cfgPrec := BitVec.ofNat 6 (v.toNat / 2 ^ 8) }) ∧
    (∀ v, hostWrite 0x38 v s = { s with doneIe := v.getLsbD 0, faultIe := v.getLsbD 1 }) ∧
    (∀ v, hostWrite 0x3C v s = { s with doneIp := s.doneIp && !v.getLsbD 0, faultIp := s.faultIp && !v.getLsbD 1 }) ∧
    (∀ off, (hostRead off s).draws = s.draws) ∧
    (∀ w, w.toNat / 2 ^ 26 = 1 → AtReset (hostWrite 0x00 w s))

/-- spec/60_exceptions.md R269: a core step of a running command either raises a fault, or completes the command, or, for a
driver only, goes on with the same word; DONE_IP is set by completion alone. -/
def Obligations.CoreStepFaultsCompletesOrGoesOn : Prop :=
  ∀ s t w k, s.seq = .running w k → s.fault = none → w.toNat / 2 ^ 26 ≠ 1 → coreStep s = .next t →
    (t.fault ≠ none ∧ t.seq = .idle ∧ t.faultIp = true ∧ t.doneIp = s.doneIp) ∨
    Completed s t ∨
    (SameFault s t ∧ t.doneIp = s.doneIp ∧ 0x20 ≤ w.toNat / 2 ^ 26 ∧ ∃ k', t.seq = .running w k')

/-- The core writes none of the host's registers: CONFIG, IRQ_EN and the parameters (spec/10_state.md R37, R50, R53). -/
def Obligations.CoreLeavesHostRegisters : Prop :=
  ∀ s t w k, s.seq = .running w k → w.toNat / 2 ^ 26 ≠ 1 → coreStep s = .next t → SameHost s t

/-- The faults a command can raise are those of its row in the table of spec/60_exceptions.md R263; an illegal word raises
ILLEGAL_CMD. -/
def Obligations.FaultsAreThoseOfTheTable : Prop :=
  ∀ s t w k f, s.Inv → s.seq = .running w k → coreStep s = .next t → t.fault = some f →
    (f = .illegalCmd ∧ ∃ e, decode s.params w = .error e) ∨ ∃ i, decode s.params w = .ok i ∧ mayRaise i f = true

/-- Every turn keeps the invariant: the tables partition their totals, every context table holds ESC and the root EOF, LOW, HIGH
and CODE stay in their bounds, HLEN and ORDER_ACT in theirs, the store and the input queues within their capacities, the sequencer
in a state of its command, and the core idle while FAULT = 1 (spec/10_state.md R31 to R45, spec/42_arithmetic_coder.md R177,
spec/43_ppm_context_model.md R205). -/
def Obligations.StepKeepsInvariant : Prop := ∀ s t, s.Inv → step s = .next t → t.Inv

/-- The state after reset meets the invariant, for all legal parameters (spec/00_scope.md R6, spec/10_state.md R56). -/
def Obligations.ResetIsInvariant : Prop := ∀ p, p.legal = true → (State.resetWith p).Inv

/-- In a state of the invariant the model never stops with a fault of its own (log 10, log 11), and it refuses only a host access
of another width, alignment or range (spec/20_memory.md R81; log 16). -/
def Obligations.OnlyBadAccessesStop : Prop :=
  ∀ s, s.Inv → (∃ t, step s = .next t) ∨
    ∃ op rest r, s.agenda = .host op :: rest ∧ step s = .refused r ∧
      (op.place.2 ≠ 4 ∨ op.place.1 % 4 ≠ 0 ∨ 0xFC < op.place.1)

/-! ### Reset -/

/-- spec/10_state.md R56, spec/70_reset_and_hazards.md R300, spec/45_system.md R251: the hardware reset, and an SRST word written to
CMD, whatever its low 26 bits, in the host step itself and in every state, leave every piece of state at its value of the table. -/
def Obligations.ResetValues : Prop :=
  AtReset State.reset ∧
  (∀ s rest, s.agenda = .rst :: rest → ∃ t, step s = .next t ∧ AtReset t ∧ t.params = s.params) ∧
  (∀ s w, w.toNat / 2 ^ 26 = 1 → ∃ t, hostStep (.write 0x00 4 w) s = .next t ∧ AtReset t ∧ t.params = s.params ∧
    t.agenda = s.agenda ∧ t.rdata = s.rdata)

/-- The model's choice (log 12): an SRST word that stands in SEQ, where no CMD write puts it, resets the block as well. -/
def Obligations.SrstInSequencerResets : Prop :=
  ∀ s ign, ∃ t, exec (.srst ign) s = .next t ∧ AtReset t ∧
    t = { State.resetWith s.params with agenda := s.agenda, rdata := s.rdata, draws := s.draws }

/-- spec/70_reset_and_hazards.md R301: with `CONFIG = 0x00002002`, CINIT and then MINIT leave coder and model as reset leaves them,
from every state. -/
def Obligations.ResetIsReadySession : Prop :=
  ∀ s : State, s.params.legal = true → s.configWord = 0x00002002 →
    ∃ u v, exec .cinit s = .next u ∧ exec .minit u = .next v ∧
      SameCoder (State.resetWith s.params) v ∧ SameModel (State.resetWith s.params) v ∧ SameQueues s v ∧ SameResult s v ∧
      SameFault s v ∧ SameHost s v

/-- The constant table M1 and the two seeds (spec/10_state.md R43, R44). -/
def Obligations.ConstantTables : Prop :=
  (Table.m1.syms = (List.range 256).map (fun b => BitVec.ofNat 9 b) ∧ Table.m1.total = 256 ∧ Table.m1.stale = false ∧
    Table.m1.ro = true ∧
    ∀ e ∈ Table.m1.alpha, e.cnt = 1 ∧ e.rlo.toNat = e.sym.toNat ∧ e.rhi.toNat = e.sym.toNat + 1) ∧
  Table.rootSeed = ⟨[⟨257, 1, 0, 1⟩, ⟨256, 1, 1, 2⟩], 2, false, false⟩ ∧
  Table.ctxSeed = ⟨[⟨257, 1, 0, 1⟩], 1, false, false⟩

/-! ### System commands -/

/-- spec/45_system.md R250: NOP completes and changes nothing else; a NOP word with any of bits 25:0 set is illegal. -/
def Obligations.NopOnlyCompletes : Prop :=
  FormatN 0x00 .nop ∧ ∀ s, exec .nop s = .next { s with seq := .idle, doneIp := true }

/-! ### Frequency table commands -/

/-- spec/41_frequency_table.md R142: what FADD does, and what it raises. -/
def Obligations.FaddAddsLazily : Prop :=
  FormatTS 0x08 .fadd ∧ ∀ s t x,
    let w := cmdWord 0x08 t.toNat x.toNat
    (∀ f, SelectRaises s t f → Traps (exec (.fadd t x) s) f w s) ∧
    (t = Tsel.m1 → Traps (exec (.fadd t x) s) .readOnlyTable w s) ∧
    ∀ k T c, Selects s t k T c →
      (T.ro = true → Traps (exec (.fadd t x) s) .readOnlyTable w s) ∧
      (T.ro = false → 2 ^ 32 - 1 < cntSum T.alpha + 1 → Traps (exec (.fadd t x) s) .countOverflow w s) ∧
      (T.ro = false → cntSum T.alpha + 1 ≤ 2 ^ 32 - 1 →
        ∃ T', AddedTo x T T' ∧ T'.stale = true ∧
          exec (.fadd t x) s = .next { s with
            seq := .idle, doneIp := true
            ctx := Store.put k T' s.ctx, draws := s.draws + 1
            result := ({ sym := x, created := c } : ResultFields).toWord
            res := ⟨0, 0, 0, BitVec.ofNat 32 (T'.count x)⟩ })

/-- spec/41_frequency_table.md R143: what FRECOMP does, and what it raises. -/
def Obligations.FrecompRebuildsRanges : Prop :=
  FormatT 0x09 .frecomp ∧ ∀ s t,
    let w := cmdWord 0x09 t.toNat 0
    (∀ f, SelectRaises s t f → Traps (exec (.frecomp t) s) f w s) ∧
    (t = Tsel.m1 → Traps (exec (.frecomp t) s) .readOnlyTable w s) ∧
    ∀ k T c, Selects s t k T c →
      (T.ro = true → Traps (exec (.frecomp t) s) .readOnlyTable w s) ∧
      (T.ro = false → cntSum T.alpha ≤ 2 ^ 32 - 1 →
        ∃ T', T'.syms = T.syms ∧ T'.alpha.map (fun e => e.cnt) = T.alpha.map (fun e => e.cnt) ∧ T'.ro = T.ro ∧ T'.Fresh ∧
          exec (.frecomp t) s = .next { s with
            seq := .idle, doneIp := true
            ctx := Store.put k T' s.ctx
            result := ({ created := c } : ResultFields).toWord
            res := ⟨0, 0, T'.total, BitVec.ofNat 32 T'.syms.length⟩ })

/-- spec/41_frequency_table.md R144, with the partition law R146: what FUPD does, and what it raises. -/
def Obligations.FupdAddsAndRebuilds : Prop :=
  FormatTS 0x0A .fupd ∧ ∀ s t x,
    let w := cmdWord 0x0A t.toNat x.toNat
    (∀ f, SelectRaises s t f → Traps (exec (.fupd t x) s) f w s) ∧
    (t = Tsel.m1 → Traps (exec (.fupd t x) s) .readOnlyTable w s) ∧
    ∀ k T c, Selects s t k T c →
      (T.ro = true → Traps (exec (.fupd t x) s) .readOnlyTable w s) ∧
      (T.ro = false → 2 ^ 32 - 1 < cntSum T.alpha + 1 → Traps (exec (.fupd t x) s) .countOverflow w s) ∧
      (T.ro = false → cntSum T.alpha + 1 ≤ 2 ^ 32 - 1 →
        ∃ T' e, AddedTo x T T' ∧ T'.Fresh ∧ T'.entry? x = some e ∧
          exec (.fupd t x) s = .next { s with
            seq := .idle, doneIp := true
            ctx := Store.put k T' s.ctx
            result := ({ sym := x, created := c } : ResultFields).toWord
            res := ⟨e.rlo, e.rhi, T'.total, e.cnt⟩ })

/-- spec/41_frequency_table.md R145: what FLOOK reports, for a context table, a table it creates and M1. -/
def Obligations.FlookReportsEntry : Prop :=
  FormatTS 0x0B .flook ∧ ∀ s t x,
    (∀ f, SelectRaises s t f → Traps (exec (.flook t x) s) f (cmdWord 0x0B t.toNat x.toNat) s) ∧
    ∀ T c m, Gives s t T c m →
      ∃ r : ResRegs,
        exec (.flook t x) s = .next { s with
          seq := .idle, doneIp := true
          ctx := m
          result := ({ sym := x, present := decide (x ∈ T.syms), created := c, stale := T.stale } : ResultFields).toWord
          res := r } ∧
        r.count = BitVec.ofNat 32 (T.count x) ∧
        (T.stale = true → r.rlow = 0 ∧ r.rhigh = 0 ∧ r.total = 0) ∧
        (T.stale = false → r.total = T.total ∧ (x ∉ T.syms → r.rlow = 0 ∧ r.rhigh = 0) ∧
          ∀ e, T.entry? x = some e → r.rlow = e.rlo ∧ r.rhigh = e.rhi)

/-! ### Coder commands -/

/-- spec/42_arithmetic_coder.md R170: what CINIT does, and what it raises. -/
def Obligations.CinitStartsSession : Prop :=
  FormatN 0x10 .cinit ∧ ∀ s,
    (s.cfgPrec.toNat < 2 ∨ 32 < s.cfgPrec.toNat → Traps (exec .cinit s) .badConfig 0x40000000 s) ∧
    (2 ≤ s.cfgPrec.toNat → s.cfgPrec.toNat ≤ 32 →
      exec .cinit s = .next { s with
        seq := .idle, doneIp := true
        pAct := s.cfgPrec, low := 0, high := BitVec.ofNat 32 (2 ^ s.cfgPrec.toNat - 1), pending := 0, code := 0
        outBitCnt := 0, inBitCnt := 0 })

/-- spec/42_arithmetic_coder.md R171 with R161, R162, R163: what ENC does, and what it raises; a PENDING_OVERFLOW keeps the passes
before it, and no created table (log 9). -/
def Obligations.EncCodesSymbol : Prop :=
  FormatTS 0x11 .enc ∧ ∀ s t x,
    let w := cmdWord 0x11 t.toNat x.toNat
    (∀ f, SelectRaises s t f → Traps (exec (.enc t x) s) f w s) ∧
    ∀ T c m, Gives s t T c m →
      (T.stale = true → Traps (exec (.enc t x) s) .staleTable w s) ∧
      (T.stale = false → T.total = 0 → Traps (exec (.enc t x) s) .zeroTotal w s) ∧
      (T.stale = false → T.total ≠ 0 → x ∉ T.syms → Traps (exec (.enc t x) s) .symbolAbsent w s) ∧
      ∀ e, s.Sound → T.stale = false → T.entry? x = some e →
        let P := s.pAct.toNat
        let nl := narrowLow s.low.toNat s.high.toNat e.rlo.toNat T.total.toNat
        let ne := narrowEnd s.low.toNat s.high.toNat e.rhi.toNat T.total.toNat
        (ne ≤ nl → Traps (exec (.enc t x) s) .intervalCollapse w s) ∧
        (nl < ne → ∃ r, EncPasses P ⟨nl, ne - 1, s.pending.toNat, []⟩ r ∧
          ((Settled P r.low r.high ∧
            exec (.enc t x) s = .next { s with
              seq := .idle, doneIp := true
              ctx := m, low := BitVec.ofNat 32 r.low, high := BitVec.ofNat 32 r.high, pending := BitVec.ofNat 32 r.pending
              outBitQ := s.outBitQ ++ r.out, outBitCnt := s.outBitCnt + BitVec.ofNat 32 r.out.length
              result := ({ sym := x, valid := true, created := c } : ResultFields).toWord
              res := ⟨e.rlo, e.rhi, T.total, e.cnt⟩ }) ∨
          (PendingFull P r ∧
            exec (.enc t x) s = .next { s with
              low := BitVec.ofNat 32 r.low, high := BitVec.ofNat 32 r.high, pending := 0xFFFFFFFF
              outBitQ := s.outBitQ ++ r.out, outBitCnt := s.outBitCnt + BitVec.ofNat 32 r.out.length
              fault := some .pendingOverflow, faultInfo := w, faultIp := true, seq := .idle })))

/-- When ENC completes (spec/42_arithmetic_coder.md R165, R167): the table is not stale and holds the symbol, its total fits the
interval, and PENDING has room for `P_ACT` passes. -/
def Obligations.EncCompletes : Prop :=
  ∀ s t x T c m, s.Sound → Gives s t T c m → T.stale = false → x ∈ T.syms →
    T.total.toNat ≤ s.high.toNat - s.low.toNat + 1 → s.pending.toNat + s.pAct.toNat < 2 ^ 32 - 1 →
    ∃ u, exec (.enc t x) s = .next u ∧ Completed s u ∧ u.ctx = m ∧ u.hist = s.hist ∧ u.pAct = s.pAct ∧
      u.pending.toNat ≤ s.pending.toNat + s.pAct.toNat ∧ Settled s.pAct.toNat u.low.toNat u.high.toNat ∧
      s.outBitQ <+: u.outBitQ ∧ u.outBitQ.length ≤ s.outBitQ.length + 2 * s.pAct.toNat + s.pending.toNat

/-- spec/42_arithmetic_coder.md R172: what FIN does, and what it raises. -/
def Obligations.FinFlushes : Prop :=
  FormatN 0x12 .fin ∧ ∀ s,
    (s.pending = 0xFFFFFFFF → Traps (exec .fin s) .pendingOverflow 0x48000000 s) ∧
    (s.pending ≠ 0xFFFFFFFF →
      let b := decide (2 ^ (s.pAct.toNat - 2) ≤ s.low.toNat)
      exec .fin s = .next { s with
        seq := .idle, doneIp := true
        pending := 0
        outBitQ := s.outBitQ ++ b :: List.replicate (s.pending.toNat + 1) (!b)
        outBitCnt := s.outBitCnt + BitVec.ofNat 32 (s.pending.toNat + 2) })

/-- spec/42_arithmetic_coder.md R173 with R164: DPRIME loads CODE with the first `P_ACT` bits of IN_BITQ, zeros after its end. -/
def Obligations.DprimeLoadsCode : Prop :=
  FormatN 0x13 .dprime ∧ ∀ s,
    let P := s.pAct.toNat
    exec .dprime s = .next { s with
      seq := .idle, doneIp := true
      code := BitVec.ofNat 32 (((s.inBitQ ++ List.replicate P false).take P).foldl (fun v b => 2 * v + b.toNat) 0)
      inBitQ := s.inBitQ.drop P
      inBitCnt := s.inBitCnt + BitVec.ofNat 32 (min P s.inBitQ.length) }

/-- spec/42_arithmetic_coder.md R174 with R161, R166: what DEC does, and what it raises; STREAM_CORRUPT exactly when CODE is
outside `[LOW, HIGH]`. -/
def Obligations.DecDecodesSymbol : Prop :=
  FormatT 0x14 .dec ∧ ∀ s t,
    let w := cmdWord 0x14 t.toNat 0
    (∀ f, SelectRaises s t f → Traps (exec (.dec t) s) f w s) ∧
    ∀ T c m, Gives s t T c m →
      (T.stale = true → Traps (exec (.dec t) s) .staleTable w s) ∧
      (T.stale = false → T.total = 0 → Traps (exec (.dec t) s) .zeroTotal w s) ∧
      (s.Sound → T.stale = false → T.total ≠ 0 →
        let P := s.pAct.toNat
        let value := ((s.code.toNat - s.low.toNat + 1) * T.total.toNat - 1) / (s.high.toNat - s.low.toNat + 1)
        (s.code.toNat < s.low.toNat ∨ s.high.toNat < s.code.toNat → Traps (exec (.dec t) s) .streamCorrupt w s) ∧
        (s.low.toNat ≤ s.code.toNat → s.code.toNat ≤ s.high.toNat →
          ∃ e r, e ∈ T.alpha ∧ e.rlo.toNat ≤ value ∧ value < e.rhi.toNat ∧
            DecPasses P ⟨narrowLow s.low.toNat s.high.toNat e.rlo.toNat T.total.toNat,
              narrowEnd s.low.toNat s.high.toNat e.rhi.toNat T.total.toNat - 1, s.code.toNat, s.inBitQ⟩ r ∧
            Settled P r.low r.high ∧
            exec (.dec t) s = .next { s with
              seq := .idle, doneIp := true
              ctx := m, low := BitVec.ofNat 32 r.low, high := BitVec.ofNat 32 r.high, code := BitVec.ofNat 32 r.code
              inBitQ := r.bits, inBitCnt := s.inBitCnt + BitVec.ofNat 32 (s.inBitQ.length - r.bits.length)
              result := ({ sym := e.sym, valid := true, created := c } : ResultFields).toWord
              res := ⟨e.rlo, e.rhi, T.total, e.cnt⟩ }))

/-! ### Model commands -/

/-- spec/43_ppm_context_model.md R200: what MINIT does, and what it raises. -/
def Obligations.MinitStartsModel : Prop :=
  FormatN 0x18 .minit ∧ ∀ s,
    (s.cfgOrder.toInt < -1 ∨ (s.params.maxOrder : Int) < s.cfgOrder.toInt → Traps (exec .minit s) .badConfig 0x60000000 s) ∧
    (-1 ≤ s.cfgOrder.toInt → s.cfgOrder.toInt ≤ s.params.maxOrder →
      exec .minit s = .next { s with
        seq := .idle, doneIp := true
        orderAct := s.cfgOrder, hist := []
        ctx := [([], ⟨[⟨257, 1, 0, 1⟩, ⟨256, 1, 1, 2⟩], 2, false, false⟩)] })

/-- spec/43_ppm_context_model.md R202: what PGET does, and what it raises. -/
def Obligations.PgetSelectsAndReports : Prop :=
  FormatT 0x19 .pget ∧ ∀ s t,
    (∀ f, SelectRaises s t f → Traps (exec (.pget t) s) f (cmdWord 0x19 t.toNat 0) s) ∧
    ∀ T c m, Gives s t T c m →
      exec (.pget t) s = .next { s with
        seq := .idle, doneIp := true
        ctx := m
        result := ({ created := c, stale := T.stale } : ResultFields).toWord
        res := ⟨0, 0, if T.stale then 0 else T.total, BitVec.ofNat 32 T.syms.length⟩ }

/-- spec/43_ppm_context_model.md R203: what HPUSH does, and what it raises. -/
def Obligations.HpushAdvancesHistory : Prop :=
  FormatS 0x1B .hpush ∧ ∀ s x,
    (255 < x.toNat → Traps (exec (.hpush x) s) .badSymbol (cmdWord 0x1B 0 x.toNat) s) ∧
    (x.toNat ≤ 255 → ∃ h,
      exec (.hpush x) s = .next { s with seq := .idle, doneIp := true, hist := h } ∧
      (s.orderAct.toInt ≤ 0 → h = []) ∧
      (0 < s.orderAct.toInt →
        SuffixOf (s.hist ++ [BitVec.ofNat 8 x.toNat]) (min (s.hist.length + 1) s.orderAct.toInt.toNat) h))

/-- spec/43_ppm_context_model.md R204: what PUPD does to the context of every order, and what it raises before it changes
anything. -/
def Obligations.PupdUpdatesEveryOrder : Prop :=
  FormatS 0x1A .pupd ∧ ∀ s x,
    let w := cmdWord 0x1A 0 x.toNat
    let keys := (List.range (min s.hist.length s.orderAct.toInt.toNat + 1)).map (last s.hist)
    let new := (keys.filter fun k => (Store.get k s.ctx).isNone).length
    (255 < x.toNat → Traps (exec (.pupd x) s) .badSymbol w s) ∧
    (x.toNat ≤ 255 → s.orderAct.toInt < 0 → exec (.pupd x) s = .next { s with seq := .idle, doneIp := true }) ∧
    (x.toNat ≤ 255 → 0 ≤ s.orderAct.toInt → ¬ within (s.ctx.length + new) s.params.ctxCapacity →
      Traps (exec (.pupd x) s) .ctxFull w s) ∧
    (x.toNat ≤ 255 → 0 ≤ s.orderAct.toInt → within (s.ctx.length + new) s.params.ctxCapacity →
      (∃ k ∈ keys, ∃ T, Store.get k s.ctx = some T ∧ 2 ^ 32 - 1 < cntSum T.alpha + 1) →
      Traps (exec (.pupd x) s) .countOverflow w s) ∧
    (s.Sound → x.toNat ≤ 255 → 0 ≤ s.orderAct.toInt → within (s.ctx.length + new) s.params.ctxCapacity →
      (∀ k ∈ keys, ∀ T, Store.get k s.ctx = some T → cntSum T.alpha + 1 ≤ 2 ^ 32 - 1) →
      ∃ m, exec (.pupd x) s = .next { s with seq := .idle, doneIp := true, ctx := m } ∧
        Store.wf m ∧ m.length = s.ctx.length + new ∧
        (∀ k, k ∉ keys → Store.get k m = Store.get k s.ctx) ∧
        ∀ k ∈ keys, ∃ T T', (Store.get k s.ctx = some T ∨ (Store.get k s.ctx = none ∧ SeedOf k T)) ∧
          Store.get k m = some T' ∧ AddedTo x T T' ∧ T'.Fresh)

/-! ### CSYM and DSYM -/

/-- spec/44_drivers.md R221, R225: the steps of CSYM. Step 0 chooses the phase; DESC and FALL do what `ENC` does in that step,
RESULT apart; UPD and PUSH do what PUPD and HPUSH do; DONE reports and completes. A step whose body faults ends as that command
ends. -/
def Obligations.CsymSteps : Prop :=
  FormatS 0x20 .csym ∧ ∀ s x, s.Sound → s.fault = none →
    let w := cmdWord 0x20 0 x.toNat
    (s.seq = .running w .start →
      (x = Sym.esc → Traps (exec (.csym x) s) .badSymbol w s) ∧
      (x ≠ Sym.esc → exec (.csym x) s = .next { s with
        seq := .running w (.sym ⟨if s.orderAct.toInt < 0 then .fall
          else .desc (BitVec.ofNat 5 (min s.hist.length s.orderAct.toInt.toNat)), 0, false⟩) })) ∧
    (∀ o e cr, s.seq = .running w (.sym ⟨.desc o, e, cr⟩) → o.toNat ≤ s.hist.length →
      (∀ f, SelectRaises s o f → exec (.csym x) s = exec (.enc o Sym.esc) s) ∧
      ∀ T c m, Gives s o T c m → ∀ u, exec (.enc o (if x ∈ T.syms then x else Sym.esc)) s = .next u →
        (u.fault ≠ none → exec (.csym x) s = .next u) ∧
        (u.fault = none → exec (.csym x) s = .next { u with
          doneIp := s.doneIp, result := s.result, res := s.res
          seq := .running w (.sym
            ⟨if x ∈ T.syms then (if x = Sym.eof then .done x u.res else .upd x u.res) else if o = 0 then .fall else .desc (o - 1),
              if x ∈ T.syms then e else e + 1, cr || c⟩) })) ∧
    (∀ e cr, s.seq = .running w (.sym ⟨.fall, e, cr⟩) →
      ∀ u, exec (.enc (if x = Sym.eof then 0 else Tsel.m1) x) s = .next u →
        (u.fault ≠ none → exec (.csym x) s = .next u) ∧
        (u.fault = none → exec (.csym x) s = .next { u with
          doneIp := s.doneIp, result := s.result, res := s.res
          seq := .running w (.sym ⟨if x = Sym.eof then .done x u.res else .upd x u.res, e, cr⟩) })) ∧
    (∀ y tl e cr, s.seq = .running w (.sym ⟨.upd y tl, e, cr⟩) →
      ∀ u, exec (.pupd y) s = .next u →
        (u.fault ≠ none → exec (.csym x) s = .next u) ∧
        (u.fault = none → exec (.csym x) s = .next { u with
          doneIp := s.doneIp
          seq := .running w (.sym ⟨.push y tl, e, cr || decide (s.ctx.length < u.ctx.length)⟩) })) ∧
    (∀ y tl e cr, s.seq = .running w (.sym ⟨.push y tl, e, cr⟩) →
      ∀ u, exec (.hpush y) s = .next u →
        (u.fault ≠ none → exec (.csym x) s = .next u) ∧
        (u.fault = none → exec (.csym x) s = .next { u with
          doneIp := s.doneIp, seq := .running w (.sym ⟨.done y tl, e, cr⟩) })) ∧
    (∀ y tl e cr, s.seq = .running w (.sym ⟨.done y tl, e, cr⟩) →
      exec (.csym x) s = .next { s with
        seq := .idle, doneIp := true
        result := ({ sym := y, valid := true, created := cr, eof := decide (y = Sym.eof), escapes := BitVec.ofNat 5 e } :
          ResultFields).toWord
        res := tl })

/-- spec/44_drivers.md R222, R225: the steps of DSYM. DESC and FALL do what `DEC` does in that step, RESULT apart; at order -1
FALL raises ORDER_M1_DECODE; DONE outputs the byte, reports and completes. -/
def Obligations.DsymSteps : Prop :=
  FormatN 0x21 .dsym ∧ ∀ s, s.Sound → s.fault = none →
    let w := cmdWord 0x21 0 0
    (s.seq = .running w .start →
      exec .dsym s = .next { s with
        seq := .running w (.sym ⟨if s.orderAct.toInt < 0 then .fall
          else .desc (BitVec.ofNat 5 (min s.hist.length s.orderAct.toInt.toNat)), 0, false⟩) }) ∧
    (∀ o e cr, s.seq = .running w (.sym ⟨.desc o, e, cr⟩) →
      ∀ u, exec (.dec o) s = .next u →
        (u.fault ≠ none → exec .dsym s = .next u) ∧
        (u.fault = none →
          let y : Sym := u.result.setWidth 9
          exec .dsym s = .next { u with
            doneIp := s.doneIp, result := s.result, res := s.res
            seq := .running w (.sym
              ⟨if y ≠ Sym.esc then (if y = Sym.eof then .done y u.res else .upd y u.res) else if o = 0 then .fall else .desc (o - 1),
                if y ≠ Sym.esc then e else e + 1, cr || u.result.getLsbD 11⟩) })) ∧
    (∀ e cr, s.seq = .running w (.sym ⟨.fall, e, cr⟩) →
      (s.orderAct.toInt < 0 → Traps (exec .dsym s) .orderM1Decode 0x53E00000 s) ∧
      (0 ≤ s.orderAct.toInt → ∀ u, exec (.dec Tsel.m1) s = .next u →
        (u.fault ≠ none → exec .dsym s = .next u) ∧
        (u.fault = none → exec .dsym s = .next { u with
          doneIp := s.doneIp, result := s.result, res := s.res
          seq := .running w (.sym ⟨.upd (u.result.setWidth 9) u.res, e, cr⟩) }))) ∧
    (∀ y tl e cr, s.seq = .running w (.sym ⟨.upd y tl, e, cr⟩) →
      ∀ u, exec (.pupd y) s = .next u →
        (u.fault ≠ none → exec .dsym s = .next u) ∧
        (u.fault = none → exec .dsym s = .next { u with
          doneIp := s.doneIp
          seq := .running w (.sym ⟨.push y tl, e, cr || decide (s.ctx.length < u.ctx.length)⟩) })) ∧
    (∀ y tl e cr, s.seq = .running w (.sym ⟨.push y tl, e, cr⟩) →
      ∀ u, exec (.hpush y) s = .next u →
        (u.fault ≠ none → exec .dsym s = .next u) ∧
        (u.fault = none → exec .dsym s = .next { u with
          doneIp := s.doneIp, seq := .running w (.sym ⟨.done y tl, e, cr⟩) })) ∧
    (∀ y tl e cr, s.seq = .running w (.sym ⟨.done y tl, e, cr⟩) →
      exec .dsym s = .next { s with
        seq := .idle, doneIp := true
        outByteQ := if y = Sym.eof then s.outByteQ else s.outByteQ ++ [BitVec.ofNat 8 y.toNat]
        result := ({ sym := y, valid := true, created := cr, eof := decide (y = Sym.eof), escapes := BitVec.ofNat 5 e } :
          ResultFields).toWord
        res := tl })

/-- CSYM and DSYM end, complete or with a fault: step 0, then at most `START + 2` coder steps (one DESC for each order from START
down, FALL), then at most the 3 further steps UPD, PUSH and DONE (spec/44_drivers.md R221, R222, R225, R226,
spec/70_reset_and_hazards.md R315, R316). That R315 does not count step 0 is the reading of log 13. -/
def Obligations.SymbolCommandsEnd : Prop :=
  ∀ s w i, s.Inv → s.seq = .running w .start → decode s.params w = .ok i → ((∃ x, i = .csym x) ∨ i = .dsym) →
    let start : Int := if s.orderAct.toInt < 0 then -1 else min s.hist.length s.orderAct.toInt
    ∃ (n : Nat) (t : State), (n : Int) ≤ 1 + (start + 2) + 3 ∧ coreRun n s = .next t ∧ t.seq = .idle ∧
      (Completed s t ∨ t.fault ≠ none)

/-- When a whole CSYM completes (spec/44_drivers.md R221, spec/42_arithmetic_coder.md R167): no table is stale, every total and 256
are at most `QUARTER + 2`, the interval is settled, PENDING has room, and the store is unbounded. -/
def Obligations.CsymCompletes : Prop :=
  ∀ s x, s.Inv → s.seq = .running (cmdWord 0x20 0 x.toNat) .start → (x.toNat ≤ 255 ∨ x = Sym.eof) →
    s.params.ctxCapacity = none → 10 ≤ s.pAct.toNat → Settled s.pAct.toNat s.low.toNat s.high.toNat →
    s.pending.toNat + s.pAct.toNat * (s.hist.length + 2) < 2 ^ 32 - 1 →
    (∀ q ∈ s.ctx, q.2.stale = false ∧ q.2.total.toNat ≤ 2 ^ (s.pAct.toNat - 2) + 2) →
    ∃ n t, n ≤ s.hist.length + 6 ∧ coreRun n s = .next t ∧ Completed s t ∧ t.result.setWidth 9 = x ∧
      t.result.getLsbD 9 = true ∧ t.inByteQ = s.inByteQ ∧ t.outByteQ = s.outByteQ ∧ s.outBitQ <+: t.outBitQ

/-- When a whole DSYM completes (spec/44_drivers.md R222): the order is not -1, no table is stale, CODE is in the interval, no count
sum is full, and the store is unbounded. It outputs at most the decoded byte. -/
def Obligations.DsymCompletes : Prop :=
  ∀ s, s.Inv → s.seq = .running 0x84000000 .start → 0 ≤ s.orderAct.toInt → s.params.ctxCapacity = none →
    s.low.toNat ≤ s.code.toNat → s.code.toNat ≤ s.high.toNat →
    (∀ q ∈ s.ctx, q.2.stale = false ∧ cntSum q.2.alpha + 1 ≤ 2 ^ 32 - 1) →
    ∃ n t, n ≤ s.hist.length + 6 ∧ coreRun n s = .next t ∧ Completed s t ∧ t.result.getLsbD 9 = true ∧
      t.low.toNat ≤ t.code.toNat ∧ t.code.toNat ≤ t.high.toNat ∧
      ((t.result.getLsbD 12 = true ∧ t.outByteQ = s.outByteQ) ∨
        ∃ b : Byte, t.result.setWidth 8 = b ∧ t.result.getLsbD 8 = false ∧ t.outByteQ = s.outByteQ ++ [b])

/-! ### COMPRESS and DECOMPRESS -/

/-- spec/44_drivers.md R223, R231: the stages of COMPRESS. CINIT_BODY, MINIT_BODY and FIN_BODY do what those commands do; a symbol's
step 0 takes its byte from IN_BYTEQ; inside a symbol each step is CSYM's; the last step completes the command. -/
def Obligations.CompressStages : Prop :=
  FormatN 0x22 .compress ∧ ∀ s, s.fault = none →
    let w := cmdWord 0x22 0 0
    (s.seq = .running w .start → ∀ u, exec .cinit s = .next u →
      (u.fault ≠ none → exec .compress s = .next u) ∧
      (u.fault = none → exec .compress s = .next { u with doneIp := s.doneIp, seq := .running w .cMinit })) ∧
    (s.seq = .running w .cMinit → ∀ u, exec .minit s = .next u →
      (u.fault ≠ none → exec .compress s = .next u) ∧
      (u.fault = none → exec .compress s = .next { u with doneIp := s.doneIp, seq := .running w .cNext })) ∧
    (s.seq = .running w .cNext →
      let k : SymLoop := ⟨if s.orderAct.toInt < 0 then .fall
        else .desc (BitVec.ofNat 5 (min s.hist.length s.orderAct.toInt.toNat)), 0, false⟩
      (∀ b rest, s.inByteQ = b :: rest →
        exec .compress s = .next { s with inByteQ := rest, seq := .running w (.cSym (BitVec.ofNat 9 b.toNat) k) }) ∧
      (s.inByteQ = [] → exec .compress s = .next { s with seq := .running w (.cSym Sym.eof k) })) ∧
    (∀ x k, s.seq = .running w (.cSym x k) →
      ∀ u, exec (.csym x) { s with seq := .running (cmdWord 0x20 0 x.toNat) (.sym k) } = .next u →
        (u.fault ≠ none → exec .compress s = .next u) ∧
        (∀ k', u.seq = .running (cmdWord 0x20 0 x.toNat) (.sym k') →
          exec .compress s = .next { u with seq := .running w (.cSym x k') }) ∧
        (u.fault = none → u.seq = .idle →
          exec .compress s = .next { u with doneIp := s.doneIp, seq := .running w (if x = Sym.eof then .cFin else .cNext) })) ∧
    (s.seq = .running w .cFin → exec .compress s = exec .fin s ∧
      (s.pending ≠ 0xFFFFFFFF → ∃ t, exec .compress s = .next t ∧ Completed s t))

/-- spec/44_drivers.md R224, R231: the stages of DECOMPRESS. CINIT_BODY, MINIT_BODY and DPRIME_BODY do what those commands do; inside
a symbol each step is DSYM's; after EOF IN_BITQ is emptied and the command completes. -/
def Obligations.DecompressStages : Prop :=
  FormatN 0x23 .decompress ∧ ∀ s, s.fault = none →
    let w := cmdWord 0x23 0 0
    let v := cmdWord 0x21 0 0
    (s.seq = .running w .start → ∀ u, exec .cinit s = .next u →
      (u.fault ≠ none → exec .decompress s = .next u) ∧
      (u.fault = none → exec .decompress s = .next { u with doneIp := s.doneIp, seq := .running w .dMinit })) ∧
    (s.seq = .running w .dMinit → ∀ u, exec .minit s = .next u →
      (u.fault ≠ none → exec .decompress s = .next u) ∧
      (u.fault = none → exec .decompress s = .next { u with doneIp := s.doneIp, seq := .running w .dPrime })) ∧
    (s.seq = .running w .dPrime → ∀ u, exec .dprime s = .next u →
      exec .decompress s = .next { u with doneIp := s.doneIp, seq := .running w .dNext }) ∧
    (s.seq = .running w .dNext →
      exec .decompress s = .next { s with
        seq := .running w (.dSym ⟨if s.orderAct.toInt < 0 then .fall
          else .desc (BitVec.ofNat 5 (min s.hist.length s.orderAct.toInt.toNat)), 0, false⟩) }) ∧
    (∀ k, s.seq = .running w (.dSym k) →
      ∀ u, exec .dsym { s with seq := .running v (.sym k) } = .next u →
        (u.fault ≠ none → exec .decompress s = .next u) ∧
        (∀ k', u.seq = .running v (.sym k') → exec .decompress s = .next { u with seq := .running w (.dSym k') }) ∧
        (u.fault = none → u.seq = .idle →
          exec .decompress s = .next { u with
            doneIp := s.doneIp, seq := .running w (if u.result.getLsbD 12 then .dClear else .dNext) })) ∧
    (s.seq = .running w .dClear → exec .decompress s = .next { s with inBitQ := [], seq := .idle, doneIp := true })

/-- Every COMPRESS ends, complete or with a fault, within a bound linear in its input (spec/44_drivers.md R226,
spec/70_reset_and_hazards.md R316). -/
def Obligations.CompressEnds : Prop :=
  ∀ s, s.Inv → s.seq = .running 0x88000000 .start →
    ∃ n t, n ≤ 3 + (s.inByteQ.length + 1) * (s.params.maxOrder + 6) ∧ coreRun n s = .next t ∧ t.seq = .idle ∧
      (Completed s t ∨ t.fault ≠ none)

/-- When COMPRESS completes (spec/44_drivers.md R223, R228): legal CONFIG with `PREC ≥ 10`, an input of at most `2^(PREC - 2)` and
`2^20` bytes, an unbounded store. It consumes the whole of IN_BYTEQ. -/
def Obligations.CompressCompletes : Prop :=
  ∀ s, s.Inv → s.seq = .running 0x88000000 .start → s.params.ctxCapacity = none →
    10 ≤ s.cfgPrec.toNat → s.cfgPrec.toNat ≤ 32 → -1 ≤ s.cfgOrder.toInt → s.cfgOrder.toInt ≤ s.params.maxOrder →
    s.inByteQ.length ≤ 2 ^ (s.cfgPrec.toNat - 2) → s.inByteQ.length ≤ 2 ^ 20 →
    ∃ n t, coreRun n s = .next t ∧ Completed s t ∧ t.inByteQ = [] ∧ t.inBitQ = s.inBitQ ∧ t.outByteQ = s.outByteQ ∧
      s.outBitQ <+: t.outBitQ

/-- The empty stream (spec/44_drivers.md R223, R224, their examples, at every order and precision): COMPRESS of no bytes emits `101`
and reports EOF; a DECOMPRESS whose stream starts with a 1 decodes EOF at once, outputs nothing and discards the stream. -/
def Obligations.EmptyStream : Prop :=
  (∀ s, s.Inv → s.seq = .running 0x88000000 .start → s.inByteQ = [] →
    2 ≤ s.cfgPrec.toNat → s.cfgPrec.toNat ≤ 32 → -1 ≤ s.cfgOrder.toInt → s.cfgOrder.toInt ≤ s.params.maxOrder →
    ∃ n t, coreRun n s = .next t ∧ Completed s t ∧ t.outBitQ = s.outBitQ ++ [true, false, true] ∧ t.outBitCnt = 3 ∧
      t.result = 0x1300 ∧ t.res = ⟨1, 2, 2, 1⟩) ∧
  (∀ s rest, s.Inv → s.seq = .running 0x8C000000 .start → s.inBitQ = true :: rest →
    2 ≤ s.cfgPrec.toNat → s.cfgPrec.toNat ≤ 32 → 0 ≤ s.cfgOrder.toInt → s.cfgOrder.toInt ≤ s.params.maxOrder →
    ∃ n t, coreRun n s = .next t ∧ Completed s t ∧ t.outByteQ = s.outByteQ ∧ t.inBitQ = [] ∧ t.result = 0x1300 ∧
      t.res = ⟨1, 2, 2, 1⟩)

/-- Every DECOMPRESS ends and outputs at most `2^32 - 3` bytes (spec/44_drivers.md R233, spec/70_reset_and_hazards.md R316). -/
def Obligations.DecompressEnds : Prop :=
  ∀ s, s.Inv → s.seq = .running 0x8C000000 .start →
    ∃ n t, coreRun n s = .next t ∧ t.seq = .idle ∧ (Completed s t ∨ t.fault ≠ none) ∧
      t.outByteQ.length ≤ s.outByteQ.length + (2 ^ 32 - 3)

/-! ### Laws of the coder -/

/-- The lockstep law of spec/42_arithmetic_coder.md R176, for sessions whose tables change between the pairs by the ENCs and DECs
alone, that is by the contexts they create (R176 allows other equal updates as well): an encoder and a decoder start a session with equal tables, the encoder's
ENCs and FIN complete, and the decoder's IN_BITQ holds the emitted bits and any number of zeros. Then, after DPRIME, each DEC
returns the symbol, and LOW and HIGH stay equal. -/
def Obligations.EncDecLockstep : Prop :=
  ∀ ops s u v d₀ d bits z, s.Sound → d₀.Sound → s.fault = none → d₀.fault = none →
    d₀.params = s.params → d₀.pAct = s.pAct → d₀.hist = s.hist → d₀.ctx = s.ctx →
    s.low = 0 → s.high.toNat = 2 ^ s.pAct.toNat - 1 → s.pending = 0 → d₀.low = s.low → d₀.high = s.high →
    EncodesAll ops s u → exec .fin u = .next v → v.fault = none → v.outBitQ = s.outBitQ ++ bits →
    d₀.inBitQ = bits ++ List.replicate z false → exec .dprime d₀ = .next d →
    DecodesBeside ops s d

/-- The round trip (spec/44_drivers.md R228, with the model lockstep of R227): a COMPRESS of the bytes of IN_BYTEQ that completes at
an order of at least 0 emits bits that a DECOMPRESS at the same CONFIG, zeros after them, decodes to exactly those bytes,
completing, with the same contexts and history at the end. -/
def Obligations.DecompressOfCompress : Prop :=
  ∀ s t d n bits z, s.Inv → d.Inv → s.seq = .running 0x88000000 .start → d.seq = .running 0x8C000000 .start →
    d.params = s.params → d.cfgOrder = s.cfgOrder → d.cfgPrec = s.cfgPrec → 0 ≤ s.cfgOrder.toInt →
    coreRun n s = .next t → Completed s t → t.outBitQ = s.outBitQ ++ bits → d.inBitQ = bits ++ List.replicate z false →
    ∃ m u, coreRun m d = .next u ∧ Completed d u ∧ u.outByteQ = d.outByteQ ++ s.inByteQ ∧ u.inBitQ = [] ∧
      u.ctx = t.ctx ∧ u.hist = t.hist

/-! ### The register window -/

/-- spec/20_memory.md R81, spec/60_exceptions.md R275: an access of another width or at an unaligned offset is refused; every
aligned 32-bit access to the window is performed. -/
def Obligations.AccessWidthAndAlignment : Prop :=
  ∀ s op,
    (op.place.2 ≠ 4 ∨ op.place.1 % 4 ≠ 0 → ∃ r, hostStep op s = .refused r) ∧
    (op.place.2 = 4 → op.place.1 % 4 = 0 → op.place.1 ≤ 0xFC → ∃ t, hostStep op s = .next t)

/-- spec/20_memory.md R86: what a CMD write does, and that a read of CMD returns 0. -/
def Obligations.CmdWriteStartsCommand : Prop :=
  (∀ s, s.seq = .idle → hostStep (.read 0x00 4) s = .next { s with rdata := 0 }) ∧ ∀ s w, ∃ t, hostStep (.write 0x00 4 w) s = .next t ∧
    (w.toNat / 2 ^ 26 = 1 → AtReset t) ∧
    (w.toNat / 2 ^ 26 ≠ 1 → s.fault ≠ none → t = s) ∧
    (w.toNat / 2 ^ 26 ≠ 1 → s.fault = none → s.seq ≠ .idle → Faulted .hostProtocol 0x00 s t) ∧
    (w.toNat / 2 ^ 26 ≠ 1 → s.fault = none → s.seq = .idle → t = { s with seq := .running w .start })

/-- spec/20_memory.md R87, R88: what the input writes do. -/
def Obligations.InputWritesPush : Prop :=
  ∀ s v,
    (∃ t, hostStep (.write 0x40 4 v) s = .next t ∧
      (s.fault ≠ none → t = s) ∧
      (s.fault = none → s.seq ≠ .idle → Faulted .hostProtocol 0x40 s t) ∧
      (s.fault = none → s.seq = .idle → s.params.inByteDepth = some s.inByteQ.length → Faulted .hostProtocol 0x40 s t) ∧
      (s.fault = none → s.seq = .idle → s.params.inByteDepth ≠ some s.inByteQ.length →
        t = { s with inByteQ := s.inByteQ ++ [BitVec.ofNat 8 v.toNat] })) ∧
    (∃ t, hostStep (.write 0x44 4 v) s = .next t ∧
      (s.fault ≠ none → t = s) ∧
      (s.fault = none → s.seq ≠ .idle → Faulted .hostProtocol 0x44 s t) ∧
      (s.fault = none → s.seq = .idle → ¬ within (s.inBitQ.length + 32) s.params.inBitDepth →
        Faulted .hostProtocol 0x44 s t) ∧
      (s.fault = none → s.seq = .idle → within (s.inBitQ.length + 32) s.params.inBitDepth →
        ∃ bits, bits.length = 32 ∧ (∀ j < 32, bits[j]? = some (v.getLsbD (31 - j))) ∧
          t = { s with inBitQ := s.inBitQ ++ bits }))

/-- spec/20_memory.md R89, R90: what the popping reads do, at any time. -/
def Obligations.OutputReadsPop : Prop :=
  ∀ s,
    (s.outByteQ = [] → hostStep (.read 0x48 4) s = .next { s with rdata := 0 }) ∧
    (∀ b rest, s.outByteQ = b :: rest →
      hostStep (.read 0x48 4) s = .next { s with outByteQ := rest, rdata := BitVec.ofNat 32 (0x100 + b.toNat) }) ∧
    (∃ r, hostStep (.read 0x4C 4) s = .next { s with outBitQ := s.outBitQ.drop (min 32 s.outBitQ.length), rdata := r } ∧
      ∀ j < 32, r.getLsbD (31 - j) = (s.outBitQ[j]?).getD false)

/-- spec/20_memory.md R92: the other writes; every other register ignores a write. -/
def Obligations.OtherWrites : Prop :=
  ∀ s v,
    (s.seq ≠ .idle → Faulted .hostProtocol 0x08 s (hostWrite 0x08 v s)) ∧
    (s.seq = .idle → hostWrite 0x08 v s =
      { s with cfgOrder := BitVec.ofNat 6 v.toNat, cfgPrec := BitVec.ofNat 6 (v.toNat / 2 ^ 8) }) ∧
    hostWrite 0x38 v s = { s with doneIe := v.getLsbD 0, faultIe := v.getLsbD 1 } ∧
    hostWrite 0x3C v s = { s with doneIp := s.doneIp && !v.getLsbD 0, faultIp := s.faultIp && !v.getLsbD 1 } ∧
    ∀ off ∉ [0x00, 0x08, 0x38, 0x3C, 0x40, 0x44], hostWrite off v s = s

/-- The reserved offsets of spec/20_memory.md R83 read 0 and ignore writes; that they read 0 while BUSY is log 7's reading of R85. -/
def Obligations.ReservedReadZero : Prop :=
  ∀ (s : State) off, s.params.legal = true → (off ∈ [0x78, 0x7C, 0xF8, 0xFC] ∨ ∃ i, s.params.maxOrder ≤ i ∧ i < 30 ∧ off = 0x80 + 4 * i) →
    hostStep (.read off 4) s = .next { s with rdata := 0 } ∧ ∀ v, hostStep (.write off 4 v) s = .next s

/-- spec/20_memory.md R84: a read of any register but OUT_BYTE and OUT_BITS changes nothing of the block (`rdata` is the value
returned, `draws` the model's count of free values); while the core is idle it draws nothing (R99), and a second read returns the
same. -/
def Obligations.ReadsHaveNoEffect : Prop :=
  ∀ s off t, off ≠ 0x48 → off ≠ 0x4C → hostStep (.read off 4) s = .next t →
    ∃ r n, t = { s with rdata := r, draws := n } ∧
      (s.seq = .idle → n = s.draws ∧ hostStep (.read off 4) t = .next t)

/-- The register values an idle block returns: the layouts of spec/10_state.md R37, R46, R50, R51, R52, R53 and the levels of
spec/20_memory.md R91. Of a number of contexts that does not fit CTX_COUNT nothing is said (log 8). -/
def Obligations.RegisterReads : Prop :=
  ∀ s, s.Inv → s.seq = .idle →
    let value := fun off => (hostRead off s).rdata.toNat
    value 0x00 = 0 ∧
    value 0x04 = 2 * s.fault.isSome.toNat + 4 * s.irq.toNat + 2 ^ 8 * (s.fault.map fun f => f.toByte.toNat).getD 0 ∧
    value 0x08 = s.cfgOrder.toNat + 2 ^ 8 * s.cfgPrec.toNat ∧
    value 0x0C = s.orderAct.toNat + 2 ^ 8 * s.pAct.toNat + 2 ^ 16 * s.hist.length ∧
    (hostRead 0x10 s).rdata = s.low ∧ (hostRead 0x14 s).rdata = s.high ∧ (hostRead 0x18 s).rdata = s.pending ∧
    (hostRead 0x1C s).rdata = s.code ∧ (hostRead 0x20 s).rdata = s.result ∧ (hostRead 0x24 s).rdata = s.res.rlow ∧
    (hostRead 0x28 s).rdata = s.res.rhigh ∧ (hostRead 0x2C s).rdata = s.res.total ∧ (hostRead 0x30 s).rdata = s.res.count ∧
    (hostRead 0x34 s).rdata = s.faultInfo ∧
    value 0x38 = s.doneIe.toNat + 2 * s.faultIe.toNat ∧ value 0x3C = s.doneIp.toNat + 2 * s.faultIp.toNat ∧
    value 0x40 = 0 ∧ value 0x44 = 0 ∧
    value 0x50 = min s.inByteQ.length (2 ^ 32 - 1) ∧ value 0x54 = min s.inBitQ.length (2 ^ 32 - 1) ∧
    value 0x58 = min s.outByteQ.length (2 ^ 32 - 1) ∧ value 0x5C = min s.outBitQ.length (2 ^ 32 - 1) ∧
    (hostRead 0x60 s).rdata = s.outBitCnt ∧ (hostRead 0x64 s).rdata = s.inBitCnt ∧
    (s.ctx.length ≤ 2 ^ 32 - 1 → value 0x68 = s.ctx.length) ∧ value 0x6C = 0x41430007 ∧ value 0x70 = s.params.maxOrder + 2 ^ 8 * 32 ∧
    value 0x74 = (s.params.ctxCapacity.map fun c => min c (2 ^ 32 - 1)).getD (2 ^ 32 - 1) ∧
    ∀ i < s.params.maxOrder, value (0x80 + 4 * i) = ((s.hist[i]?).map fun b => b.toNat).getD 0

/-- The interrupt output and STATUS.IRQ (spec/60_exceptions.md R270, spec/10_state.md R46, R50). -/
def Obligations.IrqIsPendingAndEnabled : Prop :=
  ∀ s, (s.irq = true ↔ (s.doneIp = true ∧ s.doneIe = true) ∨ (s.faultIp = true ∧ s.faultIe = true)) ∧
    (hostRead 0x04 s).rdata.getLsbD 2 = s.irq ∧
    (hostRead 0x04 s).rdata.getLsbD 0 = decide (s.seq ≠ .idle) ∧ (hostRead 0x04 s).rdata.getLsbD 1 = s.fault.isSome ∧
    (s.irq = true ↔ s.irqPendWord &&& s.irqEnWord ≠ 0)

/-- spec/20_memory.md R85: while BUSY the exact registers read as they would in the same state with the core idle (STATUS apart,
which shows BUSY), the listed writes raise HOST_PROTOCOL with their offset, and IRQ_EN, IRQ_PEND and SRST writes work. -/
def Obligations.BusyAccesses : Prop :=
  ∀ s, s.seq ≠ .idle → s.fault = none →
    (∀ off ∈ [0x08, 0x38, 0x3C, 0x6C, 0x70, 0x74, 0x50, 0x54, 0x58, 0x5C, 0x48, 0x4C],
      (hostRead off s).rdata = (hostRead off { s with seq := .idle }).rdata) ∧
    (hostRead 0x04 s).rdata.toNat = (hostRead 0x04 { s with seq := .idle }).rdata.toNat + 1 ∧
    (∀ w, w.toNat / 2 ^ 26 ≠ 1 → Faulted .hostProtocol 0x00 s (hostWrite 0x00 w s)) ∧
    (∀ v, Faulted .hostProtocol 0x08 s (hostWrite 0x08 v s) ∧ Faulted .hostProtocol 0x40 s (hostWrite 0x40 v s) ∧
      Faulted .hostProtocol 0x44 s (hostWrite 0x44 v s)) ∧
    (∀ v, (hostWrite 0x38 v s).seq = s.seq ∧ (hostWrite 0x3C v s).seq = s.seq) ∧
    ∀ w, w.toNat / 2 ^ 26 = 1 → AtReset (hostWrite 0x00 w s)

/-- The layout of RESULT (spec/10_state.md R47). -/
def Obligations.ResultLayout : Prop :=
  ∀ f : ResultFields, f.toWord.toNat = f.sym.toNat + 2 ^ 9 * f.valid.toNat + 2 ^ 10 * f.present.toNat + 2 ^ 11 * f.created.toNat +
    2 ^ 12 * f.eof.toNat + 2 ^ 13 * f.stale.toNat + 2 ^ 16 * f.escapes.toNat

/-- CTX is a map (spec/10_state.md R42, spec/43_ppm_context_model.md R208): what is put under a key is what that key reads, and every
other key reads as before. The canonical form, which is kept, is the model's choice (log 19). -/
def Obligations.StoreIsMap : Prop :=
  ∀ (m : Store) k T, Store.get k (Store.put k T m) = some T ∧ (∀ k', k' ≠ k → Store.get k' (Store.put k T m) = Store.get k' m) ∧
    (Store.wf m → Store.wf (Store.put k T m) ∧
      (Store.put k T m).length = m.length + (Store.get k m).isNone.toNat)
end

