-- ==== Sys2Proof/Laws/Tables.lean ====
section
/-! SUPPORT. Frequency tables: what `add`, `recomputeRanges` and `updateFreqs` do to alphabet, counts and ranges, and that each
keeps the table invariant. -/

namespace Sys2Proof.Machine

/-! ### Counts -/

@[simp] theorem cntSum_nil : cntSum [] = 0 := rfl
@[simp] theorem cntSum_cons (e : Entry) (es : List Entry) : cntSum (e :: es) = e.cnt.toNat + cntSum es := by
  simp [cntSum]

theorem cnt_le_cntSum {e : Entry} {es : List Entry} (h : e ∈ es) : e.cnt.toNat ≤ cntSum es := by
  induction es with
  | nil => cases h
  | cons a es ih =>
    rcases List.mem_cons.1 h with rfl | h
    · simp
    · have := ih h; simp; omega

theorem succ_toNat {c : Word} (h : c.toNat < wordMax) : (c + 1).toNat = c.toNat + 1 := by
  rw [BitVec.toNat_add]; simp [wordMax] at *; omega

/-- `add` raises the count sum by 1. -/
theorem cntSum_bump (x : Sym) (es : List Entry) (h : cntSum es + 1 ≤ wordMax) : cntSum (bump x es) = cntSum es + 1 := by
  induction es with
  | nil => simp [bump]
  | cons e es ih =>
    simp only [cntSum_cons] at h
    simp only [bump]
    split
    · rw [cntSum_cons, cntSum_cons, succ_toNat (show e.cnt.toNat < wordMax by omega)]; omega
    · rw [cntSum_cons, cntSum_cons, ih (by omega)]; omega

/-- `add` keeps the alphabet or appends the symbol. -/
theorem syms_bump (x : Sym) (es : List Entry) :
    (bump x es).map (fun e => e.sym) =
      if x ∈ es.map (fun e => e.sym) then es.map (fun e => e.sym) else es.map (fun e => e.sym) ++ [x] := by
  induction es with
  | nil => simp [bump]
  | cons e es ih =>
    simp only [bump]
    by_cases he : e.sym = x
    · simp [he]
    · have hx : ¬ x = e.sym := fun h => he h.symm
      simp only [he, if_false, List.map_cons, ih, List.mem_cons, hx, false_or]
      split <;> simp

/-- Every entry after `add` has a positive count where every entry before has. -/
theorem cntPos_bump {x : Sym} {es : List Entry} (h : ∀ e ∈ es, 1 ≤ e.cnt.toNat) (hs : cntSum es + 1 ≤ wordMax) :
    ∀ e ∈ bump x es, 1 ≤ e.cnt.toNat := by
  induction es with
  | nil => simp [bump]
  | cons a es ih =>
    simp only [cntSum_cons] at hs
    simp only [bump]
    split
    · intro e he
      rcases List.mem_cons.1 he with rfl | he
      · show 1 ≤ (a.cnt + 1).toNat
        rw [succ_toNat (by omega)]; omega
      · exact h e (List.mem_cons_of_mem _ he)
    · intro e he
      rcases List.mem_cons.1 he with rfl | he
      · exact h _ List.mem_cons_self
      · exact ih (fun e he => h e (List.mem_cons_of_mem _ he)) (by omega) e he

/-- The symbols after `add` are the old ones and the new one. -/
theorem sym_of_mem_bump {x : Sym} {es : List Entry} {e : Entry} (h : e ∈ bump x es) :
    e.sym = x ∨ ∃ a ∈ es, a.sym = e.sym := by
  have : e.sym ∈ (bump x es).map (fun e => e.sym) := List.mem_map_of_mem h
  rw [syms_bump] at this
  split at this
  · obtain ⟨a, ha, hs⟩ := List.mem_map.1 this; exact .inr ⟨a, ha, hs⟩
  · rcases List.mem_append.1 this with h' | h'
    · obtain ⟨a, ha, hs⟩ := List.mem_map.1 h'; exact .inr ⟨a, ha, hs⟩
    · exact .inl (by simpa using h')

/-! ### Ranges -/

@[simp] theorem syms_layout (acc : Nat) (es : List Entry) :
    (layout acc es).map (fun e => e.sym) = es.map fun e => e.sym := by
  induction es generalizing acc with
  | nil => rfl
  | cons e es ih => simp [layout, ih]

@[simp] theorem cnts_layout (acc : Nat) (es : List Entry) :
    (layout acc es).map (fun e => e.cnt) = es.map fun e => e.cnt := by
  induction es generalizing acc with
  | nil => rfl
  | cons e es ih => simp [layout, ih]

@[simp] theorem syms_freeLayout (n i : Nat) (es : List Entry) :
    (freeLayout n i es).map (fun e => e.sym) = es.map fun e => e.sym := by
  induction es generalizing i with
  | nil => rfl
  | cons e es ih => simp [freeLayout, ih]

@[simp] theorem cnts_freeLayout (n i : Nat) (es : List Entry) :
    (freeLayout n i es).map (fun e => e.cnt) = es.map fun e => e.cnt := by
  induction es generalizing i with
  | nil => rfl
  | cons e es ih => simp [freeLayout, ih]

theorem cntSum_of_cnts {es es' : List Entry} (h : es'.map (fun e => e.cnt) = es.map fun e => e.cnt) :
    cntSum es' = cntSum es := by
  have : es'.map (fun e => e.cnt.toNat) = es.map fun e => e.cnt.toNat := by
    have := congrArg (List.map BitVec.toNat) h
    simpa [List.map_map, Function.comp_def] using this
  simp [cntSum, this]

@[simp] theorem cntSum_layout (acc : Nat) (es : List Entry) : cntSum (layout acc es) = cntSum es :=
  cntSum_of_cnts (cnts_layout acc es)

@[simp] theorem cntSum_freeLayout (n i : Nat) (es : List Entry) : cntSum (freeLayout n i es) = cntSum es :=
  cntSum_of_cnts (cnts_freeLayout n i es)

@[simp] theorem length_layout (acc : Nat) (es : List Entry) : (layout acc es).length = es.length := by
  induction es generalizing acc with
  | nil => rfl
  | cons e es ih => simp [layout, ih]

/-- An entry of the laid out list comes from one with the same symbol and count. -/
theorem mem_layout {acc : Nat} {es : List Entry} {e : Entry} (h : e ∈ layout acc es) :
    ∃ a ∈ es, a.sym = e.sym ∧ a.cnt = e.cnt := by
  induction es generalizing acc with
  | nil => cases h
  | cons a es ih =>
    simp only [layout] at h
    rcases List.mem_cons.1 h with rfl | h
    · exact ⟨a, List.mem_cons_self, rfl, rfl⟩
    · obtain ⟨b, hb, hs⟩ := ih h; exact ⟨b, List.mem_cons_of_mem _ hb, hs⟩

theorem mem_freeLayout {n i : Nat} {es : List Entry} {e : Entry} (h : e ∈ freeLayout n i es) :
    ∃ a ∈ es, a.sym = e.sym ∧ a.cnt = e.cnt := by
  induction es generalizing i with
  | nil => cases h
  | cons a es ih =>
    simp only [freeLayout] at h
    rcases List.mem_cons.1 h with rfl | h
    · exact ⟨a, List.mem_cons_self, rfl, rfl⟩
    · obtain ⟨b, hb, hs⟩ := ih h; exact ⟨b, List.mem_cons_of_mem _ hb, hs⟩

theorem ofNat_toNat {n : Nat} (h : n ≤ wordMax) : (BitVec.ofNat 32 n).toNat = n := by
  simp [wordMax] at *; omega

/-- The layout of ranges is a partition, when the sum fits. -/
theorem partitioned_layout (acc : Nat) (es : List Entry) (h : acc + cntSum es ≤ wordMax) :
    Partitioned acc (layout acc es) (acc + cntSum es) := by
  induction es generalizing acc with
  | nil => simp [layout, Partitioned]
  | cons e es ih =>
    simp only [cntSum_cons] at h ⊢
    refine ⟨ofNat_toNat (by omega), ofNat_toNat (by omega), ?_⟩
    have := ih (acc + e.cnt.toNat) (by omega)
    rwa [show acc + (e.cnt.toNat + cntSum es) = acc + e.cnt.toNat + cntSum es by omega]

/-- The end of a partition is its start plus the counts. -/
theorem Partitioned.total {acc tot : Nat} {es : List Entry} (h : Partitioned acc es tot) : tot = acc + cntSum es := by
  induction es generalizing acc with
  | nil => simpa [Partitioned] using h
  | cons e es ih => rw [ih h.2.2, cntSum_cons]; omega

/-- In a partition every range lies within the whole, and is as wide as its count. -/
theorem Partitioned.bounds {acc tot : Nat} {es : List Entry} (h : Partitioned acc es tot) {e : Entry} (he : e ∈ es) :
    acc ≤ e.rlo.toNat ∧ e.rhi.toNat = e.rlo.toNat + e.cnt.toNat ∧ e.rhi.toNat ≤ tot := by
  induction es generalizing acc with
  | nil => cases he
  | cons a es ih =>
    obtain ⟨hlo, hhi, ht⟩ := h
    rcases List.mem_cons.1 he with rfl | he
    · have := ht.total; omega
    · have := ih ht he; omega

/-- A value inside the whole lies in some range. -/
theorem Partitioned.cover {acc tot : Nat} {es : List Entry} (h : Partitioned acc es tot) {v : Nat} (h1 : acc ≤ v)
    (h2 : v < tot) : ∃ e ∈ es, e.rlo.toNat ≤ v ∧ v < e.rhi.toNat := by
  induction es generalizing acc with
  | nil => simp [Partitioned] at h; omega
  | cons a es ih =>
    obtain ⟨hlo, hhi, ht⟩ := h
    by_cases hv : v < a.rhi.toNat
    · exact ⟨a, List.mem_cons_self, by omega, hv⟩
    · obtain ⟨e, he, h'⟩ := ih ht (by omega); exact ⟨e, List.mem_cons_of_mem _ he, h'⟩

/-- A value lies in no more than one range. -/
theorem Partitioned.unique {acc tot : Nat} {es : List Entry} (h : Partitioned acc es tot) {v : Nat} {e e' : Entry}
    (he : e ∈ es) (he' : e' ∈ es) (h1 : e.rlo.toNat ≤ v) (h2 : v < e.rhi.toNat) (h1' : e'.rlo.toNat ≤ v)
    (h2' : v < e'.rhi.toNat) : e = e' := by
  induction es generalizing acc with
  | nil => cases he
  | cons a es ih =>
    obtain ⟨hlo, hhi, ht⟩ := h
    rcases List.mem_cons.1 he with rfl | he <;> rcases List.mem_cons.1 he' with rfl | he'
    · rfl
    · have := ht.bounds (by assumption); omega
    · have := ht.bounds (by assumption); omega
    · exact ih ht (by assumption) (by assumption)

/-! ### The table operations -/

theorem Table.countFull_eq_false {T : Table} : T.countFull = false ↔ cntSum T.alpha + 1 ≤ wordMax := by
  simp [Table.countFull]

@[simp] theorem Table.recompute_stale (T : Table) : T.recompute.stale = false := rfl
@[simp] theorem Table.recompute_ro (T : Table) : T.recompute.ro = T.ro := rfl
@[simp] theorem Table.recompute_syms (T : Table) : T.recompute.syms = T.syms := syms_layout 0 T.alpha
@[simp] theorem Table.eagerAdd_stale (x : Sym) (T : Table) : (T.eagerAdd x).stale = false := rfl
@[simp] theorem Table.eagerAdd_ro (x : Sym) (T : Table) : (T.eagerAdd x).ro = T.ro := rfl
@[simp] theorem Table.lazyAdd_stale (n : Nat) (x : Sym) (T : Table) : (T.lazyAdd n x).stale = true := rfl
@[simp] theorem Table.lazyAdd_ro (n : Nat) (x : Sym) (T : Table) : (T.lazyAdd n x).ro = T.ro := rfl

theorem Table.eagerAdd_syms (x : Sym) (T : Table) : (T.eagerAdd x).syms = if x ∈ T.syms then T.syms else T.syms ++ [x] :=
  (syms_layout 0 _).trans (syms_bump x T.alpha)

theorem Table.lazyAdd_syms (n : Nat) (x : Sym) (T : Table) :
    (T.lazyAdd n x).syms = if x ∈ T.syms then T.syms else T.syms ++ [x] :=
  (syms_freeLayout n 1 _).trans (syms_bump x T.alpha)

/-- `recomputeRanges` keeps the invariant. -/
theorem Table.Ok.recompute {T : Table} (h : T.Ok) : T.recompute.Ok where
  distinct := by rw [Table.recompute_syms]; exact h.distinct
  symRange := by
    intro e he
    obtain ⟨a, ha, hs, _⟩ := mem_layout he
    rw [← hs]; exact h.symRange a ha
  cntPos := by
    intro e he
    obtain ⟨a, ha, _, hc⟩ := mem_layout he
    rw [← hc]; exact h.cntPos a ha
  sumBound := by show cntSum (layout 0 T.alpha) ≤ _; rw [cntSum_layout]; exact h.sumBound
  ranges := by
    intro _
    show Partitioned 0 (layout 0 T.alpha) (BitVec.ofNat 32 (cntSum T.alpha)).toNat
    rw [ofNat_toNat h.sumBound]
    simpa using partitioned_layout 0 T.alpha (by simpa using h.sumBound)

theorem nodup_bump {x : Sym} {es : List Entry} (h : (es.map fun e => e.sym).Nodup) :
    ((bump x es).map fun e => e.sym).Nodup := by
  rw [syms_bump]
  split
  · exact h
  · next hx => exact List.nodup_append.2 ⟨h, by simp, by rintro a ha b hb rfl; simp at hb; exact hx (hb ▸ ha)⟩

/-- `updateFreqs` keeps the invariant. -/
theorem Table.Ok.eagerAdd {T : Table} (h : T.Ok) {x : Sym} (hx : x.toNat ≤ 257) (hs : cntSum T.alpha + 1 ≤ wordMax) :
    (T.eagerAdd x).Ok := by
  have hb : Table.Ok { T with alpha := bump x T.alpha, stale := true } :=
    { distinct := nodup_bump h.distinct
      symRange := fun e he => by
        rcases sym_of_mem_bump he with h' | ⟨a, ha, h'⟩
        · rw [h']; exact hx
        · rw [← h']; exact h.symRange a ha
      cntPos := cntPos_bump h.cntPos hs
      sumBound := by show cntSum (bump x T.alpha) ≤ _; rw [cntSum_bump x _ hs]; exact hs
      ranges := fun hst => by cases hst }
  exact hb.recompute

/-- The lazy `add` keeps the invariant. -/
theorem Table.Ok.lazyAdd {T : Table} (h : T.Ok) (n : Nat) {x : Sym} (hx : x.toNat ≤ 257)
    (hs : cntSum T.alpha + 1 ≤ wordMax) : (T.lazyAdd n x).Ok where
  distinct := by
    have := nodup_bump (x := x) h.distinct
    rw [syms_bump] at this
    rw [Table.lazyAdd_syms]; exact this
  symRange := by
    intro e he
    obtain ⟨b, hb, hs', _⟩ := mem_freeLayout he
    rw [← hs']
    rcases sym_of_mem_bump hb with h' | ⟨a, ha, h'⟩
    · rw [h']; exact hx
    · rw [← h']; exact h.symRange a ha
  cntPos := by
    intro e he
    obtain ⟨b, hb, _, hc⟩ := mem_freeLayout he
    rw [← hc]; exact cntPos_bump h.cntPos hs b hb
  sumBound := by
    show cntSum (freeLayout n 1 (bump x T.alpha)) ≤ _
    rw [cntSum_freeLayout, cntSum_bump x _ hs]; exact hs
  ranges := fun hst => by cases hst

/-- A symbol of the old table is in the new one. -/
theorem Table.Has.eagerAdd {T : Table} {y : Sym} (h : T.Has y) (x : Sym) : (T.eagerAdd x).Has y := by
  unfold Table.Has at *
  rw [Table.eagerAdd_syms]
  split
  · exact h
  · exact List.mem_append_left _ h

theorem Table.Has.lazyAdd {T : Table} {y : Sym} (h : T.Has y) (n : Nat) (x : Sym) : (T.lazyAdd n x).Has y := by
  unfold Table.Has at *
  rw [Table.lazyAdd_syms]
  split
  · exact h
  · exact List.mem_append_left _ h

theorem Table.Has.recompute {T : Table} {y : Sym} (h : T.Has y) : T.recompute.Has y := by
  unfold Table.Has at *
  rw [Table.recompute_syms]; exact h

/-! ### Looking a symbol up -/

theorem Table.entry?_some {T : Table} {x : Sym} {e : Entry} (h : T.entry? x = some e) : e ∈ T.alpha ∧ e.sym = x := by
  refine ⟨List.mem_of_find?_eq_some h, ?_⟩
  simpa using List.find?_some h

theorem Table.entry?_isSome {T : Table} {x : Sym} : (T.entry? x).isSome = true ↔ T.Has x := by
  simp [Table.entry?, Table.Has, Table.syms]

theorem Table.entry?_of_has {T : Table} {x : Sym} (h : T.Has x) : ∃ e, T.entry? x = some e :=
  Option.isSome_iff_exists.1 (Table.entry?_isSome.2 h)

theorem Table.entry?_of_not_has {T : Table} {x : Sym} (h : ¬ T.Has x) : T.entry? x = none := by
  cases he : T.entry? x with
  | none => rfl
  | some e => exact absurd (Table.entry?_isSome.1 (by simp [he])) h

/-- The total of a sound table that is not stale is its count sum. -/
theorem Table.Ok.total_eq {T : Table} (h : T.Ok) (hs : T.stale = false) : T.total.toNat = cntSum T.alpha := by
  simpa using (h.ranges hs).total

/-- A sound table that holds a symbol and is not stale has a positive total (spec/41_frequency_table.md R147). -/
theorem Table.Ok.total_pos {T : Table} (h : T.Ok) (hs : T.stale = false) {x : Sym} (hx : T.Has x) : 1 ≤ T.total.toNat := by
  obtain ⟨e, he⟩ := Table.entry?_of_has hx
  have hm := (Table.entry?_some he).1
  have := cnt_le_cntSum hm
  have := h.cntPos e hm
  rw [h.total_eq hs]; omega

/-! ### The constant tables -/

theorem Table.rootSeed_ok : Table.rootSeed.Ok where
  distinct := by decide
  symRange := by decide
  cntPos := by decide
  sumBound := by decide
  ranges := fun _ => by simp [Table.rootSeed, Partitioned]

theorem Table.ctxSeed_ok : Table.ctxSeed.Ok where
  distinct := by decide
  symRange := by decide
  cntPos := by decide
  sumBound := by decide
  ranges := fun _ => by simp [Table.ctxSeed, Partitioned]

theorem partitioned_m1 (n acc : Nat) (h : acc + n ≤ wordMax) :
    Partitioned acc ((List.range' acc n).map fun b =>
      (⟨BitVec.ofNat 9 b, 1, BitVec.ofNat 32 b, BitVec.ofNat 32 (b + 1)⟩ : Entry)) (acc + n) := by
  induction n generalizing acc with
  | zero => simp [Partitioned]
  | succ n ih =>
    rw [List.range'_succ, List.map_cons]
    refine ⟨ofNat_toNat (by omega), by rw [ofNat_toNat (by omega)]; rfl, ?_⟩
    have := ih (acc + 1) (by omega)
    rwa [show acc + (n + 1) = acc + 1 + n by omega]

theorem Table.m1_partitioned : Partitioned 0 Table.m1.alpha 256 := by
  have := partitioned_m1 256 0 (by decide)
  rwa [← List.range_eq_range'] at this

theorem Table.m1_syms : Table.m1.syms = (List.range 256).map fun b => BitVec.ofNat 9 b := by
  simp [Table.m1, Table.syms, Function.comp_def]

theorem Table.m1_ok : Table.m1.Ok where
  distinct := by
    rw [Table.m1_syms]
    refine List.Nodup.map_on ?_ List.nodup_range
    intro a ha b hb h
    have := congrArg BitVec.toNat h
    simp at ha hb this
    omega
  symRange := by
    intro e he
    obtain ⟨b, hb, rfl⟩ := List.mem_map.1 he
    simp at hb ⊢; omega
  cntPos := by
    intro e he
    obtain ⟨b, hb, rfl⟩ := List.mem_map.1 he
    simp
  sumBound := by have := Table.m1_partitioned.total; simp [wordMax] at *; omega
  ranges := fun _ => Table.m1_partitioned

/-- M1 holds exactly the bytes (spec/10_state.md R43). -/
theorem Table.m1_has (x : Sym) : Table.m1.Has x ↔ isByte x = true := by
  simp only [Table.Has, Table.m1_syms, List.mem_map, List.mem_range, isByte, decide_eq_true_eq]
  constructor
  · rintro ⟨b, hb, rfl⟩; simp; omega
  · intro h; exact ⟨x.toNat, by omega, by simp⟩

end Sys2Proof.Machine
end

