-- ==== Sys2Proof/Laws/Coder.lean ====
section
/-! SUPPORT. The coder's arithmetic: the interval after NARROW, how renormalization ends, and the decode law. -/

namespace Sys2Proof.Machine

/-! ### The constants -/

theorem coder_constants {P : Nat} (h : 2 ≤ P) :
    half P = 2 * quarter P ∧ threeq P = 3 * quarter P ∧ top P + 1 = 4 * quarter P ∧ 1 ≤ quarter P := by
  obtain ⟨n, rfl⟩ : ∃ n, P = n + 2 := ⟨P - 2, by omega⟩
  have h1 : 1 ≤ 2 ^ n := Nat.one_le_two_pow
  have h2 : 2 ^ (n + 2) = 4 * 2 ^ n := by ring
  have h3 : 2 ^ (n + 1) = 2 * 2 ^ n := by ring
  simp only [half, quarter, threeq, top, show n + 2 - 1 = n + 1 by omega, show n + 2 - 2 = n by omega, h2, h3]
  exact ⟨trivial, trivial, by omega, h1⟩

theorem top_lt {P : Nat} (h : P ≤ 32) : top P ≤ wordMax := by
  have : 2 ^ P ≤ 2 ^ 32 := Nat.pow_le_pow_right (by omega) h
  simp [top, wordMax] at *; omega

/-! ### NARROW -/

/-- NARROW succeeds exactly where the lower bound stays below the upper (spec/42_arithmetic_coder.md R161). -/
theorem narrow_eq_some {low high rlo rhi total nl nh : Nat} :
    narrow low high rlo rhi total = some (nl, nh) ↔
      nl = low + (high + 1 - low) * rlo / total ∧ nl < low + (high + 1 - low) * rhi / total ∧
        nh + 1 = low + (high + 1 - low) * rhi / total := by
  simp only [narrow]
  generalize (high + 1 - low) * rlo / total = a
  generalize (high + 1 - low) * rhi / total = b
  split
  · constructor
    · intro h; cases h
    · rintro ⟨rfl, h, -⟩; omega
  · constructor
    · intro h; simp only [Option.some.injEq, Prod.mk.injEq] at h; obtain ⟨rfl, rfl⟩ := h; omega
    · rintro ⟨rfl, h, h'⟩; simp only [Option.some.injEq, Prod.mk.injEq]; exact ⟨trivial, by omega⟩

/-- The new interval lies in the old one. -/
theorem narrow_within {low high rlo rhi total nl nh : Nat} (hlh : low ≤ high) (ht : rhi ≤ total)
    (h : narrow low high rlo rhi total = some (nl, nh)) : low ≤ nl ∧ nl ≤ nh ∧ nh ≤ high := by
  obtain ⟨h1, h2, h3⟩ := narrow_eq_some.1 h
  have hd : (high + 1 - low) * rhi / total ≤ high + 1 - low := by
    apply Nat.div_le_of_le_mul
    rw [Nat.mul_comm total]
    exact Nat.mul_le_mul_left _ ht
  generalize (high + 1 - low) * rlo / total = a at *
  generalize (high + 1 - low) * rhi / total = b at *
  omega

/-- No collapse while the total is at most the width (spec/42_arithmetic_coder.md R167). -/
theorem narrow_isSome {low high rlo rhi total : Nat} (hr : rlo < rhi) (ht : 1 ≤ total)
    (hw : total ≤ high + 1 - low) : ∃ q, narrow low high rlo rhi total = some q := by
  have h1 : (high + 1 - low) * rlo / total + 1 ≤ (high + 1 - low) * rhi / total := by
    rw [Nat.le_div_iff_mul_le ht, Nat.add_mul, Nat.one_mul]
    have h2 := Nat.div_mul_le_self ((high + 1 - low) * rlo) total
    have h3 : (high + 1 - low) * (rlo + 1) ≤ (high + 1 - low) * rhi := Nat.mul_le_mul_left _ hr
    rw [Nat.mul_add, Nat.mul_one] at h3
    omega
  refine ⟨(low + (high + 1 - low) * rlo / total, low + (high + 1 - low) * rhi / total - 1), ?_⟩
  rw [narrow_eq_some]
  generalize (high + 1 - low) * rlo / total = a at *
  generalize (high + 1 - low) * rhi / total = b at *
  omega

/-! ### The decode law -/

/-- DEC's value inside the interval is a natural number (spec/92_eei_decisions.md D39). -/
theorem decValue_inside {low high code total : Nat} (h1 : low ≤ code) (h2 : code ≤ high) (ht : 1 ≤ total) :
    decValue low high code total = (((code - low + 1) * total - 1) / (high + 1 - low) : Nat) := by
  have hm : 1 ≤ (code - low + 1) * total := Nat.mul_pos (by omega) ht
  unfold decValue
  rw [Int.fdiv_eq_ediv_of_nonneg _ (by omega)]
  have e1 : ((code : Int) - low + 1) * total - 1 = (((code - low + 1) * total - 1 : Nat) : Int) := by
    rw [Nat.cast_sub hm]; push_cast [h1]; ring
  have e2 : (high : Int) - low + 1 = ((high + 1 - low : Nat) : Int) := by omega
  rw [e1, e2]; rfl

/-- DEC's value below LOW is negative, and matches no range (spec/92_eei_decisions.md D39). -/
theorem decValue_below {low high code total : Nat} (h1 : code < low) (h2 : low ≤ high) :
    decValue low high code total < 0 := by
  unfold decValue
  rw [Int.fdiv_eq_ediv_of_nonneg _ (by omega)]
  apply Int.ediv_lt_of_lt_mul (by omega)
  have : ((code : Int) - low + 1) * total ≤ 0 := Int.mul_nonpos_of_nonpos_of_nonneg (by omega) (by omega)
  omega

/-- DEC's value above HIGH is at least the total, and matches no range. -/
theorem decValue_above {low high code total : Nat} (h1 : high < code) (h2 : low ≤ high) (ht : 1 ≤ total) :
    (total : Int) ≤ decValue low high code total := by
  unfold decValue
  rw [Int.fdiv_eq_ediv_of_nonneg _ (by omega)]
  apply Int.le_ediv_of_mul_le (by omega)
  have h3 : ((high : Int) - low + 2) * total ≤ ((code : Int) - low + 1) * total :=
    Int.mul_le_mul_of_nonneg_right (by omega) (by omega)
  have h4 : ((high : Int) - low + 2) * total = total * ((high : Int) - low + 1) + total := by ring
  omega

/-- The value lies in a range exactly when CODE lies in the interval NARROW gives for it (spec/42_arithmetic_coder.md R175). -/
theorem value_in_range_iff {low high code total rlo rhi : Nat} (h1 : low ≤ code) (h2 : code ≤ high) (ht : 1 ≤ total) :
    (rlo ≤ ((code - low + 1) * total - 1) / (high + 1 - low) ∧
        ((code - low + 1) * total - 1) / (high + 1 - low) < rhi) ↔
      (low + (high + 1 - low) * rlo / total ≤ code ∧ code + 1 ≤ low + (high + 1 - low) * rhi / total) := by
  have hw : 0 < high + 1 - low := by omega
  have hm : 1 ≤ (code - low + 1) * total := Nat.mul_pos (by omega) ht
  have ha : rlo ≤ ((code - low + 1) * total - 1) / (high + 1 - low) ↔ low + (high + 1 - low) * rlo / total ≤ code := by
    rw [Nat.le_div_iff_mul_le hw, Nat.mul_comm rlo]
    have : (high + 1 - low) * rlo / total < code - low + 1 ↔ (high + 1 - low) * rlo < (code - low + 1) * total :=
      Nat.div_lt_iff_lt_mul ht
    omega
  have hb : ((code - low + 1) * total - 1) / (high + 1 - low) < rhi ↔
      code + 1 ≤ low + (high + 1 - low) * rhi / total := by
    rw [Nat.div_lt_iff_lt_mul hw, Nat.mul_comm rhi]
    have : code - low + 1 ≤ (high + 1 - low) * rhi / total ↔ (code - low + 1) * total ≤ (high + 1 - low) * rhi :=
      Nat.le_div_iff_mul_le ht
    omega
  rw [ha, hb]

/-- The value inside the interval is below the total. -/
theorem value_lt_total {low high code total : Nat} (h1 : low ≤ code) (h2 : code ≤ high) (ht : 1 ≤ total) :
    ((code - low + 1) * total - 1) / (high + 1 - low) < total := by
  rw [Nat.div_lt_iff_lt_mul (by omega)]
  have hm : 1 ≤ (code - low + 1) * total := Nat.mul_pos (by omega) ht
  have : (code - low + 1) * total ≤ (high + 1 - low) * total := Nat.mul_le_mul_right _ (by omega)
  rw [Nat.mul_comm (high + 1 - low)] at this
  omega

/-! ### Renormalization -/

/-- What each case says of the interval, and what its offset is. -/
theorem renormCase_some {P low high : Nat} {c : RenormCase} (hP : 2 ≤ P) (hlh : low ≤ high) (ht : high ≤ top P)
    (h : renormCase P low high = some c) :
    c.offset P ≤ low ∧ 2 * (high - c.offset P) + 1 ≤ top P := by
  obtain ⟨c1, c2, c3, c4⟩ := coder_constants hP
  unfold renormCase at h
  split at h
  · cases h; simp only [RenormCase.offset]; omega
  · split at h
    · cases h; simp only [RenormCase.offset]; omega
    · split at h
      · cases h; simp only [RenormCase.offset]; omega
      · cases h

/-- Where no case holds the interval straddles the middle and is wider than a quarter (spec/42_arithmetic_coder.md R165). -/
theorem renormCase_none {P low high : Nat} (h : renormCase P low high = none) :
    low < half P ∧ half P ≤ high ∧ ¬ (quarter P ≤ low ∧ high < threeq P) := by
  unfold renormCase at h
  split at h
  · cases h
  · split at h
    · cases h
    · split at h
      · cases h
      · omega

theorem renormCase_none_width {P low high : Nat} (hP : 2 ≤ P) (h : renormCase P low high = none) :
    quarter P + 2 ≤ high + 1 - low := by
  obtain ⟨c1, c2, c3, c4⟩ := coder_constants hP
  have := renormCase_none h
  omega

/-- The full interval meets no case. -/
theorem renormCase_full {P : Nat} (hP : 2 ≤ P) : renormCase P 0 (top P) = none := by
  obtain ⟨c1, c2, c3, c4⟩ := coder_constants hP
  unfold renormCase
  rw [if_neg (by omega), if_neg (by omega), if_neg (by omega)]

theorem renormEnc_none {P n : Nat} {r : EncRegs} (h : renormCase P r.low r.high = none) :
    renormEnc P n r = .settled r := by
  cases n <;> simp [renormEnc, h]

theorem renormEnc_overflow {P n : Nat} {r : EncRegs} (h : renormCase P r.low r.high = some .e3)
    (hp : r.pending = wordMax) : renormEnc P n r = .overflow r := by
  cases n <;> simp [renormEnc, h, hp]

theorem renormEnc_pass {P n : Nat} {r : EncRegs} {c : RenormCase} (h : renormCase P r.low r.high = some c)
    (hp : ¬ (c = .e3 ∧ r.pending = wordMax)) : renormEnc P (n + 1) r = renormEnc P n (encPass P c r) := by
  simp [renormEnc, h, hp]

theorem renormDec_none {P n : Nat} {r : DecRegs} (h : renormCase P r.low r.high = none) :
    renormDec P n r = some r := by
  cases n <;> simp [renormDec, h]

theorem renormDec_pass {P n : Nat} {r : DecRegs} {c : RenormCase} (h : renormCase P r.low r.high = some c) :
    renormDec P (n + 1) r = renormDec P n (decPass P c r) := by
  simp [renormDec, h]

/-- The encoder's registers are in their ranges. -/
def EncRegs.Ok (P : Nat) (r : EncRegs) : Prop := r.low ≤ r.high ∧ r.high ≤ top P ∧ r.pending ≤ wordMax

theorem encPass_ok {P : Nat} {c : RenormCase} {r : EncRegs} (hP : 2 ≤ P) (h : r.Ok P)
    (hc : renormCase P r.low r.high = some c) (hp : ¬ (c = .e3 ∧ r.pending = wordMax)) : (encPass P c r).Ok P := by
  have := renormCase_some hP h.1 h.2.1 hc
  refine ⟨?_, this.2, ?_⟩
  · show 2 * (r.low - c.offset P) ≤ 2 * (r.high - c.offset P) + 1
    have := h.1; omega
  · have := h.2.2
    cases c
    · exact Nat.zero_le _
    · exact Nat.zero_le _
    · show r.pending + 1 ≤ wordMax
      simp at hp; omega

theorem encPass_width {P : Nat} {c : RenormCase} {r : EncRegs} (hP : 2 ≤ P) (h : r.Ok P)
    (hc : renormCase P r.low r.high = some c) :
    (encPass P c r).high + 1 - (encPass P c r).low = 2 * (r.high + 1 - r.low) := by
  have := renormCase_some hP h.1 h.2.1 hc
  have := h.1
  show 2 * (r.high - c.offset P) + 1 + 1 - 2 * (r.low - c.offset P) = _
  omega

/-- What RENORM_ENC can answer (spec/42_arithmetic_coder.md R162, R165): with passes enough for the width to fill the whole range
it ends, and its registers are in their ranges. -/
theorem renormEnc_spec {P : Nat} (hP : 2 ≤ P) (n : Nat) (r : EncRegs) (h : r.Ok P)
    (hn : 2 ^ P ≤ 2 ^ n * (r.high + 1 - r.low)) :
    (∃ r', renormEnc P n r = .settled r' ∧ r'.Ok P ∧ renormCase P r'.low r'.high = none) ∨
      (∃ r', renormEnc P n r = .overflow r' ∧ r'.Ok P ∧ r'.pending = wordMax ∧
        renormCase P r'.low r'.high = some .e3) := by
  induction n generalizing r with
  | zero =>
    obtain ⟨c1, c2, c3, c4⟩ := coder_constants hP
    have : renormCase P r.low r.high = none := by
      have h1 := h.1; have h2 := h.2.1
      have htop : top P + 1 = 2 ^ P := by simp only [top]; have := Nat.one_le_two_pow (n := P); omega
      rw [pow_zero, Nat.one_mul] at hn
      have hl : r.low = 0 := by omega
      have hh : r.high = top P := by omega
      rw [hl, hh]; exact renormCase_full hP
    left
    exact ⟨r, renormEnc_none this, h, this⟩
  | succ n ih =>
    cases hc : renormCase P r.low r.high with
    | none => exact .inl ⟨r, renormEnc_none hc, h, hc⟩
    | some c =>
      by_cases hp : c = .e3 ∧ r.pending = wordMax
      · right
        obtain ⟨rfl, hp⟩ := hp
        exact ⟨r, renormEnc_overflow hc hp, h, hp, hc⟩
      · rw [renormEnc_pass hc hp]
        apply ih _ (encPass_ok hP h hc hp)
        rw [encPass_width hP h hc]
        rw [pow_succ, Nat.mul_assoc] at hn; exact hn

/-- From the interval of a narrowing, `P` passes suffice. -/
theorem renormEnc_total {P : Nat} (hP : 2 ≤ P) (r : EncRegs) (h : r.Ok P) :
    (∃ r', renormEnc P P r = .settled r' ∧ r'.Ok P ∧ renormCase P r'.low r'.high = none) ∨
      (∃ r', renormEnc P P r = .overflow r' ∧ r'.Ok P ∧ r'.pending = wordMax ∧
        renormCase P r'.low r'.high = some .e3) := by
  apply renormEnc_spec hP P r h
  have := h.1
  exact Nat.le_mul_of_pos_right _ (by omega)

theorem nextBit_le (bs : List Bool) : (nextBit bs).1.toNat ≤ 1 := by
  cases bs with
  | nil => simp [nextBit]
  | cons b bs => cases b <;> simp [nextBit]

/-- The decoder's registers are in their ranges, CODE inside the interval. -/
def DecRegs.Ok (P : Nat) (r : DecRegs) : Prop := r.low ≤ r.code ∧ r.code ≤ r.high ∧ r.high ≤ top P

theorem decPass_ok {P : Nat} {c : RenormCase} {r : DecRegs} (hP : 2 ≤ P) (h : r.Ok P)
    (hc : renormCase P r.low r.high = some c) : (decPass P c r).Ok P := by
  obtain ⟨h1, h2, h3⟩ := h
  have := renormCase_some hP (by omega) h3 hc
  have := nextBit_le r.bits
  refine ⟨?_, ?_, by exact (renormCase_some hP (by omega) h3 hc).2⟩
  · show 2 * (r.low - c.offset P) ≤ 2 * (r.code - c.offset P) + _
    omega
  · show 2 * (r.code - c.offset P) + (nextBit r.bits).1.toNat ≤ 2 * (r.high - c.offset P) + 1
    omega

theorem decPass_width {P : Nat} {c : RenormCase} {r : DecRegs} (hP : 2 ≤ P) (h : r.Ok P)
    (hc : renormCase P r.low r.high = some c) :
    (decPass P c r).high + 1 - (decPass P c r).low = 2 * (r.high + 1 - r.low) := by
  obtain ⟨h1, h2, h3⟩ := h
  have := renormCase_some hP (by omega) h3 hc
  show 2 * (r.high - c.offset P) + 1 + 1 - 2 * (r.low - c.offset P) = _
  omega

/-- What RENORM_DEC answers (spec/42_arithmetic_coder.md R166, R175(d)): it ends, CODE stays inside the interval, and the bits left are
a suffix of those it had. -/
theorem renormDec_spec {P : Nat} (hP : 2 ≤ P) (n : Nat) (r : DecRegs) (h : r.Ok P)
    (hn : 2 ^ P ≤ 2 ^ n * (r.high + 1 - r.low)) :
    ∃ r', renormDec P n r = some r' ∧ r'.Ok P ∧ renormCase P r'.low r'.high = none ∧ r'.bits.length ≤ r.bits.length := by
  induction n generalizing r with
  | zero =>
    have : renormCase P r.low r.high = none := by
      obtain ⟨h1, h2, h3⟩ := h
      have htop : top P + 1 = 2 ^ P := by simp only [top]; have := Nat.one_le_two_pow (n := P); omega
      rw [pow_zero, Nat.one_mul] at hn
      have hl : r.low = 0 := by omega
      have hh : r.high = top P := by omega
      rw [hl, hh]; exact renormCase_full hP
    exact ⟨r, renormDec_none this, h, this, Nat.le_refl _⟩
  | succ n ih =>
    cases hc : renormCase P r.low r.high with
    | none => exact ⟨r, renormDec_none hc, h, hc, Nat.le_refl _⟩
    | some c =>
      obtain ⟨r', h1, h2, h3, h4⟩ := ih _ (decPass_ok hP h hc) (by
        rw [decPass_width hP h hc]
        rw [pow_succ, Nat.mul_assoc] at hn; exact hn)
      refine ⟨r', by rw [renormDec_pass hc, h1], h2, h3, Nat.le_trans h4 ?_⟩
      show (nextBit r.bits).2.length ≤ _
      cases r.bits <;> simp [nextBit]

theorem renormDec_total {P : Nat} (hP : 2 ≤ P) (r : DecRegs) (h : r.Ok P) :
    ∃ r', renormDec P P r = some r' ∧ r'.Ok P ∧ renormCase P r'.low r'.high = none ∧ r'.bits.length ≤ r.bits.length := by
  apply renormDec_spec hP P r h
  obtain ⟨h1, h2, h3⟩ := h
  exact Nat.le_mul_of_pos_right _ (by omega)

/-- Encoder and decoder move LOW and HIGH alike (spec/42_arithmetic_coder.md R166, R176). -/
theorem renorm_lockstep (P n : Nat) (r : EncRegs) (d : DecRegs) (hl : d.low = r.low) (hh : d.high = r.high)
    {r' : EncRegs} {d' : DecRegs} (he : renormEnc P n r = .settled r') (hd : renormDec P n d = some d') :
    d'.low = r'.low ∧ d'.high = r'.high := by
  induction n generalizing r d with
  | zero =>
    cases hc : renormCase P r.low r.high with
    | none =>
      rw [renormEnc_none hc] at he
      rw [renormDec_none (by rw [hl, hh]; exact hc)] at hd
      cases he; cases hd; exact ⟨hl, hh⟩
    | some c => simp [renormDec, hl, hh, hc] at hd
  | succ n ih =>
    cases hc : renormCase P r.low r.high with
    | none =>
      rw [renormEnc_none hc] at he
      rw [renormDec_none (by rw [hl, hh]; exact hc)] at hd
      cases he; cases hd; exact ⟨hl, hh⟩
    | some c =>
      rw [renormDec_pass (by rw [hl, hh]; exact hc)] at hd
      by_cases hp : c = .e3 ∧ r.pending = wordMax
      · obtain ⟨rfl, hp⟩ := hp
        rw [renormEnc_overflow hc hp] at he; cases he
      · rw [renormEnc_pass hc hp] at he
        exact ih (encPass P c r) (decPass P c d) (by simp [encPass, decPass, hl]) (by simp [encPass, decPass, hh]) he hd

/-- Bits taken by DPRIME: the value stays within the width, and the bits left are no more than before. -/
theorem takeBits_bounds (n v : Nat) (bs : List Bool) :
    (takeBits n v bs).1 < 2 ^ n * (v + 1) ∧ (takeBits n v bs).2.length ≤ bs.length := by
  induction n generalizing v bs with
  | zero => simp [takeBits]
  | succ n ih =>
    obtain ⟨h1, h2⟩ := ih (2 * v + (nextBit bs).1.toNat) (nextBit bs).2
    have hb := nextBit_le bs
    refine ⟨?_, Nat.le_trans h2 (by cases bs <;> simp [nextBit])⟩
    show (takeBits n (2 * v + (nextBit bs).1.toNat) (nextBit bs).2).1 < _
    refine Nat.lt_of_lt_of_le h1 ?_
    rw [pow_succ, Nat.mul_assoc]
    exact Nat.mul_le_mul_left _ (by omega)

end Sys2Proof.Machine
end

