-- ==== Sys2Proof/Laws/Store.lean ====
section
/-! SUPPORT. The context store: its order, what a lookup sees after an update, and that every update keeps the canonical form. -/

namespace Sys2Proof.Machine

theorem ctxLt_irrefl (k : Context) : ctxLt k k = false := by
  induction k with
  | nil => rfl
  | cons a as ih => simp [ctxLt, ih]

theorem ctxLt_trans {a b c : Context} (hab : ctxLt a b = true) (hbc : ctxLt b c = true) : ctxLt a c = true := by
  induction a generalizing b c with
  | nil => cases b <;> cases c <;> simp_all [ctxLt]
  | cons x xs ih =>
    cases b with
    | nil => simp [ctxLt] at hab
    | cons y ys =>
      cases c with
      | nil => simp [ctxLt] at hbc
      | cons z zs =>
        simp only [ctxLt, Bool.or_eq_true, decide_eq_true_eq, Bool.and_eq_true] at hab hbc ⊢
        rcases hab with h | ⟨rfl, h⟩ <;> rcases hbc with h' | ⟨rfl, h'⟩
        · left; omega
        · left; exact h
        · left; exact h'
        · right; exact ⟨rfl, ih h h'⟩

theorem ctxLt_total {a b : Context} (h : a ≠ b) : ctxLt a b = true ∨ ctxLt b a = true := by
  induction a generalizing b with
  | nil => cases b <;> simp_all [ctxLt]
  | cons x xs ih =>
    cases b with
    | nil => simp [ctxLt]
    | cons y ys =>
      simp only [ctxLt, Bool.or_eq_true, decide_eq_true_eq, Bool.and_eq_true]
      by_cases hxy : x = y
      · subst hxy
        have : xs ≠ ys := fun e => h (by rw [e])
        rcases ih this with h' | h'
        · exact .inl (.inr ⟨rfl, h'⟩)
        · exact .inr (.inr ⟨rfl, h'⟩)
      · have : x.toNat ≠ y.toNat := fun e => hxy (BitVec.eq_of_toNat_eq e)
        rcases Nat.lt_or_gt_of_ne this with h' | h'
        · exact .inl (.inl h')
        · exact .inr (.inl h')

/-- A lookup at the updated key gives the new table. -/
theorem Store.get_put_same (k : Context) (T : Table) (m : Store) : (m.put k T).get k = some T := by
  induction m with
  | nil => simp [Store.put, Store.get]
  | cons p m ih =>
    obtain ⟨k', T'⟩ := p
    simp only [Store.put]
    split
    · simp [Store.get]
    · split
      · simp [Store.get]
      · next h _ => simp [Store.get, h, ih]

/-- A lookup at another key sees no difference. -/
theorem Store.get_put_other {k k' : Context} (h : k' ≠ k) (T : Table) (m : Store) : (m.put k T).get k' = m.get k' := by
  induction m with
  | nil => simp [Store.put, Store.get, h.symm]
  | cons p m ih =>
    obtain ⟨q, T'⟩ := p
    simp only [Store.put]
    split
    · next hq => subst hq; simp [Store.get, h.symm]
    · split
      · simp [Store.get, h.symm]
      · simp only [Store.get, ih]

/-- What an update adds to a store: the pair itself, or what was there. -/
theorem Store.mem_put {k : Context} {T : Table} {m : Store} {q : Context × Table} (h : q ∈ m.put k T) :
    q = (k, T) ∨ q ∈ m := by
  induction m with
  | nil => simp only [Store.put, List.mem_singleton] at h; exact .inl h
  | cons p m ih =>
    obtain ⟨k', T'⟩ := p
    simp only [Store.put] at h
    split at h
    · rcases List.mem_cons.1 h with h | h
      · exact .inl h
      · exact .inr (List.mem_cons_of_mem _ h)
    · split at h
      · rcases List.mem_cons.1 h with h | h
        · exact .inl h
        · exact .inr h
      · rcases List.mem_cons.1 h with h | h
        · exact .inr (by simp [h])
        · rcases ih h with h | h
          · exact .inl h
          · exact .inr (List.mem_cons_of_mem _ h)

/-- An update keeps the canonical form. -/
theorem Store.wf_put {m : Store} (h : m.wf) (k : Context) (T : Table) : (m.put k T).wf := by
  induction m with
  | nil => simp [Store.wf, Store.put]
  | cons p m ih =>
    obtain ⟨k', T'⟩ := p
    have hp := List.pairwise_cons.1 h
    simp only [Store.put]
    split
    · next hk => subst hk; exact List.pairwise_cons.2 ⟨hp.1, hp.2⟩
    · next hk =>
      split
      · next hlt =>
        refine List.pairwise_cons.2 ⟨fun q hq => ?_, h⟩
        rcases List.mem_cons.1 hq with rfl | hq
        · exact hlt
        · exact ctxLt_trans hlt (hp.1 q hq)
      · next hlt =>
        refine List.pairwise_cons.2 ⟨fun q hq => ?_, ih hp.2⟩
        rcases Store.mem_put hq with rfl | hq
        · rcases ctxLt_total hk with h' | h'
          · exact h'
          · exact absurd h' (by simpa using hlt)
        · exact hp.1 q hq

/-- A key that is found has its pair in the store. -/
theorem Store.mem_of_get {k : Context} {T : Table} {m : Store} (h : m.get k = some T) : (k, T) ∈ m := by
  induction m with
  | nil => simp [Store.get] at h
  | cons p m ih =>
    obtain ⟨k', T'⟩ := p
    simp only [Store.get] at h
    split at h
    · next hk => subst hk; cases h; exact List.mem_cons_self
    · exact List.mem_cons_of_mem _ (ih h)

/-- In a canonical store a pair is found at its key. -/
theorem Store.get_of_mem {k : Context} {T : Table} {m : Store} (hw : m.wf) (h : (k, T) ∈ m) : m.get k = some T := by
  induction m with
  | nil => cases h
  | cons p m ih =>
    obtain ⟨k', T'⟩ := p
    have hp := List.pairwise_cons.1 hw
    rcases List.mem_cons.1 h with h | h
    · cases h; simp [Store.get]
    · have : k' ≠ k := by
        intro e; subst e
        have := hp.1 _ h
        simp [ctxLt_irrefl] at this
      simp [Store.get, this, ih hp.2 h]

/-- The size of a canonical store after an update: one more for a new key. -/
theorem Store.length_put {m : Store} (hw : m.wf) (k : Context) (T : Table) :
    (m.put k T).length = m.length + (if (Store.get k m).isNone then 1 else 0) := by
  induction m with
  | nil => simp [Store.put, Store.get]
  | cons p m ih =>
    obtain ⟨k', T'⟩ := p
    have hp := List.pairwise_cons.1 hw
    simp only [Store.put, Store.get]
    split
    · simp
    · next hk =>
      split
      · next hlt =>
        have : Store.get k m = none := by
          cases hg : Store.get k m with
          | none => rfl
          | some T'' =>
            have h1 := hp.1 _ (Store.mem_of_get hg)
            have h2 := ctxLt_trans hlt h1
            simp [ctxLt_irrefl] at h2
        simp [this]
      · simp [ih hp.2]; omega

/-- The reset store is canonical. -/
theorem Store.wf_reset : Store.wf [([], Table.rootSeed)] := by simp [Store.wf]

end Sys2Proof.Machine
end

