-- ==== Sys2Proof/Laws/Operands.lean ====
section
/-! SUPPORT. SELECT: everything it can answer, and that it keeps the store sound. -/

namespace Sys2Proof.Machine

/-! ### Suffixes -/

theorem last_length {α : Type} (l : List α) {n : Nat} (h : n ≤ l.length) : (last l n).length = n := by
  simp [last]; omega

theorem last_suffix {α : Type} (l : List α) (n : Nat) : ∃ pre, l = pre ++ last l n :=
  ⟨l.take (l.length - n), by simp [last]⟩

/-- The suffix of a given length is unique. -/
theorem suffixOf_iff {hist : List Byte} {n : Nat} {k : Context} : SuffixOf hist n k ↔ n ≤ hist.length ∧ k = last hist n := by
  constructor
  · rintro ⟨rfl, pre, rfl⟩
    refine ⟨by simp, ?_⟩
    simp [last]
  · rintro ⟨h, rfl⟩; exact ⟨last_length _ h, last_suffix _ _⟩

theorem last_zero {α : Type} (l : List α) : last l 0 = [] := by simp [last]

/-! ### SELECT -/

theorem select_m1 (w : Word) (s : State) : select w Tsel.m1 s = .ok ⟨Table.m1, none, s.ctx, false⟩ := by
  simp [select]

theorem select_badTsel {w : Word} {t : Tsel} {s : State} (h : t ≠ Tsel.m1) (hl : s.hist.length < t.toNat) :
    select w t s = .error ⟨.badTsel, w⟩ := by
  simp [select, h, hl]

theorem select_found {w : Word} {t : Tsel} {s : State} {T : Table} (h : t ≠ Tsel.m1) (hl : t.toNat ≤ s.hist.length)
    (hg : Store.get (last s.hist t.toNat) s.ctx = some T) :
    select w t s = .ok ⟨T, some (last s.hist t.toNat), s.ctx, false⟩ := by
  simp [select, h, hg, Nat.not_lt.2 hl]

theorem select_full {w : Word} {t : Tsel} {s : State} (h : t ≠ Tsel.m1) (hl : t.toNat ≤ s.hist.length)
    (hg : Store.get (last s.hist t.toNat) s.ctx = none) (hc : s.params.ctxCapacity = some s.ctx.length) :
    select w t s = .error ⟨.ctxFull, w⟩ := by
  simp [select, h, hg, Nat.not_lt.2 hl, ctxFullAt, hc]

theorem select_new {w : Word} {t : Tsel} {s : State} (h : t ≠ Tsel.m1) (hl : t.toNat ≤ s.hist.length)
    (hg : Store.get (last s.hist t.toNat) s.ctx = none) (hc : s.params.ctxCapacity ≠ some s.ctx.length) :
    select w t s = .ok ⟨seedFor (last s.hist t.toNat), some (last s.hist t.toNat),
      Store.put (last s.hist t.toNat) (seedFor (last s.hist t.toNat)) s.ctx, true⟩ := by
  simp [select, h, hg, Nat.not_lt.2 hl, ctxFullAt, hc]

/-- Everything SELECT can answer when it selects. -/
theorem select_ok {w : Word} {t : Tsel} {s : State} {sel : Selection} (h : select w t s = .ok sel) :
    (t = Tsel.m1 ∧ sel = ⟨Table.m1, none, s.ctx, false⟩) ∨
      (t ≠ Tsel.m1 ∧ t.toNat ≤ s.hist.length ∧
        ((∃ T, Store.get (last s.hist t.toNat) s.ctx = some T ∧
            sel = ⟨T, some (last s.hist t.toNat), s.ctx, false⟩) ∨
          (Store.get (last s.hist t.toNat) s.ctx = none ∧ s.params.ctxCapacity ≠ some s.ctx.length ∧
            sel = ⟨seedFor (last s.hist t.toNat), some (last s.hist t.toNat),
              Store.put (last s.hist t.toNat) (seedFor (last s.hist t.toNat)) s.ctx, true⟩))) := by
  by_cases hm : t = Tsel.m1
  · subst hm; rw [select_m1] at h; cases h; exact .inl ⟨rfl, rfl⟩
  · right
    by_cases hl : s.hist.length < t.toNat
    · rw [select_badTsel hm hl] at h; cases h
    · have hl := Nat.not_lt.1 hl
      refine ⟨hm, hl, ?_⟩
      cases hg : Store.get (last s.hist t.toNat) s.ctx with
      | some T => rw [select_found hm hl hg] at h; cases h; exact .inl ⟨T, rfl, rfl⟩
      | none =>
        by_cases hc : s.params.ctxCapacity = some s.ctx.length
        · rw [select_full hm hl hg hc] at h; cases h
        · rw [select_new hm hl hg hc] at h; cases h; exact .inr ⟨rfl, hc, rfl⟩

/-- Everything SELECT can answer when it raises. -/
theorem select_error {w : Word} {t : Tsel} {s : State} {r : Raise} (h : select w t s = .error r) :
    r.info = w ∧ SelectRaises s t r.code := by
  by_cases hm : t = Tsel.m1
  · subst hm; rw [select_m1] at h; cases h
  · by_cases hl : s.hist.length < t.toNat
    · rw [select_badTsel hm hl] at h; cases h; exact ⟨rfl, hm, .inl ⟨rfl, hl⟩⟩
    · have hl := Nat.not_lt.1 hl
      cases hg : Store.get (last s.hist t.toNat) s.ctx with
      | some T => rw [select_found hm hl hg] at h; cases h
      | none =>
        by_cases hc : s.params.ctxCapacity = some s.ctx.length
        · rw [select_full hm hl hg hc] at h; cases h
          exact ⟨rfl, hm, .inr ⟨rfl, _, suffixOf_iff.2 ⟨hl, rfl⟩, hg, hc⟩⟩
        · rw [select_new hm hl hg hc] at h; cases h

/-- SELECT raises what the rule says it raises. -/
theorem select_of_raises {w : Word} {t : Tsel} {s : State} {f : FaultCode} (h : SelectRaises s t f) :
    select w t s = .error ⟨f, w⟩ := by
  obtain ⟨hm, ⟨rfl, hl⟩ | ⟨rfl, k, hk, hg, hc⟩⟩ := h
  · exact select_badTsel hm hl
  · obtain ⟨hl, rfl⟩ := suffixOf_iff.1 hk; exact select_full hm hl hg hc

/-- SELECT selects what the rule says it selects. -/
theorem select_of_selects {t : Tsel} {s : State} {k : Context} {T : Table} {c : Bool} (h : Selects s t k T c) (w : Word) :
    ∃ m, select w t s = .ok ⟨T, some k, m, c⟩ ∧ Store.get k m = some T ∧
      ((c = false ∧ m = s.ctx) ∨ (c = true ∧ m = Store.put k T s.ctx)) := by
  obtain ⟨hm, hk, ⟨rfl, hg⟩ | ⟨rfl, hg, hc, rfl⟩⟩ := h
  · obtain ⟨hl, rfl⟩ := suffixOf_iff.1 hk
    exact ⟨s.ctx, select_found hm hl hg, hg, .inl ⟨rfl, rfl⟩⟩
  · obtain ⟨hl, rfl⟩ := suffixOf_iff.1 hk
    exact ⟨_, select_new hm hl hg hc, Store.get_put_same _ _ _, .inr ⟨rfl, rfl⟩⟩

/-! ### The store stays sound -/

theorem StoreOk.put_old {p : Params} {m : Store} (h : StoreOk p m) {k : Context} {T T' : Table}
    (hg : Store.get k m = some T) (hT : CtxEntryOk p k T') (he : T.Has Sym.eof → T'.Has Sym.eof) :
    StoreOk p (Store.put k T' m) where
  canonical := Store.wf_put h.canonical k T'
  tables := fun q hq => by
    rcases Store.mem_put hq with rfl | hq
    · exact hT
    · exact h.tables q hq
  root := by
    obtain ⟨R, hR, hRe⟩ := h.root
    by_cases hk : k = []
    · subst hk
      rw [hg] at hR; cases hR
      exact ⟨T', Store.get_put_same _ _ _, he hRe⟩
    · exact ⟨R, by rw [Store.get_put_other (Ne.symm hk)]; exact hR, hRe⟩
  capacity := by
    rw [Store.length_put h.canonical, hg]; exact h.capacity

theorem within_succ {n : Nat} {c : Option Nat} (h : within n c) (hc : c ≠ some n) : within (n + 1) c := by
  cases c with
  | none => trivial
  | some c => simp only [within] at *; have : c ≠ n := fun e => hc (by rw [e]); omega

theorem StoreOk.put_new {p : Params} {m : Store} (h : StoreOk p m) {k : Context} {T : Table}
    (hg : Store.get k m = none) (hc : within (m.length + 1) p.ctxCapacity) (hT : CtxEntryOk p k T) :
    StoreOk p (Store.put k T m) where
  canonical := Store.wf_put h.canonical k T
  tables := fun q hq => by
    rcases Store.mem_put hq with rfl | hq
    · exact hT
    · exact h.tables q hq
  root := by
    obtain ⟨R, hR, hRe⟩ := h.root
    have hk : k ≠ [] := by rintro rfl; rw [hg] at hR; cases hR
    exact ⟨R, by rw [Store.get_put_other (Ne.symm hk)]; exact hR, hRe⟩
  capacity := by
    rw [Store.length_put h.canonical, hg]; exact hc

theorem ctxSeed_entryOk {p : Params} {k : Context} (hk : k.length ≤ p.maxOrder) : CtxEntryOk p k Table.ctxSeed where
  tab := Table.ctxSeed_ok
  writable := rfl
  hasEsc := by simp [Table.Has, Table.syms, Table.ctxSeed]
  keyLength := hk

theorem rootSeed_entryOk (p : Params) : CtxEntryOk p [] Table.rootSeed where
  tab := Table.rootSeed_ok
  writable := rfl
  hasEsc := by simp [Table.Has, Table.syms, Table.rootSeed]
  keyLength := by simp

theorem reset_storeOk {p : Params} (hp : p.legal = true) : StoreOk p [([], Table.rootSeed)] where
  canonical := Store.wf_reset
  tables := fun q hq => by
    obtain rfl := List.mem_singleton.1 hq; exact rootSeed_entryOk p
  root := ⟨Table.rootSeed, rfl, by simp [Table.Has, Table.syms, Table.rootSeed]⟩
  capacity := by
    simp only [Params.legal, Bool.and_eq_true] at hp
    obtain ⟨⟨⟨-, h⟩, -⟩, -⟩ := hp
    cases hc : p.ctxCapacity with
    | none => trivial
    | some c => rw [hc] at h; simpa [atLeast, within] using h

/-- The history is no longer than MAX_ORDER. -/
theorem State.Sound.hist_le {s : State} (h : s.Sound) : s.hist.length ≤ s.params.maxOrder := by
  have h1 := h.history
  have h2 := h.order
  omega

/-- Replacing the store by a sound one keeps the data sound. -/
theorem State.Sound.withCtx {s : State} (h : s.Sound) {m : Store} (hm : StoreOk s.params m) :
    State.Sound { s with ctx := m } where
  legal := h.legal
  prec := h.prec
  interval := h.interval
  code := h.code
  order := h.order
  history := h.history
  store := hm
  queues := h.queues

/-- What a selection gives in a sound state: a sound table, a sound store that holds it, and ESC and writability for a context. -/
theorem select_sound {w : Word} {t : Tsel} {s : State} {sel : Selection} (h : s.Sound) (hs : select w t s = .ok sel) :
    sel.tab.Ok ∧ StoreOk s.params sel.ctx ∧
      ((sel.key = none ∧ sel.tab = Table.m1) ∨
        ∃ k, sel.key = some k ∧ Store.get k sel.ctx = some sel.tab ∧ CtxEntryOk s.params k sel.tab) := by
  rcases select_ok hs with ⟨-, rfl⟩ | ⟨-, hl, ⟨T, hg, rfl⟩ | ⟨hg, hc, rfl⟩⟩
  · exact ⟨Table.m1_ok, h.store, .inl ⟨rfl, rfl⟩⟩
  · have hq := h.store.tables _ (Store.mem_of_get hg)
    exact ⟨hq.tab, h.store, .inr ⟨_, rfl, hg, hq⟩⟩
  · have hk : last s.hist t.toNat ≠ [] := by
      intro e
      obtain ⟨R, hR, -⟩ := h.store.root
      rw [e, hR] at hg; cases hg
    have hseed : seedFor (last s.hist t.toNat) = Table.ctxSeed := if_neg hk
    have hlen : (last s.hist t.toNat).length ≤ s.params.maxOrder := by
      rw [last_length _ hl]; exact Nat.le_trans hl h.hist_le
    rw [hseed]
    exact ⟨Table.ctxSeed_ok, h.store.put_new hg (within_succ h.store.capacity hc) (ctxSeed_entryOk hlen),
      .inr ⟨_, rfl, Store.get_put_same _ _ _, ctxSeed_entryOk hlen⟩⟩

end Sys2Proof.Machine
end

