-- ==== Sys2Proof/Laws/State.lean ====
section
/-! SUPPORT. What each field of the state is after each named update: one lemma per field and update, true by `rfl`. -/

namespace Sys2Proof.Machine

@[simp] theorem faultEntry_seq (r : Raise) (s : State) : (faultEntry r s).seq = .idle := rfl
@[simp] theorem faultEntry_pAct (r : Raise) (s : State) : (faultEntry r s).pAct = s.pAct := rfl
@[simp] theorem faultEntry_low (r : Raise) (s : State) : (faultEntry r s).low = s.low := rfl
@[simp] theorem faultEntry_high (r : Raise) (s : State) : (faultEntry r s).high = s.high := rfl
@[simp] theorem faultEntry_pending (r : Raise) (s : State) : (faultEntry r s).pending = s.pending := rfl
@[simp] theorem faultEntry_code (r : Raise) (s : State) : (faultEntry r s).code = s.code := rfl
@[simp] theorem faultEntry_outBitCnt (r : Raise) (s : State) : (faultEntry r s).outBitCnt = s.outBitCnt := rfl
@[simp] theorem faultEntry_inBitCnt (r : Raise) (s : State) : (faultEntry r s).inBitCnt = s.inBitCnt := rfl
@[simp] theorem faultEntry_cfgOrder (r : Raise) (s : State) : (faultEntry r s).cfgOrder = s.cfgOrder := rfl
@[simp] theorem faultEntry_cfgPrec (r : Raise) (s : State) : (faultEntry r s).cfgPrec = s.cfgPrec := rfl
@[simp] theorem faultEntry_orderAct (r : Raise) (s : State) : (faultEntry r s).orderAct = s.orderAct := rfl
@[simp] theorem faultEntry_hist (r : Raise) (s : State) : (faultEntry r s).hist = s.hist := rfl
@[simp] theorem faultEntry_ctx (r : Raise) (s : State) : (faultEntry r s).ctx = s.ctx := rfl
@[simp] theorem faultEntry_inByteQ (r : Raise) (s : State) : (faultEntry r s).inByteQ = s.inByteQ := rfl
@[simp] theorem faultEntry_inBitQ (r : Raise) (s : State) : (faultEntry r s).inBitQ = s.inBitQ := rfl
@[simp] theorem faultEntry_outBitQ (r : Raise) (s : State) : (faultEntry r s).outBitQ = s.outBitQ := rfl
@[simp] theorem faultEntry_outByteQ (r : Raise) (s : State) : (faultEntry r s).outByteQ = s.outByteQ := rfl
@[simp] theorem faultEntry_fault (r : Raise) (s : State) : (faultEntry r s).fault = some r.code := rfl
@[simp] theorem faultEntry_result (r : Raise) (s : State) : (faultEntry r s).result = s.result := rfl
@[simp] theorem faultEntry_res (r : Raise) (s : State) : (faultEntry r s).res = s.res := rfl
@[simp] theorem faultEntry_faultInfo (r : Raise) (s : State) : (faultEntry r s).faultInfo = r.info := rfl
@[simp] theorem faultEntry_doneIe (r : Raise) (s : State) : (faultEntry r s).doneIe = s.doneIe := rfl
@[simp] theorem faultEntry_faultIe (r : Raise) (s : State) : (faultEntry r s).faultIe = s.faultIe := rfl
@[simp] theorem faultEntry_doneIp (r : Raise) (s : State) : (faultEntry r s).doneIp = s.doneIp := rfl
@[simp] theorem faultEntry_faultIp (r : Raise) (s : State) : (faultEntry r s).faultIp = true := rfl
@[simp] theorem faultEntry_params (r : Raise) (s : State) : (faultEntry r s).params = s.params := rfl
@[simp] theorem faultEntry_agenda (r : Raise) (s : State) : (faultEntry r s).agenda = s.agenda := rfl
@[simp] theorem faultEntry_rdata (r : Raise) (s : State) : (faultEntry r s).rdata = s.rdata := rfl
@[simp] theorem faultEntry_draws (r : Raise) (s : State) : (faultEntry r s).draws = s.draws := rfl

@[simp] theorem complete_seq (s : State) : (complete s).seq = .idle := rfl
@[simp] theorem complete_pAct (s : State) : (complete s).pAct = s.pAct := rfl
@[simp] theorem complete_low (s : State) : (complete s).low = s.low := rfl
@[simp] theorem complete_high (s : State) : (complete s).high = s.high := rfl
@[simp] theorem complete_pending (s : State) : (complete s).pending = s.pending := rfl
@[simp] theorem complete_code (s : State) : (complete s).code = s.code := rfl
@[simp] theorem complete_outBitCnt (s : State) : (complete s).outBitCnt = s.outBitCnt := rfl
@[simp] theorem complete_inBitCnt (s : State) : (complete s).inBitCnt = s.inBitCnt := rfl
@[simp] theorem complete_cfgOrder (s : State) : (complete s).cfgOrder = s.cfgOrder := rfl
@[simp] theorem complete_cfgPrec (s : State) : (complete s).cfgPrec = s.cfgPrec := rfl
@[simp] theorem complete_orderAct (s : State) : (complete s).orderAct = s.orderAct := rfl
@[simp] theorem complete_hist (s : State) : (complete s).hist = s.hist := rfl
@[simp] theorem complete_ctx (s : State) : (complete s).ctx = s.ctx := rfl
@[simp] theorem complete_inByteQ (s : State) : (complete s).inByteQ = s.inByteQ := rfl
@[simp] theorem complete_inBitQ (s : State) : (complete s).inBitQ = s.inBitQ := rfl
@[simp] theorem complete_outBitQ (s : State) : (complete s).outBitQ = s.outBitQ := rfl
@[simp] theorem complete_outByteQ (s : State) : (complete s).outByteQ = s.outByteQ := rfl
@[simp] theorem complete_fault (s : State) : (complete s).fault = s.fault := rfl
@[simp] theorem complete_result (s : State) : (complete s).result = s.result := rfl
@[simp] theorem complete_res (s : State) : (complete s).res = s.res := rfl
@[simp] theorem complete_faultInfo (s : State) : (complete s).faultInfo = s.faultInfo := rfl
@[simp] theorem complete_doneIe (s : State) : (complete s).doneIe = s.doneIe := rfl
@[simp] theorem complete_faultIe (s : State) : (complete s).faultIe = s.faultIe := rfl
@[simp] theorem complete_doneIp (s : State) : (complete s).doneIp = true := rfl
@[simp] theorem complete_faultIp (s : State) : (complete s).faultIp = s.faultIp := rfl
@[simp] theorem complete_params (s : State) : (complete s).params = s.params := rfl
@[simp] theorem complete_agenda (s : State) : (complete s).agenda = s.agenda := rfl
@[simp] theorem complete_rdata (s : State) : (complete s).rdata = s.rdata := rfl
@[simp] theorem complete_draws (s : State) : (complete s).draws = s.draws := rfl

@[simp] theorem goto_seq (w : Word) (k : Loop) (s : State) : (goto w k s).seq = .running w k := rfl
@[simp] theorem goto_pAct (w : Word) (k : Loop) (s : State) : (goto w k s).pAct = s.pAct := rfl
@[simp] theorem goto_low (w : Word) (k : Loop) (s : State) : (goto w k s).low = s.low := rfl
@[simp] theorem goto_high (w : Word) (k : Loop) (s : State) : (goto w k s).high = s.high := rfl
@[simp] theorem goto_pending (w : Word) (k : Loop) (s : State) : (goto w k s).pending = s.pending := rfl
@[simp] theorem goto_code (w : Word) (k : Loop) (s : State) : (goto w k s).code = s.code := rfl
@[simp] theorem goto_outBitCnt (w : Word) (k : Loop) (s : State) : (goto w k s).outBitCnt = s.outBitCnt := rfl
@[simp] theorem goto_inBitCnt (w : Word) (k : Loop) (s : State) : (goto w k s).inBitCnt = s.inBitCnt := rfl
@[simp] theorem goto_cfgOrder (w : Word) (k : Loop) (s : State) : (goto w k s).cfgOrder = s.cfgOrder := rfl
@[simp] theorem goto_cfgPrec (w : Word) (k : Loop) (s : State) : (goto w k s).cfgPrec = s.cfgPrec := rfl
@[simp] theorem goto_orderAct (w : Word) (k : Loop) (s : State) : (goto w k s).orderAct = s.orderAct := rfl
@[simp] theorem goto_hist (w : Word) (k : Loop) (s : State) : (goto w k s).hist = s.hist := rfl
@[simp] theorem goto_ctx (w : Word) (k : Loop) (s : State) : (goto w k s).ctx = s.ctx := rfl
@[simp] theorem goto_inByteQ (w : Word) (k : Loop) (s : State) : (goto w k s).inByteQ = s.inByteQ := rfl
@[simp] theorem goto_inBitQ (w : Word) (k : Loop) (s : State) : (goto w k s).inBitQ = s.inBitQ := rfl
@[simp] theorem goto_outBitQ (w : Word) (k : Loop) (s : State) : (goto w k s).outBitQ = s.outBitQ := rfl
@[simp] theorem goto_outByteQ (w : Word) (k : Loop) (s : State) : (goto w k s).outByteQ = s.outByteQ := rfl
@[simp] theorem goto_fault (w : Word) (k : Loop) (s : State) : (goto w k s).fault = s.fault := rfl
@[simp] theorem goto_result (w : Word) (k : Loop) (s : State) : (goto w k s).result = s.result := rfl
@[simp] theorem goto_res (w : Word) (k : Loop) (s : State) : (goto w k s).res = s.res := rfl
@[simp] theorem goto_faultInfo (w : Word) (k : Loop) (s : State) : (goto w k s).faultInfo = s.faultInfo := rfl
@[simp] theorem goto_doneIe (w : Word) (k : Loop) (s : State) : (goto w k s).doneIe = s.doneIe := rfl
@[simp] theorem goto_faultIe (w : Word) (k : Loop) (s : State) : (goto w k s).faultIe = s.faultIe := rfl
@[simp] theorem goto_doneIp (w : Word) (k : Loop) (s : State) : (goto w k s).doneIp = s.doneIp := rfl
@[simp] theorem goto_faultIp (w : Word) (k : Loop) (s : State) : (goto w k s).faultIp = s.faultIp := rfl
@[simp] theorem goto_params (w : Word) (k : Loop) (s : State) : (goto w k s).params = s.params := rfl
@[simp] theorem goto_agenda (w : Word) (k : Loop) (s : State) : (goto w k s).agenda = s.agenda := rfl
@[simp] theorem goto_rdata (w : Word) (k : Loop) (s : State) : (goto w k s).rdata = s.rdata := rfl
@[simp] theorem goto_draws (w : Word) (k : Loop) (s : State) : (goto w k s).draws = s.draws := rfl

@[simp] theorem setResult_seq (f : ResultFields) (r : ResRegs) (s : State) : (setResult f r s).seq = s.seq := rfl
@[simp] theorem setResult_pAct (f : ResultFields) (r : ResRegs) (s : State) : (setResult f r s).pAct = s.pAct := rfl
@[simp] theorem setResult_low (f : ResultFields) (r : ResRegs) (s : State) : (setResult f r s).low = s.low := rfl
@[simp] theorem setResult_high (f : ResultFields) (r : ResRegs) (s : State) : (setResult f r s).high = s.high := rfl
@[simp] theorem setResult_pending (f : ResultFields) (r : ResRegs) (s : State) : (setResult f r s).pending = s.pending := rfl
@[simp] theorem setResult_code (f : ResultFields) (r : ResRegs) (s : State) : (setResult f r s).code = s.code := rfl
@[simp] theorem setResult_outBitCnt (f : ResultFields) (r : ResRegs) (s : State) : (setResult f r s).outBitCnt = s.outBitCnt := rfl
@[simp] theorem setResult_inBitCnt (f : ResultFields) (r : ResRegs) (s : State) : (setResult f r s).inBitCnt = s.inBitCnt := rfl
@[simp] theorem setResult_cfgOrder (f : ResultFields) (r : ResRegs) (s : State) : (setResult f r s).cfgOrder = s.cfgOrder := rfl
@[simp] theorem setResult_cfgPrec (f : ResultFields) (r : ResRegs) (s : State) : (setResult f r s).cfgPrec = s.cfgPrec := rfl
@[simp] theorem setResult_orderAct (f : ResultFields) (r : ResRegs) (s : State) : (setResult f r s).orderAct = s.orderAct := rfl
@[simp] theorem setResult_hist (f : ResultFields) (r : ResRegs) (s : State) : (setResult f r s).hist = s.hist := rfl
@[simp] theorem setResult_ctx (f : ResultFields) (r : ResRegs) (s : State) : (setResult f r s).ctx = s.ctx := rfl
@[simp] theorem setResult_inByteQ (f : ResultFields) (r : ResRegs) (s : State) : (setResult f r s).inByteQ = s.inByteQ := rfl
@[simp] theorem setResult_inBitQ (f : ResultFields) (r : ResRegs) (s : State) : (setResult f r s).inBitQ = s.inBitQ := rfl
@[simp] theorem setResult_outBitQ (f : ResultFields) (r : ResRegs) (s : State) : (setResult f r s).outBitQ = s.outBitQ := rfl
@[simp] theorem setResult_outByteQ (f : ResultFields) (r : ResRegs) (s : State) : (setResult f r s).outByteQ = s.outByteQ := rfl
@[simp] theorem setResult_fault (f : ResultFields) (r : ResRegs) (s : State) : (setResult f r s).fault = s.fault := rfl
@[simp] theorem setResult_result (f : ResultFields) (r : ResRegs) (s : State) : (setResult f r s).result = f.toWord := rfl
@[simp] theorem setResult_res (f : ResultFields) (r : ResRegs) (s : State) : (setResult f r s).res = r := rfl
@[simp] theorem setResult_faultInfo (f : ResultFields) (r : ResRegs) (s : State) : (setResult f r s).faultInfo = s.faultInfo := rfl
@[simp] theorem setResult_doneIe (f : ResultFields) (r : ResRegs) (s : State) : (setResult f r s).doneIe = s.doneIe := rfl
@[simp] theorem setResult_faultIe (f : ResultFields) (r : ResRegs) (s : State) : (setResult f r s).faultIe = s.faultIe := rfl
@[simp] theorem setResult_doneIp (f : ResultFields) (r : ResRegs) (s : State) : (setResult f r s).doneIp = s.doneIp := rfl
@[simp] theorem setResult_faultIp (f : ResultFields) (r : ResRegs) (s : State) : (setResult f r s).faultIp = s.faultIp := rfl
@[simp] theorem setResult_params (f : ResultFields) (r : ResRegs) (s : State) : (setResult f r s).params = s.params := rfl
@[simp] theorem setResult_agenda (f : ResultFields) (r : ResRegs) (s : State) : (setResult f r s).agenda = s.agenda := rfl
@[simp] theorem setResult_rdata (f : ResultFields) (r : ResRegs) (s : State) : (setResult f r s).rdata = s.rdata := rfl
@[simp] theorem setResult_draws (f : ResultFields) (r : ResRegs) (s : State) : (setResult f r s).draws = s.draws := rfl

@[simp] theorem emitBits_seq (bs : List Bool) (s : State) : (emitBits bs s).seq = s.seq := rfl
@[simp] theorem emitBits_pAct (bs : List Bool) (s : State) : (emitBits bs s).pAct = s.pAct := rfl
@[simp] theorem emitBits_low (bs : List Bool) (s : State) : (emitBits bs s).low = s.low := rfl
@[simp] theorem emitBits_high (bs : List Bool) (s : State) : (emitBits bs s).high = s.high := rfl
@[simp] theorem emitBits_pending (bs : List Bool) (s : State) : (emitBits bs s).pending = s.pending := rfl
@[simp] theorem emitBits_code (bs : List Bool) (s : State) : (emitBits bs s).code = s.code := rfl
@[simp] theorem emitBits_outBitCnt (bs : List Bool) (s : State) : (emitBits bs s).outBitCnt = s.outBitCnt + BitVec.ofNat 32 bs.length := rfl
@[simp] theorem emitBits_inBitCnt (bs : List Bool) (s : State) : (emitBits bs s).inBitCnt = s.inBitCnt := rfl
@[simp] theorem emitBits_cfgOrder (bs : List Bool) (s : State) : (emitBits bs s).cfgOrder = s.cfgOrder := rfl
@[simp] theorem emitBits_cfgPrec (bs : List Bool) (s : State) : (emitBits bs s).cfgPrec = s.cfgPrec := rfl
@[simp] theorem emitBits_orderAct (bs : List Bool) (s : State) : (emitBits bs s).orderAct = s.orderAct := rfl
@[simp] theorem emitBits_hist (bs : List Bool) (s : State) : (emitBits bs s).hist = s.hist := rfl
@[simp] theorem emitBits_ctx (bs : List Bool) (s : State) : (emitBits bs s).ctx = s.ctx := rfl
@[simp] theorem emitBits_inByteQ (bs : List Bool) (s : State) : (emitBits bs s).inByteQ = s.inByteQ := rfl
@[simp] theorem emitBits_inBitQ (bs : List Bool) (s : State) : (emitBits bs s).inBitQ = s.inBitQ := rfl
@[simp] theorem emitBits_outBitQ (bs : List Bool) (s : State) : (emitBits bs s).outBitQ = s.outBitQ ++ bs := rfl
@[simp] theorem emitBits_outByteQ (bs : List Bool) (s : State) : (emitBits bs s).outByteQ = s.outByteQ := rfl
@[simp] theorem emitBits_fault (bs : List Bool) (s : State) : (emitBits bs s).fault = s.fault := rfl
@[simp] theorem emitBits_result (bs : List Bool) (s : State) : (emitBits bs s).result = s.result := rfl
@[simp] theorem emitBits_res (bs : List Bool) (s : State) : (emitBits bs s).res = s.res := rfl
@[simp] theorem emitBits_faultInfo (bs : List Bool) (s : State) : (emitBits bs s).faultInfo = s.faultInfo := rfl
@[simp] theorem emitBits_doneIe (bs : List Bool) (s : State) : (emitBits bs s).doneIe = s.doneIe := rfl
@[simp] theorem emitBits_faultIe (bs : List Bool) (s : State) : (emitBits bs s).faultIe = s.faultIe := rfl
@[simp] theorem emitBits_doneIp (bs : List Bool) (s : State) : (emitBits bs s).doneIp = s.doneIp := rfl
@[simp] theorem emitBits_faultIp (bs : List Bool) (s : State) : (emitBits bs s).faultIp = s.faultIp := rfl
@[simp] theorem emitBits_params (bs : List Bool) (s : State) : (emitBits bs s).params = s.params := rfl
@[simp] theorem emitBits_agenda (bs : List Bool) (s : State) : (emitBits bs s).agenda = s.agenda := rfl
@[simp] theorem emitBits_rdata (bs : List Bool) (s : State) : (emitBits bs s).rdata = s.rdata := rfl
@[simp] theorem emitBits_draws (bs : List Bool) (s : State) : (emitBits bs s).draws = s.draws := rfl

@[simp] theorem consumeTo_seq (bs : List Bool) (s : State) : (consumeTo bs s).seq = s.seq := rfl
@[simp] theorem consumeTo_pAct (bs : List Bool) (s : State) : (consumeTo bs s).pAct = s.pAct := rfl
@[simp] theorem consumeTo_low (bs : List Bool) (s : State) : (consumeTo bs s).low = s.low := rfl
@[simp] theorem consumeTo_high (bs : List Bool) (s : State) : (consumeTo bs s).high = s.high := rfl
@[simp] theorem consumeTo_pending (bs : List Bool) (s : State) : (consumeTo bs s).pending = s.pending := rfl
@[simp] theorem consumeTo_code (bs : List Bool) (s : State) : (consumeTo bs s).code = s.code := rfl
@[simp] theorem consumeTo_outBitCnt (bs : List Bool) (s : State) : (consumeTo bs s).outBitCnt = s.outBitCnt := rfl
@[simp] theorem consumeTo_inBitCnt (bs : List Bool) (s : State) : (consumeTo bs s).inBitCnt = s.inBitCnt + BitVec.ofNat 32 (s.inBitQ.length - bs.length) := rfl
@[simp] theorem consumeTo_cfgOrder (bs : List Bool) (s : State) : (consumeTo bs s).cfgOrder = s.cfgOrder := rfl
@[simp] theorem consumeTo_cfgPrec (bs : List Bool) (s : State) : (consumeTo bs s).cfgPrec = s.cfgPrec := rfl
@[simp] theorem consumeTo_orderAct (bs : List Bool) (s : State) : (consumeTo bs s).orderAct = s.orderAct := rfl
@[simp] theorem consumeTo_hist (bs : List Bool) (s : State) : (consumeTo bs s).hist = s.hist := rfl
@[simp] theorem consumeTo_ctx (bs : List Bool) (s : State) : (consumeTo bs s).ctx = s.ctx := rfl
@[simp] theorem consumeTo_inByteQ (bs : List Bool) (s : State) : (consumeTo bs s).inByteQ = s.inByteQ := rfl
@[simp] theorem consumeTo_inBitQ (bs : List Bool) (s : State) : (consumeTo bs s).inBitQ = bs := rfl
@[simp] theorem consumeTo_outBitQ (bs : List Bool) (s : State) : (consumeTo bs s).outBitQ = s.outBitQ := rfl
@[simp] theorem consumeTo_outByteQ (bs : List Bool) (s : State) : (consumeTo bs s).outByteQ = s.outByteQ := rfl
@[simp] theorem consumeTo_fault (bs : List Bool) (s : State) : (consumeTo bs s).fault = s.fault := rfl
@[simp] theorem consumeTo_result (bs : List Bool) (s : State) : (consumeTo bs s).result = s.result := rfl
@[simp] theorem consumeTo_res (bs : List Bool) (s : State) : (consumeTo bs s).res = s.res := rfl
@[simp] theorem consumeTo_faultInfo (bs : List Bool) (s : State) : (consumeTo bs s).faultInfo = s.faultInfo := rfl
@[simp] theorem consumeTo_doneIe (bs : List Bool) (s : State) : (consumeTo bs s).doneIe = s.doneIe := rfl
@[simp] theorem consumeTo_faultIe (bs : List Bool) (s : State) : (consumeTo bs s).faultIe = s.faultIe := rfl
@[simp] theorem consumeTo_doneIp (bs : List Bool) (s : State) : (consumeTo bs s).doneIp = s.doneIp := rfl
@[simp] theorem consumeTo_faultIp (bs : List Bool) (s : State) : (consumeTo bs s).faultIp = s.faultIp := rfl
@[simp] theorem consumeTo_params (bs : List Bool) (s : State) : (consumeTo bs s).params = s.params := rfl
@[simp] theorem consumeTo_agenda (bs : List Bool) (s : State) : (consumeTo bs s).agenda = s.agenda := rfl
@[simp] theorem consumeTo_rdata (bs : List Bool) (s : State) : (consumeTo bs s).rdata = s.rdata := rfl
@[simp] theorem consumeTo_draws (bs : List Bool) (s : State) : (consumeTo bs s).draws = s.draws := rfl

@[simp] theorem softReset_seq (s : State) : (softReset s).seq = .idle := rfl
@[simp] theorem softReset_pAct (s : State) : (softReset s).pAct = 32 := rfl
@[simp] theorem softReset_low (s : State) : (softReset s).low = 0 := rfl
@[simp] theorem softReset_high (s : State) : (softReset s).high = 0xFFFFFFFF := rfl
@[simp] theorem softReset_pending (s : State) : (softReset s).pending = 0 := rfl
@[simp] theorem softReset_code (s : State) : (softReset s).code = 0 := rfl
@[simp] theorem softReset_outBitCnt (s : State) : (softReset s).outBitCnt = 0 := rfl
@[simp] theorem softReset_inBitCnt (s : State) : (softReset s).inBitCnt = 0 := rfl
@[simp] theorem softReset_cfgOrder (s : State) : (softReset s).cfgOrder = 2 := rfl
@[simp] theorem softReset_cfgPrec (s : State) : (softReset s).cfgPrec = 32 := rfl
@[simp] theorem softReset_orderAct (s : State) : (softReset s).orderAct = 2 := rfl
@[simp] theorem softReset_hist (s : State) : (softReset s).hist = [] := rfl
@[simp] theorem softReset_ctx (s : State) : (softReset s).ctx = [([], Table.rootSeed)] := rfl
@[simp] theorem softReset_inByteQ (s : State) : (softReset s).inByteQ = [] := rfl
@[simp] theorem softReset_inBitQ (s : State) : (softReset s).inBitQ = [] := rfl
@[simp] theorem softReset_outBitQ (s : State) : (softReset s).outBitQ = [] := rfl
@[simp] theorem softReset_outByteQ (s : State) : (softReset s).outByteQ = [] := rfl
@[simp] theorem softReset_fault (s : State) : (softReset s).fault = none := rfl
@[simp] theorem softReset_result (s : State) : (softReset s).result = 0 := rfl
@[simp] theorem softReset_res (s : State) : (softReset s).res = ⟨0, 0, 0, 0⟩ := rfl
@[simp] theorem softReset_faultInfo (s : State) : (softReset s).faultInfo = 0 := rfl
@[simp] theorem softReset_doneIe (s : State) : (softReset s).doneIe = false := rfl
@[simp] theorem softReset_faultIe (s : State) : (softReset s).faultIe = false := rfl
@[simp] theorem softReset_doneIp (s : State) : (softReset s).doneIp = false := rfl
@[simp] theorem softReset_faultIp (s : State) : (softReset s).faultIp = false := rfl
@[simp] theorem softReset_params (s : State) : (softReset s).params = s.params := rfl
@[simp] theorem softReset_agenda (s : State) : (softReset s).agenda = s.agenda := rfl
@[simp] theorem softReset_rdata (s : State) : (softReset s).rdata = s.rdata := rfl
@[simp] theorem softReset_draws (s : State) : (softReset s).draws = s.draws := rfl

end Sys2Proof.Machine
end

