-- ==== Sys2Proof/Laws/Bodies.lean ====
section
/-! SUPPORT. One lemma per body: everything its pseudocode can answer in a sound state, the faults it can raise, and that the data
stays sound. -/

namespace Sys2Proof.Machine

/-- What a body answers: `P` of the state and value it ends with, `F` of a fault it raises, `Q` of a state it keeps; it is never
stuck. -/
def Body.Sat {α : Type} (P : State → α → Prop) (F : FaultCode → Prop) (Q : State → Prop) : Body α → Prop
  | .ok s a => P s a
  | .raise r => F r.code
  | .raiseKeeping r s => F r.code ∧ Q s
  | .stuck _ => False

theorem Body.Sat.mono {α : Type} {P P' : State → α → Prop} {F F' : FaultCode → Prop} {Q Q' : State → Prop} {b : Body α}
    (h : b.Sat P F Q) (hP : ∀ s a, P s a → P' s a) (hF : ∀ f, F f → F' f) (hQ : ∀ s, Q s → Q' s) : b.Sat P' F' Q' := by
  cases b with
  | ok s a => exact hP _ _ h
  | raise r => exact hF _ h
  | raiseKeeping r s => exact ⟨hF _ h.1, hQ _ h.2⟩
  | stuck f => exact h

/-- `t` differs from `s` at most in the coder, the model's tables and order, the queues, RESULT and the draws: everything that
decides what the sequencer does next is the same. -/
structure Steady (s t : State) : Prop where
  hist : t.hist = s.hist
  fault : t.fault = s.fault
  params : t.params = s.params

theorem Steady.refl (s : State) : Steady s s := ⟨rfl, rfl, rfl⟩

/-- The data stays sound whatever SEQ, RESULT, the fault and interrupt registers and the host's side are. -/
theorem State.Sound.congr {s t : State} (h : s.Sound) (h1 : t.params = s.params) (h2 : t.pAct = s.pAct)
    (h3 : t.low = s.low) (h4 : t.high = s.high) (h5 : t.code = s.code) (h6 : t.orderAct = s.orderAct)
    (h7 : t.hist = s.hist) (h8 : t.ctx = s.ctx) (h9 : t.inByteQ = s.inByteQ) (h10 : t.inBitQ = s.inBitQ) : t.Sound where
  legal := by rw [h1]; exact h.legal
  prec := by rw [h2]; exact h.prec
  interval := by rw [h2, h3, h4]; exact h.interval
  code := by rw [h2, h5]; exact h.code
  order := by rw [h1, h6]; exact h.order
  history := by rw [h6, h7]; exact h.history
  store := by rw [h1, h8]; exact h.store
  queues := by rw [h1, h9, h10]; exact h.queues

theorem within_mono {n m : Nat} {c : Option Nat} (h : within m c) (hn : n ≤ m) : within n c := by
  cases c with
  | none => trivial
  | some c => exact Nat.le_trans hn h

/-! ### The coder's bodies -/

/-- CINIT_BODY (spec/42_arithmetic_coder.md R170). -/
theorem cinitBody_sat {s : State} (h : s.Sound) :
    (cinitBody s).Sat (fun t _ => t.Sound ∧ Steady s t) (fun f => f = .badConfig) (fun _ => False) := by
  unfold cinitBody
  split
  · rfl
  · next hp =>
    refine ⟨?_, rfl, rfl, rfl⟩
    have h2 : 2 ≤ s.cfgPrec.toNat ∧ s.cfgPrec.toNat ≤ 32 := by omega
    exact
      { legal := h.legal
        prec := h2
        interval := ⟨Nat.zero_le _, by
          show (BitVec.ofNat 32 (top s.cfgPrec.toNat)).toNat ≤ _
          rw [ofNat_toNat (top_lt h2.2)]⟩
        code := Nat.zero_le _
        order := h.order
        history := h.history
        store := h.store
        queues := h.queues }

/-- The encoder's registers written back leave the data sound. -/
theorem storeEnc_sound {s : State} {r : EncRegs} (h : s.Sound) (hr : r.Ok s.pAct.toNat) : (storeEnc r s).Sound where
  legal := h.legal
  prec := h.prec
  interval := by
    have ht := top_lt h.prec.2
    show (BitVec.ofNat 32 r.low).toNat ≤ (BitVec.ofNat 32 r.high).toNat ∧ (BitVec.ofNat 32 r.high).toNat ≤ _
    have h1 := hr.1; have h2 := hr.2.1
    rw [ofNat_toNat (by omega), ofNat_toNat (by omega)]
    exact ⟨h1, h2⟩
  code := h.code
  order := h.order
  history := h.history
  store := h.store
  queues := h.queues

/-- ENC on a selected table (spec/42_arithmetic_coder.md R171). -/
theorem encWith_sat {s : State} (h : s.Sound) {sel : Selection} (hT : sel.tab.Ok) (hm : StoreOk s.params sel.ctx) (w : Word)
    (x : Sym) :
    (encWith w sel x s).Sat (fun t c => t.Sound ∧ Steady s t ∧ c.sym = x ∧ sel.tab.Has x)
      (fun f => f = .staleTable ∨ (f = .zeroTotal ∧ ∀ y, ¬ sel.tab.Has y) ∨ (f = .symbolAbsent ∧ ¬ sel.tab.Has x) ∨
        f = .intervalCollapse ∨ f = .pendingOverflow)
      (fun t => t.Sound ∧ Steady s t) := by
  unfold encWith
  split
  · exact .inl rfl
  · next hst =>
    have hst : sel.tab.stale = false := by simpa using hst
    split
    · next hz =>
      refine .inr (.inl ⟨rfl, fun y hy => ?_⟩)
      have := hT.total_pos hst hy
      rw [hz] at this; simp at this
    · split
      · next he =>
        refine .inr (.inr (.inl ⟨rfl, fun hx => ?_⟩))
        obtain ⟨e, he'⟩ := Table.entry?_of_has hx
        rw [he] at he'; cases he'
      · next e he =>
        have hx : sel.tab.Has x := Table.entry?_isSome.1 (by rw [he]; rfl)
        split
        · exact .inr (.inr (.inr (.inl rfl)))
        · next nl nh hn =>
          have hb := (hT.ranges hst).bounds (Table.entry?_some he).1
          have hw := narrow_within h.interval.1 hb.2.2 hn
          have hr : EncRegs.Ok s.pAct.toNat ⟨nl, nh, s.pending.toNat, []⟩ :=
            ⟨hw.2.1, Nat.le_trans hw.2.2 h.interval.2, by
              have := s.pending.isLt; show s.pending.toNat ≤ wordMax; simp only [wordMax]; omega⟩
          rcases renormEnc_total h.prec.1 _ hr with ⟨r', hr', hok, -⟩ | ⟨r', hr', hok, -, -⟩
          · rw [hr']
            exact ⟨storeEnc_sound (h.withCtx hm) hok, ⟨rfl, rfl, rfl⟩, rfl, hx⟩
          · rw [hr']
            exact ⟨.inr (.inr (.inr (.inr rfl))), storeEnc_sound h hok, ⟨rfl, rfl, rfl⟩⟩

/-- FIN_BODY (spec/42_arithmetic_coder.md R172). -/
theorem finBody_sat {s : State} (h : s.Sound) :
    (finBody s).Sat (fun t _ => t.Sound ∧ Steady s t) (fun f => f = .pendingOverflow) (fun _ => False) := by
  unfold finBody
  split
  · rfl
  · exact ⟨h.congr rfl rfl rfl rfl rfl rfl rfl rfl rfl rfl, rfl, rfl, rfl⟩

/-- DPRIME_BODY (spec/42_arithmetic_coder.md R173). -/
theorem dprimeBody_sat {s : State} (h : s.Sound) :
    (dprimeBody s).Sat (fun t _ => t.Sound ∧ Steady s t) (fun _ => False) (fun _ => False) := by
  unfold dprimeBody
  have hb := takeBits_bounds s.pAct.toNat 0 s.inBitQ
  refine ⟨?_, rfl, rfl, rfl⟩
  have htop : (takeBits s.pAct.toNat 0 s.inBitQ).1 ≤ top s.pAct.toNat := by
    have := hb.1; simp only [top]; omega
  exact
    { legal := h.legal
      prec := h.prec
      interval := h.interval
      code := by
        show (BitVec.ofNat 32 (takeBits s.pAct.toNat 0 s.inBitQ).1).toNat ≤ _
        have := top_lt h.prec.2
        rw [ofNat_toNat (by omega)]; exact htop
      order := h.order
      history := h.history
      store := h.store
      queues := ⟨h.queues.1, within_mono h.queues.2 hb.2⟩ }

/-- The decoder's registers written back leave the data sound. -/
theorem storeDec_sound {s : State} {r : DecRegs} (h : s.Sound) (hr : r.Ok s.pAct.toNat)
    (hq : r.bits.length ≤ s.inBitQ.length) : (storeDec r s).Sound where
  legal := h.legal
  prec := h.prec
  interval := by
    have ht := top_lt h.prec.2
    show (BitVec.ofNat 32 r.low).toNat ≤ (BitVec.ofNat 32 r.high).toNat ∧ (BitVec.ofNat 32 r.high).toNat ≤ _
    obtain ⟨h1, h2, h3⟩ := hr
    rw [ofNat_toNat (by omega), ofNat_toNat (by omega)]
    exact ⟨by omega, h3⟩
  code := by
    have ht := top_lt h.prec.2
    obtain ⟨h1, h2, h3⟩ := hr
    show (BitVec.ofNat 32 r.code).toNat ≤ _
    rw [ofNat_toNat (by omega)]; exact Nat.le_trans h2 h3
  order := h.order
  history := h.history
  store := h.store
  queues := ⟨h.queues.1, within_mono h.queues.2 hq⟩

/-- A symbol found for a value lies in the alphabet, the value in its range. -/
theorem Table.symbolAt_some {T : Table} {v : Int} {e : Entry} (h : T.symbolAt v = some e) :
    e ∈ T.alpha ∧ (e.rlo.toNat : Int) ≤ v ∧ v < (e.rhi.toNat : Int) := by
  refine ⟨List.mem_of_find?_eq_some h, ?_⟩
  simpa using List.find?_some h

/-- A symbol found lies around CODE: the narrowing succeeds and CODE is in the new interval (spec/42_arithmetic_coder.md R175(b)).
-/
theorem decode_narrow {T : Table} (hT : T.Ok) (hst : T.stale = false) (hz : 1 ≤ T.total.toNat) {low high code : Nat}
    (hlh : low ≤ high) {e : Entry} (h : T.symbolAt (decValue low high code T.total.toNat) = some e) :
    low ≤ code ∧ code ≤ high ∧
      ∃ nl nh, narrow low high e.rlo.toNat e.rhi.toNat T.total.toNat = some (nl, nh) ∧ nl ≤ code ∧ code ≤ nh := by
  obtain ⟨he, hv1, hv2⟩ := Table.symbolAt_some h
  have hb := (hT.ranges hst).bounds he
  have h1 : low ≤ code := by
    by_contra hc
    have := decValue_below (total := T.total.toNat) (Nat.not_le.1 hc) hlh
    omega
  have h2 : code ≤ high := by
    by_contra hc
    have := decValue_above (Nat.not_le.1 hc) hlh hz
    omega
  refine ⟨h1, h2, ?_⟩
  rw [decValue_inside h1 h2 hz] at hv1 hv2
  have := (value_in_range_iff (rlo := e.rlo.toNat) (rhi := e.rhi.toNat) h1 h2 hz).1 ⟨by omega, by omega⟩
  obtain ⟨h3, h4⟩ := this
  refine ⟨low + (high + 1 - low) * e.rlo.toNat / T.total.toNat,
    low + (high + 1 - low) * e.rhi.toNat / T.total.toNat - 1, narrow_eq_some.2 ⟨rfl, by omega, by omega⟩, h3, by omega⟩

/-- DEC on a selected table (spec/42_arithmetic_coder.md R174); the interval never collapses (R175). -/
theorem decWith_sat {s : State} (h : s.Sound) {sel : Selection} (hT : sel.tab.Ok) (hm : StoreOk s.params sel.ctx) (w : Word) :
    (decWith w sel s).Sat (fun t c => t.Sound ∧ Steady s t ∧ sel.tab.Has c.sym)
      (fun f => (f = .staleTable ∧ sel.tab.stale = true) ∨ (f = .zeroTotal ∧ ∀ y, ¬ sel.tab.Has y) ∨ f = .streamCorrupt)
      (fun _ => False) := by
  unfold decWith
  split
  · next hst => exact .inl ⟨rfl, hst⟩
  · next hst =>
    have hst : sel.tab.stale = false := by simpa using hst
    split
    · next hz =>
      refine .inr (.inl ⟨rfl, fun y hy => ?_⟩)
      have := hT.total_pos hst hy
      rw [hz] at this; simp at this
    · next hz =>
      have hz : 1 ≤ sel.tab.total.toNat := by
        rcases Nat.eq_zero_or_pos sel.tab.total.toNat with h0 | h0
        · exact absurd (BitVec.eq_of_toNat_eq (by simpa using h0)) hz
        · exact h0
      split
      · exact .inr (.inr rfl)
      · split
        · exact .inr (.inr rfl)
        · next e he =>
          obtain ⟨h1, h2, nl, nh, hn, h3, h4⟩ := decode_narrow hT hst hz h.interval.1 he
          have hmem := (Table.symbolAt_some he).1
          have hw := narrow_within h.interval.1 ((hT.ranges hst).bounds hmem).2.2 hn
          simp only [hn]
          have hr : DecRegs.Ok s.pAct.toNat ⟨nl, nh, s.code.toNat, s.inBitQ⟩ :=
            ⟨h3, h4, Nat.le_trans hw.2.2 h.interval.2⟩
          obtain ⟨r', hr', hok, -, hlen⟩ := renormDec_total h.prec.1 _ hr
          simp only [hr']
          exact ⟨storeDec_sound (h.withCtx hm) hok hlen, ⟨rfl, rfl, rfl⟩, List.mem_map_of_mem hmem⟩

/-! ### The model's bodies -/

theorem legal_maxOrder {p : Params} (h : p.legal = true) : 3 ≤ p.maxOrder ∧ p.maxOrder ≤ 30 := by
  simp only [Params.legal, Bool.and_eq_true, decide_eq_true_eq] at h
  exact ⟨h.1.1.1.1, h.1.1.1.2⟩

/-- MINIT_BODY (spec/43_ppm_context_model.md R200). -/
theorem minitBody_sat {s : State} (h : s.Sound) :
    (minitBody s).Sat (fun t _ => t.Sound ∧ t.fault = s.fault ∧ t.params = s.params) (fun f => f = .badConfig)
      (fun _ => False) := by
  unfold minitBody
  simp only
  split
  · rfl
  · next ho =>
    refine ⟨?_, rfl, rfl⟩
    exact
      { legal := h.legal
        prec := h.prec
        interval := h.interval
        code := h.code
        order := by show -1 ≤ orderVal s.cfgOrder ∧ orderVal s.cfgOrder ≤ s.params.maxOrder; omega
        history := by show ((0 : Nat) : Int) ≤ _; omega
        store := reset_storeOk h.legal
        queues := h.queues }

/-- HPUSH_BODY (spec/43_ppm_context_model.md R203). -/
theorem hpushBody_sat {s : State} (h : s.Sound) (x : Sym) :
    (hpushBody x s).Sat (fun t _ => t.Sound ∧ isByte x = true ∧ t.fault = s.fault ∧ t.params = s.params)
      (fun f => f = .badSymbol ∧ isByte x = false) (fun _ => False) := by
  unfold hpushBody
  split
  · next hx =>
    refine ⟨?_, hx, rfl, rfl⟩
    exact
      { legal := h.legal
        prec := h.prec
        interval := h.interval
        code := h.code
        order := h.order
        history := by
          show ((if orderVal s.orderAct ≤ 0 then [] else _ : List Byte).length : Int) ≤ max (orderVal s.orderAct) 0
          split
          · simp
          · rw [last_length _ (by simp)]; omega
        store := h.store
        queues := h.queues }
  · next hx => exact ⟨rfl, by simpa using hx⟩

/-- What PUPD's loop leaves in the store: the update for each context of the list, nothing elsewhere
(spec/43_ppm_context_model.md R204). -/
theorem updStore_get (x : Sym) (ks : List Context) (m : Store) (hn : ks.Nodup) (k : Context) :
    Store.get k (updStore x ks m) =
      if k ∈ ks then some ((updTable k m).eagerAdd x) else Store.get k m := by
  induction ks generalizing m with
  | nil => rfl
  | cons a ks ih =>
    have hn' := List.nodup_cons.1 hn
    rw [updStore, ih _ hn'.2]
    by_cases hk : k = a
    · subst hk
      simp [hn'.1, Store.get_put_same]
    · simp [hk, Store.get_put_other hk, updTable]

/-- The contexts PUPD updates are the suffixes of the history up to the order. -/
theorem mem_updKeys {hist : List Byte} {order : Nat} {k : Context} :
    k ∈ updKeys hist order ↔ ∃ n, n ≤ min hist.length order ∧ k = last hist n := by
  simp only [updKeys, List.mem_map, List.mem_reverse, List.mem_range]
  constructor
  · rintro ⟨n, hn, rfl⟩; exact ⟨n, by omega, rfl⟩
  · rintro ⟨n, hn, rfl⟩; exact ⟨n, by omega, rfl⟩

theorem updKeys_nodup (hist : List Byte) (order : Nat) : (updKeys hist order).Nodup := by
  refine List.Nodup.map_on ?_ (List.nodup_reverse.2 List.nodup_range)
  intro a ha b hb h
  simp only [List.mem_reverse, List.mem_range] at ha hb
  have := congrArg List.length h
  rwa [last_length _ (by omega), last_length _ (by omega)] at this

theorem newKeys_put {a : Context} {ks : List Context} (ha : a ∉ ks) (T : Table) (m : Store) :
    newKeys ks (Store.put a T m) = newKeys ks m := by
  unfold newKeys
  apply List.filter_congr
  intro k hk
  rw [Store.get_put_other (by rintro rfl; exact ha hk)]

/-- PUPD's loop keeps the store sound: every table there has room for one more count, and there is room for the new contexts. -/
theorem updStore_storeOk {p : Params} {x : Sym} (hx : x.toNat ≤ 257) (ks : List Context) (m : Store) (h : StoreOk p m)
    (hn : ks.Nodup) (hlen : ∀ k ∈ ks, k.length ≤ p.maxOrder) (hc : within (m.length + (newKeys ks m).length) p.ctxCapacity)
    (hs : ∀ k ∈ ks, cntSum (updTable k m).alpha + 1 ≤ wordMax) :
    StoreOk p (updStore x ks m) := by
  induction ks generalizing m with
  | nil => exact h
  | cons a ks ih =>
    have hn' := List.nodup_cons.1 hn
    have hput : StoreOk p (Store.put a ((updTable a m).eagerAdd x) m) := by
      have hsa := hs a List.mem_cons_self
      cases hg : Store.get a m with
      | some T =>
        have hu : updTable a m = T := by simp [updTable, hg]
        rw [hu] at hsa ⊢
        have hq := h.tables _ (Store.mem_of_get hg)
        exact h.put_old hg ⟨hq.tab.eagerAdd hx hsa, hq.writable, hq.hasEsc.eagerAdd x, hq.keyLength⟩ (fun he => he.eagerAdd x)
      | none =>
        have hu : updTable a m = Table.ctxSeed := by simp [updTable, hg]
        rw [hu] at hsa ⊢
        have hq : CtxEntryOk p a Table.ctxSeed := ctxSeed_entryOk (hlen a List.mem_cons_self)
        refine h.put_new hg (within_mono hc ?_) ⟨hq.tab.eagerAdd hx hsa, hq.writable, hq.hasEsc.eagerAdd x, hq.keyLength⟩
        simp [newKeys, hg]
    refine ih _ hput hn'.2 (fun k hk => hlen k (List.mem_cons_of_mem _ hk)) ?_ ?_
    · rw [newKeys_put hn'.1, Store.length_put h.canonical]
      refine within_mono hc ?_
      cases hg : Store.get a m <;> (simp [newKeys, hg]; try omega)
    · intro k hk
      have hka : k ≠ a := by rintro rfl; exact hn'.1 hk
      have := hs k (List.mem_cons_of_mem _ hk)
      simpa [updTable, Store.get_put_other hka] using this

theorem isByte_le {x : Sym} (h : isByte x = true) : x.toNat ≤ 257 := by
  simp only [isByte, decide_eq_true_eq] at h; omega

/-- PUPD_BODY (spec/43_ppm_context_model.md R204). -/
theorem pupdBody_sat {s : State} (h : s.Sound) (x : Sym) :
    (pupdBody x s).Sat (fun t _ => t.Sound ∧ Steady s t ∧ isByte x = true)
      (fun f => (f = .badSymbol ∧ isByte x = false) ∨ f = .ctxFull ∨ f = .countOverflow) (fun _ => False) := by
  unfold pupdBody
  split
  · next hx =>
    split
    · exact ⟨h, Steady.refl s, hx⟩
    · next ho =>
      simp only
      split
      · exact .inr (.inl rfl)
      · next hcap =>
        split
        · exact .inr (.inr rfl)
        · next hfull =>
          refine ⟨h.withCtx ?_, ⟨rfl, rfl, rfl⟩, hx⟩
          apply updStore_storeOk (isByte_le hx) _ _ h.store (updKeys_nodup _ _)
          · intro k hk
            obtain ⟨n, hn, rfl⟩ := mem_updKeys.1 hk
            have := h.hist_le
            rw [last_length _ (by omega)]; omega
          · cases hc : s.params.ctxCapacity with
            | none => trivial
            | some c => simp only [ctxOverflows, hc, decide_eq_true_eq] at hcap; exact Nat.not_lt.1 hcap
          · intro k hk
            cases hg : Store.get k s.ctx with
            | none => simp [updTable, hg]; decide
            | some T =>
              simp only [updTable, hg, Option.getD_some]
              rw [← Table.countFull_eq_false]
              simp only [anyCountFull, Bool.not_eq_true, List.any_eq_false] at hfull
              have := hfull k hk
              simpa [hg] using this
  · next hx => exact .inl ⟨rfl, by simpa using hx⟩

/-! ### The table commands' bodies -/

/-- Updating a selected table keeps the store sound. -/
theorem update_storeOk {s : State} (h : s.Sound) {w : Word} {t : Tsel} {sel : Selection} (hs : select w t s = .ok sel)
    (hro : sel.tab.ro = false) {T : Table} (hT : T.Ok) (hTro : T.ro = sel.tab.ro) (hH : ∀ y, sel.tab.Has y → T.Has y) :
    StoreOk s.params (sel.update T) := by
  obtain ⟨-, hm, ⟨hk, hm1⟩ | ⟨k, hk, hg, hq⟩⟩ := select_sound h hs
  · rw [hm1] at hro; cases hro
  · simp only [Selection.update, hk]
    exact hm.put_old hg ⟨hT, hTro.trans hq.writable, hH _ hq.hasEsc, hq.keyLength⟩ (hH _)

theorem selectFault {w : Word} {t : Tsel} {s : State} {r : Raise} (h : select w t s = .error r) :
    r.code = .badTsel ∨ r.code = .ctxFull := by
  obtain ⟨-, -, ⟨hr, -⟩ | ⟨hr, -⟩⟩ := select_error h
  · exact .inl hr
  · exact .inr hr

theorem faddBody_sat {s : State} (h : s.Sound) (t : Tsel) {x : Sym} (hx : x.toNat ≤ 257) :
    (faddBody t x s).Sat (fun u _ => u.Sound ∧ Steady s u)
      (fun f => (f = .badTsel ∨ f = .ctxFull) ∨ f = .readOnlyTable ∨ f = .countOverflow) (fun _ => False) := by
  unfold faddBody
  simp only
  split
  · next hs => exact .inl (selectFault hs)
  · next sel hs =>
    split
    · exact .inr (.inl rfl)
    · next hro =>
      have hro : sel.tab.ro = false := by simpa using hro
      split
      · exact .inr (.inr rfl)
      · next hf =>
        have hf := Table.countFull_eq_false.1 (by simpa using hf)
        have hT := (select_sound h hs).1
        exact ⟨h.withCtx (update_storeOk h hs hro (hT.lazyAdd s.draws hx hf) rfl (fun y hy => hy.lazyAdd _ x)) |>.congr
          rfl rfl rfl rfl rfl rfl rfl rfl rfl rfl, rfl, rfl, rfl⟩

theorem frecompBody_sat {s : State} (h : s.Sound) (t : Tsel) :
    (frecompBody t s).Sat (fun u _ => u.Sound ∧ Steady s u)
      (fun f => (f = .badTsel ∨ f = .ctxFull) ∨ f = .readOnlyTable) (fun _ => False) := by
  unfold frecompBody
  simp only
  split
  · next hs => exact .inl (selectFault hs)
  · next sel hs =>
    split
    · exact .inr rfl
    · next hro =>
      have hro : sel.tab.ro = false := by simpa using hro
      have hT := (select_sound h hs).1
      exact ⟨h.withCtx (update_storeOk h hs hro hT.recompute rfl (fun y hy => hy.recompute)) |>.congr
        rfl rfl rfl rfl rfl rfl rfl rfl rfl rfl, rfl, rfl, rfl⟩

theorem fupdBody_sat {s : State} (h : s.Sound) (t : Tsel) {x : Sym} (hx : x.toNat ≤ 257) :
    (fupdBody t x s).Sat (fun u _ => u.Sound ∧ Steady s u)
      (fun f => (f = .badTsel ∨ f = .ctxFull) ∨ f = .readOnlyTable ∨ f = .countOverflow) (fun _ => False) := by
  unfold fupdBody
  simp only
  split
  · next hs => exact .inl (selectFault hs)
  · next sel hs =>
    split
    · exact .inr (.inl rfl)
    · next hro =>
      have hro : sel.tab.ro = false := by simpa using hro
      split
      · exact .inr (.inr rfl)
      · next hf =>
        have hf := Table.countFull_eq_false.1 (by simpa using hf)
        have hT := (select_sound h hs).1
        exact ⟨h.withCtx (update_storeOk h hs hro (hT.eagerAdd hx hf) rfl (fun y hy => hy.eagerAdd x)) |>.congr
          rfl rfl rfl rfl rfl rfl rfl rfl rfl rfl, rfl, rfl, rfl⟩

theorem flookBody_sat {s : State} (h : s.Sound) (t : Tsel) (x : Sym) :
    (flookBody t x s).Sat (fun u _ => u.Sound ∧ Steady s u) (fun f => f = .badTsel ∨ f = .ctxFull) (fun _ => False) := by
  unfold flookBody
  split
  · next hs => exact selectFault hs
  · next sel hs =>
    exact ⟨h.withCtx (select_sound h hs).2.1 |>.congr rfl rfl rfl rfl rfl rfl rfl rfl rfl rfl, rfl, rfl, rfl⟩

theorem pgetBody_sat {s : State} (h : s.Sound) (t : Tsel) :
    (pgetBody t s).Sat (fun u _ => u.Sound ∧ Steady s u) (fun f => f = .badTsel ∨ f = .ctxFull) (fun _ => False) := by
  unfold pgetBody
  split
  · next hs => exact selectFault hs
  · next sel hs =>
    exact ⟨h.withCtx (select_sound h hs).2.1 |>.congr rfl rfl rfl rfl rfl rfl rfl rfl rfl rfl, rfl, rfl, rfl⟩

/-! ### The coder's bodies from a selector -/

theorem encBody_sat {s : State} (h : s.Sound) (t : Tsel) (x : Sym) :
    (encBody t x s).Sat (fun u c => u.Sound ∧ Steady s u ∧ c.sym = x)
      (fun f => (f = .badTsel ∨ f = .ctxFull) ∨ f = .staleTable ∨ f = .zeroTotal ∨ f = .symbolAbsent ∨
        f = .intervalCollapse ∨ f = .pendingOverflow)
      (fun u => u.Sound ∧ Steady s u) := by
  unfold encBody
  split
  · next hs => exact .inl (selectFault hs)
  · next sel hs =>
    have hsel := select_sound h hs
    refine (encWith_sat h hsel.1 hsel.2.1 _ x).mono (fun _ _ hp => ⟨hp.1, hp.2.1, hp.2.2.1⟩) ?_ (fun _ hq => hq)
    rintro f (hf | ⟨hf, -⟩ | ⟨hf, -⟩ | hf | hf) <;> simp [hf]

theorem decBody_sat {s : State} (h : s.Sound) (t : Tsel) :
    (decBody t s).Sat (fun u _ => u.Sound ∧ Steady s u)
      (fun f => (f = .badTsel ∨ f = .ctxFull) ∨ f = .staleTable ∨ f = .zeroTotal ∨ f = .streamCorrupt)
      (fun _ => False) := by
  unfold decBody
  split
  · next hs => exact .inl (selectFault hs)
  · next sel hs =>
    have hsel := select_sound h hs
    refine (decWith_sat h hsel.1 hsel.2.1 _).mono (fun _ _ hp => ⟨hp.1, hp.2.1⟩) ?_ (fun _ hq => hq)
    rintro f (⟨hf, -⟩ | ⟨hf, -⟩ | hf) <;> simp [hf]

end Sys2Proof.Machine
end

