-- ==== Sys2Proof/Laws/Drivers.lean ====
section
/-! SUPPORT. One lemma per primitive step of the drivers: what it can answer in a sound state, and the loop state it leaves. -/

namespace Sys2Proof.Machine

/-- The loop state after a primitive step belongs to the history it leaves. -/
def nextPhaseOk (n : Nat) : Option SymLoop → Prop
  | none => True
  | some k => k.phase.Ok n

theorem Body.Sat.map {α β : Type} {P : State → β → Prop} {F : FaultCode → Prop} {Q : State → Prop} {b : Body α} {f : α → β}
    (h : b.Sat (fun s a => P s (f a)) F Q) : (b.map f).Sat P F Q := by
  cases b <;> exact h

/-- Step 0 leaves a phase within the history (spec/44_drivers.md R225). -/
theorem symStart_ok {s : State} (h : s.Sound) : (symStart s).phase.Ok s.hist.length := by
  unfold symStart
  simp only
  split
  · trivial
  · show (BitVec.ofNat 5 _).toNat ≤ _
    have h1 := h.hist_le
    have h2 := legal_maxOrder h.legal
    rw [BitVec.toNat_ofNat, Nat.mod_eq_of_lt (by omega)]
    exact Nat.min_le_left _ _

theorem descend_ok {o : Tsel} {n e : Nat} {cr : Bool} (h : o.toNat ≤ n) : (descend o e cr).phase.Ok n := by
  unfold descend
  simp only
  split
  · trivial
  · next ho =>
    show (o - 1).toNat ≤ n
    have : o.toNat ≠ 0 := fun e => ho (BitVec.eq_of_toNat_eq e)
    rw [BitVec.toNat_sub]
    have := o.isLt
    simp; omega

theorem resolved_ok {c : Coded} {n e : Nat} {cr : Bool} (h : c.sym = Sym.eof ∨ isByte c.sym = true) :
    (resolved c e cr).phase.Ok n := by
  unfold resolved
  simp only
  split
  · next he => exact .inl he
  · next he =>
    rcases h with h | h
    · exact absurd h he
    · exact h

/-- An order within the history is no M1 selector. -/
theorem order_ne_m1 {s : State} (h : s.Sound) {o : Tsel} (ho : o.toNat ≤ s.hist.length) : o ≠ Tsel.m1 := by
  rintro rfl
  have h1 := h.hist_le
  have h2 := legal_maxOrder h.legal
  have : Tsel.m1.toNat = 31 := rfl
  omega

/-- An order within the history selects a context table, or finds the store full. -/
theorem select_order {s : State} (h : s.Sound) {o : Tsel} (ho : o.toNat ≤ s.hist.length) (w : Word) :
    (∃ r, select w o s = .error r ∧ r.code = .ctxFull) ∨
      (∃ sel k, select w o s = .ok sel ∧ CtxEntryOk s.params k sel.tab ∧ StoreOk s.params sel.ctx ∧
        (k = [] → sel.tab.Has Sym.eof)) := by
  cases hs : select w o s with
  | error r =>
    left
    refine ⟨r, rfl, ?_⟩
    obtain ⟨-, -, ⟨-, hl⟩ | ⟨hr, -⟩⟩ := select_error hs
    · omega
    · exact hr
  | ok sel =>
    right
    rcases select_ok hs with ⟨hm, -⟩ | ⟨-, hl, hcase⟩
    · exact absurd hm (order_ne_m1 h ho)
    · obtain ⟨hT, hm, ⟨hk, -⟩ | ⟨k, hk, hg, hq⟩⟩ := select_sound h hs
      · rcases hcase with ⟨T, -, rfl⟩ | ⟨-, -, rfl⟩ <;> cases hk
      · refine ⟨sel, k, rfl, hq, hm, ?_⟩
        rintro rfl
        obtain ⟨R, hR, hRe⟩ := hm.root
        rw [hg] at hR; cases hR; exact hRe

/-- Step DESC of CSYM (spec/44_drivers.md R221). -/
theorem csymDesc_sat {s : State} (h : s.Sound) {x : Sym} (hx : Codable x) {o : Tsel} (ho : o.toNat ≤ s.hist.length)
    (k : SymLoop) :
    (csymDesc x o k s).Sat (fun t k' => t.Sound ∧ Steady s t ∧ nextPhaseOk t.hist.length k')
      (fun f => f = .ctxFull ∨ f = .staleTable ∨ f = .intervalCollapse ∨ f = .pendingOverflow)
      (fun t => t.Sound ∧ Steady s t) := by
  unfold csymDesc
  rcases select_order h ho (encode (.enc o Sym.esc)) with ⟨r, hr, hf⟩ | ⟨sel, q, hs, hq, hm, -⟩
  · rw [hr]; exact .inl hf
  · simp only [hs]
    split
    · next hp =>
      refine Body.Sat.map ((encWith_sat h hq.tab hm _ x).mono ?_ ?_ (fun _ hq => hq))
      · rintro t c ⟨h1, h2, h3, -⟩
        exact ⟨h1, h2, resolved_ok (by rw [h3]; exact hx)⟩
      · rintro f (hf | ⟨-, hf⟩ | ⟨-, hf⟩ | hf | hf)
        · simp [hf]
        · exact absurd hq.hasEsc (hf _)
        · exact absurd (Table.entry?_isSome.1 hp) hf
        · simp [hf]
        · simp [hf]
    · refine Body.Sat.map ((encWith_sat h hq.tab hm _ Sym.esc).mono ?_ ?_ (fun _ hq => hq))
      · rintro t c ⟨h1, h2, -, -⟩
        exact ⟨h1, h2, by rw [h2.hist]; exact descend_ok ho⟩
      · rintro f (hf | ⟨-, hf⟩ | ⟨-, hf⟩ | hf | hf)
        · simp [hf]
        · exact absurd hq.hasEsc (hf _)
        · exact absurd hq.hasEsc hf
        · simp [hf]
        · simp [hf]

/-- Step FALL of CSYM (spec/44_drivers.md R221): EOF is in the root, a byte in M1. -/
theorem csymFall_sat {s : State} (h : s.Sound) {x : Sym} (hx : Codable x) (k : SymLoop) :
    (csymFall x k s).Sat (fun t k' => t.Sound ∧ Steady s t ∧ nextPhaseOk t.hist.length k')
      (fun f => f = .staleTable ∨ f = .intervalCollapse ∨ f = .pendingOverflow) (fun t => t.Sound ∧ Steady s t) := by
  unfold csymFall
  have key : ∀ (sel : Selection) (w : Word), sel.tab.Ok → StoreOk s.params sel.ctx → sel.tab.Has x →
      (encWith w sel x s).Sat (fun t c => t.Sound ∧ Steady s t ∧ nextPhaseOk t.hist.length (some (resolved c k.e k.cr)))
        (fun f => f = .staleTable ∨ f = .intervalCollapse ∨ f = .pendingOverflow) (fun t => t.Sound ∧ Steady s t) := by
    intro sel w hT hm hH
    refine (encWith_sat h hT hm w x).mono ?_ ?_ (fun _ hq => hq)
    · rintro t c ⟨h1, h2, h3, -⟩
      exact ⟨h1, h2, resolved_ok (by rw [h3]; exact hx)⟩
    · rintro f (hf | ⟨-, hf⟩ | ⟨-, hf⟩ | hf | hf)
      · simp [hf]
      · exact absurd hH (hf _)
      · exact absurd hH hf
      · simp [hf]
      · simp [hf]
  refine Body.Sat.map ?_
  unfold encBody
  by_cases he : x = Sym.eof
  · simp only [he, if_true] at key ⊢
    obtain ⟨R, hR, hRe⟩ := h.store.root
    have h0 : (0 : Tsel) ≠ Tsel.m1 := by decide
    have hsel := select_found (w := encode (.enc 0 Sym.eof)) (s := s) (T := R) h0 (by simp)
      (by rw [show ((0 : Tsel).toNat) = 0 from rfl, last_zero]; exact hR)
    rw [hsel]
    exact key _ _ (h.store.tables _ (Store.mem_of_get hR)).tab h.store hRe
  · simp only [he, if_false]
    rw [select_m1]
    refine key _ _ Table.m1_ok h.store ?_
    rcases hx with hx | hx
    · exact absurd hx he
    · exact (Table.m1_has x).2 hx

/-- Step UPD (spec/44_drivers.md R221, R222). -/
theorem updStep_sat {s : State} (h : s.Sound) {x : Sym} (hx : isByte x = true) (tl : ResRegs) (k : SymLoop) :
    (updStep x tl k s).Sat (fun t k' => t.Sound ∧ Steady s t ∧ nextPhaseOk t.hist.length k')
      (fun f => f = .ctxFull ∨ f = .countOverflow) (fun _ => False) := by
  refine Body.Sat.map ((pupdBody_sat h x).mono ?_ ?_ (fun _ hq => hq))
  · rintro t a ⟨h1, h2, h3⟩; exact ⟨h1, h2, h3⟩
  · rintro f (⟨-, hf⟩ | hf | hf)
    · rw [hx] at hf; cases hf
    · exact .inl hf
    · exact .inr hf

/-- Step PUSH (spec/44_drivers.md R221, R222). -/
theorem pushStep_sat {s : State} (h : s.Sound) {x : Sym} (hx : isByte x = true) (tl : ResRegs) (k : SymLoop) :
    (pushStep x tl k s).Sat
      (fun t k' => t.Sound ∧ (t.fault = s.fault ∧ t.params = s.params) ∧ nextPhaseOk t.hist.length k')
      (fun _ => False) (fun _ => False) := by
  refine Body.Sat.map ((hpushBody_sat h x).mono ?_ ?_ (fun _ hq => hq))
  · rintro t a ⟨h1, h2, h3, h4⟩; exact ⟨h1, ⟨h3, h4⟩, .inr h2⟩
  · rintro f ⟨-, hf⟩
    rw [hx] at hf; cases hf

/-- A primitive step of CSYM after step 0 (spec/44_drivers.md R221). -/
theorem csymStep_sat {s : State} (h : s.Sound) {x : Sym} (hx : Codable x) {k : SymLoop} (hk : k.phase.Ok s.hist.length) :
    (csymStep x k s).Sat (fun t k' => t.Sound ∧ (t.fault = s.fault ∧ t.params = s.params) ∧ nextPhaseOk t.hist.length k')
      (fun f => f = .ctxFull ∨ f = .staleTable ∨ f = .intervalCollapse ∨ f = .pendingOverflow ∨ f = .countOverflow)
      (fun t => t.Sound ∧ t.fault = s.fault ∧ t.params = s.params) := by
  unfold csymStep
  split
  · next o hp =>
    rw [hp] at hk
    exact (csymDesc_sat h hx hk k).mono (fun _ _ ⟨h1, h2, h3⟩ => ⟨h1, ⟨h2.fault, h2.params⟩, h3⟩)
      (by rintro f (hf | hf | hf | hf) <;> simp [hf]) (fun _ ⟨h1, h2⟩ => ⟨h1, h2.fault, h2.params⟩)
  · exact (csymFall_sat h hx k).mono (fun _ _ ⟨h1, h2, h3⟩ => ⟨h1, ⟨h2.fault, h2.params⟩, h3⟩)
      (by rintro f (hf | hf | hf) <;> simp [hf]) (fun _ ⟨h1, h2⟩ => ⟨h1, h2.fault, h2.params⟩)
  · next y tl hp =>
    rw [hp] at hk
    exact (updStep_sat h hk tl k).mono (fun _ _ ⟨h1, h2, h3⟩ => ⟨h1, ⟨h2.fault, h2.params⟩, h3⟩)
      (by rintro f (hf | hf) <;> simp [hf]) (fun _ hq => hq.elim)
  · next y tl hp =>
    rw [hp] at hk
    exact (pushStep_sat h hk tl k).mono (fun _ _ hq => hq) (fun _ hf => hf.elim) (fun _ hq => hq.elim)
  · exact ⟨h.congr rfl rfl rfl rfl rfl rfl rfl rfl rfl rfl, ⟨rfl, rfl⟩, trivial⟩

/-- A symbol of a sound table that is not ESC can be coded: it is EOF or a byte. -/
theorem codable_of_has {T : Table} (hT : T.Ok) {x : Sym} (hx : T.Has x) (he : x ≠ Sym.esc) : Codable x := by
  obtain ⟨e, hm, rfl⟩ := List.mem_map.1 hx
  have h1 := hT.symRange e hm
  by_cases h2 : e.sym = Sym.eof
  · exact .inl h2
  · right
    simp only [isByte, decide_eq_true_eq]
    have h3 : e.sym.toNat ≠ 257 := fun h => he (BitVec.eq_of_toNat_eq h)
    have h4 : e.sym.toNat ≠ 256 := fun h => h2 (BitVec.eq_of_toNat_eq h)
    omega

/-- Step DESC of DSYM (spec/44_drivers.md R222). -/
theorem dsymDesc_sat {s : State} (h : s.Sound) {o : Tsel} (ho : o.toNat ≤ s.hist.length) (k : SymLoop) :
    (dsymDesc o k s).Sat (fun t k' => t.Sound ∧ Steady s t ∧ nextPhaseOk t.hist.length k')
      (fun f => f = .ctxFull ∨ f = .staleTable ∨ f = .streamCorrupt) (fun _ => False) := by
  refine Body.Sat.map ?_
  unfold decBody
  rcases select_order h ho (encode (.dec o)) with ⟨r, hr, hf⟩ | ⟨sel, q, hs, hq, hm, -⟩
  · rw [hr]; exact .inl hf
  · simp only [hs]
    refine (decWith_sat h hq.tab hm _).mono ?_ ?_ (fun _ hq => hq)
    · rintro t c ⟨h1, h2, h3⟩
      refine ⟨h1, h2, ?_⟩
      split
      · rw [h2.hist]; exact descend_ok ho
      · next he => exact resolved_ok (codable_of_has hq.tab h3 he)
    · rintro f (⟨hf, -⟩ | ⟨-, hf⟩ | hf)
      · simp [hf]
      · exact absurd hq.hasEsc (hf _)
      · simp [hf]

/-- Step FALL of DSYM (spec/44_drivers.md R222). -/
theorem dsymFall_sat {s : State} (h : s.Sound) (k : SymLoop) :
    (dsymFall k s).Sat (fun t k' => t.Sound ∧ Steady s t ∧ nextPhaseOk t.hist.length k')
      (fun f => f = .orderM1Decode ∨ f = .streamCorrupt) (fun _ => False) := by
  unfold dsymFall
  split
  · exact .inl rfl
  · refine Body.Sat.map ?_
    unfold decBody
    rw [select_m1]
    refine (decWith_sat h (sel := ⟨Table.m1, none, s.ctx, false⟩) Table.m1_ok h.store _).mono ?_ ?_ (fun _ hq => hq)
    · rintro t c ⟨h1, h2, h3⟩
      exact ⟨h1, h2, (Table.m1_has c.sym).1 h3⟩
    · rintro f (⟨-, hf⟩ | ⟨-, hf⟩ | hf)
      · cases hf
      · exact absurd ((Table.m1_has 0).2 (by decide)) (hf _)
      · exact .inr hf

/-- A primitive step of DSYM after step 0 (spec/44_drivers.md R222). -/
theorem dsymStep_sat {s : State} (h : s.Sound) {k : SymLoop} (hk : k.phase.Ok s.hist.length) :
    (dsymStep k s).Sat (fun t k' => t.Sound ∧ (t.fault = s.fault ∧ t.params = s.params) ∧ nextPhaseOk t.hist.length k')
      (fun f => f = .ctxFull ∨ f = .staleTable ∨ f = .streamCorrupt ∨ f = .countOverflow ∨ f = .orderM1Decode)
      (fun _ => False) := by
  unfold dsymStep
  split
  · next o hp =>
    rw [hp] at hk
    exact (dsymDesc_sat h hk k).mono (fun _ _ ⟨h1, h2, h3⟩ => ⟨h1, ⟨h2.fault, h2.params⟩, h3⟩)
      (by rintro f (hf | hf | hf) <;> simp [hf]) (fun _ hq => hq.elim)
  · exact (dsymFall_sat h k).mono (fun _ _ ⟨h1, h2, h3⟩ => ⟨h1, ⟨h2.fault, h2.params⟩, h3⟩)
      (by rintro f (hf | hf) <;> simp [hf]) (fun _ hq => hq.elim)
  · next y tl hp =>
    rw [hp] at hk
    exact (updStep_sat h hk tl k).mono (fun _ _ ⟨h1, h2, h3⟩ => ⟨h1, ⟨h2.fault, h2.params⟩, h3⟩)
      (by rintro f (hf | hf) <;> simp [hf]) (fun _ hq => hq.elim)
  · next y tl hp =>
    rw [hp] at hk
    exact (pushStep_sat h hk tl k).mono (fun _ _ hq => hq) (fun _ hf => hf.elim) (fun _ hq => hq.elim)
  · refine ⟨State.Sound.congr (s := s) h ?_ ?_ ?_ ?_ ?_ ?_ ?_ ?_ ?_ ?_, ⟨?_, ?_⟩, trivial⟩ <;>
      (unfold outputByte; split <;> rfl)

end Sys2Proof.Machine
end

