-- ==== Sys2Proof/Laws/Encoding.lean ====
section
/-! SUPPORT. The fields of a packed word and the legality checks; what the decoder accepts, in numbers. -/

namespace Sys2Proof

theorem append_toNat {n m : Nat} (x : BitVec n) (y : BitVec m) : (x ++ y).toNat = x.toNat * 2 ^ m + y.toNat := by
  rw [BitVec.toNat_append, ← Nat.shiftLeft_add_eq_or_of_lt y.isLt, Nat.shiftLeft_eq]

theorem packWord_toNat (o : BitVec 6) (t : Tsel) (s : Sym) (r : BitVec 12) :
    (packWord o t s r).toNat = o.toNat * 67108864 + t.toNat * 2097152 + s.toNat * 4096 + r.toNat := by
  unfold packWord
  rw [append_toNat, append_toNat, append_toNat]
  omega

theorem field_toNat (w : Word) (k n : Nat) : (w.extractLsb' k n).toNat = w.toNat / 2 ^ k % 2 ^ n := by
  simp [BitVec.extractLsb'_toNat, Nat.shiftRight_eq_div_pow]

theorem opcField_toNat (w : Word) : (opcField w).toNat = w.toNat / 67108864 % 64 := field_toNat w 26 6
theorem tselField_toNat (w : Word) : (tselField w).toNat = w.toNat / 2097152 % 32 := field_toNat w 21 5
theorem symField_toNat (w : Word) : (symField w).toNat = w.toNat / 4096 % 512 := field_toNat w 12 9
theorem rsvField_toNat (w : Word) : (rsvField w).toNat = w.toNat % 4096 := by
  rw [rsvField, field_toNat]; simp
theorem ignField_toNat (w : Word) : (ignField w).toNat = w.toNat % 67108864 := by
  rw [ignField, field_toNat]; simp

section
variable (o : BitVec 6) (t : Tsel) (s : Sym) (r : BitVec 12)

@[simp] theorem opcField_packWord : opcField (packWord o t s r) = o := by
  apply BitVec.eq_of_toNat_eq
  have := o.isLt; have := t.isLt; have := s.isLt; have := r.isLt
  rw [opcField_toNat, packWord_toNat]; omega

@[simp] theorem tselField_packWord : tselField (packWord o t s r) = t := by
  apply BitVec.eq_of_toNat_eq
  have := o.isLt; have := t.isLt; have := s.isLt; have := r.isLt
  rw [tselField_toNat, packWord_toNat]; omega

@[simp] theorem symField_packWord : symField (packWord o t s r) = s := by
  apply BitVec.eq_of_toNat_eq
  have := o.isLt; have := t.isLt; have := s.isLt; have := r.isLt
  rw [symField_toNat, packWord_toNat]; omega

@[simp] theorem rsvField_packWord : rsvField (packWord o t s r) = r := by
  apply BitVec.eq_of_toNat_eq
  have := o.isLt; have := t.isLt; have := s.isLt; have := r.isLt
  rw [rsvField_toNat, packWord_toNat]; omega

end

/-- A word is its four fields. -/
theorem packWord_fields (w : Word) : packWord (opcField w) (tselField w) (symField w) (rsvField w) = w := by
  apply BitVec.eq_of_toNat_eq
  have := w.isLt
  rw [packWord_toNat, opcField_toNat, tselField_toNat, symField_toNat, rsvField_toNat]; omega

theorem srstWord_toNat (ign : BitVec 26) : (encode (.srst ign)).toNat = 67108864 + ign.toNat := by
  show ((0x01 : BitVec 6) ++ ign).toNat = _
  rw [append_toNat]; simp

@[simp] theorem opcField_srst (ign : BitVec 26) : opcField (encode (.srst ign)) = 0x01 := by
  apply BitVec.eq_of_toNat_eq
  have := ign.isLt
  rw [opcField_toNat, srstWord_toNat]; simp; omega

@[simp] theorem ignField_srst (ign : BitVec 26) : ignField (encode (.srst ign)) = ign := by
  apply BitVec.eq_of_toNat_eq
  have := ign.isLt
  rw [ignField_toNat, srstWord_toNat]; omega

/-- A word with SRST's opcode is SRST with its low 26 bits. -/
theorem encode_srst_ignField (w : Word) (h : opcField w = 0x01) : encode (.srst (ignField w)) = w := by
  apply BitVec.eq_of_toNat_eq
  have := w.isLt
  have h' : (opcField w).toNat = 1 := by rw [h]; rfl
  rw [opcField_toNat] at h'
  rw [srstWord_toNat, ignField_toNat]; omega

/-- A well-formed selector is not reserved. -/
theorem tselReserved_of_ok {p : Params} {t : Tsel} (h : tselOk p t = true) : tselReserved p t = false := by
  simp only [tselOk, Bool.or_eq_true, decide_eq_true_eq] at h
  simp only [tselReserved, Bool.and_eq_false_iff, decide_eq_false_iff_not]
  rcases h with h | rfl
  · left; omega
  · right; decide

/-- A selector that is not reserved is well-formed. -/
theorem tselOk_of_not_reserved {p : Params} {t : Tsel} (h : tselReserved p t = false) : tselOk p t = true := by
  simp only [tselReserved, Bool.and_eq_false_iff, decide_eq_false_iff_not] at h
  simp only [tselOk, Bool.or_eq_true, decide_eq_true_eq]
  by_cases ht : t.toNat ≤ p.maxOrder
  · exact .inl ht
  · right
    apply BitVec.eq_of_toNat_eq
    have := t.isLt
    show t.toNat = 31
    omega

/-- The two checks of a symbol field agree. -/
theorem symReserved_eq (s : Sym) : symReserved s = !symOk s := by
  simp only [symReserved, symOk]
  by_cases h : s.toNat ≤ 257
  · simp [h]; omega
  · simp [h]; omega

end Sys2Proof
end

