-- ==== Sys2Proof/Laws/HostBus.lean ====
section
/-! SUPPORT. What a host read does: a popping read pops, a read that R85 leaves open draws, and every other read returns its
register and changes nothing else. -/

namespace Sys2Proof.Machine

/-- A number of contexts that fits CTX_COUNT shows as it is. -/
theorem ctxCountWord_of_le {n : Nat} (h : n ≤ wordMax) : ctxCountWord n = BitVec.ofNat 32 n := if_pos h

/-- No read is open while the core is idle (spec/20_memory.md R85). -/
theorem unstatedRead_idle {s : State} (h : s.seq = .idle) (off : Nat) : unstatedRead off s = false := by
  simp [unstatedRead, State.busy, h]

/-- A read that is neither popping nor open returns the register's value in the state before it (spec/20_memory.md R99). -/
theorem hostRead_stated {s : State} {off : Nat} (h1 : off ≠ 0x48) (h2 : off ≠ 0x4C) (hu : unstatedRead off s = false) :
    hostRead off s = { s with rdata := regValue off s } := by
  simp [hostRead, h1, h2, hu]

/-- A read of an idle block that does not pop returns the register's value in the state before it. -/
theorem hostRead_idle {s : State} {off : Nat} (h1 : off ≠ 0x48) (h2 : off ≠ 0x4C) (hi : s.seq = .idle) :
    hostRead off s = { s with rdata := regValue off s } := hostRead_stated h1 h2 (unstatedRead_idle hi off)

/-- No register's value depends on what the last read returned or on the free values drawn. -/
theorem regValue_read (off : Nat) (r : Word) (n : Nat) (s : State) :
    regValue off { s with rdata := r, draws := n } = regValue off s := rfl

/-- An open read draws one free value and changes nothing else (spec/20_memory.md R85; log 5). -/
theorem hostRead_unstated {s : State} {off : Nat} (h1 : off ≠ 0x48) (h2 : off ≠ 0x4C) (hu : unstatedRead off s = true) :
    hostRead off s = { s with rdata := Config.freeRead s.draws, draws := s.draws + 1 } := by
  simp [hostRead, h1, h2, hu]

end Sys2Proof.Machine
end

