-- ==== Sys2Proof/Laws/Lockstep.lean ====
section
/-! SUPPORT. Encoder and decoder in step: the future output of an encoder, and the CODE a decoder holds then. -/

namespace Sys2Proof.Machine

/-- The bits of a list, with zeros after its end (spec/42_arithmetic_coder.md R164). -/
def stream (l : List Bool) (i : Nat) : Bool := (l[i]?).getD false

/-- The stream without its first `n` bits. -/
def streamFrom (n : Nat) (S : Nat → Bool) (i : Nat) : Bool := S (n + i)

/-- The first `n` bits as a number, the first bit the most significant. -/
def streamVal : Nat → (Nat → Bool) → Nat
  | 0, _ => 0
  | n+1, S => 2 * streamVal n S + (S n).toNat

theorem streamVal_cons (n S) : streamVal (n+1) S = (S 0).toNat * 2^n + streamVal n (streamFrom 1 S) := by
  induction n generalizing S with
  | zero => simp [streamVal]
  | succ n ih =>
    rw [streamVal, ih, streamVal]
    have : streamFrom 1 S n = S (n+1) := by simp [streamFrom, Nat.add_comm]
    rw [this, pow_succ]; ring

theorem streamVal_lt (n S) : streamVal n S < 2^n := by
  induction n with
  | zero => simp [streamVal]
  | succ n ih => rw [streamVal, pow_succ]; cases S n <;> simp <;> omega

theorem streamFrom_streamFrom (a b S) : streamFrom a (streamFrom b S) = streamFrom (b + a) S := by funext i; simp [streamFrom, Nat.add_assoc]

theorem stream_append (a b i) : stream (a ++ b) i = if i < a.length then (a[i]?).getD false else stream b (i - a.length) := by
  unfold stream; rw [List.getElem?_append]; split <;> rfl

theorem streamFrom_append (a b) : streamFrom a.length (stream (a ++ b)) = stream b := by
  funext i; simp [streamFrom, stream_append]

theorem stream_tail (l) : streamFrom 1 (stream l) = stream l.tail := by
  funext i; cases l <;> simp [streamFrom, stream, Nat.add_comm]

theorem stream_next (l) : stream l 0 = (nextBit l).1 ∧ stream (nextBit l).2 = streamFrom 1 (stream l) := by
  cases l with
  | nil => exact ⟨rfl, by funext i; simp [nextBit, streamFrom, stream]⟩
  | cons b l => exact ⟨rfl, by funext i; simp [nextBit, streamFrom, stream, Nat.add_comm]⟩

theorem stream_zeros (l z) : stream (l ++ List.replicate z false) = stream l := by
  funext i; unfold stream; rw [List.getElem?_append]
  split
  · rfl
  · next h =>
    have : l[i]? = none := by rw [List.getElem?_eq_none]; omega
    rw [this, List.getElem?_replicate]; split <;> rfl

theorem stream_drop (l n) : stream (l.drop n) = streamFrom n (stream l) := by
  funext i; simp [stream, streamFrom]

/-- The decoder's CODE while the encoder holds `p` pending bits and its future output is `S`. -/
def futureCode (P p : Nat) (S : Nat → Bool) : Nat := (S 0).toNat * half P + streamVal (P-1) (streamFrom (1+p) S)

/-- The first `p` bits after the first one are its opposite, as a resolution of `p` pending bits emits them
(spec/42_arithmetic_coder.md R163). -/
def ResolvesPending (p : Nat) (S : Nat → Bool) : Prop := ∀ i, 1 ≤ i → i ≤ p → S i = !(S 0)

/-- The stream is a future of the encoder's registers: its pending bits come out so, and its CODE lies in the interval. -/
def ValidFuture (P : Nat) (low high p : Nat) (S : Nat → Bool) : Prop := ResolvesPending p S ∧ low ≤ futureCode P p S ∧ futureCode P p S ≤ high

theorem futureCode_zero {P S} (h : 1 ≤ P) : futureCode P 0 S = streamVal P S := by
  obtain ⟨n, rfl⟩ : ∃ n, P = n+1 := ⟨P-1, by omega⟩
  rw [streamVal_cons]; simp [futureCode, half]

/-- The bits one renormalization pass emits. -/
def passOut (c : RenormCase) (p : Nat) : List Bool := match c with
  | .e1 => false :: List.replicate p true
  | .e2 => true :: List.replicate p false
  | .e3 => []

theorem encPass_out (P c r) : (encPass P c r).out = r.out ++ passOut c r.pending := by cases c <;> simp [encPass, passOut]

theorem stream_block {b : Bool} {p : Nat} {T : List Bool} : ResolvesPending p (stream (b :: List.replicate p (!b) ++ T)) ∧ stream (b :: List.replicate p (!b) ++ T) 0 = b ∧ streamFrom (1+p) (stream (b :: List.replicate p (!b) ++ T)) = stream T := by
  have h0 : stream (b :: List.replicate p (!b) ++ T) 0 = b := rfl
  refine ⟨?_, h0, ?_⟩
  · intro i h1 h2
    rw [h0]
    obtain ⟨j, rfl⟩ : ∃ j, i = j+1 := ⟨i-1, by omega⟩
    show ((List.replicate p (!b) ++ T)[j]?).getD false = _
    rw [List.getElem?_append_left (by simp; omega), List.getElem?_replicate, if_pos (by omega)]; rfl
  · have := streamFrom_append (b :: List.replicate p (!b)) T
    simp only [List.length_cons, List.length_replicate] at this
    rw [Nat.add_comm]; exact this

theorem half_quarter {P} (h : 2 ≤ P) : half P = 2 * quarter P ∧ 1 ≤ quarter P := by
  have := coder_constants h; omega

/-- One pass: a future of the registers after it, behind the bits the pass emits, is a future of the registers before it,
and the decoder's pass on that stream keeps the two in step. -/
theorem pass_back {P : Nat} (hP : 2 ≤ P) {c : RenormCase} {r : EncRegs} (hlh : r.low ≤ r.high) (ht : r.high ≤ top P) (hc : renormCase P r.low r.high = some c) {T : List Bool}
    (hv : ValidFuture P (encPass P c r).low (encPass P c r).high (encPass P c r).pending (stream T)) :
    ValidFuture P r.low r.high r.pending (stream (passOut c r.pending ++ T)) ∧
    ∀ bits, stream bits = streamFrom (P + r.pending) (stream (passOut c r.pending ++ T)) →
      let d := decPass P c ⟨r.low, r.high, futureCode P r.pending (stream (passOut c r.pending ++ T)), bits⟩
      d.low = (encPass P c r).low ∧ d.high = (encPass P c r).high ∧ d.code = futureCode P (encPass P c r).pending (stream T) ∧ stream d.bits = streamFrom (P + (encPass P c r).pending) (stream T) := by
  obtain ⟨n, rfl⟩ : ∃ n, P = n + 2 := ⟨P-2, by omega⟩
  obtain ⟨hh, hq⟩ := half_quarter hP
  have hoff := (renormCase_some hP hlh ht hc).1
  have e1 : half (n+2) = 2^(n+1) := rfl
  have e2 : quarter (n+2) = 2^n := rfl
  have blockcase : ∀ b : Bool, passOut c r.pending = b :: List.replicate r.pending (!b) → (encPass (n+2) c r).pending = 0 → c.offset (n+2) = b.toNat * half (n+2) →
      ValidFuture (n+2) r.low r.high r.pending (stream (passOut c r.pending ++ T)) ∧
      ∀ bits, stream bits = streamFrom ((n+2) + r.pending) (stream (passOut c r.pending ++ T)) →
      let d := decPass (n+2) c ⟨r.low, r.high, futureCode (n+2) r.pending (stream (passOut c r.pending ++ T)), bits⟩
      d.low = (encPass (n+2) c r).low ∧ d.high = (encPass (n+2) c r).high ∧ d.code = futureCode (n+2) (encPass (n+2) c r).pending (stream T) ∧ stream d.bits = streamFrom ((n+2) + (encPass (n+2) c r).pending) (stream T) := by
    intro b hpo hp0 hof
    rw [hpo, hp0]; rw [hp0] at hv
    obtain ⟨a1, a2, a3⟩ := stream_block (b := b) (p := r.pending) (T := T)
    obtain ⟨v1, v2, v3⟩ := hv
    rw [futureCode_zero (by omega)] at v2 v3
    have hC : futureCode (n+2) r.pending (stream (b :: List.replicate r.pending (!b) ++ T)) = b.toNat * half (n+2) + streamVal (n+1) (stream T) := by
      unfold futureCode; rw [a2, a3]; rfl
    have hval : streamVal (n+2) (stream T) = 2 * streamVal (n+1) (stream T) + (stream T (n+1)).toNat := rfl
    have hlo : (encPass (n+2) c r).low = 2 * (r.low - b.toNat * half (n+2)) := by rw [← hof]; rfl
    have hhi : (encPass (n+2) c r).high = 2 * (r.high - b.toNat * half (n+2)) + 1 := by rw [← hof]; rfl
    rw [hof] at hoff
    have hbit : (stream T (n+1)).toNat ≤ 1 := by cases stream T (n+1) <;> simp
    refine ⟨⟨a1, ?_, ?_⟩, ?_⟩
    · rw [hC]; omega
    · rw [hC]; omega
    · intro bits hbits
      have hb0 : (nextBit bits).1 = stream T (n+1) := by
        rw [← (stream_next bits).1, hbits]
        have := congrFun a3 (n+1)
        rw [← this]; simp only [streamFrom]; congr 1; omega
      have hb1 : stream (nextBit bits).2 = streamFrom (n+2) (stream T) := by
        rw [(stream_next bits).2, hbits, streamFrom_streamFrom, ← a3, streamFrom_streamFrom]; congr 1; omega
      refine ⟨rfl, rfl, ?_, hb1⟩
      show 2 * (futureCode (n+2) r.pending _ - c.offset (n+2)) + (nextBit bits).1.toNat = _
      rw [hof, hC, hb0, futureCode_zero (by omega), hval]; omega
  cases c with
  | e1 => exact blockcase false rfl rfl (by simp [RenormCase.offset])
  | e2 => exact blockcase true rfl rfl (by simp [RenormCase.offset])
  | e3 =>
    show ValidFuture (n+2) r.low r.high r.pending (stream T) ∧ _
    have hv' : ValidFuture (n+2) (2*(r.low - quarter (n+2))) (2 * (r.high - quarter (n+2)) + 1) (r.pending+1) (stream T) := hv
    obtain ⟨v1, v2, v3⟩ := hv'
    have hq1 : stream T (r.pending+1) = !(stream T 0) := v1 _ (by omega) (by omega)
    have hoff : quarter (n+2) ≤ r.low := hoff
    have hC : futureCode (n+2) r.pending (stream T) = (stream T 0).toNat * half (n+2) + ((!(stream T 0)).toNat * quarter (n+2) + streamVal n (streamFrom (r.pending+2) (stream T))) := by
      unfold futureCode
      have : streamVal (n+2-1) (streamFrom (1+r.pending) (stream T)) = (streamFrom (1+r.pending) (stream T) 0).toNat * 2^n + streamVal n (streamFrom 1 (streamFrom (1+r.pending) (stream T))) := streamVal_cons n _
      rw [this, streamFrom_streamFrom]
      have : streamFrom (1+r.pending) (stream T) 0 = stream T (r.pending+1) := by simp only [streamFrom]; congr 1; omega
      rw [this, hq1, ← e2]
      rw [show 1 + r.pending + 1 = r.pending + 2 by omega]
    have hC' : futureCode (n+2) (r.pending+1) (stream T) = (stream T 0).toNat * half (n+2) + (2 * streamVal n (streamFrom (r.pending+2) (stream T)) + (stream T (n+2+r.pending)).toNat) := by
      unfold futureCode
      have : streamVal (n+2-1) (streamFrom (1+(r.pending+1)) (stream T)) = 2 * streamVal n (streamFrom (1+(r.pending+1)) (stream T)) + (streamFrom (1+(r.pending+1)) (stream T) n).toNat := rfl
      rw [this]
      have : streamFrom (1+(r.pending+1)) (stream T) n = stream T (n+2+r.pending) := by simp only [streamFrom]; congr 1; omega
      rw [this, show 1 + (r.pending + 1) = r.pending + 2 by omega]
    have hbit : (stream T (n+2+r.pending)).toNat ≤ 1 := by cases stream T (n+2+r.pending) <;> simp
    refine ⟨⟨fun i h1 h2 => v1 i h1 (by omega), ?_, ?_⟩, ?_⟩
    · rw [hC]; rw [hC'] at v2 v3; cases h0 : stream T 0 <;> simp [h0] at * <;> omega
    · rw [hC]; rw [hC'] at v2 v3; cases h0 : stream T 0 <;> simp [h0] at * <;> omega
    · intro bits hbits
      have hbits : stream bits = streamFrom (n+2+r.pending) (stream T) := hbits
      have hb0 : (nextBit bits).1 = stream T (n+2+r.pending) := by rw [← (stream_next bits).1, hbits]; rfl
      have hb1 : stream (nextBit bits).2 = streamFrom (n+2+(r.pending+1)) (stream T) := by
        rw [(stream_next bits).2, hbits, streamFrom_streamFrom]; rfl
      refine ⟨rfl, rfl, ?_, hb1⟩
      show 2 * (futureCode (n+2) r.pending (stream T) - quarter (n+2)) + (nextBit bits).1.toNat = futureCode (n+2) (r.pending+1) (stream T)
      rw [hC, hC', hb0]; cases h0 : stream T 0 <;> simp [h0] <;> omega

/-- The same of a whole renormalization. -/
theorem renorm_streams {P : Nat} (hP : 2 ≤ P) (n : Nat) : ∀ (r r' : EncRegs), r.Ok P → renormEnc P n r = .settled r' →
    ∃ E, r'.out = r.out ++ E ∧ ∀ T, ValidFuture P r'.low r'.high r'.pending (stream T) →
      ValidFuture P r.low r.high r.pending (stream (E ++ T)) ∧
      ∀ bits, stream bits = streamFrom (P + r.pending) (stream (E ++ T)) →
        ∃ bits', renormDec P n ⟨r.low, r.high, futureCode P r.pending (stream (E ++ T)), bits⟩ = some ⟨r'.low, r'.high, futureCode P r'.pending (stream T), bits'⟩ ∧ stream bits' = streamFrom (P + r'.pending) (stream T) := by
  induction n with
  | zero =>
    intro r r' hr h
    cases hc : renormCase P r.low r.high with
    | none =>
      rw [renormEnc_none hc] at h; cases h
      exact ⟨[], by simp, fun T hv => ⟨hv, fun bits hb => ⟨bits, renormDec_none hc, hb⟩⟩⟩
    | some c => simp only [renormEnc, hc] at h; split at h <;> cases h
  | succ n ih =>
    intro r r' hr h
    cases hc : renormCase P r.low r.high with
    | none =>
      rw [renormEnc_none hc] at h; cases h
      exact ⟨[], by simp, fun T hv => ⟨hv, fun bits hb => ⟨bits, renormDec_none hc, hb⟩⟩⟩
    | some c =>
      by_cases hp : c = .e3 ∧ r.pending = wordMax
      · simp only [renormEnc, hc, hp, and_self, if_true] at h; cases h
      rw [renormEnc_pass hc hp] at h
      have hok := encPass_ok hP hr hc hp
      obtain ⟨E, hE, hT⟩ := ih _ _ hok h
      refine ⟨passOut c r.pending ++ E, by rw [hE, encPass_out, List.append_assoc], fun T hv => ?_⟩
      obtain ⟨h1, h2⟩ := hT T hv
      obtain ⟨h3, h4⟩ := pass_back hP hr.1 hr.2.1 hc h1
      rw [List.append_assoc]
      refine ⟨h3, fun bits hb => ?_⟩
      obtain ⟨g1, g2, g3, g4⟩ := h4 bits hb
      obtain ⟨bits', b1, b2⟩ := h2 _ g4
      refine ⟨bits', ?_, b2⟩
      rw [renormDec_pass (by exact hc)]
      have : decPass P c ⟨r.low, r.high, futureCode P r.pending (stream (passOut c r.pending ++ (E ++ T))), bits⟩ = ⟨(encPass P c r).low, (encPass P c r).high, futureCode P (encPass P c r).pending (stream (E ++ T)), (decPass P c ⟨r.low, r.high, futureCode P r.pending (stream (passOut c r.pending ++ (E ++ T))), bits⟩).bits⟩ := by
        rw [← g1, ← g2, ← g3]
      rw [this]; exact b1

/-- What FIN emits is a future of any settled registers (spec/42_arithmetic_coder.md R172). -/
theorem fin_validFuture {P low high p : Nat} (hP : 2 ≤ P) (h : Settled P low high) : ValidFuture P low high p (stream (decide (quarter P ≤ low) :: List.replicate (p+1) (!(decide (quarter P ≤ low))))) := by
  obtain ⟨n, rfl⟩ : ∃ n, P = n + 2 := ⟨P-2, by omega⟩
  obtain ⟨hh, hq⟩ := half_quarter hP
  have e1 : half (n+2) = 2^(n+1) := rfl
  have e2 : quarter (n+2) = 2^n := rfl
  have e3 : (2:Nat)^(n+2-1) = half (n+2) := rfl
  have e4 : (2:Nat)^(n+2-2) = quarter (n+2) := rfl
  unfold Settled at h; rw [e3, e4] at h
  generalize hb : decide (quarter (n+2) ≤ low) = b
  have hS : b :: List.replicate (p+1) (!b) = b :: List.replicate p (!b) ++ [!b] := by
    rw [List.replicate_succ', List.cons_append]
  obtain ⟨a1, a2, a3⟩ := stream_block (b := b) (p := p) (T := [!b])
  rw [← hS] at a1 a2 a3
  have hz : ∀ m, streamVal m (streamFrom 1 (stream [!b])) = 0 := by
    intro m; induction m with
    | zero => rfl
    | succ m ih => rw [streamVal, ih]; simp [streamFrom, stream]
  have hC : futureCode (n+2) p (stream (b :: List.replicate (p+1) (!b))) = b.toNat * half (n+2) + (!b).toNat * quarter (n+2) := by
    unfold futureCode; rw [a2, a3]
    have : streamVal (n+2-1) (stream [!b]) = (stream [!b] 0).toNat * 2^n + streamVal n (streamFrom 1 (stream [!b])) := streamVal_cons n _
    rw [this, hz]; rfl
  refine ⟨a1, ?_, ?_⟩
  · rw [hC]; cases b <;> simp at hb ⊢ <;> omega
  · rw [hC]; cases b <;> simp at hb ⊢ <;> omega

theorem takeBits_eq (n v : Nat) (bs : List Bool) : takeBits n v bs = (((bs ++ List.replicate n false).take n).foldl (fun v b => 2*v + b.toNat) v, bs.drop n) := by
  induction n generalizing v bs with
  | zero => simp [takeBits]
  | succ n ih =>
    rw [takeBits, ih]
    cases bs with
    | nil => simp [nextBit, List.replicate_succ]
    | cons b bs =>
      simp only [nextBit, List.cons_append, List.take_succ_cons, List.foldl_cons, List.drop_succ_cons]
      congr 2
      simp [List.take_append, List.take_replicate]; omega

/-- Reading `n` bits is reading the stream's first `n`. -/
theorem takeBits_streamVal (l : List Bool) (n : Nat) : takeBits n 0 l = (streamVal n (stream l), l.drop n) := by
  rw [takeBits_eq]
  congr 1
  induction n with
  | zero => simp [streamVal]
  | succ n ih =>
    have : (l ++ List.replicate (n+1) false).take (n+1) = (l ++ List.replicate n false).take n ++ [stream l n] := by
      apply List.ext_getElem?
      intro i
      by_cases hi : i < n
      · rw [List.getElem?_append_left (by simp; omega), List.getElem?_take_of_lt (by omega), List.getElem?_take_of_lt hi]
        rw [List.getElem?_append, List.getElem?_append]
        split
        · rfl
        · rw [List.getElem?_replicate, List.getElem?_replicate, if_pos (by omega), if_pos (by omega)]
      · by_cases hi2 : i = n
        · subst hi2
          have hr : ((l ++ List.replicate i false).take i ++ [stream l i])[i]? = some (stream l i) := by
            rw [List.getElem?_append_right (by rw [List.length_take]; exact Nat.min_le_left _ _)]
            have hl0 : i - ((l ++ List.replicate i false).take i).length = 0 := by rw [List.length_take, List.length_append, List.length_replicate]; omega
            rw [hl0]; rfl
          rw [hr, List.getElem?_take_of_lt (by omega), List.getElem?_append]; unfold stream
          split
          · next h => rw [List.getElem?_eq_getElem h]; rfl
          · next h =>
            have : l[i]? = none := by rw [List.getElem?_eq_none]; omega
            rw [List.getElem?_replicate, if_pos (by omega), this]; rfl
        · rw [List.getElem?_eq_none, List.getElem?_eq_none]
          · simp only [List.length_take, List.length_append, List.length_replicate, List.length_singleton]; omega
          · simp only [List.length_take, List.length_append, List.length_replicate]; omega
    rw [this, List.foldl_append, ih, streamVal]; rfl

end Sys2Proof.Machine
end

