-- ==== Sys2Proof/Laws/PerInstr.lean ====
section
/-! SUPPORT. What holds of every command as syntax: its word belongs to its own row of the opcode map
(spec/30_encoding.md R115). -/

namespace Sys2Proof.Laws

/-- The mask of format TS keeps OPC and RSV. -/
theorem packWord_maskTS (o : BitVec 6) (t : Tsel) (x : Sym) : packWord o t x 0 &&& 0xFC000FFF = packWord o 0 0 0 := by
  apply BitVec.eq_of_getLsbD_eq
  intro i hi
  simp only [BitVec.getLsbD_and, packWord, BitVec.getLsbD_append]
  interval_cases i <;> simp

/-- The mask of format T keeps OPC, SYM and RSV. -/
theorem packWord_maskT (o : BitVec 6) (t : Tsel) : packWord o t 0 0 &&& 0xFC1FFFFF = packWord o 0 0 0 := by
  apply BitVec.eq_of_getLsbD_eq
  intro i hi
  simp only [BitVec.getLsbD_and, packWord, BitVec.getLsbD_append]
  interval_cases i <;> simp

/-- The mask of format S keeps OPC, TSEL and RSV. -/
theorem packWord_maskS (o : BitVec 6) (x : Sym) : packWord o 0 x 0 &&& 0xFFE00FFF = packWord o 0 0 0 := by
  apply BitVec.eq_of_getLsbD_eq
  intro i hi
  simp only [BitVec.getLsbD_and, packWord, BitVec.getLsbD_append]
  interval_cases i <;> simp

/-- The mask of format X keeps OPC. -/
theorem srst_mask (ign : BitVec 26) : (((0x01 : BitVec 6) ++ ign : Word) &&& 0xFC000000) = 0x04000000 := by
  apply BitVec.eq_of_getLsbD_eq
  intro i hi
  simp only [BitVec.getLsbD_and, BitVec.getLsbD_append]
  interval_cases i <;> simp

namespace RowSelects

/-- The word of the command is selected by the row of its mnemonic. -/
def Statement (i : Instr) : Prop := ∃ r ∈ opcodeMap, r.mnemonic = i.mnemonic ∧ r.selects (encode i)

theorem nop : Statement .nop := ⟨⟨"NOP", 0x00000000, 0xFFFFFFFF⟩, by decide, rfl, rfl⟩
theorem srst (ign : BitVec 26) : Statement (.srst ign) :=
  ⟨⟨"SRST", 0x04000000, 0xFC000000⟩, by decide, rfl, srst_mask ign⟩
theorem fadd (t : Tsel) (s : Sym) : Statement (.fadd t s) :=
  ⟨⟨"FADD", 0x20000000, 0xFC000FFF⟩, by decide, rfl, packWord_maskTS 0x08 t s⟩
theorem frecomp (t : Tsel) : Statement (.frecomp t) :=
  ⟨⟨"FRECOMP", 0x24000000, 0xFC1FFFFF⟩, by decide, rfl, packWord_maskT 0x09 t⟩
theorem fupd (t : Tsel) (s : Sym) : Statement (.fupd t s) :=
  ⟨⟨"FUPD", 0x28000000, 0xFC000FFF⟩, by decide, rfl, packWord_maskTS 0x0A t s⟩
theorem flook (t : Tsel) (s : Sym) : Statement (.flook t s) :=
  ⟨⟨"FLOOK", 0x2C000000, 0xFC000FFF⟩, by decide, rfl, packWord_maskTS 0x0B t s⟩
theorem cinit : Statement .cinit := ⟨⟨"CINIT", 0x40000000, 0xFFFFFFFF⟩, by decide, rfl, rfl⟩
theorem enc (t : Tsel) (s : Sym) : Statement (.enc t s) :=
  ⟨⟨"ENC", 0x44000000, 0xFC000FFF⟩, by decide, rfl, packWord_maskTS 0x11 t s⟩
theorem fin : Statement .fin := ⟨⟨"FIN", 0x48000000, 0xFFFFFFFF⟩, by decide, rfl, rfl⟩
theorem dprime : Statement .dprime := ⟨⟨"DPRIME", 0x4C000000, 0xFFFFFFFF⟩, by decide, rfl, rfl⟩
theorem dec (t : Tsel) : Statement (.dec t) :=
  ⟨⟨"DEC", 0x50000000, 0xFC1FFFFF⟩, by decide, rfl, packWord_maskT 0x14 t⟩
theorem minit : Statement .minit := ⟨⟨"MINIT", 0x60000000, 0xFFFFFFFF⟩, by decide, rfl, rfl⟩
theorem pget (t : Tsel) : Statement (.pget t) :=
  ⟨⟨"PGET", 0x64000000, 0xFC1FFFFF⟩, by decide, rfl, packWord_maskT 0x19 t⟩
theorem pupd (s : Sym) : Statement (.pupd s) :=
  ⟨⟨"PUPD", 0x68000000, 0xFFE00FFF⟩, by decide, rfl, packWord_maskS 0x1A s⟩
theorem hpush (s : Sym) : Statement (.hpush s) :=
  ⟨⟨"HPUSH", 0x6C000000, 0xFFE00FFF⟩, by decide, rfl, packWord_maskS 0x1B s⟩
theorem csym (s : Sym) : Statement (.csym s) :=
  ⟨⟨"CSYM", 0x80000000, 0xFFE00FFF⟩, by decide, rfl, packWord_maskS 0x20 s⟩
theorem dsym : Statement .dsym := ⟨⟨"DSYM", 0x84000000, 0xFFFFFFFF⟩, by decide, rfl, rfl⟩
theorem compress : Statement .compress := ⟨⟨"COMPRESS", 0x88000000, 0xFFFFFFFF⟩, by decide, rfl, rfl⟩
theorem decompress : Statement .decompress := ⟨⟨"DECOMPRESS", 0x8C000000, 0xFFFFFFFF⟩, by decide, rfl, rfl⟩

end RowSelects

end Sys2Proof.Laws
end

