-- ==== Sys2Proof/Laws/Runs.lean ====
section
/-! SUPPORT. Runs of the symbol commands: one step and then the rest, and the measure every step makes smaller. -/

namespace Sys2Proof.Machine

/-- How many steps a symbol command can take from a phase, itself included
(spec/44_drivers.md R221, R222). -/
def phaseRank : Phase → Nat
  | .desc o => o.toNat + 5
  | .fall => 4
  | .upd _ _ => 3
  | .push _ _ => 2
  | .done _ _ => 1

theorem coreRun_succ {n s u} (h : coreStep s = .next u) : coreRun (n+1) s = coreRun n u := by simp [coreRun, h]

theorem coreRun_add {n m s u} (h : coreRun n s = .next u) : coreRun (n+m) s = coreRun m u := by
  induction n generalizing s with
  | zero => cases h; simp
  | succ n ih =>
    rw [show n + 1 + m = (n + m) + 1 by omega]
    simp only [coreRun] at h ⊢
    split at h
    · next t ht => exact ih h
    · cases h
    · cases h

/-- The next phase is nearer the end. -/
def RankDown (k : SymLoop) : Option SymLoop → Prop
  | none => True
  | some k' => phaseRank k'.phase < phaseRank k.phase

theorem descend_rankDown {o e cr k} (hp : k.phase = .desc o) : RankDown k (some (descend o e cr)) := by
  unfold RankDown descend; simp only; rw [hp]
  split
  · simp [phaseRank]
  · next h =>
    have h0 : o.toNat ≠ 0 := fun e => h (BitVec.eq_of_toNat_eq (by simpa using e))
    have : (o - 1).toNat = o.toNat - 1 := by have := o.isLt; rw [BitVec.toNat_sub]; simp; omega
    simp [phaseRank]; omega

theorem resolved_rankDown {c : Coded} {e cr} {k : SymLoop} (h : 4 ≤ phaseRank k.phase) : RankDown k (some (resolved c e cr)) := by
  unfold RankDown resolved; simp only; split <;> (show _ < _; simp only [phaseRank] at *; omega)

theorem symStart_rank (s : State) : phaseRank (symStart s).phase ≤ s.hist.length + 5 := by
  unfold symStart; simp only; split
  · simp [phaseRank]
  · simp [phaseRank]
    have : min s.hist.length s.orderAct.toInt.toNat % 32 ≤ min s.hist.length s.orderAct.toInt.toNat := Nat.mod_le _ _
    omega

/-- The steps after step 0: at most `START + 2` coder steps and 3 further ones (spec/44_drivers.md R225, R226). -/
theorem symStart_rank_start (s : State) : ((phaseRank (symStart s).phase : Nat) : Int) ≤
    (if s.orderAct.toInt < 0 then -1 else min (s.hist.length : Int) s.orderAct.toInt) + 5 := by
  unfold symStart; simp only [orderVal]; split
  · simp [phaseRank]
  · simp only [phaseRank, BitVec.toNat_ofNat]
    have := Nat.mod_le (min s.hist.length s.orderAct.toInt.toNat) (2 ^ 5)
    omega

/-- What holds of a body's answer, where it has one. -/
def BodyAnswers {α} (P : α → Prop) : Body α → Prop
  | .ok _ a => P a
  | _ => True

theorem BodyAnswers.and_sat {α} {P : α → Prop} {P' F Q} {b : Body α} (h : b.Sat P' F Q) (h2 : BodyAnswers P b) : b.Sat (fun s a => P' s a ∧ P a) F Q := by
  cases b <;> first | exact ⟨h, h2⟩ | exact h

theorem BodyAnswers.map {α β} (P : β → Prop) (f : α → β) (b : Body α) (h : ∀ a, P (f a)) : BodyAnswers P (b.map f) := by cases b <;> first | exact h _ | trivial

theorem csymStep_rankDown (x k s) : BodyAnswers (RankDown k) (csymStep x k s) := by
  unfold csymStep
  split
  · next o hp =>
    unfold csymDesc; split
    · trivial
    · split
      · exact BodyAnswers.map _ _ _ fun a => resolved_rankDown (by rw [hp]; simp [phaseRank])
      · exact BodyAnswers.map _ _ _ fun a => descend_rankDown hp
  · next hp => exact BodyAnswers.map _ _ _ fun a => resolved_rankDown (by rw [hp]; simp [phaseRank])
  · next hp => exact BodyAnswers.map _ _ _ fun a => by simp [RankDown, hp, phaseRank]
  · next hp => exact BodyAnswers.map _ _ _ fun a => by simp [RankDown, hp, phaseRank]
  · trivial

theorem dsymStep_rankDown (k s) : BodyAnswers (RankDown k) (dsymStep k s) := by
  unfold dsymStep
  split
  · next o hp =>
    refine BodyAnswers.map _ _ _ fun a => ?_
    split
    · exact descend_rankDown hp
    · exact resolved_rankDown (by rw [hp]; simp [phaseRank])
  · next hp =>
    unfold dsymFall; split
    · trivial
    · exact BodyAnswers.map _ _ _ fun a => by simp [RankDown, hp, phaseRank]
  · next hp => exact BodyAnswers.map _ _ _ fun a => by simp [RankDown, hp, phaseRank]
  · next hp => exact BodyAnswers.map _ _ _ fun a => by simp [RankDown, hp, phaseRank]
  · trivial

end Sys2Proof.Machine
end

