-- ==== Sys2Proof/Laws/Words.lean ====
section
/-! SUPPORT. When a word of each format decodes, in the numbers of spec/30_encoding.md R110 to R117, and what a core step
does then. -/

namespace Sys2Proof.Machine

theorem coreStep_error {s : State} {w k e} (h : s.seq = .running w k) (hd : decode s.params w = .error e) :
    Traps (coreStep s) .illegalCmd w s := by
  exact ⟨_, by simp [coreStep, h, hd]; rfl, rfl⟩

theorem coreStep_ok {s : State} {w k i} (h : s.seq = .running w k) (hd : decode s.params w = .ok i) :
    coreStep s = exec i s := by simp [coreStep, h, hd]

theorem field_ne {n : Nat} (x : BitVec n) : x ≠ 0 ↔ x.toNat ≠ 0 := by
  rw [not_iff_not]; constructor
  · rintro rfl; simp
  · intro h; exact BitVec.eq_of_toNat_eq (by simpa using h)

theorem opc_eq (w : Word) : (opcField w).toNat = w.toNat / 2^26 := by
  rw [opcField_toNat]; have := w.isLt; omega

theorem tselReserved_iff (p : Params) (w : Word) : tselReserved p (tselField w) = false ↔ TselLegal p (w.toNat / 2^21 % 32) := by
  simp only [tselReserved, Bool.and_eq_false_iff, decide_eq_false_iff_not, tselField_toNat, TselLegal]
  have := w.isLt
  omega

theorem symReserved_iff (w : Word) : symReserved (symField w) = false ↔ w.toNat / 2^12 % 512 ≤ 257 := by
  simp only [symReserved, decide_eq_false_iff_not, symField_toNat]; omega

theorem tselField_eq (w : Word) : tselField w = BitVec.ofNat 5 (w.toNat / 2^21) := by
  apply BitVec.eq_of_toNat_eq; rw [tselField_toNat, BitVec.toNat_ofNat]; norm_num

theorem symField_eq (w : Word) : symField w = BitVec.ofNat 9 (w.toNat / 2^12) := by
  apply BitVec.eq_of_toNat_eq; rw [symField_toNat, BitVec.toNat_ofNat]; norm_num

theorem formatN {opc : Nat} {i : Instr} (h : ∀ p w, (opcField w).toNat = opc → decode p w = decodeN i w) : FormatN opc i := by
  intro s w k hs ho
  have hd := h s.params w (by rw [opc_eq, ho])
  have hw := w.isLt
  constructor
  · intro hz
    refine coreStep_ok hs ?_
    rw [hd, decodeN, if_neg]
    simp only [field_ne, tselField_toNat, symField_toNat, rsvField_toNat]; omega
  · intro hz
    refine coreStep_error (e := .unusedField) hs ?_
    rw [hd, decodeN, if_pos]
    simp only [field_ne, tselField_toNat, symField_toNat, rsvField_toNat]; omega

theorem formatT {opc : Nat} {i : Tsel → Instr} (h : ∀ p w, (opcField w).toNat = opc → decode p w = decodeT p i w) : FormatT opc i := by
  intro s w k hs ho
  have hd := h s.params w (by rw [opc_eq, ho])
  have hw := w.isLt
  constructor
  · rintro ⟨hz, ht⟩
    refine coreStep_ok hs ?_
    rw [hd, decodeT, if_neg, (tselReserved_iff _ _).2 ht, tselField_eq]; rfl
    simp only [field_ne, symField_toNat, rsvField_toNat]; omega
  · intro hz
    have : ∃ e, decodeT s.params i w = .error e := by
      unfold decodeT
      split
      · exact ⟨_, rfl⟩
      · next hu =>
        split
        · exact ⟨_, rfl⟩
        · next ht =>
          exfalso; apply hz
          refine ⟨?_, (tselReserved_iff _ _).1 (by simpa using ht)⟩
          simp only [field_ne, symField_toNat, rsvField_toNat] at hu; omega
    obtain ⟨e, he⟩ := this
    exact coreStep_error hs (hd.trans he)

theorem formatS {opc : Nat} {i : Sym → Instr} (h : ∀ p w, (opcField w).toNat = opc → decode p w = decodeS i w) : FormatS opc i := by
  intro s w k hs ho
  have hd := h s.params w (by rw [opc_eq, ho])
  have hw := w.isLt
  constructor
  · rintro ⟨hz, ht, hx⟩
    refine coreStep_ok hs ?_
    rw [hd, decodeS, if_neg, (symReserved_iff _).2 hx, symField_eq]; rfl
    simp only [field_ne, tselField_toNat, rsvField_toNat]; omega
  · intro hz
    have : ∃ e, decodeS i w = .error e := by
      unfold decodeS
      split
      · exact ⟨_, rfl⟩
      · next hu =>
        split
        · exact ⟨_, rfl⟩
        · next ht =>
          exfalso; apply hz
          have := (symReserved_iff w).1 (by simpa using ht)
          simp only [field_ne, tselField_toNat, rsvField_toNat] at hu; omega
    obtain ⟨e, he⟩ := this
    exact coreStep_error hs (hd.trans he)

theorem formatTS {opc : Nat} {i : Tsel → Sym → Instr} (h : ∀ p w, (opcField w).toNat = opc → decode p w = decodeTS p i w) : FormatTS opc i := by
  intro s w k hs ho
  have hd := h s.params w (by rw [opc_eq, ho])
  have hw := w.isLt
  constructor
  · rintro ⟨hz, ht, hx⟩
    refine coreStep_ok hs ?_
    rw [hd, decodeTS, if_neg, (symReserved_iff _).2 hx, (tselReserved_iff _ _).2 ht, symField_eq, tselField_eq]; rfl
    simp only [field_ne, rsvField_toNat]; omega
  · intro hz
    have : ∃ e, decodeTS s.params i w = .error e := by
      unfold decodeTS
      split
      · exact ⟨_, rfl⟩
      · next hu =>
        split
        · exact ⟨_, rfl⟩
        · next ht =>
          split
          · exact ⟨_, rfl⟩
          · next ht2 =>
            exfalso; apply hz
            have := (symReserved_iff w).1 (by simpa using ht)
            have := (tselReserved_iff s.params w).1 (by simpa using ht2)
            simp only [field_ne, rsvField_toNat] at hu; exact ⟨by omega, by assumption, by omega⟩
    obtain ⟨e, he⟩ := this
    exact coreStep_error hs (hd.trans he)

theorem decodeN_cases (i : Instr) (w : Word) : (w.toNat % 2^26 = 0 ∧ decodeN i w = .ok i) ∨ (w.toNat % 2^26 ≠ 0 ∧ ∃ e, decodeN i w = .error e) := by
  unfold decodeN
  have := w.isLt
  split
  · next h => right; simp only [field_ne, tselField_toNat, symField_toNat, rsvField_toNat] at h; exact ⟨by omega, _, rfl⟩
  · next h => left; simp only [field_ne, tselField_toNat, symField_toNat, rsvField_toNat] at h; exact ⟨by omega, rfl⟩

theorem decodeT_cases (p : Params) (i : Tsel → Instr) (w : Word) :
   ((w.toNat % 2^21 = 0 ∧ TselLegal p (w.toNat / 2^21 % 32)) ∧ decodeT p i w = .ok (i (tselField w))) ∨ (¬ (w.toNat % 2^21 = 0 ∧ TselLegal p (w.toNat / 2^21 % 32)) ∧ ∃ e, decodeT p i w = .error e) := by
  unfold decodeT
  rw [← tselReserved_iff]
  have := w.isLt
  split
  · next h => right; simp only [field_ne, symField_toNat, rsvField_toNat] at h; exact ⟨by omega, _, rfl⟩
  · next h =>
    simp only [field_ne, symField_toNat, rsvField_toNat] at h
    split
    · next h2 => right; simp [h2]
    · next h2 => left; exact ⟨⟨by omega, by simpa using h2⟩, rfl⟩

theorem decodeS_cases (i : Sym → Instr) (w : Word) :
   ((w.toNat % 2^12 = 0 ∧ w.toNat / 2^21 % 32 = 0 ∧ w.toNat / 2^12 % 512 ≤ 257) ∧ decodeS i w = .ok (i (symField w))) ∨ (¬ (w.toNat % 2^12 = 0 ∧ w.toNat / 2^21 % 32 = 0 ∧ w.toNat / 2^12 % 512 ≤ 257) ∧ ∃ e, decodeS i w = .error e) := by
  unfold decodeS
  rw [← symReserved_iff]
  have := w.isLt
  split
  · next h => right; simp only [field_ne, tselField_toNat, rsvField_toNat] at h; exact ⟨by omega, _, rfl⟩
  · next h =>
    simp only [field_ne, tselField_toNat, rsvField_toNat] at h
    split
    · next h2 => right; simp [h2]
    · next h2 => left; exact ⟨⟨by omega, by omega, by simpa using h2⟩, rfl⟩

theorem decodeTS_cases (p : Params) (i : Tsel → Sym → Instr) (w : Word) :
   ((w.toNat % 2^12 = 0 ∧ TselLegal p (w.toNat / 2^21 % 32) ∧ w.toNat / 2^12 % 512 ≤ 257) ∧ decodeTS p i w = .ok (i (tselField w) (symField w))) ∨ (¬ (w.toNat % 2^12 = 0 ∧ TselLegal p (w.toNat / 2^21 % 32) ∧ w.toNat / 2^12 % 512 ≤ 257) ∧ ∃ e, decodeTS p i w = .error e) := by
  unfold decodeTS
  rw [← symReserved_iff, ← tselReserved_iff]
  have := w.isLt
  split
  · next h => right; simp only [field_ne, rsvField_toNat] at h; exact ⟨by omega, _, rfl⟩
  · next h =>
    simp only [field_ne, rsvField_toNat] at h
    split
    · next h2 => right; simp [h2]
    · next h2 =>
      split
      · next h3 => right; simp [h3]
      · next h3 => left; exact ⟨⟨by omega, by simpa using h3, by simpa using h2⟩, rfl⟩

end Sys2Proof.Machine
end

