-- ==== Sys2Proof/Tests/Slice0.lean ====
section
/-! SUPPORT. Tests against the words of spec/30_encoding.md and the vectors of spec/95_test_vectors.md (each names its vector),
and a witness for the hypotheses of every statement. -/

open Sys2Proof Sys2Proof.Machine

namespace Sys2Proof.Tests

/-! ### Helpers -/

/-- A word from the bits of its four fields (spec/30_encoding.md R116). -/
def bitsWord (opc : BitVec 6) (t : BitVec 5) (s : BitVec 9) (rsv : BitVec 12) : Word := opc ++ t ++ s ++ rsv

/-- The outcome is a next state with the property. -/
def ends (o : Host.Outcome State Fault Refusal) (p : State → Bool) : Bool :=
  match o with
  | .next t => p t
  | .fault _ => false
  | .refused _ => false

theorem of_ends {o : Host.Outcome State Fault Refusal} {p : State → Bool} (h : ends o p = true) :
    ∃ t, o = .next t ∧ p t = true := by
  cases o with
  | next t => exact ⟨t, rfl, h⟩
  | fault _ => cases h
  | refused _ => cases h

/-- The state after the outcome, if there is one. -/
def after (o : Host.Outcome State Fault Refusal) : State :=
  match o with
  | .next t => t
  | .fault _ => State.reset
  | .refused _ => State.reset

/-- The state after reset with the word in SEQ, at its first step. -/
def at0 (w : Word) : State := goto w .start State.reset

/-- The four RES registers. -/
def resOf (s : State) : Nat × Nat × Nat × Nat := (s.res.rlow.toNat, s.res.rhigh.toNat, s.res.total.toNat, s.res.count.toNat)

/-- The bits of a string of `0` and `1`. -/
def bitsOf (s : String) : List Bool := s.toList.map fun c => decide (c = '1')

/-! ### Well-formedness -/

theorem test_illFormed_tsel : ((Instr.fadd 9 0).wellFormed Params.default || (Instr.fupd 30 0).wellFormed Params.default ||
    (Instr.flook 9 0).wellFormed Params.default || (Instr.enc 30 0).wellFormed Params.default ||
    (Instr.frecomp 9).wellFormed Params.default || (Instr.dec 30).wellFormed Params.default ||
    (Instr.pget 9).wellFormed Params.default) = false := by decide

theorem test_illFormed_sym : ((Instr.fadd 0 258).wellFormed Params.default || (Instr.fupd 0 511).wellFormed Params.default ||
    (Instr.flook 0 258).wellFormed Params.default || (Instr.enc 0 511).wellFormed Params.default ||
    (Instr.pupd 258).wellFormed Params.default || (Instr.hpush 511).wellFormed Params.default ||
    (Instr.csym 258).wellFormed Params.default) = false := by decide

theorem test_wellFormed_bounds : ((Instr.fadd 8 257).wellFormed Params.default && (Instr.enc 31 0).wellFormed Params.default &&
    (Instr.dec 31).wellFormed Params.default && (Instr.csym 257).wellFormed Params.default) = true := by decide

/-! ### Decoding: words written out from the bit patterns of spec/30_encoding.md R116 -/

theorem test_decode_system :
    decode Params.default (bitsWord 0b000000 0b00000 0b000000000 0b000000000000) = .ok .nop ∧
    decode Params.default (bitsWord 0b000001 0b10101 0b010101010 0b101010101011) =
      .ok (.srst 0b10101010101010101010101011) := by decide

theorem test_decode_frequency :
    decode Params.default (bitsWord 0b001000 0b00010 0b001000001 0b000000000000) = .ok (.fadd 2 0x41) ∧
    decode Params.default (bitsWord 0b001001 0b01000 0b000000000 0b000000000000) = .ok (.frecomp 8) ∧
    decode Params.default (bitsWord 0b001010 0b11111 0b100000001 0b000000000000) = .ok (.fupd 31 257) ∧
    decode Params.default (bitsWord 0b001011 0b00001 0b100000000 0b000000000000) = .ok (.flook 1 256) := by decide

theorem test_decode_coder :
    decode Params.default (bitsWord 0b010000 0b00000 0b000000000 0b000000000000) = .ok .cinit ∧
    decode Params.default (bitsWord 0b010001 0b11111 0b011111111 0b000000000000) = .ok (.enc 31 255) ∧
    decode Params.default (bitsWord 0b010010 0b00000 0b000000000 0b000000000000) = .ok .fin ∧
    decode Params.default (bitsWord 0b010011 0b00000 0b000000000 0b000000000000) = .ok .dprime ∧
    decode Params.default (bitsWord 0b010100 0b00011 0b000000000 0b000000000000) = .ok (.dec 3) := by decide

theorem test_decode_model :
    decode Params.default (bitsWord 0b011000 0b00000 0b000000000 0b000000000000) = .ok .minit ∧
    decode Params.default (bitsWord 0b011001 0b00101 0b000000000 0b000000000000) = .ok (.pget 5) ∧
    decode Params.default (bitsWord 0b011010 0b00000 0b000000001 0b000000000000) = .ok (.pupd 1) ∧
    decode Params.default (bitsWord 0b011011 0b00000 0b010000000 0b000000000000) = .ok (.hpush 128) := by decide

theorem test_decode_drivers :
    decode Params.default (bitsWord 0b100000 0b00000 0b001000010 0b000000000000) = .ok (.csym 0x42) ∧
    decode Params.default (bitsWord 0b100001 0b00000 0b000000000 0b000000000000) = .ok .dsym ∧
    decode Params.default (bitsWord 0b100010 0b00000 0b000000000 0b000000000000) = .ok .compress ∧
    decode Params.default (bitsWord 0b100011 0b00000 0b000000000 0b000000000000) = .ok .decompress := by decide

theorem test_decode_rejects :
    decode Params.default (bitsWord 0b000010 0b00000 0b000000000 0b000000000000) = .error .reservedOpcode ∧
    decode Params.default (bitsWord 0b111111 0b00000 0b000000000 0b000000000000) = .error .reservedOpcode ∧
    decode Params.default (bitsWord 0b000000 0b00000 0b000000000 0b000000000001) = .error .unusedField ∧
    decode Params.default (bitsWord 0b001001 0b00000 0b000000001 0b000000000000) = .error .unusedField ∧
    decode Params.default (bitsWord 0b100000 0b00001 0b000000000 0b000000000000) = .error .unusedField ∧
    decode Params.default (bitsWord 0b100000 0b00000 0b100000010 0b000000000000) = .error .reservedSym ∧
    decode Params.default (bitsWord 0b001000 0b01001 0b000000000 0b000000000000) = .error .reservedTsel ∧
    decode Params.default (bitsWord 0b011001 0b11110 0b000000000 0b000000000000) = .error .reservedTsel := by decide

theorem test_decodeTableWord : decodeTableWord 32 0x28041000 = some (.fupd 0 0x41) ∧ decodeTableWord 32 0x08000000 = none := by
  decide

theorem test_withFetchWord : ends (step (State.reset.withFetchWord 32 0x6C041000)) (fun t => decide (t.hist = [0x41])) = true := by
  decide

/-! ### One step of each command -/

/-- V-SYS-1. -/
theorem test_nop : ends (exec .nop (at0 0)) (fun t => t.doneIp && decide (t.seq = .idle)) = true := by decide

/-- spec/45_system.md R251. -/
theorem test_srst : ends (exec (.srst 5) { State.reset with low := 7, hist := [1], faultIe := true })
    (fun t => decide (t = State.reset)) = true := by decide

/-- V-FT-1. -/
theorem test_fadd : ends (exec (.fadd 0 0x41) State.reset)
    (fun t => decide (t.result = 0x41 ∧ resOf t = (0, 0, 0, 1) ∧
      t.ctx.map (fun q => q.2.stale) = [true] ∧ t.ctx.map (fun q => q.2.syms) = [[257, 256, 0x41]])) = true := by decide

/-- V-FT-13. -/
theorem test_fadd_m1 : ends (exec (.fadd 31 0x41) State.reset)
    (fun t => decide (t.statusWord = 0x502 ∧ t.faultInfo = 0x23E41000)) = true := by decide

/-- V-FT-2, on the table V-FT-1 leaves. -/
theorem test_frecomp : ends (exec (.frecomp 0) { State.reset with
      ctx := [([], ⟨[⟨257, 1, 9, 9⟩, ⟨256, 1, 9, 9⟩, ⟨0x41, 1, 9, 9⟩], 9, true, false⟩)] })
    (fun t => decide (t.ctx = [([], ⟨[⟨257, 1, 0, 1⟩, ⟨256, 1, 1, 2⟩, ⟨0x41, 1, 2, 3⟩], 3, false, false⟩)] ∧
      t.result = 0 ∧ resOf t = (0, 0, 3, 3))) = true := by decide

/-- V-FT-11. -/
theorem test_fupd : ends (exec (.fupd 0 256) State.reset)
    (fun t => decide (t.ctx = [([], ⟨[⟨257, 1, 0, 1⟩, ⟨256, 2, 1, 3⟩], 3, false, false⟩)] ∧ t.result = 0x100 ∧
      resOf t = (1, 3, 3, 2))) = true := by decide

/-- V-FT-14, FUPD in FADD's place. -/
theorem test_fupd_badTsel : ends (exec (.fupd 1 0x41) State.reset)
    (fun t => decide (t.statusWord = 0x302 ∧ t.faultInfo = 0x28241000 ∧ t.ctx = State.reset.ctx)) = true := by decide

/-- V-FT-4. -/
theorem test_flook : ends (exec (.flook 0 256) State.reset)
    (fun t => decide (t.result = 0x500 ∧ resOf t = (1, 2, 2, 1))) = true := by decide

/-- V-FT-6. -/
theorem test_flook_m1 : ends (exec (.flook 31 256) State.reset)
    (fun t => decide (t.result = 0x100 ∧ resOf t = (0, 0, 256, 0))) = true := by decide +kernel

/-- V-AC-9, its CINIT. -/
theorem test_cinit : ends (exec .cinit { State.reset with cfgPrec := 16, code := 3 })
    (fun t => decide (t.pAct = 16 ∧ t.low = 0 ∧ t.high = 0xFFFF ∧ t.code = 0)) = true := by decide

/-- V-AC-22. -/
theorem test_cinit_badConfig : ends (exec .cinit { State.reset with cfgPrec := 33 })
    (fun t => decide (t.statusWord = 0x202 ∧ t.faultInfo = 0x40000000 ∧ t.pAct = 32)) = true := by decide

/-- V-AC-1. -/
theorem test_enc : ends (exec (.enc 31 0x41) State.reset)
    (fun t => decide (t.outBitQ = bitsOf "01000001" ∧ t.low = 0 ∧ t.high = 0xFFFFFFFF ∧ t.result = 0x241 ∧
      resOf t = (65, 66, 256, 1))) = true := by decide +kernel

/-- V-AC-24, its second ENC: E2 emits the pending bit. -/
theorem test_enc_carry : ends (exec (.enc 0 0x41) { State.reset with
      pending := 1, ctx := [([], ⟨[⟨257, 1, 0, 1⟩, ⟨256, 2, 1, 3⟩, ⟨0x41, 1, 3, 4⟩], 4, false, false⟩)] })
    (fun t => decide (t.outBitQ = bitsOf "101" ∧ t.low = 0 ∧ t.high = 0xFFFFFFFF ∧ t.pending = 0)) = true := by decide +kernel

/-- V-AC-7, its FIN: LOW below QUARTER. -/
theorem test_fin : ends (exec .fin { State.reset with pending := 1 })
    (fun t => decide (t.outBitQ = bitsOf "011" ∧ t.pending = 0 ∧ t.outBitCnt = 3)) = true := by decide

/-- V-AC-5, its FIN: LOW at QUARTER or above. -/
theorem test_fin_high : ends (exec .fin { State.reset with low := 0x55555555 })
    (fun t => decide (t.outBitQ = bitsOf "10" ∧ t.low = 0x55555555)) = true := by decide

/-- V-AC-11, its DPRIME. -/
theorem test_dprime : ends (exec .dprime { State.reset with inBitQ := bitsOf "101" })
    (fun t => decide (t.code = 0xA0000000 ∧ t.inBitCnt = 3 ∧ t.inBitQ = [])) = true := by decide

/-- V-AC-14, its DEC: E3 offsets CODE. -/
theorem test_dec : ends (exec (.dec 0) { State.reset with
      code := 0x60000000, ctx := [([], ⟨[⟨257, 1, 0, 1⟩, ⟨256, 2, 1, 3⟩, ⟨0x41, 1, 3, 4⟩], 4, false, false⟩)] })
    (fun t => decide (t.result = 0x300 ∧ t.low = 0 ∧ t.high = 0xFFFFFFFF ∧ t.code = 0x40000000)) = true := by decide +kernel

/-- V-AC-17, its DEC. -/
theorem test_dec_corrupt : ends (exec (.dec 0) { State.reset with low := 0x55555554 })
    (fun t => decide (t.statusWord = 0x902 ∧ t.faultInfo = 0x50000000 ∧ t.low = 0x55555554)) = true := by decide +kernel

/-- V-PM-1. -/
theorem test_minit : ends (exec .minit { State.reset with cfgOrder := 0x3F, hist := [1] })
    (fun t => decide (t.activeWord = 0x203F ∧ t.hist = [] ∧ t.ctx = State.reset.ctx)) = true := by decide

/-- V-PM-13. -/
theorem test_minit_badConfig : ends (exec .minit { State.reset with cfgOrder := 0x3E })
    (fun t => decide (t.statusWord = 0x202 ∧ t.faultInfo = 0x60000000 ∧ t.orderAct = 2)) = true := by decide

/-- V-PM-2, its PGET. -/
theorem test_pget : ends (exec (.pget 1) { State.reset with hist := [0x41] })
    (fun t => decide (t.result = 0x800 ∧ resOf t = (0, 0, 1, 1) ∧ t.ctx.length = 2)) = true := by decide

/-- V-PM-17. -/
theorem test_pget_full : ends (exec (.pget 1) { State.resetWith { Params.default with ctxCapacity := some 1 } with hist := [0x41] })
    (fun t => decide (t.statusWord = 0xD02 ∧ t.faultInfo = 0x64200000 ∧ t.ctx.length = 1)) = true := by decide

/-- V-PM-5, its last PUPD. -/
theorem test_pupd : ends (exec (.pupd 0x42) { State.reset with
      hist := [0x41], ctx := [([], ⟨[⟨257, 1, 0, 1⟩, ⟨256, 1, 1, 2⟩, ⟨0x41, 1, 2, 3⟩], 3, false, false⟩)] })
    (fun t => decide (t.ctx = [([], ⟨[⟨257, 1, 0, 1⟩, ⟨256, 1, 1, 2⟩, ⟨0x41, 1, 2, 3⟩, ⟨0x42, 1, 3, 4⟩], 4, false, false⟩),
      ([0x41], ⟨[⟨257, 1, 0, 1⟩, ⟨0x42, 1, 1, 2⟩], 2, false, false⟩)])) = true := by decide

/-- V-PM-8. -/
theorem test_pupd_orderM1 : ends (exec (.pupd 0x41) { State.reset with orderAct := 0x3F })
    (fun t => decide (t.ctx = State.reset.ctx ∧ t.doneIp = true)) = true := by decide

/-- V-PM-3, its last HPUSH. -/
theorem test_hpush : ends (exec (.hpush 0x43) { State.reset with hist := [0x41, 0x42] })
    (fun t => decide (t.hist = [0x42, 0x43])) = true := by decide

/-- V-PM-11. -/
theorem test_hpush_eof : ends (exec (.hpush 256) State.reset)
    (fun t => decide (t.statusWord = 0x402 ∧ t.faultInfo = 0x6C100000)) = true := by decide

/-- V-DR-1, its DESC step. -/
theorem test_csym_desc : ends (exec (.csym 0x41) (goto 0x80041000 (.sym ⟨.desc 0, 0, false⟩) State.reset))
    (fun t => decide (t.outBitQ = bitsOf "0" ∧ t.seq = .running 0x80041000 (.sym ⟨.fall, 1, false⟩))) = true := by decide +kernel

/-- V-DR-1, its DONE step. -/
theorem test_csym_done : ends (exec (.csym 0x41) (goto 0x80041000 (.sym ⟨.done 0x41 ⟨65, 66, 256, 1⟩, 1, false⟩) State.reset))
    (fun t => decide (t.result = 0x10241 ∧ resOf t = (65, 66, 256, 1) ∧ t.seq = .idle)) = true := by decide

/-- V-DR-3, its DESC step. -/
theorem test_dsym_desc : ends (exec .dsym (goto 0x84000000 (.sym ⟨.desc 0, 0, false⟩) { State.reset with code := 0xA0000000 }))
    (fun t => decide (t.code = 0x40000000 ∧ t.seq = .running 0x84000000 (.sym ⟨.done 256 ⟨1, 2, 2, 1⟩, 0, false⟩))) = true := by
  decide +kernel

/-- V-DR-8, DSYM. -/
theorem test_dsym_orderM1 : ends (exec .dsym (goto 0x84000000 (.sym ⟨.fall, 0, false⟩) { State.reset with orderAct := 0x3F }))
    (fun t => decide (t.statusWord = 0xE02 ∧ t.faultInfo = 0x53E00000)) = true := by decide

/-- spec/44_drivers.md R223: step 0 of a symbol takes its byte. -/
theorem test_compress_next : ends (exec .compress (goto 0x88000000 .cNext { State.reset with inByteQ := [0x42, 0x41] }))
    (fun t => decide (t.inByteQ = [0x41] ∧ t.seq = .running 0x88000000 (.cSym 0x42 ⟨.desc 0, 0, false⟩))) = true := by decide

/-- V-DR-12: a fault inside COMPRESS reports the word of its ENC. -/
theorem test_compress_collapse : ends (exec .compress (goto 0x88000000 (.cSym 0x41 ⟨.fall, 2, true⟩)
      { State.reset with pAct := 8, high := 0xA9 }))
    (fun t => decide (t.statusWord = 0xA02 ∧ t.faultInfo = 0x47E41000 ∧ t.high = 0xA9)) = true := by decide +kernel

/-- V-DR-4, the priming step of DECOMPRESS. -/
theorem test_decompress_prime : ends (exec .decompress (goto 0x8C000000 .dPrime { State.reset with inBitQ := bitsOf "101" }))
    (fun t => decide (t.code = 0xA0000000 ∧ t.seq = .running 0x8C000000 .dNext)) = true := by decide

/-- spec/44_drivers.md R224: the last step discards the stream. -/
theorem test_decompress_clear : ends (exec .decompress (goto 0x8C000000 .dClear { State.reset with inBitQ := bitsOf "11" }))
    (fun t => decide (t.inBitQ = [] ∧ t.inBitCnt = 0 ∧ t.seq = .idle ∧ t.doneIp = true)) = true := by decide

/-! ### Host accesses -/

/-- V-SYS-13 and V-SYS-4. -/
theorem test_host_config : (hostRead 0x08 (hostWrite 0x08 0xFFFFFFFF State.reset)).rdata = 0x3F3F ∧
    (hostRead 0x70 State.reset).rdata = 0x2008 ∧ (hostRead 0x74 State.reset).rdata = 0xFFFFFFFF := by decide

/-- V-SYS-8. -/
theorem test_host_protocol : (hostWrite 0x08 0x2003 (at0 0x88000000)).statusWord = 0xF02 ∧
    (hostWrite 0x08 0x2003 (at0 0x88000000)).faultInfo = 8 ∧ (hostWrite 0x08 0x2003 (at0 0x88000000)).configWord = 0x2002 := by
  decide

/-- spec/20_memory.md R88, R90: the first bit of the stream is bit 31. -/
theorem test_host_bits : (hostWrite 0x44 0xA0000000 State.reset).inBitQ.take 3 = bitsOf "101" ∧
    (hostRead 0x4C { State.reset with outBitQ := bitsOf "0010000010001011000011" }).rdata = 0x208B0C00 := by decide

/-! ### States for the witnesses -/

/-- What is left to check of a state that has the root alone and the default parameters. -/
def smallOk (s : State) : Bool :=
  decide (2 ≤ s.pAct.toNat ∧ s.pAct.toNat ≤ 32 ∧ s.low.toNat ≤ s.high.toNat ∧ s.high.toNat ≤ top s.pAct.toNat ∧
    s.code.toNat ≤ top s.pAct.toNat ∧ -1 ≤ orderVal s.orderAct ∧ orderVal s.orderAct ≤ 8 ∧
    (s.hist.length : Int) ≤ max (orderVal s.orderAct) 0)

theorem sound_small {s : State} (hc : s.ctx = [([], Table.rootSeed)]) (hp : s.params = Params.default) (h : smallOk s = true) :
    s.Sound := by
  simp only [smallOk, decide_eq_true_eq] at h
  obtain ⟨h1, h2, h3, h4, h5, h6, h7, h8⟩ := h
  have hl : s.params.legal = true := by rw [hp]; decide
  refine ⟨hl, ⟨h1, h2⟩, ⟨h3, h4⟩, h5, ⟨h6, ?_⟩, h8, ?_, ?_⟩
  · rw [hp]; exact h7
  · rw [hc]; exact reset_storeOk hl
  · rw [hp]; exact ⟨trivial, trivial⟩

theorem inv_small {s : State} (hc : s.ctx = [([], Table.rootSeed)]) (hp : s.params = Params.default) (h : smallOk s = true)
    (hf : s.fault = none) (hs : s.seq.Ok Params.default s.hist.length) : s.Inv :=
  { sound_small hc hp h with sequencer := by rw [hp]; exact hs, stopped := fun h => absurd hf h }

theorem reset_inv : State.reset.Inv := inv_small rfl rfl (by decide) rfl trivial

/-- A word at its first step fits, whatever it is. -/
theorem start_ok (w : Word) (n : Nat) : Seq.Ok Params.default n (.running w .start) := by
  show match decode Params.default w with
    | .ok i => Loop.Fits n i .start
    | .error _ => Loop.start = .start
  split
  · next i _ => cases i <;> trivial
  · rfl

theorem at0_inv (w : Word) : (at0 w).Inv :=
  inv_small rfl rfl (show smallOk State.reset = true by decide) rfl (start_ok w 0)

/-- Only the root, with the table `T`. -/
def withRoot (T : Table) : State := { State.reset with ctx := [([], T)] }

/-- The history `A`, the root alone. -/
def histA : State := { State.reset with hist := [0x41] }

/-- The same with a store that is full. -/
def fullA : State := { State.resetWith { Params.default with ctxCapacity := some 1 } with hist := [0x41] }

/-- A table whose count sum is `2^32 - 1`. -/
def fullTable : Table := ⟨[⟨257, 1, 0, 1⟩, ⟨256, 0xFFFFFFFE, 1, 0xFFFFFFFF⟩], 0xFFFFFFFF, false, false⟩

/-- The table of V-AC-7. -/
def table4 : Table := ⟨[⟨257, 1, 0, 1⟩, ⟨256, 2, 1, 3⟩, ⟨0x41, 1, 3, 4⟩], 4, false, false⟩

theorem selects_root (T : Table) : Selects (withRoot T) 0 [] T false := ⟨by decide, ⟨rfl, [], rfl⟩, .inl ⟨rfl, rfl⟩⟩

theorem selects_new : Selects histA 1 [0x41] Table.ctxSeed true :=
  ⟨by decide, ⟨rfl, [], rfl⟩, .inr ⟨rfl, rfl, by decide, rfl⟩⟩

theorem gives_root (T : Table) : Gives (withRoot T) 0 T false [([], T)] := .inr ⟨_, selects_root T, .inl ⟨rfl, rfl⟩⟩

theorem gives_new : Gives histA 1 Table.ctxSeed true (Store.put [0x41] Table.ctxSeed histA.ctx) :=
  .inr ⟨_, selects_new, .inr ⟨rfl, rfl⟩⟩

theorem gives_m1 (s : State) : Gives s Tsel.m1 Table.m1 false s.ctx := .inl ⟨rfl, rfl, rfl, rfl⟩

/-- An order one above the history. -/
theorem raises_badTsel : SelectRaises State.reset 1 .badTsel := ⟨by decide, .inl ⟨rfl, by decide⟩⟩

theorem raises_ctxFull : SelectRaises fullA 1 .ctxFull :=
  ⟨by decide, .inr ⟨rfl, [0x41], ⟨rfl, [], rfl⟩, rfl, rfl⟩⟩

/-- What the selecting commands have in common: both faults of SELECT, M1, a table found and a table created. -/
def SelectCases : Prop :=
  SelectRaises State.reset 1 .badTsel ∧ SelectRaises fullA 1 .ctxFull ∧
    Gives State.reset Tsel.m1 Table.m1 false State.reset.ctx ∧
    Gives (withRoot Table.rootSeed) 0 Table.rootSeed false [([], Table.rootSeed)] ∧
    Gives histA 1 Table.ctxSeed true (Store.put [0x41] Table.ctxSeed histA.ctx) ∧
    Selects (withRoot Table.rootSeed) 0 [] Table.rootSeed false ∧ Selects histA 1 [0x41] Table.ctxSeed true

theorem selectCases : SelectCases :=
  ⟨raises_badTsel, raises_ctxFull, gives_m1 _, gives_root _, gives_new, selects_root _, selects_new⟩

/-- Format N is met by a legal word and by an illegal one. -/
def MetN (opc : Nat) (good bad : Word) : Prop :=
  ((at0 good).seq = .running good .start ∧ good.toNat / 2 ^ 26 = opc ∧ good.toNat % 2 ^ 26 = 0) ∧
    (at0 bad).seq = .running bad .start ∧ bad.toNat / 2 ^ 26 = opc ∧ bad.toNat % 2 ^ 26 ≠ 0

/-- Format T is met by legal words at both ends of the orders and M1, and by illegal ones. -/
def MetT (opc : Nat) : Prop :=
  ∀ t ∈ [0, 8, 31, 9, 30], ∀ low ∈ [0, 1], let w := BitVec.ofNat 32 (opc * 2 ^ 26 + t * 2 ^ 21 + low)
    (at0 w).seq = .running w .start ∧ w.toNat / 2 ^ 26 = opc ∧
      ((w.toNat % 2 ^ 21 = 0 ∧ (w.toNat / 2 ^ 21 % 32 ≤ Params.default.maxOrder ∨ w.toNat / 2 ^ 21 % 32 = 31)) ↔
        (low = 0 ∧ (t ≤ 8 ∨ t = 31)))

/-- Format S is met by legal words at both ends of the symbols, and by illegal ones. -/
def MetS (opc : Nat) : Prop :=
  ∀ x ∈ [0, 257, 258, 511], ∀ low ∈ [0, 1, 2 ^ 21], let w := BitVec.ofNat 32 (opc * 2 ^ 26 + x * 2 ^ 12 + low)
    (at0 w).seq = .running w .start ∧ w.toNat / 2 ^ 26 = opc ∧
      ((w.toNat % 2 ^ 12 = 0 ∧ w.toNat / 2 ^ 21 % 32 = 0 ∧ w.toNat / 2 ^ 12 % 512 ≤ 257) ↔ (low = 0 ∧ x ≤ 257))

/-- Format TS is met by legal words at the ends of both fields, and by illegal ones. -/
def MetTS (opc : Nat) : Prop :=
  ∀ t ∈ [0, 8, 31, 9, 30], ∀ x ∈ [0, 257, 258], ∀ low ∈ [0, 1],
    let w := BitVec.ofNat 32 (opc * 2 ^ 26 + t * 2 ^ 21 + x * 2 ^ 12 + low)
    (at0 w).seq = .running w .start ∧ w.toNat / 2 ^ 26 = opc ∧
      ((w.toNat % 2 ^ 12 = 0 ∧ (w.toNat / 2 ^ 21 % 32 ≤ Params.default.maxOrder ∨ w.toNat / 2 ^ 21 % 32 = 31) ∧
        w.toNat / 2 ^ 12 % 512 ≤ 257) ↔ (low = 0 ∧ (t ≤ 8 ∨ t = 31) ∧ x ≤ 257))

/-- The outcome is a next state with no fault. -/
def Goes (o : Host.Outcome State Fault Refusal) : Prop := ∃ u, o = .next u ∧ u.fault = none

/-- The outcome is a next state with a fault. -/
def Faults (o : Host.Outcome State Fault Refusal) : Prop := ∃ u, o = .next u ∧ u.fault ≠ none

theorem goes {o : Host.Outcome State Fault Refusal} (h : ends o (fun u => decide (u.fault = none)) = true) : Goes o := by
  obtain ⟨u, h1, h2⟩ := of_ends h; exact ⟨u, h1, of_decide_eq_true h2⟩

theorem faults {o : Host.Outcome State Fault Refusal} (h : ends o (fun u => decide (u.fault ≠ none)) = true) : Faults o := by
  obtain ⟨u, h1, h2⟩ := of_ends h; exact ⟨u, h1, of_decide_eq_true h2⟩

/-! ### Witnesses: each statement's hypotheses are met, each clause at the ends of its range -/

theorem witness_DecodeOfEncode : (Instr.fadd 8 257).wellFormed Params.default = true ∧
    (Instr.enc 31 0).wellFormed Params.default = true ∧ (Instr.srst 0x3FFFFFF).wellFormed Params.default = true := by decide

theorem witness_EncodeOfDecode : decode Params.default 0x23F01000 = .ok (.fadd 31 257) := by decide

theorem witness_IllegalWordsRaise :
    (∀ w ∈ [0x08000000, 0x1C000000, 0x30000000, 0x3C000000, 0x54000000, 0x5C000000, 0x70000000, 0x7C000000, 0x90000000,
        0xFC000000, 0x00000001, 0x48200000, 0x60001000, 0x24001000, 0x50000001, 0x68200000, 0x80000001, 0x20000001, 0x80102000,
        0x20102000, 0x201FF000, 0x21200000, 0x23C00000, 0x65200000, 0x67C00000],
      (at0 w).seq = .running w .start ∧ IllegalWord (at0 w).params w) ∧
    ∀ w ∈ [0x00000000, 0x04000000, 0x07FFFFFF, 0x23F01000, 0x21101000, 0x65000000, 0x67E00000, 0x80101000, 0x8C000000],
      (at0 w).seq = .running w .start ∧ ¬ IllegalWord (at0 w).params w := by
  constructor <;> (intro w hw; fin_cases hw <;> exact ⟨rfl, by simp only [IllegalWord]; decide⟩)

theorem witness_OpcodeMapSelects : decode Params.default 0x8C000000 = .ok .decompress ∧
    ∀ r ∈ opcodeMap, ¬ r.selects 0x08000000 := by
  unfold OpcodeRow.selects; decide

theorem witness_StepTakesOneTurn :
    ((at0 0).agenda = [] ∧ (at0 0).seq = .running 0 .start ∧ decode (at0 0).params 0 = .ok .nop) ∧
    (State.reset.agenda = [] ∧ State.reset.seq = .idle) ∧
    ({ at0 0 with agenda := [.core] } : State).agenda = [.core] ∧
    ({ State.reset with agenda := [.core, .rst] } : State).agenda = [.core, .rst] ∧
    ({ State.reset with agenda := [.host (.read 4 4)] } : State).agenda = [.host (.read 4 4)] ∧
    ({ State.reset with agenda := [.rst] } : State).agenda = [.rst] := by decide

theorem witness_FetchedWordRuns : decode State.reset.params (BitVec.ofNat 32 0x8C000000) = .ok .decompress := by decide

/-- A precise fault, and a PENDING_OVERFLOW in RENORM_ENC. -/
theorem witness_FaultEntryIsPrecise :
    Faults (coreStep (at0 0x08000000)) ∧
    ∃ t, coreStep (goto 0x44100000 .start { withRoot table4 with pending := 0xFFFFFFFF }) = .next t ∧
      t.fault = some .pendingOverflow := by
  refine ⟨faults (by decide), ?_⟩
  obtain ⟨t, h, ht⟩ := of_ends (o := coreStep (goto 0x44100000 .start { withRoot table4 with pending := 0xFFFFFFFF }))
    (p := fun t => decide (t.fault = some .pendingOverflow)) (by decide +kernel)
  exact ⟨t, h, of_decide_eq_true ht⟩

/-- An idle state with a fault: a core's turn, an ignored NOP write, and the words at the ends of SRST's range. -/
theorem witness_FaultIsSticky :
    (faultEntry ⟨.ctxFull, 5⟩ State.reset).fault = some .ctxFull ∧ (faultEntry ⟨.ctxFull, 5⟩ State.reset).seq = .idle ∧
    (∃ t, step (faultEntry ⟨.ctxFull, 5⟩ State.reset) = .next t) ∧
    (∃ t, step { faultEntry ⟨.ctxFull, 5⟩ State.reset with agenda := [.host (.write 0 4 0x08000000)] } = .next t) ∧
    ¬ (Turn.host (.write 0 4 0x08000000)).Resets ∧
    (0x03FFFFFF : Word).toNat / 2 ^ 26 ≠ 1 ∧ (0x08000000 : Word).toNat / 2 ^ 26 ≠ 1 ∧
    (0x04000000 : Word).toNat / 2 ^ 26 = 1 ∧ (0x07FFFFFF : Word).toNat / 2 ^ 26 = 1 :=
  ⟨rfl, rfl, ⟨_, rfl⟩, ⟨_, rfl⟩, by unfold Turn.Resets; decide, by decide, by decide, by decide, by decide⟩

/-- A step that faults, one that completes, one that goes on. -/
theorem witness_CoreStepFaultsCompletesOrGoesOn :
    (at0 0x80041000).fault = none ∧ (0x80041000 : Word).toNat / 2 ^ 26 ≠ 1 ∧
    Faults (coreStep (at0 0x08000000)) ∧
    ends (coreStep (at0 0)) (fun t => decide (t.seq = .idle)) = true ∧
    ends (coreStep (at0 0x80041000)) (fun t => decide (t.seq ≠ .idle)) = true :=
  ⟨rfl, by decide, faults (by decide), by decide, by decide⟩

theorem witness_CoreLeavesHostRegisters :
    (at0 0x60000000).seq = .running 0x60000000 .start ∧ (0x60000000 : Word).toNat / 2 ^ 26 ≠ 1 ∧
    Goes (coreStep (at0 0x60000000)) := ⟨rfl, by decide, goes (by decide)⟩

/-- An illegal word, and HPUSH of EOF. -/
theorem witness_FaultsAreThoseOfTheTable :
    (at0 0x08000000).Inv ∧ Faults (coreStep (at0 0x08000000)) ∧ (at0 0x6C100000).Inv ∧ Faults (coreStep (at0 0x6C100000)) :=
  ⟨at0_inv _, faults (by decide), at0_inv _, faults (by decide)⟩

theorem witness_StepKeepsInvariant : (at0 0x80041000).Inv ∧ Goes (step (at0 0x80041000)) := ⟨at0_inv _, goes (by decide)⟩

/-- The ends of the legal ranges. -/
theorem witness_ResetIsInvariant : Params.legal ⟨3, some 1, some 1, some 32⟩ = true ∧ Params.legal ⟨30, none, none, none⟩ = true :=
  by decide

theorem witness_OnlyBadAccessesStop : State.reset.Inv := reset_inv

theorem witness_ResetValues : ({ State.reset with agenda := [.rst] } : State).agenda = [.rst] ∧
    (0x04000000 : Word).toNat / 2 ^ 26 = 1 ∧ (0x07FFFFFF : Word).toNat / 2 ^ 26 = 1 := by decide

theorem witness_ResetIsReadySession : State.reset.params.legal = true ∧ State.reset.configWord = 0x00002002 := by decide

theorem witness_NopOnlyCompletes : MetN 0x00 0x00000000 0x00000001 := by unfold MetN; decide

/-- With the count sum at `2^32 - 1` and at `2^32 - 2`, and a read-only table. -/
theorem witness_FaddAddsLazily : MetTS 0x08 ∧ SelectCases ∧ Selects (withRoot fullTable) 0 [] fullTable false ∧
    2 ^ 32 - 1 < cntSum fullTable.alpha + 1 ∧ fullTable.ro = false ∧
    Selects (withRoot { Table.rootSeed with ro := true }) 0 [] { Table.rootSeed with ro := true } false ∧
    cntSum [⟨257, 0xFFFFFFFE, 0, 0⟩] + 1 ≤ 2 ^ 32 - 1 ∧ cntSum Table.rootSeed.alpha + 1 ≤ 2 ^ 32 - 1 :=
  ⟨by unfold MetTS; decide, selectCases, selects_root _, by decide, rfl, selects_root _, by decide, by decide⟩

theorem witness_FrecompRebuildsRanges : MetT 0x09 ∧ SelectCases ∧ Selects (withRoot fullTable) 0 [] fullTable false ∧
    fullTable.ro = false ∧ cntSum fullTable.alpha ≤ 2 ^ 32 - 1 ∧
    Selects (withRoot { Table.rootSeed with ro := true }) 0 [] { Table.rootSeed with ro := true } false :=
  ⟨by unfold MetT; decide, selectCases, selects_root _, rfl, by decide, selects_root _⟩

theorem witness_FupdAddsAndRebuilds : MetTS 0x0A ∧ SelectCases ∧ Selects (withRoot fullTable) 0 [] fullTable false ∧
    2 ^ 32 - 1 < cntSum fullTable.alpha + 1 ∧ fullTable.ro = false ∧
    Selects (withRoot { Table.rootSeed with ro := true }) 0 [] { Table.rootSeed with ro := true } false ∧
    cntSum [⟨257, 0xFFFFFFFE, 0, 0⟩] + 1 ≤ 2 ^ 32 - 1 ∧ cntSum Table.rootSeed.alpha + 1 ≤ 2 ^ 32 - 1 :=
  ⟨by unfold MetTS; decide, selectCases, selects_root _, by decide, rfl, selects_root _, by decide, by decide⟩

/-- A stale table, and one that is not, with a symbol in it and one not in it. -/
theorem witness_FlookReportsEntry : MetTS 0x0B ∧ SelectCases ∧
    Gives (withRoot { table4 with stale := true }) 0 { table4 with stale := true } false [([], { table4 with stale := true })] ∧
    Gives (withRoot table4) 0 table4 false [([], table4)] ∧ table4.stale = false ∧ 0x42 ∉ table4.syms ∧
    table4.entry? 0x41 = some ⟨0x41, 1, 3, 4⟩ :=
  ⟨by unfold MetTS; decide, selectCases, gives_root _, gives_root _, rfl, by decide, rfl⟩

/-- PREC 1, 33, 2 and 32. -/
theorem witness_CinitStartsSession : MetN 0x10 0x40000000 0x40000001 ∧
    (∀ p ∈ [0, 1, 33, 63], ({ State.reset with cfgPrec := p } : State).cfgPrec.toNat < 2 ∨
      32 < ({ State.reset with cfgPrec := p } : State).cfgPrec.toNat) ∧
    ∀ p ∈ [2, 32], 2 ≤ ({ State.reset with cfgPrec := p } : State).cfgPrec.toNat ∧
      ({ State.reset with cfgPrec := p } : State).cfgPrec.toNat ≤ 32 := by
  unfold MetN; decide

/-- Each clause: stale, total 0, absent symbol, an interval that collapses (V-AC-10), one that does not. -/
theorem witness_EncCodesSymbol : MetTS 0x11 ∧ SelectCases ∧
    (∃ T, Gives (withRoot T) 0 T false [([], T)] ∧ T.stale = true) ∧
    (∃ T, Gives (withRoot T) 0 T false [([], T)] ∧ T.stale = false ∧ T.total = 0) ∧
    (Gives State.reset Tsel.m1 Table.m1 false State.reset.ctx ∧ Table.m1.stale = false ∧ Table.m1.total ≠ 0 ∧
      Sym.eof ∉ Table.m1.syms) ∧
    (({ State.reset with pAct := 4, high := 15 } : State).Sound ∧ Table.m1.entry? 0x41 = some ⟨0x41, 1, 65, 66⟩ ∧
      narrowEnd 0 15 66 256 ≤ narrowLow 0 15 65 256) ∧
    State.reset.Sound ∧ narrowLow 0 (2 ^ 32 - 1) 65 256 < narrowEnd 0 (2 ^ 32 - 1) 66 256 :=
  ⟨by unfold MetTS; decide, selectCases, ⟨{ table4 with stale := true }, gives_root _, rfl⟩,
    ⟨{ table4 with total := 0 }, gives_root _, rfl, rfl⟩, ⟨gives_m1 _, rfl, by decide, by decide +kernel⟩,
    ⟨sound_small rfl rfl (by decide), by decide +kernel, by decide⟩, reset_inv.toSound, by decide⟩

/-- PENDING at the most it may be. -/
theorem witness_EncCompletes : ({ State.reset with pending := 0xFFFFFFDE } : State).Sound ∧
    Gives { State.reset with pending := 0xFFFFFFDE } 0 Table.rootSeed false [([], Table.rootSeed)] ∧
    Table.rootSeed.stale = false ∧ Sym.esc ∈ Table.rootSeed.syms ∧ Table.rootSeed.total.toNat ≤ 0xFFFFFFFF - 0 + 1 ∧
    0xFFFFFFDE + 32 < 2 ^ 32 - 1 :=
  ⟨sound_small rfl rfl (by decide), .inr ⟨[], ⟨by decide, ⟨rfl, [], rfl⟩, .inl ⟨rfl, rfl⟩⟩, .inl ⟨rfl, rfl⟩⟩, rfl, by decide,
    by decide, by decide⟩

theorem witness_FinFlushes : MetN 0x12 0x48000000 0x48200000 ∧
    ({ State.reset with pending := 0xFFFFFFFF } : State).pending = 0xFFFFFFFF ∧
    ({ State.reset with pending := 0xFFFFFFFE } : State).pending ≠ 0xFFFFFFFF := by
  unfold MetN; decide

theorem witness_DprimeLoadsCode : MetN 0x13 0x4C000000 0x4C001000 := by unfold MetN; decide

/-- Each clause, CODE just below LOW, at LOW, at HIGH and just above it. -/
theorem witness_DecDecodesSymbol : MetT 0x14 ∧ SelectCases ∧
    (∃ T, Gives (withRoot T) 0 T false [([], T)] ∧ T.stale = true) ∧
    (∃ T, Gives (withRoot T) 0 T false [([], T)] ∧ T.stale = false ∧ T.total = 0) ∧
    Table.rootSeed.stale = false ∧ Table.rootSeed.total ≠ 0 ∧
    ∀ c ∈ [4, 5, 0xFFFFFFF0, 0xFFFFFFF1], ({ State.reset with low := 5, high := 0xFFFFFFF0, code := c } : State).Sound :=
  ⟨by unfold MetT; decide, selectCases, ⟨{ table4 with stale := true }, gives_root _, rfl⟩,
    ⟨{ table4 with total := 0 }, gives_root _, rfl, rfl⟩, rfl, by decide, fun c hc => sound_small rfl rfl (by
      fin_cases hc <;> decide)⟩

/-- ORDER -2, 9, -1 and 8. -/
theorem witness_MinitStartsModel : MetN 0x18 0x60000000 0x60000001 ∧
    ({ State.reset with cfgOrder := 0x3E } : State).cfgOrder.toInt < -1 ∧
    (State.reset.params.maxOrder : Int) < ({ State.reset with cfgOrder := 9 } : State).cfgOrder.toInt ∧
    ∀ o ∈ [0x3F, 8], -1 ≤ ({ State.reset with cfgOrder := o } : State).cfgOrder.toInt ∧
      ({ State.reset with cfgOrder := o } : State).cfgOrder.toInt ≤ State.reset.params.maxOrder := by
  unfold MetN; decide

theorem witness_PgetSelectsAndReports : MetT 0x19 ∧ SelectCases := ⟨by unfold MetT; decide, selectCases⟩

/-- EOF, the byte 255, orders 0 and 1. -/
theorem witness_HpushAdvancesHistory : MetS 0x1B ∧ 255 < (256 : Sym).toNat ∧ (255 : Sym).toNat ≤ 255 ∧
    ({ State.reset with orderAct := 0 } : State).orderAct.toInt ≤ 0 ∧
    0 < ({ State.reset with orderAct := 1 } : State).orderAct.toInt := ⟨by unfold MetS; decide, by decide⟩

/-- Each clause: EOF, order -1, a full store, a full count sum, and an update that is possible. -/
theorem witness_PupdUpdatesEveryOrder : MetS 0x1A ∧ 255 < (256 : Sym).toNat ∧ (255 : Sym).toNat ≤ 255 ∧
    ({ State.reset with orderAct := 0x3F } : State).orderAct.toInt < 0 ∧
    (0 ≤ fullA.orderAct.toInt ∧ ¬ within (fullA.ctx.length + 1) fullA.params.ctxCapacity ∧
      (([[], [0x41]] : List Context).filter fun k => (Store.get k fullA.ctx).isNone).length = 1) ∧
    (0 ≤ (withRoot fullTable).orderAct.toInt ∧ within 1 (withRoot fullTable).params.ctxCapacity ∧
      Store.get [] (withRoot fullTable).ctx = some fullTable ∧ 2 ^ 32 - 1 < cntSum fullTable.alpha + 1) ∧
    State.reset.Sound ∧ 0 ≤ State.reset.orderAct.toInt ∧ within 1 State.reset.params.ctxCapacity ∧
    Store.get [] State.reset.ctx = some Table.rootSeed ∧ cntSum Table.rootSeed.alpha + 1 ≤ 2 ^ 32 - 1 :=
  ⟨by unfold MetS; decide, by decide, by decide, by decide, ⟨by decide, show ¬ 1 + 1 ≤ 1 by decide, by decide⟩,
    ⟨by decide, trivial, rfl, by decide⟩, reset_inv.toSound, by decide, trivial, rfl, by decide⟩

/-- Each phase, with a step that goes on and one that faults where the phase can fault. -/
theorem witness_CsymSteps : MetS 0x20 ∧ State.reset.Sound ∧ State.reset.fault = none ∧
    (goto 0x80041000 .start State.reset).seq = .running 0x80041000 .start ∧
    SelectRaises fullA 1 .ctxFull ∧ (1 : Tsel).toNat ≤ fullA.hist.length ∧
    Gives (withRoot Table.rootSeed) 0 Table.rootSeed false [([], Table.rootSeed)] ∧
    Goes (exec (.enc 0 Sym.esc) State.reset) ∧
    Faults (exec (.enc 0 Sym.esc) (withRoot { table4 with stale := true })) ∧
    Goes (exec (.enc Tsel.m1 0x41) State.reset) ∧ Goes (exec (.enc 0 Sym.eof) State.reset) ∧
    Faults (exec (.enc Tsel.m1 0x41) { State.reset with pAct := 4, high := 15 }) ∧
    Goes (exec (.pupd 0x41) State.reset) ∧ Faults (exec (.pupd 0x41) (withRoot fullTable)) ∧
    Goes (exec (.hpush 0x41) State.reset) ∧ Faults (exec (.hpush 256) State.reset) :=
  ⟨by unfold MetS; decide, reset_inv.toSound, rfl, rfl, raises_ctxFull, by decide, gives_root _, goes (by decide +kernel),
    faults (by decide +kernel), goes (by decide +kernel), goes (by decide +kernel), faults (by decide +kernel), goes (by decide),
    faults (by decide), goes (by decide), faults (by decide)⟩

theorem witness_DsymSteps : MetN 0x21 0x84000000 0x84200000 ∧ State.reset.Sound ∧ State.reset.fault = none ∧
    (goto 0x84000000 .start State.reset).seq = .running 0x84000000 .start ∧
    Goes (exec (.dec 0) State.reset) ∧ Faults (exec (.dec 0) (withRoot { table4 with stale := true })) ∧
    ({ State.reset with orderAct := 0x3F } : State).orderAct.toInt < 0 ∧
    0 ≤ ({ State.reset with orderAct := 0 } : State).orderAct.toInt ∧ Goes (exec (.dec Tsel.m1) State.reset) ∧
    Faults (exec (.dec Tsel.m1) { State.reset with low := 1 }) ∧
    Goes (exec (.pupd 0x41) State.reset) ∧ Faults (exec (.pupd 0x41) (withRoot fullTable)) ∧
    Goes (exec (.hpush 0x41) State.reset) ∧ Faults (exec (.hpush 256) State.reset) :=
  ⟨by unfold MetN; decide, reset_inv.toSound, rfl, rfl, goes (by decide +kernel), faults (by decide +kernel), by decide, by decide,
    goes (by decide +kernel), faults (by decide +kernel), goes (by decide), faults (by decide), goes (by decide),
    faults (by decide)⟩

/-- At START 0 and at order -1. -/
theorem witness_SymbolCommandsEnd : (at0 0x80041000).Inv ∧ decode (at0 0x80041000).params 0x80041000 = .ok (.csym 0x41) ∧
    (at0 0x84000000).Inv ∧ decode (at0 0x84000000).params 0x84000000 = .ok .dsym ∧
    ({ at0 0x80041000 with orderAct := 0x3F } : State).Inv ∧ (0x3F : BitVec 6).toInt < 0 ∧ 0 ≤ (at0 0x84000000).orderAct.toInt :=
  ⟨at0_inv _, by decide, at0_inv _, by decide,
    inv_small rfl rfl (show smallOk { State.reset with orderAct := 0x3F } = true by decide) rfl (start_ok _ 0), by decide, by decide⟩

/-- PREC 10, the least, and PENDING at the most a CSYM may find. -/
def tight : State := { State.reset with pAct := 10, high := 1023, pending := 0xFFFFFFEA }

/-- The byte 255 and EOF. -/
theorem witness_CsymCompletes : ∀ x ∈ [(255 : Sym), 256], (x.toNat ≤ 255 ∨ x = Sym.eof) ∧
    ∃ s, State.Inv s ∧ s.seq = .running (cmdWord 0x20 0 x.toNat) .start ∧ s.params.ctxCapacity = none ∧ s.pAct.toNat = 10 ∧
      Settled s.pAct.toNat s.low.toNat s.high.toNat ∧
      s.pending.toNat + s.pAct.toNat * (s.hist.length + 2) + 1 = 2 ^ 32 - 1 ∧
      ∀ q ∈ s.ctx, q.2.stale = false ∧ q.2.total.toNat ≤ 2 ^ (s.pAct.toNat - 2) + 2 := by
  intro x hx
  refine ⟨by fin_cases hx <;> decide, goto (cmdWord 0x20 0 x.toNat) .start tight,
    inv_small rfl rfl (show smallOk tight = true by decide) rfl (start_ok _ 0), rfl, rfl, rfl, ?_,
    show tight.pending.toNat + tight.pAct.toNat * (tight.hist.length + 2) + 1 = 2 ^ 32 - 1 by decide,
    show ∀ q ∈ tight.ctx, q.2.stale = false ∧ q.2.total.toNat ≤ 2 ^ (tight.pAct.toNat - 2) + 2 by decide⟩
  show Settled tight.pAct.toNat tight.low.toNat tight.high.toNat
  unfold Settled; decide

/-- CODE at LOW and at HIGH. -/
theorem witness_DsymCompletes : ∀ c ∈ [(0 : Word), 0xFFFFFFFF], ∃ s, State.Inv s ∧ s.seq = .running 0x84000000 .start ∧
    0 ≤ s.orderAct.toInt ∧ s.params.ctxCapacity = none ∧ s.code = c ∧ s.low.toNat ≤ s.code.toNat ∧
    s.code.toNat ≤ s.high.toNat ∧ ∀ q ∈ s.ctx, q.2.stale = false ∧ cntSum q.2.alpha + 1 ≤ 2 ^ 32 - 1 := by
  intro c hc
  refine ⟨{ at0 0x84000000 with code := c }, inv_small rfl rfl (by fin_cases hc <;> decide) rfl (start_ok _ 0), rfl,
    show 0 ≤ State.reset.orderAct.toInt by decide, rfl, rfl, ?_, ?_,
    show ∀ q ∈ State.reset.ctx, q.2.stale = false ∧ cntSum q.2.alpha + 1 ≤ 2 ^ 32 - 1 by decide⟩ <;> fin_cases hc <;> decide

theorem witness_CompressStages : MetN 0x22 0x88000000 0x88001000 ∧ (at0 0x88000000).fault = none ∧
    (at0 0x88000000).seq = .running (cmdWord 0x22 0 0) .start ∧
    Goes (exec .cinit State.reset) ∧ Faults (exec .cinit { State.reset with cfgPrec := 33 }) ∧
    Goes (exec .minit State.reset) ∧ Faults (exec .minit { State.reset with cfgOrder := 9 }) ∧
    ({ State.reset with inByteQ := [0xFF] } : State).inByteQ = [0xFF] ∧ State.reset.inByteQ = [] ∧
    Goes (exec (.csym 0x41) (goto 0x80041000 (.sym ⟨.desc 0, 0, false⟩) State.reset)) ∧
    Faults (exec (.csym 0x41) (goto 0x80041000 (.sym ⟨.fall, 0, false⟩) { State.reset with pAct := 4, high := 15 })) ∧
    Goes (exec (.csym 0x41) (goto 0x80041000 (.sym ⟨.done 0x41 ⟨0, 0, 0, 0⟩, 0, false⟩) State.reset)) ∧
    ({ State.reset with pending := 0xFFFFFFFE } : State).pending ≠ 0xFFFFFFFF :=
  ⟨by unfold MetN; decide, rfl, rfl, goes (by decide), faults (by decide), goes (by decide), faults (by decide), rfl, rfl,
    goes (by decide +kernel), faults (by decide +kernel), goes (by decide), by decide⟩

theorem witness_DecompressStages : MetN 0x23 0x8C000000 0x8C200000 ∧ (at0 0x8C000000).fault = none ∧
    (at0 0x8C000000).seq = .running (cmdWord 0x23 0 0) .start ∧
    Goes (exec .cinit State.reset) ∧ Faults (exec .cinit { State.reset with cfgPrec := 1 }) ∧
    Goes (exec .minit State.reset) ∧ Faults (exec .minit { State.reset with cfgOrder := 0x3E }) ∧
    Goes (exec .dprime State.reset) ∧
    Goes (exec .dsym (goto 0x84000000 (.sym ⟨.desc 0, 0, false⟩) State.reset)) ∧
    Faults (exec .dsym (goto 0x84000000 (.sym ⟨.fall, 0, false⟩) { State.reset with orderAct := 0x3F })) ∧
    Goes (exec .dsym (goto 0x84000000 (.sym ⟨.done 256 ⟨0, 0, 0, 0⟩, 0, false⟩) State.reset)) :=
  ⟨by unfold MetN; decide, rfl, rfl, goes (by decide), faults (by decide), goes (by decide), faults (by decide), goes (by decide),
    goes (by decide +kernel), faults (by decide), goes (by decide)⟩

theorem witness_CompressEnds : (at0 0x88000000).Inv ∧ (at0 0x88000000).seq = .running 0x88000000 .start := ⟨at0_inv _, rfl⟩

/-- PREC 10 with the longest input it allows, at order -1; and PREC 32 at order 8. -/
theorem witness_CompressCompletes :
    (∃ s, State.Inv s ∧ s.seq = .running 0x88000000 .start ∧ s.params.ctxCapacity = none ∧ s.cfgPrec.toNat = 10 ∧
      s.cfgOrder.toInt = -1 ∧ s.inByteQ.length = 2 ^ (s.cfgPrec.toNat - 2) ∧ s.inByteQ.length ≤ 2 ^ 20) ∧
    ∃ s, State.Inv s ∧ s.seq = .running 0x88000000 .start ∧ s.params.ctxCapacity = none ∧ s.cfgPrec.toNat = 32 ∧
      s.cfgOrder.toInt = s.params.maxOrder ∧ s.inByteQ.length ≤ 2 ^ (s.cfgPrec.toNat - 2) ∧ s.inByteQ.length ≤ 2 ^ 20 :=
  ⟨⟨{ at0 0x88000000 with cfgPrec := 10, cfgOrder := 0x3F, inByteQ := List.replicate 256 0x41 },
      inv_small rfl rfl (show smallOk State.reset = true by decide) rfl (start_ok _ 0), rfl, rfl, rfl, by decide,
      List.length_replicate.trans (by decide), List.length_replicate.trans_le (by decide)⟩,
    ⟨{ at0 0x88000000 with cfgOrder := 8, inByteQ := [0x41] },
      inv_small rfl rfl (show smallOk State.reset = true by decide) rfl (start_ok _ 0), rfl, rfl, rfl, by decide, by decide,
      by decide⟩⟩

/-- PREC 2 and 32, orders -1 (or 0) and 8. -/
theorem witness_EmptyStream :
    (∀ p ∈ [2, 32], ∀ o ∈ [0x3F, 8], ∃ s, State.Inv s ∧ s.seq = .running 0x88000000 .start ∧ s.inByteQ = [] ∧ s.cfgPrec = p ∧
      s.cfgOrder = o ∧ 2 ≤ p.toNat ∧ p.toNat ≤ 32 ∧ -1 ≤ o.toInt ∧ o.toInt ≤ s.params.maxOrder) ∧
    ∀ p ∈ [2, 32], ∀ o ∈ [0, 8], ∃ s, State.Inv s ∧ s.seq = .running 0x8C000000 .start ∧ s.inBitQ = [true] ∧ s.cfgPrec = p ∧
      s.cfgOrder = o ∧ 2 ≤ p.toNat ∧ p.toNat ≤ 32 ∧ 0 ≤ o.toInt ∧ o.toInt ≤ s.params.maxOrder := by
  refine ⟨fun p hp o ho => ⟨{ at0 0x88000000 with cfgPrec := p, cfgOrder := o },
    inv_small rfl rfl (show smallOk State.reset = true by decide) rfl (start_ok _ 0), rfl, rfl, rfl, rfl, ?_⟩,
    fun p hp o ho => ⟨{ at0 0x8C000000 with cfgPrec := p, cfgOrder := o, inBitQ := [true] },
    inv_small rfl rfl (show smallOk State.reset = true by decide) rfl (start_ok _ 0), rfl, rfl, rfl, rfl, ?_⟩⟩
  all_goals fin_cases hp <;> fin_cases ho <;> decide

theorem witness_DecompressEnds : (at0 0x8C000000).Inv ∧ (at0 0x8C000000).seq = .running 0x8C000000 .start := ⟨at0_inv _, rfl⟩

/-- One symbol, EOF in the root, and its stream `101` with two zeros after it. -/
theorem witness_EncDecLockstep : ∃ u v d, State.reset.Sound ∧
    ({ State.reset with inBitQ := [true, false, true] ++ List.replicate 2 false } : State).Sound ∧
    State.reset.low = 0 ∧ State.reset.high.toNat = 2 ^ State.reset.pAct.toNat - 1 ∧ State.reset.pending = 0 ∧
    EncodesAll [(0, Sym.eof)] State.reset u ∧ exec .fin u = .next v ∧ v.fault = none ∧
    v.outBitQ = State.reset.outBitQ ++ [true, false, true] ∧
    exec .dprime { State.reset with inBitQ := [true, false, true] ++ List.replicate 2 false } = .next d := by
  obtain ⟨v, hv, h⟩ := of_ends (o := exec .fin (after (exec (.enc 0 Sym.eof) State.reset)))
    (p := fun v => decide (v.fault = none ∧ v.outBitQ = [true, false, true])) (by decide +kernel)
  obtain ⟨u, hu, hu'⟩ := of_ends (o := exec (.enc 0 Sym.eof) State.reset)
    (p := fun u => decide (u.fault = none)) (by decide +kernel)
  have h := of_decide_eq_true h
  rw [hu] at hv
  exact ⟨u, v, _, reset_inv.toSound, sound_small rfl rfl (by decide), rfl, by decide, rfl,
    ⟨u, hu, of_decide_eq_true hu', rfl⟩, hv, h.1, h.2, rfl⟩

/-- COMPRESS of no bytes: six steps, the stream `101`, and one zero after it. -/
theorem witness_DecompressOfCompress : ∃ t, (at0 0x88000000).Inv ∧
    ({ at0 0x8C000000 with inBitQ := [true, false, true] ++ List.replicate 1 false } : State).Inv ∧
    0 ≤ (at0 0x88000000).cfgOrder.toInt ∧ coreRun 6 (at0 0x88000000) = .next t ∧ Completed (at0 0x88000000) t ∧
    t.outBitQ = (at0 0x88000000).outBitQ ++ [true, false, true] := by
  obtain ⟨t, ht, h⟩ := of_ends (o := coreRun 6 (at0 0x88000000))
    (p := fun t => decide ((t.fault = none ∧ t.faultInfo = 0 ∧ t.faultIp = false) ∧ t.seq = .idle ∧ t.doneIp = true ∧
      t.outBitQ = [true, false, true])) (by decide +kernel)
  obtain ⟨⟨h1, h2, h3⟩, h4, h5, h6⟩ := of_decide_eq_true h
  exact ⟨t, at0_inv _, inv_small rfl rfl (show smallOk State.reset = true by decide) rfl (start_ok _ 0), by decide, ht,
    ⟨⟨h1, h2, h3⟩, h4, h5⟩, h6⟩

/-- Width 1 and 8, offsets 2 and 0xFF, and the two ends of the window. -/
theorem witness_AccessWidthAndAlignment : (HostOp.read 0 1).place.2 ≠ 4 ∧ (HostOp.write 0 8 0).place.2 ≠ 4 ∧
    (HostOp.read 2 4).place.1 % 4 ≠ 0 ∧ (HostOp.write 0xFF 4 0).place.1 % 4 ≠ 0 ∧
    ∀ off ∈ [0, 0xFC], (HostOp.read off 4).place.2 = 4 ∧ (HostOp.read off 4).place.1 % 4 = 0 ∧
      (HostOp.read off 4).place.1 ≤ 0xFC := by decide

theorem witness_CmdWriteStartsCommand : (0x04000000 : Word).toNat / 2 ^ 26 = 1 ∧ (0x07FFFFFF : Word).toNat / 2 ^ 26 = 1 ∧
    (0x03FFFFFF : Word).toNat / 2 ^ 26 ≠ 1 ∧ (0x08000000 : Word).toNat / 2 ^ 26 ≠ 1 ∧
    (faultEntry ⟨.ctxFull, 5⟩ State.reset).fault ≠ none ∧ ((at0 0).fault = none ∧ (at0 0).seq ≠ .idle) ∧
    State.reset.fault = none ∧ State.reset.seq = .idle := by decide

/-- Byte queue: full, and one below. Bit queue: at most and one more. -/
theorem witness_InputWritesPush : (faultEntry ⟨.ctxFull, 5⟩ State.reset).fault ≠ none ∧
    ((at0 0).fault = none ∧ (at0 0).seq ≠ .idle) ∧ State.reset.fault = none ∧ State.reset.seq = .idle ∧
    (∃ s, State.params s = ⟨8, none, some 1, some 64⟩ ∧ s.params.inByteDepth = some s.inByteQ.length) ∧
    (∃ s, State.params s = ⟨8, none, some 1, some 64⟩ ∧ s.params.inByteDepth ≠ some s.inByteQ.length) ∧
    (∃ s, State.params s = ⟨8, none, some 1, some 64⟩ ∧ s.inBitQ.length = 33 ∧
      ¬ within (s.inBitQ.length + 32) s.params.inBitDepth) ∧
    ∃ s, State.params s = ⟨8, none, some 1, some 64⟩ ∧ s.inBitQ.length = 32 ∧
      within (s.inBitQ.length + 32) s.params.inBitDepth := by
  refine ⟨by decide, by decide, rfl, rfl, ⟨{ State.resetWith ⟨8, none, some 1, some 64⟩ with inByteQ := [1] }, rfl, rfl⟩,
    ⟨State.resetWith ⟨8, none, some 1, some 64⟩, rfl, by decide⟩,
    ⟨{ State.resetWith ⟨8, none, some 1, some 64⟩ with inBitQ := List.replicate 33 true }, rfl, rfl, ?_⟩,
    ⟨{ State.resetWith ⟨8, none, some 1, some 64⟩ with inBitQ := List.replicate 32 true }, rfl, rfl, ?_⟩⟩ <;>
    simp [State.resetWith, within]

theorem witness_OutputReadsPop : State.reset.outByteQ = [] ∧
    ({ State.reset with outByteQ := [0xFF] } : State).outByteQ = 0xFF :: [] := by decide

theorem witness_OtherWrites : (at0 0).seq ≠ .idle ∧ State.reset.seq = .idle ∧ 0x04 ∉ [0x00, 0x08, 0x38, 0x3C, 0x40, 0x44] ∧
    0x84 ∉ [0x00, 0x08, 0x38, 0x3C, 0x40, 0x44] := by decide

/-- `HIST[8]` and `HIST[29]` at MAX_ORDER 8. -/
theorem witness_ReservedReadZero : State.reset.params.legal = true ∧ 0x78 ∈ [0x78, 0x7C, 0xF8, 0xFC] ∧
    (∃ i, State.reset.params.maxOrder ≤ i ∧ i < 30 ∧ 0xA0 = 0x80 + 4 * i) ∧
    ∃ i, State.reset.params.maxOrder ≤ i ∧ i < 30 ∧ 0xF4 = 0x80 + 4 * i :=
  ⟨by decide, by decide, ⟨8, by decide⟩, ⟨29, by decide⟩⟩

theorem witness_ReadsHaveNoEffect : (∃ t, hostStep (.read 0x44 4) State.reset = .next t) ∧
    (∃ t, hostStep (.read 0x50 4) State.reset = .next t) ∧ State.reset.seq = .idle :=
  ⟨⟨_, rfl⟩, ⟨_, rfl⟩, rfl⟩

theorem witness_RegisterReads : State.reset.Inv ∧ State.reset.seq = .idle ∧ State.reset.ctx.length ≤ 2 ^ 32 - 1 ∧
    0 < State.reset.params.maxOrder ∧ 7 < State.reset.params.maxOrder := ⟨reset_inv, rfl, by decide⟩

theorem witness_BusyAccesses : (at0 0x88000000).seq ≠ .idle ∧ (at0 0x88000000).fault = none ∧
    (0x03FFFFFF : Word).toNat / 2 ^ 26 ≠ 1 ∧ (0x08000000 : Word).toNat / 2 ^ 26 ≠ 1 ∧ (0x04000000 : Word).toNat / 2 ^ 26 = 1 ∧
    (0x07FFFFFF : Word).toNat / 2 ^ 26 = 1 := by decide

theorem witness_StoreIsMap : Store.wf State.reset.ctx ∧ ([0x41] : Context) ≠ [] := by decide

end Sys2Proof.Tests
end

section
/-! PROOFS. Family 00_scope: the state after reset meets the invariant, for all legal parameters. -/

namespace Sys2Proof.Machine

/-- An empty queue is within every capacity. -/
theorem within_zero (c : Option Nat) : within 0 c := by
  cases c with
  | none => trivial
  | some c => exact Nat.zero_le c

/-- The order after reset, 2, is at most MAX_ORDER because a legal MAX_ORDER is at least 3 (spec/00_scope.md R6). -/
theorem resetWith_order {p : Params} (hp : p.legal = true) :
    -1 ≤ orderVal (State.resetWith p).orderAct ∧ orderVal (State.resetWith p).orderAct ≤ p.maxOrder := by
  have hmax : 3 ≤ p.maxOrder := (legal_maxOrder hp).1
  have hord : orderVal (State.resetWith p).orderAct = 2 := rfl
  omega

/-- The reset values of spec/10_state.md R56 are sound data. The parameters bear on three parts only: the order (MAX_ORDER), the
store with its one table (CTX_CAPACITY), and the empty input queues. -/
theorem resetWith_sound {p : Params} (hp : p.legal = true) : (State.resetWith p).Sound where
  legal := hp
  prec := by simp [State.resetWith]
  interval := by simp [State.resetWith, top]
  code := by simp [State.resetWith, top]
  order := resetWith_order hp
  history := by simp [State.resetWith]
  store := reset_storeOk hp
  queues := ⟨within_zero _, within_zero _⟩

/-- After reset the core is idle and there is no fault (spec/10_state.md R56). -/
theorem resetWith_inv {p : Params} (hp : p.legal = true) : (State.resetWith p).Inv :=
  { resetWith_sound hp with
    sequencer := trivial
    stopped := fun _ => rfl }

/-- Settles O14: legal parameters leave room for the reset order, the root table and the empty queues. -/
theorem resetIsInvariant : Obligations.ResetIsInvariant := fun _ hp => resetWith_inv hp

end Sys2Proof.Machine
end

section
/-! PROOFS. Family 10_state, the decoder: a word that decodes is the word of its command, and its operands are legal. -/

namespace Sys2Proof.Machine

section
variable {p : Params} {w : Word} {n : Nat} {j : Instr}

/-- An opcode is known by its number. -/
theorem opcField_of_toNat (h : (opcField w).toNat = n) : opcField w = BitVec.ofNat 6 n := by
  rw [← h, BitVec.ofNat_toNat, BitVec.setWidth_eq]

/-- Format N leaves nothing but OPC (spec/30_encoding.md R111). -/
theorem decodeN_ok {i : Instr} (ho : (opcField w).toNat = n) (he : encode i = packWord (BitVec.ofNat 6 n) 0 0 0)
    (hi : i.wellFormed p = true) (h : decodeN i w = .ok j) : encode j = w ∧ j.wellFormed p = true := by
  unfold decodeN at h
  split at h
  · cases h
  · next hf =>
    simp only [not_or, not_not] at hf
    obtain ⟨ht, hx, hr⟩ := hf
    cases h
    exact ⟨by rw [he, ← opcField_of_toNat ho, ← hr, ← hx, ← ht, packWord_fields], hi⟩

/-- Format T leaves OPC and a legal TSEL (spec/30_encoding.md R111, R113). -/
theorem decodeT_ok {f : Tsel → Instr} (ho : (opcField w).toNat = n)
    (he : ∀ t, encode (f t) = packWord (BitVec.ofNat 6 n) t 0 0) (hi : ∀ t, (f t).wellFormed p = tselOk p t)
    (h : decodeT p f w = .ok j) : encode j = w ∧ j.wellFormed p = true := by
  unfold decodeT at h
  split at h
  · cases h
  · next hf =>
    simp only [not_or, not_not] at hf
    obtain ⟨hx, hr⟩ := hf
    split at h
    · cases h
    · next ht =>
      cases h
      exact ⟨by rw [he, ← opcField_of_toNat ho, ← hr, ← hx, packWord_fields],
        (hi _).trans (tselOk_of_not_reserved (by simpa using ht))⟩

/-- Format S leaves OPC and a legal SYM (spec/30_encoding.md R111, R114). -/
theorem decodeS_ok {f : Sym → Instr} (ho : (opcField w).toNat = n)
    (he : ∀ x, encode (f x) = packWord (BitVec.ofNat 6 n) 0 x 0) (hi : ∀ x, (f x).wellFormed p = symOk x)
    (h : decodeS f w = .ok j) : encode j = w ∧ j.wellFormed p = true := by
  unfold decodeS at h
  split at h
  · cases h
  · next hf =>
    simp only [not_or, not_not] at hf
    obtain ⟨ht, hr⟩ := hf
    split at h
    · cases h
    · next hx =>
      cases h
      exact ⟨by rw [he, ← opcField_of_toNat ho, ← hr, ← ht, packWord_fields],
        (hi _).trans (by simpa [symReserved_eq] using hx)⟩

/-- Format TS leaves OPC, a legal TSEL and a legal SYM (spec/30_encoding.md R111, R113, R114). -/
theorem decodeTS_ok {f : Tsel → Sym → Instr} (ho : (opcField w).toNat = n)
    (he : ∀ t x, encode (f t x) = packWord (BitVec.ofNat 6 n) t x 0)
    (hi : ∀ t x, (f t x).wellFormed p = (tselOk p t && symOk x)) (h : decodeTS p f w = .ok j) :
    encode j = w ∧ j.wellFormed p = true := by
  unfold decodeTS at h
  split at h
  · cases h
  · next hr =>
    split at h
    · cases h
    · next hx =>
      split at h
      · cases h
      · next ht =>
        cases h
        have ht : tselOk p (tselField w) = true := tselOk_of_not_reserved (by simpa using ht)
        have hx : symOk (symField w) = true := by simpa [symReserved_eq] using hx
        exact ⟨by rw [he, ← opcField_of_toNat ho, ← not_not.1 hr, packWord_fields], by rw [hi, ht, hx]; rfl⟩

/-- A word that decodes is the word of its command, and the command is well-formed: one case for each row of the opcode map
(spec/30_encoding.md R113 to R118). -/
theorem decode_ok (h : decode p w = .ok j) : encode j = w ∧ j.wellFormed p = true := by
  unfold decode at h
  split at h
  case h_1 ho => exact decodeN_ok ho rfl rfl h
  case h_2 ho => cases h; exact ⟨encode_srst_ignField w (opcField_of_toNat ho), rfl⟩
  case h_3 ho => exact decodeTS_ok ho (fun _ _ => rfl) (fun _ _ => rfl) h
  case h_4 ho => exact decodeT_ok ho (fun _ => rfl) (fun _ => rfl) h
  case h_5 ho => exact decodeTS_ok ho (fun _ _ => rfl) (fun _ _ => rfl) h
  case h_6 ho => exact decodeTS_ok ho (fun _ _ => rfl) (fun _ _ => rfl) h
  case h_7 ho => exact decodeN_ok ho rfl rfl h
  case h_8 ho => exact decodeTS_ok ho (fun _ _ => rfl) (fun _ _ => rfl) h
  case h_9 ho => exact decodeN_ok ho rfl rfl h
  case h_10 ho => exact decodeN_ok ho rfl rfl h
  case h_11 ho => exact decodeT_ok ho (fun _ => rfl) (fun _ => rfl) h
  case h_12 ho => exact decodeN_ok ho rfl rfl h
  case h_13 ho => exact decodeT_ok ho (fun _ => rfl) (fun _ => rfl) h
  case h_14 ho => exact decodeS_ok ho (fun _ => rfl) (fun _ => rfl) h
  case h_15 ho => exact decodeS_ok ho (fun _ => rfl) (fun _ => rfl) h
  case h_16 ho => exact decodeS_ok ho (fun _ => rfl) (fun _ => rfl) h
  case h_17 ho => exact decodeN_ok ho rfl rfl h
  case h_18 ho => exact decodeN_ok ho rfl rfl h
  case h_19 ho => exact decodeN_ok ho rfl rfl h
  case h_20 => cases h

end

end Sys2Proof.Machine
end

section
/-! PROOFS. Family 10_state, the invariant: every end of a primitive step keeps it, so every command's step does, every host access
and every turn. -/

namespace Sys2Proof.Machine

/-! ### The ends of a primitive step -/

/-- Everything the end of a primitive step can be: the step ran through, or a fault was entered from the state before it, or from
the state a PENDING_OVERFLOW keeps (spec/60_exceptions.md R261, R266). -/
theorem Body.finish_next {α : Type} {s₀ t : State} {cont : State → α → State} {b : Body α}
    (h : b.finish s₀ cont = .next t) :
    (∃ u a, b = .ok u a ∧ t = cont u a) ∨ (∃ r, b = .raise r ∧ t = faultEntry r s₀) ∨
      (∃ r u, b = .raiseKeeping r u ∧ t = faultEntry r u) := by
  cases b with
  | ok u a => cases h; exact .inl ⟨u, a, rfl, rfl⟩
  | raise r => cases h; exact .inr (.inl ⟨r, rfl, rfl⟩)
  | raiseKeeping r u => cases h; exact .inr (.inr ⟨r, u, rfl, rfl⟩)
  | stuck f => cases h

/-- An idle core meets the sequencer's part of the invariant. -/
theorem State.Sound.inv_of_idle {s : State} (h : s.Sound) (hi : s.seq = .idle) : s.Inv :=
  { h with
    sequencer := by rw [hi]; trivial
    stopped := fun _ => hi }

/-- Fault entry stops the core and leaves the data as it was (spec/60_exceptions.md R262). -/
theorem faultEntry_inv {s : State} (h : s.Sound) (r : Raise) : (faultEntry r s).Inv :=
  State.Sound.inv_of_idle (h.congr rfl rfl rfl rfl rfl rfl rfl rfl rfl rfl) rfl

/-- Completion stops the core and leaves the data as it was (spec/60_exceptions.md R269). -/
theorem complete_inv {s : State} (h : s.Sound) : (complete s).Inv :=
  State.Sound.inv_of_idle (h.congr rfl rfl rfl rfl rfl rfl rfl rfl rfl rfl) rfl

/-- Replacing an input queue by one within its depth keeps the data sound (spec/10_state.md R45). -/
theorem State.Sound.withInByteQ {s : State} (h : s.Sound) {q : List Byte} (hq : within q.length s.params.inByteDepth) :
    State.Sound { s with inByteQ := q } :=
  { legal := h.legal, prec := h.prec, interval := h.interval, code := h.code, order := h.order, history := h.history
    store := h.store, queues := ⟨hq, h.queues.2⟩ }

theorem State.Sound.withInBitQ {s : State} (h : s.Sound) {q : List Bool} (hq : within q.length s.params.inBitDepth) :
    State.Sound { s with inBitQ := q } :=
  { legal := h.legal, prec := h.prec, interval := h.interval, code := h.code, order := h.order, history := h.history
    store := h.store, queues := ⟨h.queues.1, hq⟩ }

/-- RESULT and RES_* are no part of the data the invariant speaks of. -/
theorem setResult_sound {s : State} (h : s.Sound) (f : ResultFields) (r : ResRegs) : (setResult f r s).Sound :=
  h.congr rfl rfl rfl rfl rfl rfl rfl rfl rfl rfl

/-- Reset, from any state with legal parameters, gives the values of spec/10_state.md R56. -/
theorem softReset_inv {s : State} (h : s.params.legal = true) : (softReset s).Inv :=
  State.Sound.inv_of_idle ((resetWith_sound h).congr rfl rfl rfl rfl rfl rfl rfl rfl rfl rfl) rfl

/-- ENC and DEC report their symbol and complete (spec/42_arithmetic_coder.md R171, R174). -/
theorem codedResult_inv {s : State} (h : s.Sound) (c : Coded) : (codedResult s c).Inv :=
  complete_inv (setResult_sound h _ _)

/-- A primitive step whose body keeps the data sound ends in the invariant, when what the step does next does. -/
theorem Body.finish_inv {α : Type} {s t : State} {cont : State → α → State} {b : Body α} {P : State → α → Prop}
    {F : FaultCode → Prop} {Q : State → Prop} (h : s.Sound) (hb : b.Sat P F Q) (hQ : ∀ u, Q u → u.Sound)
    (hc : ∀ u a, P u a → (cont u a).Inv) (ht : b.finish s cont = .next t) : t.Inv := by
  rcases Body.finish_next ht with ⟨u, a, rfl, rfl⟩ | ⟨r, rfl, rfl⟩ | ⟨r, u, rfl, rfl⟩
  · exact hc u a hb
  · exact faultEntry_inv h r
  · exact faultEntry_inv (hQ u hb.2) r

/-- A single-step command whose body keeps the data sound ends in the invariant. -/
theorem Body.single_inv {α : Type} {s t : State} {b : Body α} {P : State → α → Prop} {F : FaultCode → Prop} (h : s.Sound)
    (hb : b.Sat P F (fun _ => False)) (hP : ∀ u a, P u a → u.Sound) (ht : b.single s = .next t) : t.Inv :=
  Body.finish_inv h hb (fun _ hq => hq.elim) (fun u a hp => complete_inv (hP u a hp)) ht

/-! ### The sequencer -/

section
variable {p : Params} {n : Nat} {w : Word} {k : Loop}

/-- A legal word in SEQ has a loop state of its command (spec/10_state.md R31). -/
theorem Seq.ok_of_decoded {i : Instr} (hd : decode p w = .ok i) : (Seq.running w k).Ok p n ↔ Loop.Fits n i k := by
  simp [Seq.Ok, hd]

/-- An illegal word in SEQ is at its first step (spec/10_state.md R31). -/
theorem Seq.ok_of_rejected {e : Reject} (hd : decode p w = .error e) : (Seq.running w k).Ok p n ↔ k = .start := by
  simp [Seq.Ok, hd]

end

/-- The first step is a loop state of every command. -/
theorem fits_start (n : Nat) (i : Instr) : Loop.Fits n i .start := by cases i <;> trivial

/-- Every word, legal or not, may stand in SEQ at its first step. -/
theorem Seq.ok_start (p : Params) (n : Nat) (w : Word) : (Seq.running w .start).Ok p n := by
  cases hd : decode p w with
  | error e => exact (Seq.ok_of_rejected hd).2 rfl
  | ok i => exact (Seq.ok_of_decoded hd).2 (fits_start n i)

/-- Without a fault, SEQ may go to any state that fits. -/
theorem State.Sound.goto_inv {s : State} (h : s.Sound) (hf : s.fault = none) {w : Word} {k : Loop}
    (hk : (Seq.running w k).Ok s.params s.hist.length) : (goto w k s).Inv :=
  { h.congr (t := goto w k s) rfl rfl rfl rfl rfl rfl rfl rfl rfl rfl with
    sequencer := hk
    stopped := fun hn => absurd hf hn }

/-! ### The drivers -/

/-- The data is sound, there is no fault, and the word of `i` decodes to `i`: what a step of a running command `i` starts from. -/
structure Executing (i : Instr) (s : State) : Prop extends State.Sound s where
  noFault : s.fault = none
  word : decode s.params (encode i) = .ok i

section
variable {i : Instr} {s t u : State} {x : Sym}

/-- A body keeps the fault and the parameters, so the command goes on executing. -/
theorem Executing.of_sound (h : Executing i s) (hu : u.Sound) (hk : u.fault = s.fault ∧ u.params = s.params) :
    Executing i u where
  toSound := hu
  noFault := hk.1.trans h.noFault
  word := by rw [hk.2]; exact h.word

/-- Going on with a loop state of the same command keeps the invariant. -/
theorem Executing.goto_inv (h : Executing i s) {k : Loop} (hk : Loop.Fits s.hist.length i k) :
    (goto (encode i) k s).Inv :=
  h.toSound.goto_inv h.noFault ((Seq.ok_of_decoded h.word).2 hk)

/-- Going on inside a symbol command keeps the invariant, where going on to the next phase and going on after the symbol do. -/
theorem continueSym_inv {more : SymLoop → State → State} {fin : State → State} {k' : Option SymLoop}
    (hk : nextPhaseOk u.hist.length k') (hm : ∀ k, k.phase.Ok u.hist.length → (more k u).Inv) (hf : (fin u).Inv) :
    (continueSym more fin u k').Inv := by
  cases k' with
  | none => exact hf
  | some k => exact hm k hk

/-- A legal symbol other than ESC is a byte or EOF. -/
theorem codable_of_symOk (hx : symOk x = true) (he : x ≠ Sym.esc) : Codable x := by
  simp only [symOk, decide_eq_true_eq] at hx
  by_cases h : x = Sym.eof
  · exact .inl h
  · have h1 : x.toNat ≠ 257 := fun e => he (BitVec.eq_of_toNat_eq e)
    have h2 : x.toNat ≠ 256 := fun e => h (BitVec.eq_of_toNat_eq e)
    right
    simp only [isByte, decide_eq_true_eq]; omega

theorem symOk_le (hx : symOk x = true) : x.toNat ≤ 257 := by simpa [symOk] using hx

/-- The symbol of a byte can be coded. -/
theorem codable_symOf (b : Byte) : Codable (symOf b) := by
  right
  simp only [isByte, symOf, decide_eq_true_eq, BitVec.toNat_setWidth]
  have := b.isLt
  omega

/-- CSYM: step 0 leaves a phase within the history, every later step the next phase (spec/44_drivers.md R221). -/
theorem execCsym_inv (h : Executing (.csym x) s) (hk : Loop.Fits s.hist.length (.csym x) (loopOf s))
    (ht : execCsym x s = .next t) : t.Inv := by
  unfold execCsym at ht
  simp only at ht
  split at ht
  · split at ht
    · cases ht; exact faultEntry_inv h.toSound _
    · next he =>
      cases ht
      have hx : symOk x = true := (decode_ok h.word).2
      exact h.goto_inv ⟨codable_of_symOk hx he, symStart_ok h.toSound⟩
  · next k hl =>
    rw [hl] at hk
    obtain ⟨hx, hp⟩ := hk
    refine Body.finish_inv h.toSound (csymStep_sat h.toSound hx hp) (fun _ hq => hq.1) ?_ ht
    rintro u k' ⟨hu, hsame, hnext⟩
    exact continueSym_inv hnext (fun k hk => (h.of_sound hu hsame).goto_inv ⟨hx, hk⟩) (complete_inv hu)
  · cases ht

/-- DSYM (spec/44_drivers.md R222). -/
theorem execDsym_inv (h : Executing .dsym s) (hk : Loop.Fits s.hist.length .dsym (loopOf s))
    (ht : execDsym s = .next t) : t.Inv := by
  unfold execDsym at ht
  simp only at ht
  split at ht
  · cases ht
    exact h.goto_inv (symStart_ok h.toSound)
  · next k hl =>
    rw [hl] at hk
    refine Body.finish_inv h.toSound (dsymStep_sat h.toSound hk) (fun _ hq => hq.elim) ?_ ht
    rintro u k' ⟨hu, hsame, hnext⟩
    exact continueSym_inv hnext (fun k hk => (h.of_sound hu hsame).goto_inv hk) (complete_inv hu)
  · cases ht

/-- COMPRESS (spec/44_drivers.md R223). -/
theorem execCompress_inv (h : Executing .compress s) (hk : Loop.Fits s.hist.length .compress (loopOf s))
    (ht : execCompress s = .next t) : t.Inv := by
  unfold execCompress at ht
  simp only at ht
  split at ht
  case h_1 =>
    refine Body.finish_inv h.toSound (cinitBody_sat h.toSound) (fun _ hq => hq.elim) ?_ ht
    rintro u _ ⟨hu, hsame⟩
    exact (h.of_sound hu ⟨hsame.fault, hsame.params⟩).goto_inv trivial
  case h_2 =>
    refine Body.finish_inv h.toSound (minitBody_sat h.toSound) (fun _ hq => hq.elim) ?_ ht
    rintro u _ ⟨hu, hsame⟩
    exact (h.of_sound hu hsame).goto_inv trivial
  case h_3 =>
    split at ht
    · next b rest hq =>
      cases ht
      have hu : State.Sound { s with inByteQ := rest } := h.toSound.withInByteQ (within_mono h.queues.1 (by simp [hq]))
      exact Executing.goto_inv (i := .compress) (h.of_sound hu ⟨rfl, rfl⟩) ⟨codable_symOf b, symStart_ok hu⟩
    · cases ht
      exact h.goto_inv ⟨.inl rfl, symStart_ok h.toSound⟩
  case h_4 x k hl =>
    rw [hl] at hk
    obtain ⟨hx, hp⟩ := hk
    refine Body.finish_inv h.toSound (csymStep_sat h.toSound hx hp) (fun _ hq => hq.1) ?_ ht
    rintro u k' ⟨hu, hsame, hnext⟩
    refine continueSym_inv hnext (fun k hk => (h.of_sound hu hsame).goto_inv ⟨hx, hk⟩) ((h.of_sound hu hsame).goto_inv ?_)
    split <;> trivial
  case h_5 => exact Body.single_inv h.toSound (finBody_sat h.toSound) (fun _ _ hp => hp.1) ht
  case h_6 => cases ht

/-- DECOMPRESS (spec/44_drivers.md R224). -/
theorem execDecompress_inv (h : Executing .decompress s) (hk : Loop.Fits s.hist.length .decompress (loopOf s))
    (ht : execDecompress s = .next t) : t.Inv := by
  unfold execDecompress at ht
  simp only at ht
  split at ht
  case h_1 =>
    refine Body.finish_inv h.toSound (cinitBody_sat h.toSound) (fun _ hq => hq.elim) ?_ ht
    rintro u _ ⟨hu, hsame⟩
    exact (h.of_sound hu ⟨hsame.fault, hsame.params⟩).goto_inv trivial
  case h_2 =>
    refine Body.finish_inv h.toSound (minitBody_sat h.toSound) (fun _ hq => hq.elim) ?_ ht
    rintro u _ ⟨hu, hsame⟩
    exact (h.of_sound hu hsame).goto_inv trivial
  case h_3 =>
    refine Body.finish_inv h.toSound (dprimeBody_sat h.toSound) (fun _ hq => hq.elim) ?_ ht
    rintro u _ ⟨hu, hsame⟩
    exact (h.of_sound hu ⟨hsame.fault, hsame.params⟩).goto_inv trivial
  case h_4 =>
    cases ht
    exact h.goto_inv (symStart_ok h.toSound)
  case h_5 k hl =>
    rw [hl] at hk
    refine Body.finish_inv h.toSound (dsymStep_sat h.toSound hk) (fun _ hq => hq.elim) ?_ ht
    rintro u k' ⟨hu, hsame, hnext⟩
    refine continueSym_inv hnext (fun k hk => (h.of_sound hu hsame).goto_inv hk) ((h.of_sound hu hsame).goto_inv ?_)
    split <;> trivial
  case h_6 =>
    cases ht
    exact complete_inv (h.toSound.withInBitQ (within_zero _))
  case h_7 => cases ht

/-- The step of every command keeps the invariant. -/
theorem exec_inv (h : Executing i s) (hk : Loop.Fits s.hist.length i (loopOf s)) (ht : exec i s = .next t) : t.Inv := by
  have hs := h.toSound
  have hw : i.wellFormed s.params = true := (decode_ok h.word).2
  cases i with
  | nop => cases ht; exact complete_inv hs
  | srst ign => cases ht; exact softReset_inv hs.legal
  | fadd r x => exact Body.single_inv hs (faddBody_sat hs r (symOk_le (Bool.and_eq_true_iff.1 hw).2)) (fun _ _ hp => hp.1) ht
  | frecomp r => exact Body.single_inv hs (frecompBody_sat hs r) (fun _ _ hp => hp.1) ht
  | fupd r x => exact Body.single_inv hs (fupdBody_sat hs r (symOk_le (Bool.and_eq_true_iff.1 hw).2)) (fun _ _ hp => hp.1) ht
  | flook r x => exact Body.single_inv hs (flookBody_sat hs r x) (fun _ _ hp => hp.1) ht
  | cinit => exact Body.single_inv hs (cinitBody_sat hs) (fun _ _ hp => hp.1) ht
  | enc r x =>
    exact Body.finish_inv hs (encBody_sat hs r x) (fun _ hq => hq.1) (fun _ c hp => codedResult_inv hp.1 c) ht
  | fin => exact Body.single_inv hs (finBody_sat hs) (fun _ _ hp => hp.1) ht
  | dprime => exact Body.single_inv hs (dprimeBody_sat hs) (fun _ _ hp => hp.1) ht
  | dec r => exact Body.finish_inv hs (decBody_sat hs r) (fun _ hq => hq.elim) (fun _ c hp => codedResult_inv hp.1 c) ht
  | minit => exact Body.single_inv hs (minitBody_sat hs) (fun _ _ hp => hp.1) ht
  | pget r => exact Body.single_inv hs (pgetBody_sat hs r) (fun _ _ hp => hp.1) ht
  | pupd x => exact Body.single_inv hs (pupdBody_sat hs x) (fun _ _ hp => hp.1) ht
  | hpush x => exact Body.single_inv hs (hpushBody_sat hs x) (fun _ _ hp => hp.1) ht
  | csym x => exact execCsym_inv h hk ht
  | dsym => exact execDsym_inv h hk ht
  | compress => exact execCompress_inv h hk ht
  | decompress => exact execDecompress_inv h hk ht

end

/-! ### Host accesses -/

/-- The invariant holds of a state with the same core and sound data. -/
theorem State.Inv.congr {s t : State} (h : s.Inv) (ht : t.Sound) (h1 : t.seq = s.seq) (h2 : t.params = s.params)
    (h3 : t.hist = s.hist) (h4 : t.fault = s.fault) : t.Inv :=
  { ht with
    sequencer := by rw [h1, h2, h3]; exact h.sequencer
    stopped := by rw [h1, h4]; exact h.stopped }

/-- A change of the fields the invariant does not speak of keeps it: CONFIG, IRQ_EN, IRQ_PEND, the output queues and the model's
own fields. -/
theorem State.Inv.frame {s : State} (h : s.Inv) (cfgOrder cfgPrec : BitVec 6) (outBitQ : List Bool) (outByteQ : List Byte)
    (doneIe faultIe doneIp faultIp : Bool) (agenda : List Turn) (rdata : Word) (draws : Nat) :
    State.Inv { s with
      cfgOrder := cfgOrder, cfgPrec := cfgPrec, outBitQ := outBitQ, outByteQ := outByteQ, doneIe := doneIe
      faultIe := faultIe, doneIp := doneIp, faultIp := faultIp, agenda := agenda, rdata := rdata, draws := draws } :=
  h.congr (h.toSound.congr rfl rfl rfl rfl rfl rfl rfl rfl rfl rfl) rfl rfl rfl rfl

/-- A read pops an output queue or returns a value (spec/20_memory.md R84, R85, R89, R90). -/
theorem hostRead_inv {s : State} (h : s.Inv) (off : Nat) : (hostRead off s).Inv := by
  unfold hostRead
  split
  · unfold readOutByte
    split
    · exact h.frame ..
    · exact h.frame ..
  · split
    · exact h.frame ..
    · split
      · exact h.frame ..
      · exact h.frame ..

/-- A write of CMD resets, is ignored, raises HOST_PROTOCOL or starts a command (spec/20_memory.md R86). -/
theorem writeCmd_inv {s : State} (h : s.Inv) (w : Word) : (writeCmd w s).Inv := by
  unfold writeCmd
  split
  · exact softReset_inv h.legal
  · split
    · exact h
    · next hf =>
      split
      · exact faultEntry_inv h.toSound _
      · exact h.toSound.goto_inv (by simpa using hf) (Seq.ok_start _ _ w)

theorem writeConfig_inv {s : State} (h : s.Inv) (v : Word) : (writeConfig v s).Inv := by
  unfold writeConfig
  split
  · exact faultEntry_inv h.toSound _
  · exact h.frame ..

/-- A byte goes to IN_BYTEQ only where there is room (spec/20_memory.md R87). -/
theorem writeInByte_inv {s : State} (h : s.Inv) (v : Word) : (writeInByte v s).Inv := by
  unfold writeInByte
  split
  · exact h
  · split
    · exact faultEntry_inv h.toSound _
    · split
      · exact faultEntry_inv h.toSound _
      · next hfull =>
        have hroom : s.params.inByteDepth ≠ some s.inByteQ.length := by simpa [byteQueueFull] using hfull
        have hq := within_succ h.queues.1 hroom
        exact h.congr (h.toSound.withInByteQ (by simpa using hq)) rfl rfl rfl rfl

/-- 32 bits go to IN_BITQ only where there is room for all of them (spec/20_memory.md R88). -/
theorem writeInBits_inv {s : State} (h : s.Inv) (v : Word) : (writeInBits v s).Inv := by
  unfold writeInBits
  split
  · exact h
  · split
    · exact faultEntry_inv h.toSound _
    · split
      · exact faultEntry_inv h.toSound _
      · next hfull =>
        have hq : within (s.inBitQ ++ bitsOfWord v).length s.params.inBitDepth := by
          cases hd : s.params.inBitDepth with
          | none => trivial
          | some d => simpa [within, bitsOfWord, bitQueueFull, hd] using hfull
        exact h.congr (h.toSound.withInBitQ hq) rfl rfl rfl rfl

/-- A write to one of the six writable registers, or one that is ignored (spec/20_memory.md R84, R92). -/
theorem hostWrite_inv {s : State} (h : s.Inv) (off : Nat) (v : Word) : (hostWrite off v s).Inv := by
  unfold hostWrite
  split
  · exact writeCmd_inv h v
  · exact writeConfig_inv h v
  · exact h.frame ..
  · exact h.frame ..
  · exact writeInByte_inv h v
  · exact writeInBits_inv h v
  · exact h

theorem hostStep_inv {s t : State} {op : HostOp} (h : s.Inv) (ht : hostStep op s = .next t) : t.Inv := by
  unfold hostStep at ht
  split at ht
  · cases ht
  · cases ht
    cases op with
    | read off width => exact hostRead_inv h off
    | write off width v => exact hostWrite_inv h off v

/-! ### Turns -/

/-- A core step of a running command is a step of its command, executing, or fault entry (spec/60_exceptions.md R268). -/
theorem coreStep_inv {s t : State} (h : s.Inv) (ht : coreStep s = .next t) : t.Inv := by
  cases hseq : s.seq with
  | idle => rw [coreStep, hseq] at ht; cases ht; exact h
  | running w k =>
    have hfault : s.fault = none := by
      by_contra hf
      have hidle := h.stopped hf
      rw [hseq] at hidle; cases hidle
    have hfits := h.sequencer
    rw [hseq] at hfits
    cases hd : decode s.params w with
    | error e =>
      rw [coreStep, hseq] at ht
      simp only [hd] at ht
      cases ht
      exact faultEntry_inv h.toSound _
    | ok i =>
      rw [coreStep_ok hseq hd] at ht
      obtain ⟨rfl, -⟩ := decode_ok hd
      have hloop : loopOf s = k := by rw [loopOf, hseq]
      have hk : Loop.Fits s.hist.length i (loopOf s) := by rw [hloop]; exact (Seq.ok_of_decoded hd).1 hfits
      exact exec_inv ⟨h.toSound, hfault, hd⟩ hk ht

/-- A turn of the core, of the host or of the reset input keeps the invariant (spec/20_memory.md R99). -/
theorem takeTurn_inv {s t : State} (h : s.Inv) (ht : takeTurn s = .next t) : t.Inv := by
  unfold takeTurn at ht
  split at ht
  · exact coreStep_inv h ht
  · exact coreStep_inv (h.frame ..) ht
  · exact hostStep_inv (h.frame ..) ht
  · cases ht; exact softReset_inv h.legal

/-- Settles O13: whoever has the turn, the step keeps the invariant. -/
theorem stepKeepsInvariant : Obligations.StepKeepsInvariant := fun _ _ h ht => takeTurn_inv h ht

end Sys2Proof.Machine
end

section
/-! PROOFS. Family 10_state, the host's registers: every body leaves them alone, so every core step but SRST's does. -/

namespace Sys2Proof.Machine

/-! ### The ends of a primitive step -/

theorem SameHost.refl (s : State) : SameHost s s := ⟨rfl, rfl, rfl, rfl, rfl, rfl, rfl⟩

section
variable {s u : State} (h : SameHost s u)
include h

theorem SameHost.goto (w : Word) (k : Loop) : SameHost s (goto w k u) :=
  ⟨h.cfgOrder, h.cfgPrec, h.doneIe, h.faultIe, h.params, h.agenda, h.rdata⟩

theorem SameHost.complete : SameHost s (complete u) :=
  ⟨h.cfgOrder, h.cfgPrec, h.doneIe, h.faultIe, h.params, h.agenda, h.rdata⟩

theorem SameHost.faultEntry (r : Raise) : SameHost s (faultEntry r u) :=
  ⟨h.cfgOrder, h.cfgPrec, h.doneIe, h.faultIe, h.params, h.agenda, h.rdata⟩

theorem SameHost.codedResult (c : Coded) : SameHost s (codedResult u c) :=
  ⟨h.cfgOrder, h.cfgPrec, h.doneIe, h.faultIe, h.params, h.agenda, h.rdata⟩

/-- Going on inside a symbol command leaves the host's side alone, when each way of going on does. -/
theorem SameHost.continueSym {more : SymLoop → State → State} {fin : State → State}
    (hm : ∀ k, SameHost s u → SameHost s (more k u)) (hf : SameHost s u → SameHost s (fin u)) (k : Option SymLoop) :
    SameHost s (continueSym more fin u k) := by
  cases k with
  | none => exact hf h
  | some k => exact hm k h

end

/-- Whatever state a body ends with or keeps, the host's side in it is that of `s`. -/
def Body.KeepsHost {α : Type} (s : State) : Body α → Prop
  | .ok t _ => SameHost s t
  | .raise _ => True
  | .raiseKeeping _ t => SameHost s t
  | .stuck _ => True

theorem Body.KeepsHost.map {α β : Type} {s : State} {b : Body α} (h : b.KeepsHost s) (f : α → β) : (b.map f).KeepsHost s := by
  cases b <;> exact h

theorem Body.KeepsHost.finish {α : Type} {s t : State} {cont : State → α → State} {b : Body α} (hb : b.KeepsHost s)
    (hc : ∀ u a, SameHost s u → SameHost s (cont u a)) (ht : b.finish s cont = .next t) : SameHost s t := by
  rcases Body.finish_next ht with ⟨u, a, rfl, rfl⟩ | ⟨r, rfl, rfl⟩ | ⟨r, u, rfl, rfl⟩
  · exact hc u a hb
  · exact (SameHost.refl s).faultEntry r
  · exact SameHost.faultEntry hb r

theorem Body.KeepsHost.single {α : Type} {s t : State} {b : Body α} (hb : b.KeepsHost s) (ht : b.single s = .next t) :
    SameHost s t :=
  hb.finish (fun _ _ hu => hu.complete) ht

/-! ### The bodies -/

section
variable (s : State)

theorem cinitBody_keepsHost : (cinitBody s).KeepsHost s := by
  unfold cinitBody
  split
  · trivial
  · exact ⟨rfl, rfl, rfl, rfl, rfl, rfl, rfl⟩

theorem finBody_keepsHost : (finBody s).KeepsHost s := by
  unfold finBody
  split
  · trivial
  · exact ⟨rfl, rfl, rfl, rfl, rfl, rfl, rfl⟩

theorem dprimeBody_keepsHost : (dprimeBody s).KeepsHost s := ⟨rfl, rfl, rfl, rfl, rfl, rfl, rfl⟩

theorem minitBody_keepsHost : (minitBody s).KeepsHost s := by
  unfold minitBody
  simp only
  split
  · trivial
  · exact ⟨rfl, rfl, rfl, rfl, rfl, rfl, rfl⟩

theorem hpushBody_keepsHost (x : Sym) : (hpushBody x s).KeepsHost s := by
  unfold hpushBody
  split
  · exact ⟨rfl, rfl, rfl, rfl, rfl, rfl, rfl⟩
  · trivial

theorem pupdBody_keepsHost (x : Sym) : (pupdBody x s).KeepsHost s := by
  unfold pupdBody
  split
  · split
    · exact SameHost.refl s
    · simp only
      split
      · trivial
      · split
        · trivial
        · exact ⟨rfl, rfl, rfl, rfl, rfl, rfl, rfl⟩
  · trivial

theorem encWith_keepsHost (w : Word) (sel : Selection) (x : Sym) : (encWith w sel x s).KeepsHost s := by
  unfold encWith
  split
  · trivial
  · split
    · trivial
    · split
      · trivial
      · split
        · trivial
        · split
          · exact ⟨rfl, rfl, rfl, rfl, rfl, rfl, rfl⟩
          · exact ⟨rfl, rfl, rfl, rfl, rfl, rfl, rfl⟩
          · trivial

theorem encBody_keepsHost (t : Tsel) (x : Sym) : (encBody t x s).KeepsHost s := by
  unfold encBody
  split
  · trivial
  · exact encWith_keepsHost s _ _ x

theorem decWith_keepsHost (w : Word) (sel : Selection) : (decWith w sel s).KeepsHost s := by
  unfold decWith
  split
  · trivial
  · split
    · trivial
    · split
      · trivial
      · split
        · trivial
        · split
          · trivial
          · split
            · exact ⟨rfl, rfl, rfl, rfl, rfl, rfl, rfl⟩
            · trivial

theorem decBody_keepsHost (t : Tsel) : (decBody t s).KeepsHost s := by
  unfold decBody
  split
  · trivial
  · exact decWith_keepsHost s _ _

theorem pgetBody_keepsHost (t : Tsel) : (pgetBody t s).KeepsHost s := by
  unfold pgetBody
  split
  · trivial
  · exact ⟨rfl, rfl, rfl, rfl, rfl, rfl, rfl⟩

theorem flookBody_keepsHost (t : Tsel) (x : Sym) : (flookBody t x s).KeepsHost s := by
  unfold flookBody
  split
  · trivial
  · exact ⟨rfl, rfl, rfl, rfl, rfl, rfl, rfl⟩

theorem frecompBody_keepsHost (t : Tsel) : (frecompBody t s).KeepsHost s := by
  unfold frecompBody
  simp only
  split
  · trivial
  · split
    · trivial
    · exact ⟨rfl, rfl, rfl, rfl, rfl, rfl, rfl⟩

theorem faddBody_keepsHost (t : Tsel) (x : Sym) : (faddBody t x s).KeepsHost s := by
  unfold faddBody
  simp only
  split
  · trivial
  · split
    · trivial
    · split
      · trivial
      · exact ⟨rfl, rfl, rfl, rfl, rfl, rfl, rfl⟩

theorem fupdBody_keepsHost (t : Tsel) (x : Sym) : (fupdBody t x s).KeepsHost s := by
  unfold fupdBody
  simp only
  split
  · trivial
  · split
    · trivial
    · split
      · trivial
      · exact ⟨rfl, rfl, rfl, rfl, rfl, rfl, rfl⟩

/-! ### The steps of the symbol commands -/

theorem csymDesc_keepsHost (x : Sym) (o : Tsel) (k : SymLoop) : (csymDesc x o k s).KeepsHost s := by
  unfold csymDesc
  split
  · trivial
  · split
    · exact (encWith_keepsHost s _ _ x).map _
    · exact (encWith_keepsHost s _ _ Sym.esc).map _

theorem dsymFall_keepsHost (k : SymLoop) : (dsymFall k s).KeepsHost s := by
  unfold dsymFall
  split
  · trivial
  · exact (decBody_keepsHost s Tsel.m1).map _

theorem csymStep_keepsHost (x : Sym) (k : SymLoop) : (csymStep x k s).KeepsHost s := by
  unfold csymStep
  split
  · exact csymDesc_keepsHost s x _ k
  · exact (encBody_keepsHost s _ x).map _
  · exact (pupdBody_keepsHost s _).map _
  · exact (hpushBody_keepsHost s _).map _
  · exact ⟨rfl, rfl, rfl, rfl, rfl, rfl, rfl⟩

theorem outputByte_sameHost (x : Sym) : SameHost s (outputByte x s) := by
  unfold outputByte
  split
  · exact SameHost.refl s
  · exact ⟨rfl, rfl, rfl, rfl, rfl, rfl, rfl⟩

theorem dsymStep_keepsHost (k : SymLoop) : (dsymStep k s).KeepsHost s := by
  unfold dsymStep
  split
  · exact (decBody_keepsHost s _).map _
  · exact dsymFall_keepsHost s k
  · exact (pupdBody_keepsHost s _).map _
  · exact (hpushBody_keepsHost s _).map _
  · next x _ _ =>
    obtain ⟨h1, h2, h3, h4, h5, h6, h7⟩ := outputByte_sameHost s x
    exact ⟨h1, h2, h3, h4, h5, h6, h7⟩

end

/-! ### The commands -/

section
variable {s t : State}

theorem execCsym_sameHost {x : Sym} (ht : execCsym x s = .next t) : SameHost s t := by
  unfold execCsym at ht
  simp only at ht
  split at ht
  · split at ht
    · cases ht; exact (SameHost.refl s).faultEntry _
    · cases ht; exact (SameHost.refl s).goto _ _
  · next k _ =>
    exact (csymStep_keepsHost s x k).finish
      (fun _ k' hu => hu.continueSym (fun _ h => h.goto _ _) (fun h => h.complete) k') ht
  · cases ht

theorem execDsym_sameHost (ht : execDsym s = .next t) : SameHost s t := by
  unfold execDsym at ht
  simp only at ht
  split at ht
  · cases ht; exact (SameHost.refl s).goto _ _
  · next k _ =>
    exact (dsymStep_keepsHost s k).finish
      (fun _ k' hu => hu.continueSym (fun _ h => h.goto _ _) (fun h => h.complete) k') ht
  · cases ht

theorem execCompress_sameHost (ht : execCompress s = .next t) : SameHost s t := by
  unfold execCompress at ht
  simp only at ht
  split at ht
  case h_1 => exact (cinitBody_keepsHost s).finish (fun _ _ hu => hu.goto _ _) ht
  case h_2 => exact (minitBody_keepsHost s).finish (fun _ _ hu => hu.goto _ _) ht
  case h_3 =>
    split at ht
    · next b rest _ =>
      cases ht
      have hu : SameHost s { s with inByteQ := rest } := ⟨rfl, rfl, rfl, rfl, rfl, rfl, rfl⟩
      exact hu.goto _ _
    · cases ht; exact (SameHost.refl s).goto _ _
  case h_4 x k _ =>
    exact (csymStep_keepsHost s x k).finish
      (fun _ k' hu => hu.continueSym (fun _ h => h.goto _ _) (fun h => h.goto _ _) k') ht
  case h_5 => exact (finBody_keepsHost s).single ht
  case h_6 => cases ht

theorem execDecompress_sameHost (ht : execDecompress s = .next t) : SameHost s t := by
  unfold execDecompress at ht
  simp only at ht
  split at ht
  case h_1 => exact (cinitBody_keepsHost s).finish (fun _ _ hu => hu.goto _ _) ht
  case h_2 => exact (minitBody_keepsHost s).finish (fun _ _ hu => hu.goto _ _) ht
  case h_3 => exact (dprimeBody_keepsHost s).finish (fun _ _ hu => hu.goto _ _) ht
  case h_4 => cases ht; exact (SameHost.refl s).goto _ _
  case h_5 k _ =>
    exact (dsymStep_keepsHost s k).finish
      (fun _ k' hu => hu.continueSym (fun _ h => h.goto _ _) (fun h => h.goto _ _) k') ht
  case h_6 =>
    cases ht
    have hu : SameHost s { s with inBitQ := [] } := ⟨rfl, rfl, rfl, rfl, rfl, rfl, rfl⟩
    exact hu.complete
  case h_7 => cases ht

/-- No command but SRST writes the host's registers. -/
theorem exec_sameHost {i : Instr} (hi : ∀ ign, i ≠ .srst ign) (ht : exec i s = .next t) : SameHost s t := by
  cases i with
  | nop => cases ht; exact (SameHost.refl s).complete
  | srst ign => exact absurd rfl (hi ign)
  | fadd r x => exact (faddBody_keepsHost s r x).single ht
  | frecomp r => exact (frecompBody_keepsHost s r).single ht
  | fupd r x => exact (fupdBody_keepsHost s r x).single ht
  | flook r x => exact (flookBody_keepsHost s r x).single ht
  | cinit => exact (cinitBody_keepsHost s).single ht
  | enc r x => exact (encBody_keepsHost s r x).finish (fun _ c hu => hu.codedResult c) ht
  | fin => exact (finBody_keepsHost s).single ht
  | dprime => exact (dprimeBody_keepsHost s).single ht
  | dec r => exact (decBody_keepsHost s r).finish (fun _ c hu => hu.codedResult c) ht
  | minit => exact (minitBody_keepsHost s).single ht
  | pget r => exact (pgetBody_keepsHost s r).single ht
  | pupd x => exact (pupdBody_keepsHost s x).single ht
  | hpush x => exact (hpushBody_keepsHost s x).single ht
  | csym x => exact execCsym_sameHost ht
  | dsym => exact execDsym_sameHost ht
  | compress => exact execCompress_sameHost ht
  | decompress => exact execDecompress_sameHost ht

end

/-- Only a word with opcode 0x01 decodes to SRST (spec/30_encoding.md R115). -/
theorem opcode_of_decode_srst {p : Params} {w : Word} {ign : BitVec 26} (h : decode p w = .ok (.srst ign)) :
    w.toNat / 2 ^ 26 = 1 := by
  obtain ⟨hw, -⟩ := decode_ok h
  rw [← opc_eq, ← hw, opcField_srst]; rfl

/-- Settles O11: a legal word's command keeps the host's registers, and an illegal word only enters the fault state. -/
theorem coreLeavesHostRegisters : Obligations.CoreLeavesHostRegisters := by
  intro s t w k hseq hw ht
  cases hd : decode s.params w with
  | error e =>
    obtain ⟨u, hu, rfl⟩ := coreStep_error hseq hd
    rw [hu] at ht; cases ht
    exact (SameHost.refl s).faultEntry ⟨.illegalCmd, w⟩
  | ok i =>
    rw [coreStep_ok hseq hd] at ht
    exact exec_sameHost (fun ign hi => hw (opcode_of_decode_srst (hi ▸ hd))) ht

end Sys2Proof.Machine
end

section
/-! PROOFS. Family 10_state, values: reset, the constant tables, the layout of RESULT, and what every register of an idle block
reads as. -/

namespace Sys2Proof.Machine

/-! ### Reset -/

/-- A reset state, whatever the parameters, has the values of the table (spec/10_state.md R56). -/
theorem resetWith_atReset (p : Params) : AtReset (State.resetWith p) where
  seq := rfl
  config := ⟨rfl, rfl⟩
  pAct := rfl
  interval := ⟨rfl, rfl⟩
  pendingCode := ⟨rfl, rfl⟩
  counters := ⟨rfl, rfl⟩
  orderAct := rfl
  hist := rfl
  ctx := rfl
  queues := ⟨rfl, rfl, rfl, rfl⟩
  fault := rfl
  result := ⟨rfl, rfl⟩
  faultInfo := rfl
  irq := ⟨rfl, rfl, rfl, rfl⟩

/-- The block's own fields after a reset are those of `State.resetWith`. -/
theorem softReset_atReset (s : State) : AtReset (softReset s) :=
  { resetWith_atReset s.params with }

/-- A CMD write of a word with SRST's opcode resets at once, in every state (spec/45_system.md R251). -/
theorem hostStep_srst {w : Word} (hw : w.toNat / 2 ^ 26 = 1) (s : State) :
    hostStep (.write 0x00 4 w) s = .next (softReset s) := by
  have hopc : opcField w = 0x01 := BitVec.eq_of_toNat_eq (by rw [opc_eq, hw]; rfl)
  show Host.Outcome.next (writeCmd w s) = _
  rw [writeCmd, if_pos hopc]

/-- Settles O16: the three ways to the reset state all end in `State.resetWith`. -/
theorem resetValues : Obligations.ResetValues := by
  refine ⟨resetWith_atReset _, fun s rest hs => ?_, fun s w hw => ?_⟩
  · exact ⟨softReset { s with agenda := rest }, by rw [step, takeTurn, hs], softReset_atReset _, rfl⟩
  · exact ⟨softReset s, hostStep_srst hw s, softReset_atReset s, rfl, rfl, rfl⟩

/-! ### The constant tables -/

/-- Byte `b` of M1 has the range `[b, b + 1)` (spec/10_state.md R43). -/
theorem Table.m1_entry {e : Entry} (he : e ∈ Table.m1.alpha) :
    e.cnt = 1 ∧ e.rlo.toNat = e.sym.toNat ∧ e.rhi.toNat = e.sym.toNat + 1 := by
  obtain ⟨b, hb, rfl⟩ := List.mem_map.1 he
  have hb : b < 256 := List.mem_range.1 hb
  refine ⟨rfl, ?_, ?_⟩
  · simp only [BitVec.toNat_ofNat]; omega
  · simp only [BitVec.toNat_ofNat]; omega

/-- Settles O19: M1 by its entries, the two seeds by their literals. -/
theorem constantTables : Obligations.ConstantTables :=
  ⟨⟨Table.m1_syms, rfl, rfl, rfl, fun _ he => Table.m1_entry he⟩, rfl, rfl⟩

/-! ### The layouts of the register words -/

/-- Settles O58: the word is its fields, each shifted past those below it. -/
theorem resultLayout : Obligations.ResultLayout := by
  intro f
  simp only [ResultFields.toWord, append_toNat, BitVec.toNat_ofBool, BitVec.ofNat_eq_ofNat, BitVec.toNat_ofNat]
  omega

theorem statusWord_toNat (s : State) : s.statusWord.toNat =
    s.busy.toNat + 2 * s.fault.isSome.toNat + 4 * s.irq.toNat + 2 ^ 8 * s.fcode.toNat := by
  simp only [State.statusWord, append_toNat, BitVec.toNat_ofBool, BitVec.ofNat_eq_ofNat, BitVec.toNat_ofNat]
  omega

theorem fcode_toNat (s : State) : s.fcode.toNat = (s.fault.map fun f => f.toByte.toNat).getD 0 := by
  rw [State.fcode]
  cases s.fault with
  | none => rfl
  | some c => rfl

/-- STATUS of an idle block: FAULT, IRQ and FCODE (spec/10_state.md R46). -/
theorem statusWord_idle {s : State} (h : s.seq = .idle) : s.statusWord.toNat =
    2 * s.fault.isSome.toNat + 4 * s.irq.toNat + 2 ^ 8 * (s.fault.map fun f => f.toByte.toNat).getD 0 := by
  have hbusy : s.busy.toNat = 0 := by rw [State.busy, h]; rfl
  rw [statusWord_toNat, fcode_toNat, hbusy, Nat.zero_add]

theorem configWord_toNat (s : State) : s.configWord.toNat = s.cfgOrder.toNat + 2 ^ 8 * s.cfgPrec.toNat := by
  simp only [State.configWord, append_toNat, BitVec.ofNat_eq_ofNat, BitVec.toNat_ofNat]
  omega

/-- HLEN fits its five bits, as MAX_ORDER is at most 30 (spec/00_scope.md R6). -/
theorem activeWord_toNat {s : State} (h : s.Sound) :
    s.activeWord.toNat = s.orderAct.toNat + 2 ^ 8 * s.pAct.toNat + 2 ^ 16 * s.hist.length := by
  have hlen : s.hist.length < 32 := by
    have := h.hist_le
    have := (legal_maxOrder h.legal).2
    omega
  simp only [State.activeWord, append_toNat, BitVec.ofNat_eq_ofNat, BitVec.toNat_ofNat]
  omega

theorem irqEnWord_toNat (s : State) : s.irqEnWord.toNat = s.doneIe.toNat + 2 * s.faultIe.toNat := by
  simp only [State.irqEnWord, append_toNat, BitVec.toNat_ofBool, BitVec.ofNat_eq_ofNat, BitVec.toNat_ofNat]
  omega

theorem irqPendWord_toNat (s : State) : s.irqPendWord.toNat = s.doneIp.toNat + 2 * s.faultIp.toNat := by
  simp only [State.irqPendWord, append_toNat, BitVec.toNat_ofBool, BitVec.ofNat_eq_ofNat, BitVec.toNat_ofNat]
  omega

theorem levelWord_toNat (n : Nat) : (levelWord n).toNat = min n (2 ^ 32 - 1) := ofNat_toNat (Nat.min_le_right n wordMax)

theorem paramsWord_toNat {p : Params} (h : p.legal = true) : (paramsWord p).toNat = p.maxOrder + 2 ^ 8 * 32 := by
  have := (legal_maxOrder h).2
  simp only [paramsWord, append_toNat, BitVec.ofNat_eq_ofNat, BitVec.toNat_ofNat]
  omega

theorem ctxCapWord_toNat (p : Params) :
    (ctxCapWord p).toNat = (p.ctxCapacity.map fun c => min c (2 ^ 32 - 1)).getD (2 ^ 32 - 1) := by
  rw [ctxCapWord]
  cases p.ctxCapacity with
  | none => rfl
  | some c => exact levelWord_toNat c

theorem histWord_toNat (i : Nat) (s : State) : (histWord i s).toNat = ((s.hist[i]?).map fun b => b.toNat).getD 0 := by
  rw [histWord]
  cases s.hist[i]? with
  | none => rfl
  | some b => exact BitVec.toNat_setWidth_of_le (by omega)

/-! ### The reads of an idle block -/

/-- The offsets from 0x80 on are those of HIST and no other register's (spec/10_state.md R54). -/
theorem regValue_hist {s : State} {i : Nat} (hi : i < s.params.maxOrder) : regValue (0x80 + 4 * i) s = histWord i s := by
  have hidx : histIndex s.params (0x80 + 4 * i) = some i := by
    rw [histIndex, if_pos ⟨by omega, by omega⟩, Nat.add_sub_cancel_left, Nat.mul_div_cancel_left _ (by omega)]
  unfold regValue
  split
  case h_26 => rw [hidx]
  all_goals omega

/-- Settles O55: an idle block's read returns `regValue`, and each value is that of its word's layout. -/
theorem registerReads : Obligations.RegisterReads := by
  intro s h hidle
  have hread (off : Nat) (hoff : off ≠ 0x48 ∧ off ≠ 0x4C := by decide) : (hostRead off s).rdata = regValue off s := by
    rw [hostRead_idle hoff.1 hoff.2 hidle]
  have hval (off : Nat) (hoff : off ≠ 0x48 ∧ off ≠ 0x4C := by decide) :
      (hostRead off s).rdata.toNat = (regValue off s).toNat := by rw [hread off hoff]
  have hhist : ∀ i < s.params.maxOrder,
      (hostRead (0x80 + 4 * i) s).rdata.toNat = ((s.hist[i]?).map fun b => b.toNat).getD 0 := fun i hi => by
    rw [hval (0x80 + 4 * i) (by omega), regValue_hist hi, histWord_toNat]
  have hcount (hn : s.ctx.length ≤ 2 ^ 32 - 1) : (hostRead 0x68 s).rdata.toNat = s.ctx.length := by
    rw [hread 0x68]
    show (ctxCountWord s.ctx.length).toNat = _
    rw [ctxCountWord_of_le hn, ofNat_toNat hn]
  exact ⟨hval 0x00, (hval 0x04).trans (statusWord_idle hidle), (hval 0x08).trans (configWord_toNat s),
    (hval 0x0C).trans (activeWord_toNat h.toSound), hread 0x10, hread 0x14, hread 0x18, hread 0x1C, hread 0x20, hread 0x24,
    hread 0x28, hread 0x2C, hread 0x30, hread 0x34, (hval 0x38).trans (irqEnWord_toNat s),
    (hval 0x3C).trans (irqPendWord_toNat s), hval 0x40, hval 0x44, (hval 0x50).trans (levelWord_toNat _),
    (hval 0x54).trans (levelWord_toNat _), (hval 0x58).trans (levelWord_toNat _), (hval 0x5C).trans (levelWord_toNat _),
    hread 0x60, hread 0x64, hcount, hval 0x6C, (hval 0x70).trans (paramsWord_toNat h.legal),
    (hval 0x74).trans (ctxCapWord_toNat s.params), hhist⟩

end Sys2Proof.Machine
end

section
/-! PROOFS. Family 20_memory, host accesses: when an access is performed, what each writable register does with a write, what the
popping reads pop, and what the other reads return. -/

namespace Sys2Proof.Machine

section
variable {s t : State} {off : Nat} {v w : Word}

/-! ### The contract -/

/-- The contract admits 32-bit accesses at the aligned offsets of the window (spec/20_memory.md R81). -/
theorem accessRefusal_eq_none {width : Nat} : accessRefusal off width = none ↔ width = 4 ∧ off % 4 = 0 ∧ off < 0x100 := by
  unfold accessRefusal
  split
  · next h => simp [h]
  · split
    · next h => simp [h]
    · split
      · next h => simp; omega
      · next h1 h2 h3 => simp; omega

/-- An access the contract admits, and no other, is performed. -/
theorem hostStep_eq_next {op : HostOp} :
    hostStep op s = .next t ↔ accessRefusal op.place.1 op.place.2 = none ∧ t = op.perform s := by
  unfold hostStep
  split
  · next h => simp [h]
  · next h => simp [h, eq_comm]

theorem hostStep_read (h : off % 4 = 0 ∧ off < 0x100 := by decide) : hostStep (.read off 4) s = .next (hostRead off s) :=
  hostStep_eq_next.2 ⟨accessRefusal_eq_none.2 ⟨rfl, h⟩, rfl⟩

theorem hostStep_write (h : off % 4 = 0 ∧ off < 0x100 := by decide) :
    hostStep (.write off 4 v) s = .next (hostWrite off v s) :=
  hostStep_eq_next.2 ⟨accessRefusal_eq_none.2 ⟨rfl, h⟩, rfl⟩

/-! ### Writes -/

theorem State.busy_of_running (h : s.seq ≠ .idle) : s.busy = true := by
  cases hs : s.seq with
  | idle => exact absurd hs h
  | running w k => rw [State.busy, hs]

theorem State.busy_of_idle (h : s.seq = .idle) : s.busy = false := by rw [State.busy, h]

/-- A field of a written word as a number. -/
theorem extractLsb'_eq_ofNat (v : Word) (i n : Nat) : v.extractLsb' i n = BitVec.ofNat n (v.toNat / 2 ^ i) := by
  rw [BitVec.extractLsb', Nat.shiftRight_eq_div_pow]

/-- SRST's opcode is 0x01 (spec/30_encoding.md R115). -/
theorem opcField_eq_srst : opcField w = 0x01 ↔ w.toNat / 2 ^ 26 = 1 := by
  rw [← opc_eq]
  exact ⟨fun h => by rw [h]; rfl, fun h => BitVec.eq_of_toNat_eq h⟩

theorem writeCmd_srst (hw : w.toNat / 2 ^ 26 = 1) : writeCmd w s = softReset s := if_pos (opcField_eq_srst.2 hw)

theorem writeCmd_fault (hw : w.toNat / 2 ^ 26 ≠ 1) (hf : s.fault ≠ none) : writeCmd w s = s := by
  rw [writeCmd, if_neg (mt opcField_eq_srst.1 hw), if_pos (Option.isSome_iff_ne_none.2 hf)]

theorem writeCmd_busy (hw : w.toNat / 2 ^ 26 ≠ 1) (hf : s.fault = none) (hs : s.seq ≠ .idle) :
    writeCmd w s = hostProtocol 0x00 s := by
  rw [writeCmd, if_neg (mt opcField_eq_srst.1 hw)]
  simp [hf, State.busy_of_running hs]

theorem writeCmd_idle (hw : w.toNat / 2 ^ 26 ≠ 1) (hf : s.fault = none) (hs : s.seq = .idle) :
    writeCmd w s = goto w .start s := by
  rw [writeCmd, if_neg (mt opcField_eq_srst.1 hw)]
  simp [hf, State.busy_of_idle hs]

theorem writeConfig_busy (hs : s.seq ≠ .idle) : writeConfig v s = hostProtocol 0x08 s := if_pos (State.busy_of_running hs)

theorem writeConfig_idle (hs : s.seq = .idle) :
    writeConfig v s = { s with cfgOrder := BitVec.ofNat 6 v.toNat, cfgPrec := BitVec.ofNat 6 (v.toNat / 2 ^ 8) } := by
  rw [writeConfig, State.busy_of_idle hs, if_neg Bool.false_ne_true, extractLsb'_eq_ofNat, extractLsb'_eq_ofNat, pow_zero,
    Nat.div_one]

theorem writeInByte_fault (hf : s.fault ≠ none) : writeInByte v s = s := if_pos (Option.isSome_iff_ne_none.2 hf)

theorem writeInByte_busy (hf : s.fault = none) (hs : s.seq ≠ .idle) : writeInByte v s = hostProtocol 0x40 s := by
  simp [writeInByte, hf, State.busy_of_running hs]

theorem writeInByte_full (hf : s.fault = none) (hs : s.seq = .idle) (hq : s.params.inByteDepth = some s.inByteQ.length) :
    writeInByte v s = hostProtocol 0x40 s := by
  simp [writeInByte, hf, State.busy_of_idle hs, byteQueueFull, hq]

theorem writeInByte_room (hf : s.fault = none) (hs : s.seq = .idle) (hq : s.params.inByteDepth ≠ some s.inByteQ.length) :
    writeInByte v s = { s with inByteQ := s.inByteQ ++ [BitVec.ofNat 8 v.toNat] } := by
  simp [writeInByte, hf, State.busy_of_idle hs, byteQueueFull, hq, extractLsb'_eq_ofNat]

/-- The bit queue is full where 32 more bits would not be within its depth (spec/20_memory.md R88). -/
theorem bitQueueFull_eq_false : bitQueueFull s = false ↔ within (s.inBitQ.length + 32) s.params.inBitDepth := by
  unfold bitQueueFull
  cases s.params.inBitDepth with
  | none => simp [within]
  | some d => simp [within]

theorem writeInBits_fault (hf : s.fault ≠ none) : writeInBits v s = s := if_pos (Option.isSome_iff_ne_none.2 hf)

theorem writeInBits_busy (hf : s.fault = none) (hs : s.seq ≠ .idle) : writeInBits v s = hostProtocol 0x44 s := by
  simp [writeInBits, hf, State.busy_of_running hs]

theorem writeInBits_full (hf : s.fault = none) (hs : s.seq = .idle)
    (hq : ¬ within (s.inBitQ.length + 32) s.params.inBitDepth) : writeInBits v s = hostProtocol 0x44 s := by
  have hfull : bitQueueFull s = true := by simpa using mt bitQueueFull_eq_false.1 hq
  simp [writeInBits, hf, State.busy_of_idle hs, hfull]

theorem writeInBits_room (hf : s.fault = none) (hs : s.seq = .idle)
    (hq : within (s.inBitQ.length + 32) s.params.inBitDepth) :
    writeInBits v s = { s with inBitQ := s.inBitQ ++ bitsOfWord v } := by
  simp [writeInBits, hf, State.busy_of_idle hs, bitQueueFull_eq_false.2 hq]

@[simp] theorem bitsOfWord_length : (bitsOfWord v).length = 32 := by simp [bitsOfWord]

/-- The first bit is bit 31 of the word (spec/20_memory.md R88). -/
theorem bitsOfWord_getElem? {j : Nat} (hj : j < 32) : (bitsOfWord v)[j]? = some (v.getLsbD (31 - j)) := by
  simp [bitsOfWord, hj]

/-- Only six registers take a write (spec/20_memory.md R92). -/
theorem hostWrite_ignored (h : off ∉ [0x00, 0x08, 0x38, 0x3C, 0x40, 0x44]) : hostWrite off v s = s := by
  unfold hostWrite
  split
  case h_7 => rfl
  all_goals exact absurd (by decide) h

/-! ### Popping reads -/

theorem readOutByte_nil (h : s.outByteQ = []) : readOutByte s = { s with rdata := 0 } := by rw [readOutByte, h]

theorem readOutByte_cons {b : Byte} {rest : List Byte} (h : s.outByteQ = b :: rest) :
    readOutByte s = { s with outByteQ := rest, rdata := BitVec.ofNat 32 (0x100 + b.toNat) } := by
  have hword : (0 : BitVec 23) ++ ((1 : BitVec 1) ++ b) = BitVec.ofNat 32 (0x100 + b.toNat) := by
    apply BitVec.eq_of_toNat_eq
    simp only [append_toNat, BitVec.ofNat_eq_ofNat, BitVec.toNat_ofNat]
    have := b.isLt
    omega
  rw [readOutByte, h]
  exact congrArg (fun r => { s with outByteQ := rest, rdata := r }) hword

/-- Bit `j` of a stream stands `j` places below the top of its value. -/
theorem testBit_streamVal {n j : Nat} (S : Nat → Bool) (hj : j < n) : (streamVal n S).testBit (n - 1 - j) = S j := by
  induction n with
  | zero => omega
  | succ n ih =>
    have hodd : (2 * streamVal n S + (S n).toNat) % 2 = (S n).toNat := by
      have := (S n).toNat_lt
      omega
    have hhalf : (2 * streamVal n S + (S n).toNat) / 2 = streamVal n S := by
      have := (S n).toNat_lt
      omega
    rcases Nat.lt_succ_iff_lt_or_eq.1 hj with hlt | rfl
    · rw [streamVal, show n + 1 - 1 - j = (n - 1 - j) + 1 by omega, Nat.testBit_succ, hhalf, ih hlt]
    · rw [streamVal, show j + 1 - 1 - j = 0 by omega, Nat.testBit_zero, hodd]
      cases S j <;> rfl

/-- A word of a bit list is the number of the first 32 bits of its stream (spec/20_memory.md R90). -/
theorem wordOfBits_eq_streamVal (bs : List Bool) : wordOfBits bs = BitVec.ofNat 32 (streamVal 32 (stream bs)) := by
  have h := congrArg Prod.fst ((takeBits_eq 32 0 bs).symm.trans (takeBits_streamVal bs 32))
  exact congrArg (BitVec.ofNat 32) h

theorem wordOfBits_getLsbD (bs : List Bool) {j : Nat} (hj : j < 32) : (wordOfBits bs).getLsbD (31 - j) = stream bs j := by
  rw [wordOfBits_eq_streamVal, BitVec.getLsbD_ofNat, testBit_streamVal (stream bs) hj]
  simp; omega

/-! ### Other reads -/

/-- Below 0x80 there is no HIST register (spec/10_state.md R54). -/
theorem histIndex_eq_none {p : Params} (h : off < 0x80 ∨ 0x80 + 4 * p.maxOrder ≤ off) : histIndex p off = none := by
  rw [histIndex, if_neg (by omega)]

/-- Only STATUS shows whether a command runs (spec/10_state.md R46). -/
theorem regValue_withSeq (h : off ≠ 0x04) (q : Seq) : regValue off { s with seq := q } = regValue off s := by
  unfold regValue
  split
  case h_1 => exact absurd rfl h
  all_goals rfl

/-- A reserved offset reads 0 (spec/20_memory.md R83). -/
theorem regValue_reserved (h : 0x78 ≤ off) (hidx : histIndex s.params off = none) : regValue off s = 0 := by
  unfold regValue
  split
  case h_26 => rw [hidx]
  all_goals omega

/-- The registers R85 lists before HIST all lie below 0x78. -/
theorem volatileReg_reserved {p : Params} (h : 0x78 ≤ off) (hidx : histIndex p off = none) : volatileReg p off = false := by
  have hlist : off ∉ [0x0C, 0x10, 0x14, 0x18, 0x1C, 0x20, 0x24, 0x28, 0x2C, 0x30, 0x34, 0x60, 0x64, 0x68] := fun hmem => by
    simp only [List.mem_cons, List.not_mem_nil, or_false] at hmem
    omega
  rw [volatileReg, hidx, decide_eq_false hlist]; rfl

theorem hostRead_exact (h1 : off ≠ 0x48) (h2 : off ≠ 0x4C) (hv : volatileReg s.params off = false) :
    hostRead off s = { s with rdata := regValue off s } :=
  hostRead_stated h1 h2 (by rw [unstatedRead, hv, Bool.and_false])

/-- A read that does not pop returns the register's value, or, of a volatile register while BUSY, a free one. -/
theorem hostRead_cases (h1 : off ≠ 0x48) (h2 : off ≠ 0x4C) :
    hostRead off s = { s with rdata := regValue off s } ∨
      s.seq ≠ .idle ∧ hostRead off s = { s with rdata := Config.freeRead s.draws, draws := s.draws + 1 } := by
  cases hu : unstatedRead off s with
  | false => exact .inl (hostRead_stated h1 h2 hu)
  | true =>
    refine .inr ⟨fun hs => ?_, hostRead_unstated h1 h2 hu⟩
    rw [unstatedRead_idle hs] at hu
    cases hu

end

/-! ### The statements -/

/-- Settles O49: one case for each of the four lemmas on `writeCmd`. -/
theorem cmdWriteStartsCommand : Obligations.CmdWriteStartsCommand := by
  refine ⟨fun s hs => ?_, fun s w =>
    ⟨writeCmd w s, hostStep_write, fun hw => ?_, writeCmd_fault, writeCmd_busy, writeCmd_idle⟩⟩
  · rw [hostStep_read, hostRead_idle (by decide) (by decide) hs]; rfl
  · rw [writeCmd_srst hw]; exact softReset_atReset s

/-- Settles O50: each input write is ignored, faults or appends. -/
theorem inputWritesPush : Obligations.InputWritesPush := fun s v =>
  ⟨⟨writeInByte v s, hostStep_write, writeInByte_fault, writeInByte_busy, writeInByte_full, writeInByte_room⟩,
    ⟨writeInBits v s, hostStep_write, writeInBits_fault, writeInBits_busy, writeInBits_full, fun hf hs hq =>
      ⟨bitsOfWord v, bitsOfWord_length, fun _ hj => bitsOfWord_getElem? hj, writeInBits_room hf hs hq⟩⟩⟩

/-- Settles O51: a bit of the word read from OUT_BITS is the bit at its place in the queue's stream. -/
theorem outputReadsPop : Obligations.OutputReadsPop := by
  intro s
  refine ⟨fun h => ?_, fun b rest h => ?_, wordOfBits (s.outBitQ.take 32), ?_, fun j hj => ?_⟩
  · rw [hostStep_read]; exact congrArg _ (readOutByte_nil h)
  · rw [hostStep_read]; exact congrArg _ (readOutByte_cons h)
  · have hdrop : s.outBitQ.drop 32 = s.outBitQ.drop (min 32 s.outBitQ.length) := by simp [List.drop_eq_drop_iff]
    rw [hostStep_read, ← hdrop]; rfl
  · rw [wordOfBits_getLsbD _ hj, stream, List.getElem?_take_of_lt hj]

/-- Settles O52: CONFIG by its two cases, the interrupt registers by their definitions, the rest by `hostWrite_ignored`. -/
theorem otherWrites : Obligations.OtherWrites := fun _ _ =>
  ⟨writeConfig_busy, writeConfig_idle, rfl, rfl, fun _ h => hostWrite_ignored h⟩

/-- Settles O53: MAX_ORDER is at most 30, so no reserved offset is a HIST register's. -/
theorem reservedReadZero : Obligations.ReservedReadZero := by
  intro s off hp hoff
  have hmax := (legal_maxOrder hp).2
  have hplace : off % 4 = 0 ∧ 0x78 ≤ off ∧ off < 0x100 ∧ (off < 0x80 ∨ 0x80 + 4 * s.params.maxOrder ≤ off) := by
    rcases hoff with hmem | ⟨i, hi, hi30, rfl⟩
    · simp only [List.mem_cons, List.not_mem_nil, or_false] at hmem
      omega
    · omega
  obtain ⟨halign, hlow, hhigh, hhist⟩ := hplace
  have hidx := histIndex_eq_none hhist
  refine ⟨?_, fun v => ?_⟩
  · rw [hostStep_read ⟨halign, hhigh⟩, hostRead_exact (by omega) (by omega) (volatileReg_reserved hlow hidx),
      regValue_reserved hlow hidx]
  · have hignored : off ∉ [0x00, 0x08, 0x38, 0x3C, 0x40, 0x44] := fun hmem => by
      simp only [List.mem_cons, List.not_mem_nil, or_false] at hmem
      omega
    rw [hostStep_write ⟨halign, hhigh⟩, hostWrite_ignored hignored]

/-- Settles O54: the value an idle block returns does not depend on what was read before it. -/
theorem readsHaveNoEffect : Obligations.ReadsHaveNoEffect := by
  intro s off t h1 h2 ht
  obtain ⟨hadm, rfl⟩ := hostStep_eq_next.1 ht
  have hagain : s.seq = .idle → hostStep (.read off 4) (hostRead off s) = .next (hostRead off s) := fun hs =>
    hostStep_eq_next.2 ⟨hadm, by
      rw [hostRead_idle h1 h2 hs]
      exact (hostRead_idle h1 h2 hs).symm⟩
  rcases hostRead_cases (s := s) h1 h2 with h | ⟨hs, h⟩
  · exact ⟨regValue off s, s.draws, h, fun hi => ⟨rfl, hagain hi⟩⟩
  · exact ⟨_, _, h, fun hi => absurd hi hs⟩

/-- The registers R85 lists as exact while BUSY, the popping ones and STATUS apart, are not volatile. -/
theorem volatileReg_exact (p : Params) :
    ∀ off ∈ [0x04, 0x08, 0x38, 0x3C, 0x6C, 0x70, 0x74, 0x50, 0x54, 0x58, 0x5C], volatileReg p off = false := by
  intro off hoff
  have hplace : off < 0x80 ∧
      off ∉ [0x0C, 0x10, 0x14, 0x18, 0x1C, 0x20, 0x24, 0x28, 0x2C, 0x30, 0x34, 0x60, 0x64, 0x68] := by
    revert off; decide
  rw [volatileReg, histIndex_eq_none (.inl hplace.1), decide_eq_false hplace.2]; rfl

/-- A popping read returns the same whether a command runs or not (spec/20_memory.md R85). -/
theorem popRead_withSeq (s : State) (q : Seq) : (readOutByte { s with seq := q }).rdata = (readOutByte s).rdata := by
  rw [readOutByte, readOutByte]
  cases s.outByteQ with
  | nil => rfl
  | cons b rest => rfl

/-- A register that is not volatile reads the same whether a command runs or not; STATUS shows BUSY (spec/20_memory.md R85). -/
theorem exactRead_withSeq (s : State) (q : Seq) :
    ∀ off ∈ [0x08, 0x38, 0x3C, 0x6C, 0x70, 0x74, 0x50, 0x54, 0x58, 0x5C, 0x48, 0x4C],
      (hostRead off s).rdata = (hostRead off { s with seq := q }).rdata := by
  intro off hoff
  by_cases h1 : off = 0x48
  · subst h1; exact (popRead_withSeq s q).symm
  · by_cases h2 : off = 0x4C
    · subst h2; rfl
    · have hexact : off ∈ [0x04, 0x08, 0x38, 0x3C, 0x6C, 0x70, 0x74, 0x50, 0x54, 0x58, 0x5C] ∧ off ≠ 0x04 := by
        simp only [List.mem_cons, List.not_mem_nil, or_false] at hoff ⊢
        omega
      have hread (u : State) : (hostRead off u).rdata = regValue off u := by
        rw [hostRead_exact h1 h2 (volatileReg_exact u.params off hexact.1)]
      rw [hread, hread]
      exact (regValue_withSeq hexact.2 q).symm

/-- BUSY is bit 0 of STATUS (spec/10_state.md R46). -/
theorem statusRead_busy {s : State} (hs : s.seq ≠ .idle) :
    (hostRead 0x04 s).rdata.toNat = (hostRead 0x04 { s with seq := .idle }).rdata.toNat + 1 := by
  have hread (u : State) : (hostRead 0x04 u).rdata = u.statusWord := by
    rw [hostRead_exact (by decide) (by decide) (volatileReg_exact u.params 0x04 (by decide))]; rfl
  have hidle : (State.statusWord { s with seq := .idle }).toNat =
      2 * s.fault.isSome.toNat + 4 * s.irq.toNat + 2 ^ 8 * (s.fault.map fun f => f.toByte.toNat).getD 0 := statusWord_idle rfl
  rw [hread, hread, hidle, statusWord_toNat, fcode_toNat, State.busy_of_running hs, Bool.toNat_true]
  omega

/-- Settles O57: exact reads do not see SEQ, and each listed write of a busy block is HOST_PROTOCOL. -/
theorem busyAccesses : Obligations.BusyAccesses := fun s hs hf =>
  ⟨exactRead_withSeq s .idle, statusRead_busy hs, fun _ hw => writeCmd_busy hw hf hs,
    fun _ => ⟨writeConfig_busy hs, writeInByte_busy hf hs, writeInBits_busy hf hs⟩, fun _ => ⟨rfl, rfl⟩,
    fun w hw => by
      show AtReset (writeCmd w s)
      rw [writeCmd_srst hw]; exact softReset_atReset s⟩

end Sys2Proof.Machine
end

section
/-! PROOFS. Family 20_memory, turns: whose turn a step takes, and that from a state of the invariant every command's step has a
next state, so that only a host access can stop the model. -/

namespace Sys2Proof.Machine

/-! ### Commands -/

/-- A body that is never stuck has a next state, whatever its step does then. -/
theorem Body.Sat.finish_next {α : Type} {P : State → α → Prop} {F : FaultCode → Prop} {Q : State → Prop} {b : Body α}
    (h : b.Sat P F Q) (s₀ : State) (cont : State → α → State) : ∃ t, b.finish s₀ cont = .next t := by
  cases b with
  | ok s a => exact ⟨_, rfl⟩
  | raise r => exact ⟨_, rfl⟩
  | raiseKeeping r s => exact ⟨_, rfl⟩
  | stuck f => exact h.elim

theorem Body.Sat.single_next {α : Type} {P : State → α → Prop} {F : FaultCode → Prop} {Q : State → Prop} {b : Body α}
    (h : b.Sat P F Q) (s₀ : State) : ∃ t, b.single s₀ = .next t := h.finish_next s₀ _

section
variable {i : Instr} {s : State} {x : Sym}

/-- CSYM stops only on the loop state of another command (spec/44_drivers.md R221). -/
theorem execCsym_next (h : s.Sound) (hk : Loop.Fits s.hist.length (.csym x) (loopOf s)) : ∃ t, execCsym x s = .next t := by
  unfold execCsym
  generalize loopOf s = l at hk ⊢
  cases l with
  | start =>
    by_cases hx : x = Sym.esc
    · exact ⟨_, if_pos hx⟩
    · exact ⟨_, if_neg hx⟩
  | sym k => exact (csymStep_sat h hk.1 hk.2).finish_next ..
  | _ => exact hk.elim

/-- DSYM stops only on the loop state of another command (spec/44_drivers.md R222). -/
theorem execDsym_next (h : s.Sound) (hk : Loop.Fits s.hist.length .dsym (loopOf s)) : ∃ t, execDsym s = .next t := by
  unfold execDsym
  generalize loopOf s = l at hk ⊢
  cases l with
  | start => exact ⟨_, rfl⟩
  | sym k => exact (dsymStep_sat h hk).finish_next ..
  | _ => exact hk.elim

/-- COMPRESS stops only on the loop state of another command (spec/44_drivers.md R223). -/
theorem execCompress_next (h : s.Sound) (hk : Loop.Fits s.hist.length .compress (loopOf s)) :
    ∃ t, execCompress s = .next t := by
  unfold execCompress
  generalize loopOf s = l at hk ⊢
  cases l with
  | start => exact (cinitBody_sat h).finish_next ..
  | cMinit => exact (minitBody_sat h).finish_next ..
  | cNext =>
    cases s.inByteQ with
    | nil => exact ⟨_, rfl⟩
    | cons b rest => exact ⟨_, rfl⟩
  | cSym x k => exact (csymStep_sat h hk.1 hk.2).finish_next ..
  | cFin => exact (finBody_sat h).single_next s
  | _ => exact hk.elim

/-- DECOMPRESS stops only on the loop state of another command (spec/44_drivers.md R224). -/
theorem execDecompress_next (h : s.Sound) (hk : Loop.Fits s.hist.length .decompress (loopOf s)) :
    ∃ t, execDecompress s = .next t := by
  unfold execDecompress
  generalize loopOf s = l at hk ⊢
  cases l with
  | start => exact (cinitBody_sat h).finish_next ..
  | dMinit => exact (minitBody_sat h).finish_next ..
  | dPrime => exact (dprimeBody_sat h).finish_next ..
  | dNext => exact ⟨_, rfl⟩
  | dSym k => exact (dsymStep_sat h hk).finish_next ..
  | dClear => exact ⟨_, rfl⟩
  | _ => exact hk.elim

/-- The step of every executing command has a next state: no body is stuck in sound data, and the loop state fits. -/
theorem exec_next (h : Executing i s) (hk : Loop.Fits s.hist.length i (loopOf s)) : ∃ t, exec i s = .next t := by
  have hs := h.toSound
  have hw : i.wellFormed s.params = true := (decode_ok h.word).2
  cases i with
  | nop => exact ⟨_, rfl⟩
  | srst ign => exact ⟨_, rfl⟩
  | fadd r x => exact (faddBody_sat hs r (symOk_le (Bool.and_eq_true_iff.1 hw).2)).single_next s
  | frecomp r => exact (frecompBody_sat hs r).single_next s
  | fupd r x => exact (fupdBody_sat hs r (symOk_le (Bool.and_eq_true_iff.1 hw).2)).single_next s
  | flook r x => exact (flookBody_sat hs r x).single_next s
  | cinit => exact (cinitBody_sat hs).single_next s
  | enc r x => exact (encBody_sat hs r x).finish_next ..
  | fin => exact (finBody_sat hs).single_next s
  | dprime => exact (dprimeBody_sat hs).single_next s
  | dec r => exact (decBody_sat hs r).finish_next ..
  | minit => exact (minitBody_sat hs).single_next s
  | pget r => exact (pgetBody_sat hs r).single_next s
  | pupd x => exact (pupdBody_sat hs x).single_next s
  | hpush x => exact (hpushBody_sat hs x).single_next s
  | csym x => exact execCsym_next hs hk
  | dsym => exact execDsym_next hs hk
  | compress => exact execCompress_next hs hk
  | decompress => exact execDecompress_next hs hk

/-! ### The core's turn -/

/-- In a state of the invariant a running legal word is executing, with a loop state of its command. -/
theorem State.Inv.executing {w : Word} {k : Loop} (h : s.Inv) (hseq : s.seq = .running w k)
    (hd : decode s.params w = .ok i) : Executing i s ∧ Loop.Fits s.hist.length i (loopOf s) := by
  have hfault : s.fault = none := by
    by_contra hf
    exact Seq.noConfusion (hseq.symm.trans (h.stopped hf))
  have hfits := h.sequencer
  rw [hseq, Seq.ok_of_decoded hd] at hfits
  obtain ⟨rfl, -⟩ := decode_ok hd
  exact ⟨⟨h.toSound, hfault, hd⟩, by rwa [loopOf, hseq]⟩

theorem coreStep_idle (h : s.seq = .idle) : coreStep s = .next s := by rw [coreStep, h]

/-- The core never stops the model (spec/60_exceptions.md R268; log 10, log 11). -/
theorem coreStep_next (h : s.Inv) : ∃ t, coreStep s = .next t := by
  cases hseq : s.seq with
  | idle => exact ⟨s, coreStep_idle hseq⟩
  | running w k =>
    cases hd : decode s.params w with
    | error e =>
      obtain ⟨t, ht, -⟩ := coreStep_error hseq hd
      exact ⟨t, ht⟩
    | ok i =>
      obtain ⟨hexec, hfits⟩ := h.executing hseq hd
      rw [coreStep_ok hseq hd]
      exact exec_next hexec hfits

/-! ### Steps -/

variable {rest : List Turn}

theorem step_of_noTurn (h : s.agenda = []) : step s = coreStep s := by rw [step, takeTurn, h]

theorem step_of_core (h : s.agenda = .core :: rest) : step s = coreStep { s with agenda := rest } := by
  rw [step, takeTurn, h]

theorem step_of_host {op : HostOp} (h : s.agenda = .host op :: rest) : step s = hostStep op { s with agenda := rest } := by
  rw [step, takeTurn, h]

theorem step_of_rst (h : s.agenda = .rst :: rest) : step s = .next (softReset { s with agenda := rest }) := by
  rw [step, takeTurn, h]

/-- A loaded command is what the next step runs, whatever turns follow it (log 2). -/
theorem step_loadCommand (w : Word) (s : State) : step (loadCommand w s) = coreStep (goto w .start s) := by
  cases h : s.agenda with
  | nil =>
    have hload : loadCommand w s = goto w .start s := by rw [loadCommand, h, coreFirst, ← h]; rfl
    rw [hload]
    exact step_of_noTurn h
  | cons a rest =>
    have hload : (loadCommand w s).agenda = .core :: s.agenda := by rw [loadCommand, h, coreFirst]
    exact step_of_core hload

end

/-! ### Refusals -/

/-- An access that is refused is outside the contract (spec/20_memory.md R81; log 16). -/
theorem hostStep_cases (op : HostOp) (s : State) :
    (∃ t, hostStep op s = .next t) ∨
      ∃ r, hostStep op s = .refused r ∧ (op.place.2 ≠ 4 ∨ op.place.1 % 4 ≠ 0 ∨ 0xFC < op.place.1) := by
  cases hr : accessRefusal op.place.1 op.place.2 with
  | none => exact .inl ⟨_, hostStep_eq_next.2 ⟨hr, rfl⟩⟩
  | some r =>
    have hplace : ¬ (op.place.2 = 4 ∧ op.place.1 % 4 = 0 ∧ op.place.1 < 0x100) := fun h => by
      rw [accessRefusal_eq_none.2 h] at hr
      cases hr
    refine .inr ⟨r, by rw [hostStep, hr], ?_⟩
    omega

/-! ### The statements -/

/-- Settles O15: a core's turn and a reset have a next state, so what stops is a host access outside the contract. -/
theorem onlyBadAccessesStop : Obligations.OnlyBadAccessesStop := by
  intro s h
  cases ha : s.agenda with
  | nil => rw [step_of_noTurn ha]; exact .inl (coreStep_next h)
  | cons turn rest =>
    cases turn with
    | core => rw [step_of_core ha]; exact .inl (coreStep_next (h.frame ..))
    | rst => exact .inl ⟨_, step_of_rst ha⟩
    | host op =>
      rw [step_of_host ha]
      rcases hostStep_cases op { s with agenda := rest } with hnext | ⟨r, hr, hplace⟩
      · exact .inl hnext
      · exact .inr ⟨op, rest, r, rfl, hr, hplace⟩

/-- Settles O6: one lemma for each kind of turn. -/
theorem stepTakesOneTurn : Obligations.StepTakesOneTurn := by
  refine ⟨fun s w k i ha hseq hd => ?_, fun s rest w k i ha hseq hd => ?_, fun s ha hseq => ?_, fun s rest ha hseq => ?_,
    fun s rest op ha => step_of_host ha, fun s rest ha => ?_⟩
  · rw [step_of_noTurn ha, coreStep_ok hseq hd]
  · rw [step_of_core ha]; exact coreStep_ok hseq hd
  · rw [step_of_noTurn ha, coreStep_idle hseq]
  · rw [step_of_core ha]; exact coreStep_idle hseq
  · exact ⟨_, step_of_rst ha, softReset_atReset _, rfl, rfl⟩

/-- Settles O7: the placed word is a loaded command. -/
theorem fetchedWordRuns : Obligations.FetchedWordRuns := fun s _ w _ hd =>
  (step_loadCommand (BitVec.ofNat 32 w) s).trans (coreStep_ok rfl hd)

end Sys2Proof.Machine
end

section
/-! PROOFS. Family 30_encoding: the encoder and the decoder invert each other, the illegal words are those that do not decode,
and the opcode map selects one row for each word that decodes. -/

namespace Sys2Proof.Machine

/-! ### Decoding an encoded command -/

section
variable {p : Params}

/-- A packed word with only OPC passes the checks of format N (spec/30_encoding.md R111, R116). -/
theorem decodeN_packWord (i : Instr) (o : BitVec 6) : decodeN i (packWord o 0 0 0) = .ok i := by
  simp [decodeN]

/-- A packed word with a legal TSEL passes the checks of format T (spec/30_encoding.md R111, R113). -/
theorem decodeT_packWord {t : Tsel} (f : Tsel → Instr) (o : BitVec 6) (ht : tselOk p t = true) :
    decodeT p f (packWord o t 0 0) = .ok (f t) := by
  simp [decodeT, tselReserved_of_ok ht]

/-- A packed word with a legal SYM passes the checks of format S (spec/30_encoding.md R111, R114). -/
theorem decodeS_packWord {x : Sym} (f : Sym → Instr) (o : BitVec 6) (hx : symOk x = true) :
    decodeS f (packWord o 0 x 0) = .ok (f x) := by
  simp [decodeS, symReserved_eq, hx]

/-- A packed word with a legal TSEL and a legal SYM passes the checks of format TS (spec/30_encoding.md R111, R113, R114). -/
theorem decodeTS_packWord {t : Tsel} {x : Sym} (f : Tsel → Sym → Instr) (o : BitVec 6)
    (h : (tselOk p t && symOk x) = true) : decodeTS p f (packWord o t x 0) = .ok (f t x) := by
  obtain ⟨ht, hx⟩ := Bool.and_eq_true_iff.1 h
  simp [decodeTS, symReserved_eq, hx, tselReserved_of_ok ht]

/-- The word of a well-formed command has its opcode, so its row's format decodes it; SRST takes its low 26 bits unchecked
(spec/30_encoding.md R111, R115). -/
theorem decode_encode {i : Instr} (h : i.wellFormed p = true) : decode p (encode i) = .ok i := by
  cases i
  case srst ign => rw [decode, opcField_srst, ignField_srst]; rfl
  all_goals rw [encode, decode, opcField_packWord]
  case nop | cinit | fin | dprime | minit | dsym | compress | decompress => exact decodeN_packWord _ _
  case frecomp | dec | pget => exact decodeT_packWord _ _ h
  case pupd | hpush | csym => exact decodeS_packWord _ _ h
  case fadd | fupd | flook | enc => exact decodeTS_packWord _ _ h

end

/-! ### The illegal words -/

/-- When a word is either decoded under a condition or rejected without it, the condition decides. -/
theorem rejected_iff {P : Prop} {o : Except Reject Instr} {i : Instr}
    (h : (P ∧ o = .ok i) ∨ (¬ P ∧ ∃ e, o = .error e)) : (∃ e, o = .error e) ↔ ¬ P := by
  rcases h with ⟨hP, rfl⟩ | ⟨hP, he⟩
  · exact iff_of_false (fun ⟨_, h⟩ => nomatch h) (not_not_intro hP)
  · exact iff_of_true he hP

section
variable {p : Params} {w : Word} {n : Nat}

/-- A word with an opcode of format N is illegal when anything but OPC is not 0 (spec/30_encoding.md R117(b)). -/
theorem illegalWord_iff_decodeN (i : Instr) (ho : (opcField w).toNat = n)
    (hn : n ∈ [0x00, 0x10, 0x12, 0x13, 0x18, 0x21, 0x22, 0x23]) : IllegalWord p w ↔ ∃ e, decodeN i w = .error e := by
  rw [opc_eq] at ho
  rw [rejected_iff (decodeN_cases i w)]
  simp only [IllegalWord, ho]
  fin_cases hn <;> (simp; omega)

/-- A word with an opcode of format T is illegal by R117(b) or R117(d). -/
theorem illegalWord_iff_decodeT (f : Tsel → Instr) (ho : (opcField w).toNat = n) (hn : n ∈ [0x09, 0x14, 0x19]) :
    IllegalWord p w ↔ ∃ e, decodeT p f w = .error e := by
  rw [opc_eq] at ho
  rw [rejected_iff (decodeT_cases p f w)]
  simp only [IllegalWord, TselLegal, ho]
  fin_cases hn <;> (simp; omega)

/-- A word with an opcode of format S is illegal by R117(b) or R117(c). -/
theorem illegalWord_iff_decodeS (f : Sym → Instr) (ho : (opcField w).toNat = n) (hn : n ∈ [0x1A, 0x1B, 0x20]) :
    IllegalWord p w ↔ ∃ e, decodeS f w = .error e := by
  rw [opc_eq] at ho
  rw [rejected_iff (decodeS_cases f w)]
  simp only [IllegalWord, ho]
  fin_cases hn <;> (simp; omega)

/-- A word with an opcode of format TS is illegal by R117(b), R117(c) or R117(d). -/
theorem illegalWord_iff_decodeTS (f : Tsel → Sym → Instr) (ho : (opcField w).toNat = n)
    (hn : n ∈ [0x08, 0x0A, 0x0B, 0x11]) : IllegalWord p w ↔ ∃ e, decodeTS p f w = .error e := by
  rw [opc_eq] at ho
  rw [rejected_iff (decodeTS_cases p f w)]
  simp only [IllegalWord, TselLegal, ho]
  fin_cases hn <;> (simp; omega)

/-- The words of R117 are those that do not decode: the rows of the opcode map by their format, SRST (which checks nothing), and
the opcodes in no row, which are the reserved ones of R117(a). -/
theorem illegalWord_iff (p : Params) (w : Word) : IllegalWord p w ↔ ∃ e, decode p w = .error e := by
  unfold decode
  split
  case h_1 ho | h_7 ho | h_9 ho | h_10 ho | h_12 ho | h_17 ho | h_18 ho | h_19 ho =>
    exact illegalWord_iff_decodeN _ ho (by decide)
  case h_4 ho | h_11 ho | h_13 ho => exact illegalWord_iff_decodeT _ ho (by decide)
  case h_14 ho | h_15 ho | h_16 ho => exact illegalWord_iff_decodeS _ ho (by decide)
  case h_3 ho | h_5 ho | h_6 ho | h_8 ho => exact illegalWord_iff_decodeTS _ ho (by decide)
  case h_2 ho =>
    rw [opc_eq] at ho
    simp only [IllegalWord, ho]
    simp
  case h_20 =>
    refine iff_of_true (.inl ?_) ⟨_, rfl⟩
    simp only [← opc_eq, List.mem_cons, List.not_mem_nil, or_false]
    simp only [imp_false] at *
    omega

end

/-! ### The opcode map -/

/-- The word of every command is selected by the row of its mnemonic (spec/30_encoding.md R115). -/
theorem rowSelects (i : Instr) : Laws.RowSelects.Statement i := by
  cases i with
  | nop => exact Laws.RowSelects.nop
  | srst ign => exact Laws.RowSelects.srst ign
  | fadd t x => exact Laws.RowSelects.fadd t x
  | frecomp t => exact Laws.RowSelects.frecomp t
  | fupd t x => exact Laws.RowSelects.fupd t x
  | flook t x => exact Laws.RowSelects.flook t x
  | cinit => exact Laws.RowSelects.cinit
  | enc t x => exact Laws.RowSelects.enc t x
  | fin => exact Laws.RowSelects.fin
  | dprime => exact Laws.RowSelects.dprime
  | dec t => exact Laws.RowSelects.dec t
  | minit => exact Laws.RowSelects.minit
  | pget t => exact Laws.RowSelects.pget t
  | pupd x => exact Laws.RowSelects.pupd x
  | hpush x => exact Laws.RowSelects.hpush x
  | csym x => exact Laws.RowSelects.csym x
  | dsym => exact Laws.RowSelects.dsym
  | compress => exact Laws.RowSelects.compress
  | decompress => exact Laws.RowSelects.decompress

/-- OPC of a masked word is the masked OPC. -/
theorem opcField_and (v w : Word) : opcField (v &&& w) = opcField v &&& opcField w := BitVec.extractLsb'_and

/-- Every mask of the opcode map keeps all of OPC (spec/30_encoding.md R115). -/
theorem opcField_mask : ∀ r ∈ opcodeMap, opcField r.mask = BitVec.allOnes 6 := by decide

/-- A row selects only words of its own opcode. -/
theorem opcField_of_selects {r : OpcodeRow} {w : Word} (hr : r ∈ opcodeMap) (h : r.selects w) :
    opcField w = opcField r.bits := by
  have hbits : w &&& r.mask = r.bits := h
  rw [← hbits, opcField_and, opcField_mask r hr, BitVec.and_allOnes]

/-- A row is known by its opcode. -/
theorem row_eq_of_opcField : ∀ r ∈ opcodeMap, ∀ r' ∈ opcodeMap, opcField r.bits = opcField r'.bits → r = r' := by decide

/-- A row is known by its mnemonic. -/
theorem row_eq_of_mnemonic : ∀ r ∈ opcodeMap, ∀ r' ∈ opcodeMap, r.mnemonic = r'.mnemonic → r = r' := by decide

/-- No word is selected by two rows. -/
theorem row_eq_of_selects {r r' : OpcodeRow} {w : Word} (hr : r ∈ opcodeMap) (hr' : r' ∈ opcodeMap) (h : r.selects w)
    (h' : r'.selects w) : r = r' :=
  row_eq_of_opcField r hr r' hr' ((opcField_of_selects hr h).symm.trans (opcField_of_selects hr' h'))

/-- The word of a command is selected by the row of its mnemonic and by no other. -/
theorem selects_encode_iff {r : OpcodeRow} (hr : r ∈ opcodeMap) (i : Instr) :
    r.selects (encode i) ↔ r.mnemonic = i.mnemonic := by
  obtain ⟨own, hown, hname, hsel⟩ := rowSelects i
  constructor
  · intro h
    rw [row_eq_of_selects hr hown h hsel, hname]
  · intro h
    rwa [row_eq_of_mnemonic r hr own hown (h.trans hname.symm)]

/-! ### The statements -/

/-- Settles O1: the field checks of each format accept the operands that `wellFormed` admits. -/
theorem decodeOfEncode : Obligations.DecodeOfEncode := fun _ _ h => decode_encode h

/-- Settles O2: the checks of each format leave a well-formed command and no bit of the word unread. -/
theorem encodeOfDecode : Obligations.EncodeOfDecode := fun _ _ _ h => decode_ok h

/-- Settles O3: the illegal words are those the decoder rejects, and the core step follows the decoder. -/
theorem illegalWordsRaise : Obligations.IllegalWordsRaise := by
  intro s w k hseq
  rw [illegalWord_iff]
  cases hd : decode s.params w with
  | error e => exact ⟨fun _ => coreStep_error hseq hd, fun hlegal => absurd ⟨e, rfl⟩ hlegal⟩
  | ok i =>
    refine ⟨fun hillegal => ?_, fun _ => ⟨i, rfl, coreStep_ok hseq hd⟩⟩
    obtain ⟨e, he⟩ := hillegal
    cases he

/-- Settles O4: a decoded word is the word of its command, which one row selects. -/
theorem opcodeMapSelects : Obligations.OpcodeMapSelects := by
  refine ⟨fun p w i hd r hr => ?_, fun p w hnone => ?_⟩
  · obtain ⟨rfl, -⟩ := decode_ok hd
    exact selects_encode_iff hr i
  · cases hd : decode p w with
    | error e => exact ⟨e, rfl⟩
    | ok i =>
      obtain ⟨rfl, -⟩ := decode_ok hd
      obtain ⟨r, hr, -, hsel⟩ := rowSelects i
      exact absurd hsel (hnone r hr)

/-- Settles O5: nine closed words, each the encoding of the command the spec spells (spec/30_encoding.md R119, R120). -/
theorem exampleWordsDecode : Obligations.ExampleWordsDecode := by
  unfold Obligations.ExampleWordsDecode
  decide

end Sys2Proof.Machine
end

section
/-! PROOFS. Family 41_frequency_table: what `add` and `recomputeRanges` do to one symbol's count, the guards that FADD, FRECOMP
and FUPD share, and what the four commands answer. -/

namespace Sys2Proof.Machine

/-! ### The count of a symbol -/

section
variable {x y : Sym} {T : Table} {es es' : List Entry}

/-- The count of the first entry of `y`, 0 where there is none: `Table.count` on the list of entries. -/
def cntOf (y : Sym) (es : List Entry) : Nat := ((es.find? fun e => decide (e.sym = y)).map fun e => e.cnt.toNat).getD 0

theorem Table.count_eq_cntOf (T : Table) (y : Sym) : T.count y = cntOf y T.alpha := rfl

@[simp] theorem cntOf_nil : cntOf y [] = 0 := rfl

@[simp] theorem cntOf_cons (e : Entry) : cntOf y (e :: es) = if e.sym = y then e.cnt.toNat else cntOf y es := by
  by_cases h : e.sym = y <;> simp [cntOf, h]

/-- Ranges have no part in the counts. -/
theorem cntOf_congr (hs : es'.map (fun e => e.sym) = es.map fun e => e.sym)
    (hc : es'.map (fun e => e.cnt) = es.map fun e => e.cnt) : cntOf y es' = cntOf y es := by
  induction es generalizing es' with
  | nil => rw [List.map_eq_nil_iff.1 hs]
  | cons e es ih =>
    obtain ⟨e', rest, rfl, hsym, hsyms⟩ := List.map_eq_cons_iff.1 hs
    obtain ⟨hcnt, hcnts⟩ := List.cons_eq_cons.1 hc
    simp only [cntOf_cons, hsym, hcnt, ih hsyms hcnts]

@[simp] theorem cntOf_layout (acc : Nat) (es : List Entry) : cntOf y (layout acc es) = cntOf y es :=
  cntOf_congr (syms_layout acc es) (cnts_layout acc es)

@[simp] theorem cntOf_freeLayout (n i : Nat) (es : List Entry) : cntOf y (freeLayout n i es) = cntOf y es :=
  cntOf_congr (syms_freeLayout n i es) (cnts_freeLayout n i es)

/-- `add` counts one more of its symbol and of no other (spec/41_frequency_table.md R142); no count can wrap while the sum fits. -/
theorem cntOf_bump (h : cntSum es + 1 ≤ wordMax) : cntOf y (bump x es) = cntOf y es + if y = x then 1 else 0 := by
  induction es with
  | nil => simp [bump, eq_comm]
  | cons e es ih =>
    rw [cntSum_cons] at h
    have hsucc : (e.cnt + 1).toNat = e.cnt.toNat + 1 := succ_toNat (by omega)
    by_cases hx : e.sym = x
    · rw [bump, if_pos hx, cntOf_cons, cntOf_cons, hsucc, hx]
      by_cases hy : x = y
      · simp [hy]
      · simp [hy, Ne.symm hy]
    · rw [bump, if_neg hx, cntOf_cons, cntOf_cons, ih (by omega)]
      by_cases hy : e.sym = y
      · simp [hy, hy ▸ hx]
      · simp [hy]

/-- The lazy `add` is an `add` (spec/41_frequency_table.md R142). -/
theorem Table.lazyAdd_addedTo (n : Nat) (x : Sym) (h : cntSum T.alpha + 1 ≤ wordMax) : AddedTo x T (T.lazyAdd n x) where
  alphabet := T.lazyAdd_syms n x
  counts _ := (cntOf_freeLayout n 1 _).trans (cntOf_bump h)
  ro := rfl

/-- `updateFreqs` is an `add` (spec/41_frequency_table.md R144). -/
theorem Table.eagerAdd_addedTo (x : Sym) (h : cntSum T.alpha + 1 ≤ wordMax) : AddedTo x T (T.eagerAdd x) where
  alphabet := T.eagerAdd_syms x
  counts _ := (cntOf_layout 0 _).trans (cntOf_bump h)
  ro := rfl

/-- `recomputeRanges` partitions `[0, total)`, while the count sum fits the total (spec/41_frequency_table.md R143). -/
theorem Table.recompute_fresh (h : cntSum T.alpha ≤ wordMax) : T.recompute.Fresh where
  notStale := rfl
  ranges := by
    have hpart := partitioned_layout 0 T.alpha (by omega)
    rwa [Nat.zero_add, ← ofNat_toNat h] at hpart

/-- `updateFreqs` ends with `recomputeRanges` (spec/41_frequency_table.md R144). -/
theorem Table.eagerAdd_fresh (x : Sym) (h : cntSum T.alpha + 1 ≤ wordMax) : (T.eagerAdd x).Fresh :=
  Table.recompute_fresh (T := { T with alpha := bump x T.alpha }) ((cntSum_bump x T.alpha h).trans_le h)

/-- After `updateFreqs` the symbol has an entry. -/
theorem Table.eagerAdd_has (T : Table) (x : Sym) : (T.eagerAdd x).Has x := by
  rw [Table.Has, Table.eagerAdd_syms]
  split
  · assumption
  · exact List.mem_append_right _ List.mem_cons_self

/-- The count the commands report is the count of the table. -/
theorem Table.countOf_eq (T : Table) (x : Sym) : T.countOf x = BitVec.ofNat 32 (T.count x) := by
  rw [Table.countOf, Table.count]
  cases T.entry? x <;> simp

end

/-! ### Selections -/

section
variable {s : State} {t : Tsel} {k : Context} {T : Table} {c : Bool} {m : Store}

/-- A second put under the same context replaces the first. -/
theorem Store.put_put (k : Context) (T T' : Table) (m : Store) : (m.put k T).put k T' = m.put k T' := by
  induction m with
  | nil => simp [Store.put]
  | cons q m ih =>
    simp only [Store.put]
    split
    · simp [Store.put]
    · next hk =>
      split
      · simp [Store.put]
      · next hlt => simp [Store.put, hk, hlt, ih]

/-- Updating a selected table, one just created or not, puts it under its context (spec/43_ppm_context_model.md R201). -/
theorem select_update_of_selects (h : Selects s t k T c) (w : Word) :
    ∃ sel, select w t s = .ok sel ∧ sel.tab = T ∧ sel.created = c ∧ ∀ T', sel.update T' = Store.put k T' s.ctx := by
  obtain ⟨m, hsel, -, ⟨-, rfl⟩ | ⟨-, rfl⟩⟩ := select_of_selects h w
  · exact ⟨_, hsel, rfl, rfl, fun _ => rfl⟩
  · exact ⟨_, hsel, rfl, rfl, fun T' => Store.put_put k T T' s.ctx⟩

/-- SELECT gives what the rule says it gives, M1 included. -/
theorem select_of_gives (h : Gives s t T c m) (w : Word) : ∃ key, select w t s = .ok ⟨T, key, m, c⟩ := by
  rcases h with ⟨rfl, rfl, rfl, rfl⟩ | ⟨k, hk, hm⟩
  · exact ⟨none, select_m1 w s⟩
  · obtain ⟨m', hsel, -, hm'⟩ := select_of_selects hk w
    have hctx : m' = m := by
      rcases hm with ⟨rfl, rfl⟩ | ⟨rfl, rfl⟩
      · simpa using hm'
      · simpa using hm'
    exact ⟨some k, hctx ▸ hsel⟩

/-- The word a fault of the commands reports, in numbers (spec/30_encoding.md R110). -/
theorem packWord_eq_cmdWord (o : BitVec 6) (t : Tsel) (x : Sym) : packWord o t x 0 = cmdWord o.toNat t.toNat x.toNat := by
  apply BitVec.eq_of_toNat_eq
  have ho := o.isLt
  have ht := t.isLt
  have hx := x.isLt
  have hrsv : (0 : BitVec 12).toNat = 0 := rfl
  rw [packWord_toNat, cmdWord, BitVec.toNat_ofNat]
  omega

/-- A body that raises ends a single-step command in fault entry (spec/60_exceptions.md R261, R262). -/
theorem Body.traps_single {α : Type} {b : Body α} {f : FaultCode} {w : Word} (h : b = .raise ⟨f, w⟩) :
    Traps (b.single s) f w s := ⟨faultEntry ⟨f, w⟩ s, by rw [h]; rfl, rfl⟩

end

/-! ### What FADD, FRECOMP and FUPD share -/

/-- The form of FADD, FRECOMP and FUPD (spec/41_frequency_table.md R142 to R144): SELECT, then the two guards, `full` the one of
COUNT_OVERFLOW, then the state `eff` of the selection. -/
def updateSelected (w : Word) (t : Tsel) (full : Table → Bool) (eff : Selection → State) (s : State) : Body Unit :=
  match select w t s with
  | .error r => .raise r
  | .ok sel =>
    if sel.tab.ro then .raise ⟨.readOnlyTable, w⟩
    else if full sel.tab then .raise ⟨.countOverflow, w⟩
    else .ok (eff sel) ()

section
variable {w : Word} {t : Tsel} {full : Table → Bool} {eff : Selection → State} {s : State} {f : FaultCode} {k : Context}
  {T : Table} {c : Bool}

theorem updateSelected_raises (h : SelectRaises s t f) : Traps ((updateSelected w t full eff s).single s) f w s :=
  Body.traps_single (by rw [updateSelected, select_of_raises h])

/-- M1 is read-only (spec/10_state.md R43). -/
theorem updateSelected_m1 (h : t = Tsel.m1) : Traps ((updateSelected w t full eff s).single s) .readOnlyTable w s :=
  Body.traps_single (by subst h; rw [updateSelected, select_m1]; rfl)

theorem updateSelected_readOnly (h : Selects s t k T c) (hro : T.ro = true) :
    Traps ((updateSelected w t full eff s).single s) .readOnlyTable w s := by
  obtain ⟨sel, hsel, rfl, -, -⟩ := select_update_of_selects h w
  exact Body.traps_single (by simp only [updateSelected, hsel, hro, if_true])

theorem updateSelected_full (h : Selects s t k T c) (hro : T.ro = false) (hfull : full T = true) :
    Traps ((updateSelected w t full eff s).single s) .countOverflow w s := by
  obtain ⟨sel, hsel, rfl, -, -⟩ := select_update_of_selects h w
  exact Body.traps_single (by simp [updateSelected, hsel, hro, hfull])

/-- Past SELECT and the guards the command completes with its effect on the selection. -/
theorem updateSelected_completes (h : Selects s t k T c) (hro : T.ro = false) (hfull : full T = false) :
    ∃ sel : Selection, (updateSelected w t full eff s).single s = .next (complete (eff sel)) ∧ sel.tab = T ∧
      sel.created = c ∧ ∀ T', sel.update T' = Store.put k T' s.ctx := by
  obtain ⟨sel, hsel, rfl, hc, hupd⟩ := select_update_of_selects h w
  have hbody : updateSelected w t full eff s = .ok (eff sel) () := by simp [updateSelected, hsel, hro, hfull]
  exact ⟨sel, by rw [hbody]; rfl, rfl, hc, hupd⟩

end

theorem Table.countFull_eq_true {T : Table} : T.countFull = true ↔ wordMax < cntSum T.alpha + 1 := by
  simp [Table.countFull]

/-! ### The commands -/

/-- FADD on a selected table (spec/41_frequency_table.md R142). -/
def faddEffect (x : Sym) (s : State) (sel : Selection) : State :=
  setResult { sym := x, created := sel.created } ⟨0, 0, 0, (sel.tab.lazyAdd s.draws x).countOf x⟩
    { s with ctx := sel.update (sel.tab.lazyAdd s.draws x), draws := s.draws + 1 }

/-- FADD in the shared form; its faults report its own word. -/
theorem exec_fadd (t : Tsel) (x : Sym) (s : State) : exec (.fadd t x) s =
    (updateSelected (cmdWord 0x08 t.toNat x.toNat) t Table.countFull (faddEffect x s) s).single s := by
  rw [← show encode (.fadd t x) = cmdWord 0x08 t.toNat x.toNat from packWord_eq_cmdWord 0x08 t x]
  rfl

/-- FRECOMP on a selected table (spec/41_frequency_table.md R143). -/
def frecompEffect (s : State) (sel : Selection) : State :=
  setResult { created := sel.created } ⟨0, 0, sel.tab.recompute.total, BitVec.ofNat 32 sel.tab.recompute.alpha.length⟩
    { s with ctx := sel.update sel.tab.recompute }

/-- FRECOMP in the shared form; it adds nothing, so COUNT_OVERFLOW cannot stop it. -/
theorem exec_frecomp (t : Tsel) (s : State) : exec (.frecomp t) s =
    (updateSelected (cmdWord 0x09 t.toNat 0) t (fun _ => false) (frecompEffect s) s).single s := by
  rw [← show encode (.frecomp t) = cmdWord 0x09 t.toNat 0 from packWord_eq_cmdWord 0x09 t 0]
  rfl

/-- FUPD on a selected table, `e` the symbol's new entry (spec/41_frequency_table.md R144). -/
def fupdEffect (x : Sym) (s : State) (sel : Selection) : State :=
  setResult { sym := x, created := sel.created }
    (match (sel.tab.eagerAdd x).entry? x with
      | none => ⟨0, 0, (sel.tab.eagerAdd x).total, 0⟩
      | some e => (sel.tab.eagerAdd x).values e)
    { s with ctx := sel.update (sel.tab.eagerAdd x) }

/-- FUPD in the shared form; its faults report its own word. -/
theorem exec_fupd (t : Tsel) (x : Sym) (s : State) : exec (.fupd t x) s =
    (updateSelected (cmdWord 0x0A t.toNat x.toNat) t Table.countFull (fupdEffect x s) s).single s := by
  rw [← show encode (.fupd t x) = cmdWord 0x0A t.toNat x.toNat from packWord_eq_cmdWord 0x0A t x]
  rfl

section
variable {s : State} {t : Tsel} {T : Table} {x : Sym}

/-- FLOOK raises what SELECT raises (spec/41_frequency_table.md R145). -/
theorem flookBody_raises {f : FaultCode} (h : SelectRaises s t f) :
    flookBody t x s = .raise ⟨f, cmdWord 0x0B t.toNat x.toNat⟩ := by
  rw [flookBody, select_of_raises h, encode, packWord_eq_cmdWord]
  rfl

/-- FLOOK on a selected table leaves CTX as SELECT does (spec/41_frequency_table.md R145). -/
theorem flookBody_gives {c : Bool} {m : Store} (h : Gives s t T c m) :
    flookBody t x s = .ok (setResult { sym := x, present := decide (x ∈ T.syms), created := c, stale := T.stale }
      (lookRegs T x) { s with ctx := m }) () := by
  obtain ⟨key, hsel⟩ := select_of_gives h (encode (.flook t x))
  have hpresent : (T.entry? x).isSome = decide (x ∈ T.syms) := Bool.eq_iff_iff.2 (by simp [Table.entry?_isSome, Table.Has])
  rw [flookBody, hsel]
  simp only [hpresent]

theorem lookRegs_stale (h : T.stale = true) : lookRegs T x = ⟨0, 0, 0, T.countOf x⟩ := by
  rw [lookRegs, h, Table.countOf]
  cases T.entry? x <;> rfl

theorem lookRegs_absent (h : T.stale = false) (he : T.entry? x = none) : lookRegs T x = ⟨0, 0, T.total, 0⟩ := by
  rw [lookRegs, h, he]

theorem lookRegs_present {e : Entry} (h : T.stale = false) (he : T.entry? x = some e) : lookRegs T x = T.values e := by
  rw [lookRegs, h, he]

/-- RES_COUNT is the count in every case (spec/41_frequency_table.md R145). -/
theorem lookRegs_count (T : Table) (x : Sym) : (lookRegs T x).count = BitVec.ofNat 32 (T.count x) := by
  rw [← Table.countOf_eq]
  cases hst : T.stale with
  | true => rw [lookRegs_stale hst]
  | false =>
    cases he : T.entry? x with
    | none => rw [lookRegs_absent hst he, Table.countOf, he]
    | some e => rw [lookRegs_present hst he, Table.countOf, he]; rfl

end

/-! ### The statements -/

/-- Settles O21: the new table is the lazy `add` of the selected one. -/
theorem faddAddsLazily : Obligations.FaddAddsLazily := by
  refine ⟨formatTS fun p w ho => by simp only [decode, ho], fun s t x => ?_⟩
  simp only [exec_fadd]
  refine ⟨fun f => updateSelected_raises, updateSelected_m1, fun k T c hsel => ⟨updateSelected_readOnly hsel,
    fun hro hfull => updateSelected_full hsel hro (Table.countFull_eq_true.2 hfull), fun hro hroom => ?_⟩⟩
  obtain ⟨sel, hnext, rfl, rfl, hupd⟩ := updateSelected_completes hsel hro (Table.countFull_eq_false.2 hroom)
  refine ⟨_, Table.lazyAdd_addedTo s.draws x hroom, rfl, hnext.trans ?_⟩
  rw [← hupd, ← Table.countOf_eq]
  rfl

/-- Settles O22: the new table is the selected one with its ranges laid out again. -/
theorem frecompRebuildsRanges : Obligations.FrecompRebuildsRanges := by
  refine ⟨formatT fun p w ho => by simp only [decode, ho], fun s t => ?_⟩
  simp only [exec_frecomp]
  refine ⟨fun f => updateSelected_raises, updateSelected_m1, fun k T c hsel => ⟨updateSelected_readOnly hsel,
    fun hro hsum => ?_⟩⟩
  obtain ⟨sel, hnext, rfl, rfl, hupd⟩ := updateSelected_completes (full := fun _ => false) hsel hro rfl
  refine ⟨sel.tab.recompute, Table.recompute_syms _, cnts_layout 0 _, rfl, Table.recompute_fresh hsum, hnext.trans ?_⟩
  rw [← hupd, Table.syms, List.length_map]
  rfl

/-- Settles O23: the new table is the eager `add` of the selected one, which has an entry of the symbol to report. -/
theorem fupdAddsAndRebuilds : Obligations.FupdAddsAndRebuilds := by
  refine ⟨formatTS fun p w ho => by simp only [decode, ho], fun s t x => ?_⟩
  simp only [exec_fupd]
  refine ⟨fun f => updateSelected_raises, updateSelected_m1, fun k T c hsel => ⟨updateSelected_readOnly hsel,
    fun hro hfull => updateSelected_full hsel hro (Table.countFull_eq_true.2 hfull), fun hro hroom => ?_⟩⟩
  obtain ⟨sel, hnext, rfl, rfl, hupd⟩ := updateSelected_completes hsel hro (Table.countFull_eq_false.2 hroom)
  obtain ⟨e, he⟩ := Table.entry?_of_has (sel.tab.eagerAdd_has x)
  refine ⟨_, e, Table.eagerAdd_addedTo x hroom, Table.eagerAdd_fresh x hroom, he, hnext.trans ?_⟩
  rw [← hupd, fupdEffect, he]
  rfl

/-- Settles O24: FLOOK reports `lookRegs` of the table SELECT gives, and CTX is as SELECT leaves it. -/
theorem flookReportsEntry : Obligations.FlookReportsEntry := by
  refine ⟨formatTS fun p w ho => by simp only [decode, ho], fun s t x => ⟨fun f hf => Body.traps_single (flookBody_raises hf),
    fun T c m hgives => ⟨lookRegs T x, ?_, lookRegs_count T x, fun hst => ?_, fun hst => ⟨?_, fun hx => ?_, fun e he => ?_⟩⟩⟩⟩
  · show (flookBody t x s).single s = _
    rw [flookBody_gives hgives]
    rfl
  · rw [lookRegs_stale hst]
    exact ⟨rfl, rfl, rfl⟩
  · cases he : T.entry? x with
    | none => rw [lookRegs_absent hst he]
    | some e => rw [lookRegs_present hst he]; rfl
  · rw [lookRegs_absent hst (Table.entry?_of_not_has hx)]
    exact ⟨rfl, rfl⟩
  · rw [lookRegs_present hst he]
    exact ⟨rfl, rfl⟩

end Sys2Proof.Machine
end

section
/-! PROOFS. Family 42_arithmetic_coder, the single commands: how renormalization ends, in the passes of the statements, and what
CINIT, ENC, FIN, DPRIME and DEC answer. -/

namespace Sys2Proof.Machine

/-! ### The passes of a renormalization -/

/-- What a case says of the interval, the cases before it excluded (spec/42_arithmetic_coder.md R162). -/
def RenormCase.Holds (P low high : Nat) : RenormCase → Prop
  | .e1 => high < half P
  | .e2 => ¬ high < half P ∧ half P ≤ low
  | .e3 => ¬ high < half P ∧ ¬ half P ≤ low ∧ quarter P ≤ low ∧ high < threeq P

section
variable {P n low high : Nat} {c : RenormCase}

theorem renormCase_holds (h : renormCase P low high = some c) : c.Holds P low high := by
  unfold renormCase at h
  split at h
  · next h1 => cases h; exact h1
  · next h1 =>
    split at h
    · next h2 => cases h; exact ⟨h1, h2⟩
    · next h2 =>
      split at h
      · next h3 => cases h; exact ⟨h1, h2, h3⟩
      · cases h

/-- Where no case holds, the loop exits (spec/42_arithmetic_coder.md R162). -/
theorem settled_of_renormCase (h : renormCase P low high = none) : Settled P low high := by
  obtain ⟨h1, h2, h3⟩ := renormCase_none h
  exact ⟨Nat.not_lt.2 h2, Nat.not_le.2 h1, h3⟩

/-- One pass of RENORM_ENC, its case and its check of PENDING met, before others (spec/42_arithmetic_coder.md R162). -/
theorem EncPasses.pass {r r' : EncRegs} (hc : renormCase P r.low r.high = some c) (hp : ¬ (c = .e3 ∧ r.pending = wordMax))
    (h : EncPasses P (encPass P c r) r') : EncPasses P r r' := by
  have hh := renormCase_holds hc
  cases c with
  | e1 => exact .e1 r r' hh h
  | e2 => exact .e2 r r' hh.1 hh.2 h
  | e3 =>
    obtain ⟨h1, h2, h3, h4⟩ := hh
    exact .e3 r r' h1 h2 h3 h4 (fun e => hp ⟨rfl, e⟩) h

/-- What at most `n` passes of RENORM_ENC make of the registers: each pass adds 1 to PENDING and the bits out together
(spec/42_arithmetic_coder.md R162, R165). -/
structure EncReach (P n : Nat) (r r' : EncRegs) : Prop where
  passes : EncPasses P r r'
  pending : r'.pending ≤ r.pending + n
  bits : r'.out.length + r'.pending ≤ r.out.length + r.pending + n

theorem EncReach.refl (P n : Nat) (r : EncRegs) : EncReach P n r r := ⟨.refl r, Nat.le_add_right _ _, Nat.le_add_right _ _⟩

theorem EncReach.pass {r r' : EncRegs} (hc : renormCase P r.low r.high = some c) (hp : ¬ (c = .e3 ∧ r.pending = wordMax))
    (h : EncReach P n (encPass P c r) r') : EncReach P (n + 1) r r' := by
  have hpend : (encPass P c r).pending ≤ r.pending + 1 := by cases c <;> simp [encPass]
  have hbits : (encPass P c r).out.length + (encPass P c r).pending = r.out.length + r.pending + 1 := by
    cases c <;> simp [encPass] <;> omega
  have h1 := h.pending
  have h2 := h.bits
  exact ⟨.pass hc hp h.passes, by omega, by omega⟩

theorem renormEnc_reach {n : Nat} {r r' : EncRegs} (h : renormEnc P n r = .settled r' ∨ renormEnc P n r = .overflow r') :
    EncReach P n r r' := by
  cases hc : renormCase P r.low r.high with
  | none =>
    rw [renormEnc_none hc] at h
    rcases h with h | h <;> cases h
    exact .refl P n r
  | some c =>
    by_cases hp : c = .e3 ∧ r.pending = wordMax
    · rw [renormEnc_overflow (hp.1 ▸ hc) hp.2] at h
      rcases h with h | h <;> cases h
      exact .refl P n r
    · cases n with
      | zero => simp [renormEnc, hc, hp] at h
      | succ n =>
        rw [renormEnc_pass hc hp] at h
        exact (renormEnc_reach h).pass hc hp

/-- The two ends of RENORM_ENC (spec/42_arithmetic_coder.md R162, R165). -/
theorem renormEnc_ends (hP : 2 ≤ P) {r : EncRegs} (h : r.Ok P) :
    (∃ r', renormEnc P P r = .settled r' ∧ EncReach P P r r' ∧ r'.Ok P ∧ Settled P r'.low r'.high) ∨
      (∃ r', renormEnc P P r = .overflow r' ∧ EncReach P P r r' ∧ PendingFull P r') := by
  rcases renormEnc_total hP r h with ⟨r', hr, hok, hc⟩ | ⟨r', hr, -, hp, hc⟩
  · exact .inl ⟨r', hr, renormEnc_reach (.inl hr), hok, settled_of_renormCase hc⟩
  · obtain ⟨h1, h2, h3, h4⟩ := renormCase_holds hc
    exact .inr ⟨r', hr, renormEnc_reach (.inr hr), h1, h2, h3, h4, hp⟩

theorem nextBit_eq (bs : List Bool) : nextBit bs = (bs.headD false, bs.tail) := by cases bs <;> rfl

/-- One pass of RENORM_DEC before others (spec/42_arithmetic_coder.md R166). -/
theorem DecPasses.pass {r r' : DecRegs} (hc : renormCase P r.low r.high = some c) (h : DecPasses P (decPass P c r) r') :
    DecPasses P r r' := by
  have hh := renormCase_holds hc
  rw [decPass, nextBit_eq] at h
  cases c with
  | e1 => exact .e1 r r' hh h
  | e2 => exact .e2 r r' hh.1 hh.2 h
  | e3 =>
    obtain ⟨h1, h2, h3, h4⟩ := hh
    exact .e3 r r' h1 h2 h3 h4 h

theorem renormDec_passes {r r' : DecRegs} (h : renormDec P n r = some r') : DecPasses P r r' := by
  induction n generalizing r with
  | zero =>
    unfold renormDec at h
    split at h
    · cases h; exact .refl _
    · cases h
  | succ n ih =>
    cases hc : renormCase P r.low r.high with
    | none => rw [renormDec_none hc] at h; cases h; exact .refl _
    | some c => rw [renormDec_pass hc] at h; exact .pass hc (ih h)

end

/-! ### SELECT and NARROW -/

section
variable {s : State} {t : Tsel} {T : Table} {c : Bool} {m : Store} {e : Entry}

/-- A sound state gives a sound table and leaves a sound store. -/
theorem gives_sound (h : s.Sound) (hg : Gives s t T c m) : T.Ok ∧ StoreOk s.params m := by
  obtain ⟨key, hsel⟩ := select_of_gives hg 0
  obtain ⟨hT, hm, -⟩ := select_sound h hsel
  exact ⟨hT, hm⟩

/-- NARROW by the bounds of the statements, in an interval that is not empty (spec/42_arithmetic_coder.md R161). -/
theorem narrow_eq {low high : Nat} (h : low ≤ high) (rlo rhi total : Nat) : narrow low high rlo rhi total =
    if narrowEnd low high rhi total ≤ narrowLow low high rlo total then none
    else some (narrowLow low high rlo total, narrowEnd low high rhi total - 1) := by
  have hw : high - low + 1 = high + 1 - low := by omega
  simp only [narrow, narrowLow, narrowEnd, hw]

/-- The narrowed lower bound for the range of `e`. -/
abbrev lowFor (s : State) (T : Table) (e : Entry) : Nat := narrowLow s.low.toNat s.high.toNat e.rlo.toNat T.total.toNat

/-- One more than the narrowed upper bound for the range of `e`. -/
abbrev endFor (s : State) (T : Table) (e : Entry) : Nat := narrowEnd s.low.toNat s.high.toNat e.rhi.toNat T.total.toNat

/-- The encoder's registers when RENORM_ENC begins (spec/42_arithmetic_coder.md R171). -/
abbrev encStart (s : State) (T : Table) (e : Entry) : EncRegs := ⟨lowFor s T e, endFor s T e - 1, s.pending.toNat, []⟩

/-- The decoder's registers when RENORM_DEC begins (spec/42_arithmetic_coder.md R174). -/
abbrev decStart (s : State) (T : Table) (e : Entry) : DecRegs := ⟨lowFor s T e, endFor s T e - 1, s.code.toNat, s.inBitQ⟩

theorem narrow_of_lt (h : s.Sound) (hlt : lowFor s T e < endFor s T e) :
    narrow s.low.toNat s.high.toNat e.rlo.toNat e.rhi.toNat T.total.toNat = some (lowFor s T e, endFor s T e - 1) := by
  rw [narrow_eq h.interval.1, if_neg (Nat.not_le.2 hlt)]

theorem narrow_of_le (h : s.Sound) (hle : endFor s T e ≤ lowFor s T e) :
    narrow s.low.toNat s.high.toNat e.rlo.toNat e.rhi.toNat T.total.toNat = none := by
  rw [narrow_eq h.interval.1, if_pos hle]

/-- The narrowed interval lies within `[0, TOP]` (spec/42_arithmetic_coder.md R161, R177). -/
theorem lowFor_le (h : s.Sound) (hT : T.Ok) (hst : T.stale = false) (he : e ∈ T.alpha) (hlt : lowFor s T e < endFor s T e) :
    lowFor s T e ≤ endFor s T e - 1 ∧ endFor s T e - 1 ≤ top s.pAct.toNat := by
  obtain ⟨-, -, hb⟩ := (hT.ranges hst).bounds he
  obtain ⟨-, h1, h2⟩ := narrow_within h.interval.1 hb (narrow_of_lt h hlt)
  exact ⟨h1, Nat.le_trans h2 h.interval.2⟩

theorem encStart_ok (h : s.Sound) (hT : T.Ok) (hst : T.stale = false) (he : e ∈ T.alpha) (hlt : lowFor s T e < endFor s T e) :
    (encStart s T e).Ok s.pAct.toNat := by
  obtain ⟨h1, h2⟩ := lowFor_le h hT hst he hlt
  exact ⟨h1, h2, Nat.le_of_lt_succ s.pending.isLt⟩

/-- A total that fits the width leaves no range empty (spec/42_arithmetic_coder.md R167). -/
theorem lowFor_lt_endFor (h : s.Sound) (hT : T.Ok) (hst : T.stale = false) (he : e ∈ T.alpha) (hz : 1 ≤ T.total.toNat)
    (hw : T.total.toNat ≤ s.high.toNat - s.low.toNat + 1) : lowFor s T e < endFor s T e := by
  have hi := h.interval.1
  have hr : e.rlo.toNat < e.rhi.toNat := by
    have := ((hT.ranges hst).bounds he).2.1
    have := hT.cntPos e he
    omega
  obtain ⟨q, hq⟩ := narrow_isSome (low := s.low.toNat) (high := s.high.toNat) hr hz (by omega)
  by_contra hle
  rw [narrow_of_le h (Nat.not_lt.1 hle)] at hq
  cases hq

end

/-! ### ENC -/

/-- A body that raises ends its step in fault entry, whatever the step does next (spec/60_exceptions.md R261, R262). -/
theorem Body.traps_finish {α : Type} {s : State} {cont : State → α → State} {b : Body α} {f : FaultCode} {w : Word}
    (h : b = .raise ⟨f, w⟩) : Traps (b.finish s cont) f w s := ⟨faultEntry ⟨f, w⟩ s, by rw [h]; rfl, rfl⟩

section
variable {s : State} {t : Tsel} {x : Sym} {T : Table} {c : Bool} {m : Store} {e : Entry} {r : EncRegs}

/-- ENC raises what SELECT raises (spec/42_arithmetic_coder.md R171). -/
theorem encBody_raises {f : FaultCode} (h : SelectRaises s t f) :
    encBody t x s = .raise ⟨f, cmdWord 0x11 t.toNat x.toNat⟩ := by
  rw [encBody, select_of_raises h, encode, packWord_eq_cmdWord]
  rfl

/-- Past SELECT, ENC works on the table it gives; its faults report its own word. -/
theorem encBody_gives (h : Gives s t T c m) :
    ∃ key, encBody t x s = encWith (cmdWord 0x11 t.toNat x.toNat) ⟨T, key, m, c⟩ x s := by
  obtain ⟨key, hsel⟩ := select_of_gives h (encode (.enc t x))
  refine ⟨key, ?_⟩
  rw [encBody, hsel, encode, packWord_eq_cmdWord]
  rfl

theorem encBody_stale (h : Gives s t T c m) (hst : T.stale = true) :
    encBody t x s = .raise ⟨.staleTable, cmdWord 0x11 t.toNat x.toNat⟩ := by
  obtain ⟨key, hb⟩ := encBody_gives (x := x) h
  simp [hb, encWith, hst]

theorem encBody_zeroTotal (h : Gives s t T c m) (hst : T.stale = false) (hz : T.total = 0) :
    encBody t x s = .raise ⟨.zeroTotal, cmdWord 0x11 t.toNat x.toNat⟩ := by
  obtain ⟨key, hb⟩ := encBody_gives (x := x) h
  simp [hb, encWith, hst, hz]

theorem encBody_absent (h : Gives s t T c m) (hst : T.stale = false) (hz : T.total ≠ 0) (hx : x ∉ T.syms) :
    encBody t x s = .raise ⟨.symbolAbsent, cmdWord 0x11 t.toNat x.toNat⟩ := by
  obtain ⟨key, hb⟩ := encBody_gives (x := x) h
  simp only [hb, encWith, hst, hz, Bool.false_eq_true, if_false, Table.entry?_of_not_has hx]

/-- A sound table that is not stale and has an entry has a total. -/
theorem total_ne_zero (hT : T.Ok) (hst : T.stale = false) (he : e ∈ T.alpha) : T.total ≠ 0 := by
  have := hT.total_pos hst (x := e.sym) (List.mem_map_of_mem he)
  rintro hz
  simp [hz] at this

theorem encBody_collapse (h : s.Sound) (hg : Gives s t T c m) (hst : T.stale = false) (he : T.entry? x = some e)
    (hle : endFor s T e ≤ lowFor s T e) : encBody t x s = .raise ⟨.intervalCollapse, cmdWord 0x11 t.toNat x.toNat⟩ := by
  obtain ⟨key, hb⟩ := encBody_gives (x := x) hg
  have hz := total_ne_zero (gives_sound h hg).1 hst (Table.entry?_some he).1
  simp only [hb, encWith, hst, hz, Bool.false_eq_true, if_false, he, narrow_of_le h hle]

/-- RENORM_ENC through: ENC has its registers, its bits and the table in CTX (spec/42_arithmetic_coder.md R171). -/
theorem encBody_settled (h : s.Sound) (hg : Gives s t T c m) (hst : T.stale = false) (he : T.entry? x = some e)
    (hlt : lowFor s T e < endFor s T e) (hr : renormEnc s.pAct.toNat s.pAct.toNat (encStart s T e) = .settled r) :
    encBody t x s = .ok (storeEnc r { s with ctx := m }) ⟨x, T.values e, c⟩ := by
  obtain ⟨key, hb⟩ := encBody_gives (x := x) hg
  have hz := total_ne_zero (gives_sound h hg).1 hst (Table.entry?_some he).1
  simp only [hb, encWith, hst, hz, Bool.false_eq_true, if_false, he, narrow_of_lt h hlt, hr]

/-- PENDING_OVERFLOW keeps the registers and the bits, and no table (spec/60_exceptions.md R266; log 9). -/
theorem encBody_overflow (h : s.Sound) (hg : Gives s t T c m) (hst : T.stale = false) (he : T.entry? x = some e)
    (hlt : lowFor s T e < endFor s T e) (hr : renormEnc s.pAct.toNat s.pAct.toNat (encStart s T e) = .overflow r) :
    encBody t x s = .raiseKeeping ⟨.pendingOverflow, cmdWord 0x11 t.toNat x.toNat⟩ (storeEnc r s) := by
  obtain ⟨key, hb⟩ := encBody_gives (x := x) hg
  have hz := total_ne_zero (gives_sound h hg).1 hst (Table.entry?_some he).1
  simp only [hb, encWith, hst, hz, Bool.false_eq_true, if_false, he, narrow_of_lt h hlt, hr]

theorem exec_enc_of_ok {u : State} {a : Coded} (h : encBody t x s = .ok u a) :
    exec (.enc t x) s = .next (codedResult u a) := by
  show (encBody t x s).finish s codedResult = _
  rw [h]
  rfl

theorem exec_enc_of_raiseKeeping {f : Raise} {u : State} (h : encBody t x s = .raiseKeeping f u) :
    exec (.enc t x) s = .next (faultEntry f u) := by
  show (encBody t x s).finish s codedResult = _
  rw [h]
  rfl

end

/-! ### DEC -/

section
variable {s : State} {t : Tsel} {T : Table} {c : Bool} {m : Store} {e : Entry} {r : DecRegs}

/-- DEC raises what SELECT raises (spec/42_arithmetic_coder.md R174). -/
theorem decBody_raises {f : FaultCode} (h : SelectRaises s t f) : decBody t s = .raise ⟨f, cmdWord 0x14 t.toNat 0⟩ := by
  rw [decBody, select_of_raises h, encode, packWord_eq_cmdWord]
  rfl

/-- Past SELECT, DEC works on the table it gives; its faults report its own word. -/
theorem decBody_gives (h : Gives s t T c m) :
    ∃ key, decBody t s = decWith (cmdWord 0x14 t.toNat 0) ⟨T, key, m, c⟩ s := by
  obtain ⟨key, hsel⟩ := select_of_gives h (encode (.dec t))
  refine ⟨key, ?_⟩
  rw [decBody, hsel, encode, packWord_eq_cmdWord]
  rfl

theorem decBody_stale (h : Gives s t T c m) (hst : T.stale = true) :
    decBody t s = .raise ⟨.staleTable, cmdWord 0x14 t.toNat 0⟩ := by
  obtain ⟨key, hb⟩ := decBody_gives h
  simp [hb, decWith, hst]

theorem decBody_zeroTotal (h : Gives s t T c m) (hst : T.stale = false) (hz : T.total = 0) :
    decBody t s = .raise ⟨.zeroTotal, cmdWord 0x14 t.toNat 0⟩ := by
  obtain ⟨key, hb⟩ := decBody_gives h
  simp [hb, decWith, hst, hz]

/-- DEC's value by the formula of the statement (spec/42_arithmetic_coder.md R174). -/
abbrev valueFor (s : State) (T : Table) : Nat :=
  ((s.code.toNat - s.low.toNat + 1) * T.total.toNat - 1) / (s.high.toNat - s.low.toNat + 1)

theorem total_pos_of_ne (hz : T.total ≠ 0) : 1 ≤ T.total.toNat := Nat.pos_of_ne_zero ((field_ne _).1 hz)

/-- CODE outside the interval matches no range (spec/42_arithmetic_coder.md R174). -/
theorem decBody_corrupt (h : s.Sound) (hg : Gives s t T c m) (hst : T.stale = false) (hz : T.total ≠ 0)
    (hout : s.code.toNat < s.low.toNat ∨ s.high.toNat < s.code.toNat) :
    decBody t s = .raise ⟨.streamCorrupt, cmdWord 0x14 t.toNat 0⟩ := by
  obtain ⟨key, hb⟩ := decBody_gives hg
  have hi := h.interval.1
  have hnone : T.symbolAt (decValue s.low.toNat s.high.toNat s.code.toNat T.total.toNat) = none := by
    rw [Option.eq_none_iff_forall_ne_some]
    intro e he
    have := decode_narrow (gives_sound h hg).1 hst (total_pos_of_ne hz) hi he
    omega
  simp only [hb, decWith, hst, hz, Bool.false_eq_true, if_false, Nat.not_lt.2 hi, hnone]

/-- CODE inside the interval: the value is the natural number of the statement. -/
theorem decValue_eq (h : s.Sound) (hz : T.total ≠ 0) (h1 : s.low.toNat ≤ s.code.toNat) (h2 : s.code.toNat ≤ s.high.toNat) :
    decValue s.low.toNat s.high.toNat s.code.toNat T.total.toNat = (valueFor s T : Nat) := by
  have hw : s.high.toNat + 1 - s.low.toNat = s.high.toNat - s.low.toNat + 1 := by have := h.interval.1; omega
  rw [decValue_inside h1 h2 (total_pos_of_ne hz), hw]

/-- The ranges partition `[0, total)`, so the symbol found is the one whose range holds the value. -/
theorem symbolAt_of_value (hT : T.Ok) (hst : T.stale = false) {v : Nat} (he : e ∈ T.alpha) (h1 : e.rlo.toNat ≤ v)
    (h2 : v < e.rhi.toNat) : T.symbolAt (v : Int) = some e := by
  cases hs : T.symbolAt (v : Int) with
  | none =>
    have := List.find?_eq_none.1 hs e he
    simp at this
    omega
  | some e' =>
    obtain ⟨he', h1', h2'⟩ := Table.symbolAt_some hs
    rw [(hT.ranges hst).unique he he' h1 h2 (by omega) (by omega)]

/-- The range holds the value exactly where CODE lies in the interval NARROW gives for it (spec/42_arithmetic_coder.md R175). -/
theorem value_in_range (h : s.Sound) (hz : T.total ≠ 0) (h1 : s.low.toNat ≤ s.code.toNat) (h2 : s.code.toNat ≤ s.high.toNat) :
    (e.rlo.toNat ≤ valueFor s T ∧ valueFor s T < e.rhi.toNat) ↔
      (lowFor s T e ≤ s.code.toNat ∧ s.code.toNat + 1 ≤ endFor s T e) := by
  have hw : s.high.toNat - s.low.toNat + 1 = s.high.toNat + 1 - s.low.toNat := by have := h.interval.1; omega
  simp only [valueFor, lowFor, endFor, narrowLow, narrowEnd, hw]
  exact value_in_range_iff h1 h2 (total_pos_of_ne hz)

/-- DEC on the symbol whose narrowed interval holds CODE (spec/42_arithmetic_coder.md R174, R175). -/
theorem decBody_decodes (h : s.Sound) (hg : Gives s t T c m) (hst : T.stale = false) (he : e ∈ T.alpha)
    (hcode : lowFor s T e ≤ s.code.toNat ∧ s.code.toNat + 1 ≤ endFor s T e) :
    ∃ r, renormDec s.pAct.toNat s.pAct.toNat (decStart s T e) = some r ∧ Settled s.pAct.toNat r.low r.high ∧
      decBody t s = .ok (storeDec r { s with ctx := m }) ⟨e.sym, T.values e, c⟩ := by
  obtain ⟨key, hb⟩ := decBody_gives hg
  obtain ⟨hT, -⟩ := gives_sound h hg
  have hz := total_ne_zero hT hst he
  have hi := h.interval.1
  have hlt : lowFor s T e < endFor s T e := by omega
  obtain ⟨-, -, hb3⟩ := (hT.ranges hst).bounds he
  obtain ⟨hw1, -, hw3⟩ := narrow_within hi hb3 (narrow_of_lt h hlt)
  have h1 : s.low.toNat ≤ s.code.toNat := by omega
  have h2 : s.code.toNat ≤ s.high.toNat := by omega
  obtain ⟨hv1, hv2⟩ := (value_in_range h hz h1 h2).2 hcode
  have hat : T.symbolAt (decValue s.low.toNat s.high.toNat s.code.toNat T.total.toNat) = some e := by
    rw [decValue_eq h hz h1 h2]
    exact symbolAt_of_value hT hst he hv1 hv2
  have hok : (decStart s T e).Ok s.pAct.toNat :=
    ⟨hcode.1, Nat.le_sub_one_of_lt hcode.2, (lowFor_le h hT hst he hlt).2⟩
  obtain ⟨r, hr, -, hc, -⟩ := renormDec_total h.prec.1 _ hok
  refine ⟨r, hr, settled_of_renormCase hc, ?_⟩
  simp only [hb, decWith, hst, hz, Bool.false_eq_true, if_false, Nat.not_lt.2 hi, hat, narrow_of_lt h hlt, hr]

theorem exec_dec_of_ok {u : State} {a : Coded} (h : decBody t s = .ok u a) : exec (.dec t) s = .next (codedResult u a) := by
  show (decBody t s).finish s codedResult = _
  rw [h]
  rfl

end

/-! ### The statements -/

/-- Settles O25: past the check of PREC, CINIT only writes the coder's registers. -/
theorem cinitStartsSession : Obligations.CinitStartsSession := by
  refine ⟨formatN fun p w ho => by simp only [decode, ho], fun s => ⟨fun hp => ?_, fun h1 h2 => ?_⟩⟩
  · exact Body.traps_single (b := cinitBody s) (by rw [cinitBody, if_pos hp]; rfl)
  · show (cinitBody s).single s = _
    rw [cinitBody, if_neg (by omega)]
    rfl

/-- Settles O26: each clause is one equation of ENC's body, and RENORM_ENC has the two ends. -/
theorem encCodesSymbol : Obligations.EncCodesSymbol := by
  refine ⟨formatTS fun p w ho => by simp only [decode, ho], fun s t x => ⟨fun f hf => Body.traps_finish (encBody_raises hf),
    fun T c m hg => ⟨fun hst => Body.traps_finish (encBody_stale hg hst),
    fun hst hz => Body.traps_finish (encBody_zeroTotal hg hst hz),
    fun hst hz hx => Body.traps_finish (encBody_absent hg hst hz hx),
    fun e h hst he => ⟨fun hle => Body.traps_finish (encBody_collapse h hg hst he hle), fun hlt => ?_⟩⟩⟩⟩
  have hstart := encStart_ok h (gives_sound h hg).1 hst (Table.entry?_some he).1 hlt
  rcases renormEnc_ends h.prec.1 hstart with ⟨r, hr, hreach, -, hs⟩ | ⟨r, hr, hreach, hfull⟩
  · exact ⟨r, hreach.passes, .inl ⟨hs, exec_enc_of_ok (encBody_settled h hg hst he hlt hr)⟩⟩
  · refine ⟨r, hreach.passes, .inr ⟨hfull, (exec_enc_of_raiseKeeping (encBody_overflow h hg hst he hlt hr)).trans ?_⟩⟩
    obtain ⟨-, -, -, -, hp⟩ := hfull
    simp only [storeEnc, emitBits, hp]
    rfl

/-- Settles O27: the narrowed interval is not empty, and PENDING, which each of the at most P_ACT passes raises by at most 1,
cannot reach its largest value. -/
theorem encCompletes : Obligations.EncCompletes := by
  intro s t x T c m h hg hst hx hw hpend
  obtain ⟨hT, -⟩ := gives_sound h hg
  obtain ⟨e, he⟩ := Table.entry?_of_has hx
  have hmem := (Table.entry?_some he).1
  have hlt := lowFor_lt_endFor h hT hst hmem (hT.total_pos hst hx) hw
  rcases renormEnc_ends h.prec.1 (encStart_ok h hT hst hmem hlt) with ⟨r, hr, hreach, hok, hs⟩ | ⟨r, hr, hreach, hfull⟩
  · obtain ⟨hlh, htop, hp⟩ := hok
    have hmax := top_lt h.prec.2
    have hpend' : r.pending ≤ s.pending.toNat + s.pAct.toNat := hreach.pending
    have hbits : r.out.length + r.pending ≤ 0 + s.pending.toNat + s.pAct.toNat := hreach.bits
    refine ⟨_, exec_enc_of_ok (encBody_settled h hg hst he hlt hr), ⟨⟨rfl, rfl, rfl⟩, rfl, rfl⟩, rfl, rfl, rfl, ?_, ?_,
      ⟨r.out, rfl⟩, ?_⟩
    · show (BitVec.ofNat 32 r.pending).toNat ≤ _
      rwa [ofNat_toNat hp]
    · show Settled _ (BitVec.ofNat 32 r.low).toNat (BitVec.ofNat 32 r.high).toNat
      rwa [ofNat_toNat (by omega), ofNat_toNat (by omega)]
    · show (s.outBitQ ++ r.out).length ≤ _
      rw [List.length_append]
      omega
  · obtain ⟨-, -, -, -, hp⟩ := hfull
    have : r.pending ≤ s.pending.toNat + s.pAct.toNat := hreach.pending
    omega

/-- Settles O28: the bits FIN emits are one and `PENDING + 1` complementary ones. -/
theorem finFlushes : Obligations.FinFlushes := by
  refine ⟨formatN fun p w ho => by simp only [decode, ho], fun s => ⟨fun hp => ?_, fun hp => ?_⟩⟩
  · have hp : s.pending.toNat = wordMax := by rw [hp]; rfl
    exact Body.traps_single (b := finBody s) (by rw [finBody, if_pos hp]; rfl)
  · have hp : ¬ s.pending.toNat = wordMax := fun e => hp (BitVec.eq_of_toNat_eq e)
    show (finBody s).single s = _
    rw [finBody, if_neg hp]
    simp only [emitBits, List.length_cons, List.length_replicate]
    rfl

/-- Settles O29: `P_ACT` times `nextbit()` takes the first `P_ACT` bits of IN_BITQ with zeros after its end. -/
theorem dprimeLoadsCode : Obligations.DprimeLoadsCode := by
  refine ⟨formatN fun p w ho => by simp only [decode, ho], fun s => ?_⟩
  have htaken : s.inBitQ.length - (s.inBitQ.drop s.pAct.toNat).length = min s.pAct.toNat s.inBitQ.length := by
    rw [List.length_drop]
    omega
  show (dprimeBody s).single s = _
  simp only [dprimeBody, takeBits_eq, consumeTo, htaken]
  rfl

/-- Settles O30: CODE inside the interval gives a value below the total, which the range of one symbol holds. -/
theorem decDecodesSymbol : Obligations.DecDecodesSymbol := by
  refine ⟨formatT fun p w ho => by simp only [decode, ho], fun s t => ⟨fun f hf => Body.traps_finish (decBody_raises hf),
    fun T c m hg => ⟨fun hst => Body.traps_finish (decBody_stale hg hst),
    fun hst hz => Body.traps_finish (decBody_zeroTotal hg hst hz),
    fun h hst hz => ⟨fun hout => Body.traps_finish (decBody_corrupt h hg hst hz hout), fun h1 h2 => ?_⟩⟩⟩⟩
  have hlt : valueFor s T < T.total.toNat := by
    have hw : s.high.toNat - s.low.toNat + 1 = s.high.toNat + 1 - s.low.toNat := by omega
    rw [valueFor, hw]
    exact value_lt_total h1 h2 (total_pos_of_ne hz)
  obtain ⟨e, he, hv1, hv2⟩ := ((gives_sound h hg).1.ranges hst).cover (Nat.zero_le _) hlt
  obtain ⟨r, hr, hs, hb⟩ := decBody_decodes h hg hst he ((value_in_range h hz h1 h2).1 ⟨hv1, hv2⟩)
  exact ⟨e, r, he, hv1, hv2, renormDec_passes hr, hs, exec_dec_of_ok hb⟩

end Sys2Proof.Machine
end

section
/-! PROOFS. Family 42_arithmetic_coder, the lockstep law R176: the bits an encoder still emits are a future of its registers, and a
decoder that holds that future as CODE and IN_BITQ decodes the symbol and holds the rest of it. -/

namespace Sys2Proof.Machine

section
variable {s v d : State} {t : Tsel} {x : Sym}

/-! ### SELECT on both sides -/

/-- What SELECT gives, in the words of the statements. -/
theorem gives_of_select {w : Word} {sel : Selection} (h : select w t s = .ok sel) : Gives s t sel.tab sel.created sel.ctx := by
  rcases select_ok h with ⟨rfl, rfl⟩ | ⟨hm, hl, ⟨T, hget, rfl⟩ | ⟨hget, hc, rfl⟩⟩
  · exact .inl ⟨rfl, rfl, rfl, rfl⟩
  · exact .inr ⟨_, ⟨hm, suffixOf_iff.2 ⟨hl, rfl⟩, .inl ⟨rfl, hget⟩⟩, .inl ⟨rfl, rfl⟩⟩
  · exact .inr ⟨_, ⟨hm, suffixOf_iff.2 ⟨hl, rfl⟩, .inr ⟨rfl, hget, hc, rfl⟩⟩, .inr ⟨rfl, rfl⟩⟩

/-- SELECT depends on the history, the store and the parameters alone (spec/43_ppm_context_model.md R201). -/
theorem Gives.congr {T : Table} {c : Bool} {m : Store} (h : Gives s t T c m) (hh : d.hist = s.hist) (hc : d.ctx = s.ctx)
    (hp : d.params = s.params) : Gives d t T c m := by
  simpa only [Gives, Selects, hh, hc, hp] using h

/-! ### What completed -/

/-- An ENC that coded `x` on the table `T`, `e` its entry and `r` the registers at the end (spec/42_arithmetic_coder.md R171). -/
structure Encoded (s v : State) (t : Tsel) (x : Sym) (T : Table) (c : Bool) (m : Store) (e : Entry) (r : EncRegs) : Prop where
  gives : Gives s t T c m
  notStale : T.stale = false
  entry : T.entry? x = some e
  wide : lowFor s T e < endFor s T e
  renorm : renormEnc s.pAct.toNat s.pAct.toNat (encStart s T e) = .settled r
  ok : r.Ok s.pAct.toNat
  settled : Settled s.pAct.toNat r.low r.high
  next : v = codedResult (storeEnc r { s with ctx := m }) ⟨x, T.values e, c⟩

/-- An ENC that raised no fault coded its symbol: every other way its body ends enters a fault. -/
theorem encoded_of_noFault (h : s.Sound) (hv : exec (.enc t x) s = .next v) (hn : v.fault = none) :
    ∃ T c m e r, Encoded s v t x T c m e r := by
  obtain ⟨u, a, hb, rfl⟩ | ⟨f, -, rfl⟩ | ⟨f, u, -, rfl⟩ := Body.finish_next (b := encBody t x s) hv
  case inr.inl => cases hn
  case inr.inr => cases hn
  cases hsel : select (encode (.enc t x)) t s with
  | error f => rw [encBody, hsel] at hb; cases hb
  | ok sel =>
    have hg := gives_of_select hsel
    have hT := (gives_sound h hg).1
    cases hst : sel.tab.stale with
    | true => rw [encBody_stale hg hst] at hb; cases hb
    | false =>
      by_cases hz : sel.tab.total = 0
      · rw [encBody_zeroTotal hg hst hz] at hb; cases hb
      by_cases hx : x ∈ sel.tab.syms
      case neg => rw [encBody_absent hg hst hz hx] at hb; cases hb
      obtain ⟨e, he⟩ := Table.entry?_of_has hx
      by_cases hlt : lowFor s sel.tab e < endFor s sel.tab e
      case neg => rw [encBody_collapse h hg hst he (Nat.not_lt.1 hlt)] at hb; cases hb
      rcases renormEnc_ends h.prec.1 (encStart_ok h hT hst (Table.entry?_some he).1 hlt) with
        ⟨r, hr, -, hok, hs⟩ | ⟨r, hr, -⟩
      · rw [encBody_settled h hg hst he hlt hr] at hb
        cases hb
        exact ⟨_, _, _, e, r, hg, hst, he, hlt, hr, hok, hs, rfl⟩
      · rw [encBody_overflow h hg hst he hlt hr] at hb; cases hb

/-- The flush of FIN (spec/42_arithmetic_coder.md R172). -/
abbrev flushBits (s : State) : List Bool :=
  decide (quarter s.pAct.toNat ≤ s.low.toNat) ::
    List.replicate (s.pending.toNat + 1) (!(decide (quarter s.pAct.toNat ≤ s.low.toNat)))

theorem fin_of_noFault (hv : exec .fin s = .next v) (hn : v.fault = none) : v.outBitQ = s.outBitQ ++ flushBits s := by
  obtain ⟨hfull, hroom⟩ := finFlushes.2 s
  by_cases hp : s.pending = 0xFFFFFFFF
  · obtain ⟨u, hu, rfl⟩ := hfull hp
    cases hv.symm.trans hu
    cases hn
  · cases hv.symm.trans (hroom hp)
    rfl

/-! ### In step -/

/-- The bits `F` are a future of the encoder: what it may still emit, after which a decoder's CODE lies in its interval. -/
def Future (s : State) (F : List Bool) : Prop :=
  ValidFuture s.pAct.toNat s.low.toNat s.high.toNat s.pending.toNat (stream F)

/-- The decoder `d` is sound and has the encoder's tables and interval (spec/42_arithmetic_coder.md R176). -/
structure Beside (s d : State) : Prop where
  sound : d.Sound
  noFault : d.fault = none
  params : d.params = s.params
  pAct : d.pAct = s.pAct
  hist : d.hist = s.hist
  ctx : d.ctx = s.ctx
  low : d.low = s.low
  high : d.high = s.high

/-- The decoder `d` is in step with the encoder `s` that still emits `F`: CODE and IN_BITQ hold `F`. -/
structure InStep (s d : State) (F : List Bool) : Prop extends Beside s d where
  code : d.code.toNat = futureCode s.pAct.toNat s.pending.toNat (stream F)
  bits : stream d.inBitQ = streamFrom (s.pAct.toNat + s.pending.toNat) (stream F)

/-- SYM is the low 9 bits of RESULT (spec/10_state.md R47). -/
theorem ResultFields.toWord_setWidth (f : ResultFields) : f.toWord.setWidth 9 = f.sym := by
  apply BitVec.eq_of_toNat_eq
  have := f.sym.isLt
  rw [BitVec.toNat_setWidth, resultLayout f]
  omega

/-- From `s` to `u` the encoder emits `E`, stays sound and settled, and a future of `u` behind `E` is a future of `s`. -/
structure Emits (s u : State) (E : List Bool) : Prop where
  out : u.outBitQ = s.outBitQ ++ E
  sound : u.Sound
  settled : Settled u.pAct.toNat u.low.toNat u.high.toNat
  future : ∀ F, Future u F → Future s (E ++ F)

section
variable {T : Table} {c : Bool} {m : Store} {e : Entry} {r : EncRegs} {F : List Bool}

theorem Encoded.pAct (he : Encoded s v t x T c m e r) : v.pAct = s.pAct := by rw [he.next]; rfl

variable (h : s.Sound) (he : Encoded s v t x T c m e r)
include h he

/-- The registers written back hold the numbers of the last pass. -/
theorem Encoded.toNat : v.low.toNat = r.low ∧ v.high.toNat = r.high ∧ v.pending.toNat = r.pending := by
  obtain ⟨hlh, htop, hp⟩ := he.ok
  have hmax := top_lt h.prec.2
  rw [he.next]
  exact ⟨ofNat_toNat (by omega), ofNat_toNat (by omega), ofNat_toNat hp⟩

theorem Encoded.start_ok : (encStart s T e).Ok s.pAct.toNat :=
  encStart_ok h (gives_sound h he.gives).1 he.notStale (Table.entry?_some he.entry).1 he.wide

theorem Encoded.future_iff : Future v F ↔ ValidFuture s.pAct.toNat r.low r.high r.pending (stream F) := by
  obtain ⟨e1, e2, e3⟩ := he.toNat h
  rw [Future, e1, e2, e3, he.pAct]

/-- Back through the passes: a future of the registers at the end, behind the bits emitted, is one of the narrowed interval, and the
decoder's passes follow the encoder's (spec/42_arithmetic_coder.md R176). -/
theorem Encoded.passes_back (hF : Future v F) :
    ValidFuture s.pAct.toNat (lowFor s T e) (endFor s T e - 1) s.pending.toNat (stream (r.out ++ F)) ∧
      ∀ bits, stream bits = streamFrom (s.pAct.toNat + s.pending.toNat) (stream (r.out ++ F)) →
        ∃ bits', renormDec s.pAct.toNat s.pAct.toNat
            ⟨lowFor s T e, endFor s T e - 1, futureCode s.pAct.toNat s.pending.toNat (stream (r.out ++ F)), bits⟩ =
              some ⟨r.low, r.high, futureCode s.pAct.toNat r.pending (stream F), bits'⟩ ∧
          stream bits' = streamFrom (s.pAct.toNat + r.pending) (stream F) := by
  obtain ⟨E, hE, hback⟩ := renorm_streams h.prec.1 _ _ _ (he.start_ok h) he.renorm
  rw [hE]
  exact hback F ((he.future_iff h).1 hF)

theorem Encoded.sound : v.Sound := by
  have hu := encBody_sat h t x
  rw [encBody_settled h he.gives he.notStale he.entry he.wide he.renorm] at hu
  obtain ⟨hu, -⟩ := hu
  exact he.next ▸ (codedResult_inv hu _).toSound

/-- The narrowed interval lies in the encoder's own. -/
theorem Encoded.emits : Emits s v r.out where
  out := by rw [he.next]; rfl
  sound := he.sound h
  settled := by
    obtain ⟨e1, e2, -⟩ := he.toNat h
    rw [e1, e2, he.pAct]
    exact he.settled
  future F hF := by
    obtain ⟨⟨hres, hlo, hhi⟩, -⟩ := he.passes_back h hF
    obtain ⟨hT, -⟩ := gives_sound h he.gives
    obtain ⟨-, -, hb⟩ := (hT.ranges he.notStale).bounds (Table.entry?_some he.entry).1
    obtain ⟨hw1, -, hw3⟩ := narrow_within h.interval.1 hb (narrow_of_lt h he.wide)
    exact ⟨hres, Nat.le_trans hw1 hlo, Nat.le_trans hhi hw3⟩

/-- The DEC beside an ENC. The symbol's range holds the value, since CODE lies in the interval the encoder narrowed to; so DEC finds
the symbol and makes the encoder's passes (spec/42_arithmetic_coder.md R175, R176). -/
theorem Encoded.dec_inStep (hF : Future v F) (hd : InStep s d (r.out ++ F)) :
    ∃ d', exec (.dec t) d = .next d' ∧ d'.result.setWidth 9 = x ∧ InStep v d' F := by
  obtain ⟨hmem, hsym⟩ := Table.entry?_some he.entry
  obtain ⟨⟨-, hlo, hhi⟩, hpasses⟩ := he.passes_back h hF
  obtain ⟨bits', hren, hbits'⟩ := hpasses _ hd.bits
  have elow : lowFor d T e = lowFor s T e := by rw [lowFor, lowFor, hd.low, hd.high]
  have eend : endFor d T e = endFor s T e := by rw [endFor, endFor, hd.low, hd.high]
  have hwide := he.wide
  have hcode : lowFor d T e ≤ d.code.toNat ∧ d.code.toNat + 1 ≤ endFor d T e := by
    rw [elow, eend, hd.code]
    omega
  obtain ⟨r', hr', -, hb⟩ :=
    decBody_decodes hd.sound (he.gives.congr hd.hist hd.ctx hd.params) he.notStale hmem hcode
  have hr : r' = ⟨r.low, r.high, futureCode s.pAct.toNat r.pending (stream F), bits'⟩ := by
    rw [decStart, elow, eend, hd.pAct, hd.code, hren] at hr'
    exact (Option.some.inj hr').symm
  have hu := decBody_sat hd.sound t
  rw [hb] at hu
  obtain ⟨hsound, -⟩ := hu
  obtain ⟨-, -, epend⟩ := he.toNat h
  obtain ⟨-, -, hle⟩ := (he.future_iff h).1 hF
  have hfit : futureCode s.pAct.toNat r.pending (stream F) ≤ wordMax :=
    hle.trans (he.ok.2.1.trans (top_lt h.prec.2))
  subst hr
  refine ⟨_, exec_dec_of_ok hb, hsym ▸ ResultFields.toWord_setWidth _, ?_⟩
  exact
    { sound := (codedResult_inv hsound _).toSound
      noFault := hd.noFault
      params := by rw [he.next]; exact hd.params
      pAct := by rw [he.next]; exact hd.pAct
      hist := by rw [he.next]; exact hd.hist
      ctx := by rw [he.next]; rfl
      low := by rw [he.next]; rfl
      high := by rw [he.next]; rfl
      code := by rw [he.pAct, epend]; exact ofNat_toNat hfit
      bits := by rw [he.pAct, epend]; exact hbits' }

end

end

/-! ### Sessions -/

theorem Emits.trans {s v u : State} {E E' : List Bool} (h : Emits s v E) (h' : Emits v u E') : Emits s u (E ++ E') where
  out := by rw [h'.out, h.out, List.append_assoc]
  sound := h'.sound
  settled := h'.settled
  future F hF := by rw [List.append_assoc]; exact h.future _ (h'.future F hF)

/-- A list of ENCs and the DECs beside them: any future of the encoder at the end, behind what the ENCs emit, decodes
(spec/42_arithmetic_coder.md R176). -/
theorem encodesAll_decodes (ops : List (Tsel × Sym)) {s u : State} (h : s.Sound)
    (hs : Settled s.pAct.toNat s.low.toNat s.high.toNat) (hall : EncodesAll ops s u) :
    ∃ E, Emits s u E ∧ ∀ F d, Future u F → InStep s d (E ++ F) → DecodesBeside ops s d := by
  induction ops generalizing s with
  | nil =>
    cases hall
    exact ⟨[], ⟨by simp, h, hs, fun F hF => hF⟩, fun _ _ _ _ => trivial⟩
  | cons op ops ih =>
    obtain ⟨v, hv, hn, hall⟩ := hall
    obtain ⟨T, c, m, e, r, he⟩ := encoded_of_noFault h hv hn
    have hem := he.emits h
    obtain ⟨E, hE, hdec⟩ := ih hem.sound hem.settled hall
    refine ⟨r.out ++ E, hem.trans hE, fun F d hF hd => ?_⟩
    rw [List.append_assoc] at hd
    obtain ⟨d', hd', hsym, hin⟩ := he.dec_inStep h (hE.future F hF) hd
    exact ⟨v, d', hv, hd', hin.noFault, hsym, hin.low, hin.high, hdec F d' hF hin⟩

/-- After DPRIME at the start of a session the decoder is in step with the encoder (spec/42_arithmetic_coder.md R173, R176). -/
theorem dprime_inStep {s d₀ d : State} {F : List Bool} {z : Nat} (h : Beside s d₀) (hpend : s.pending = 0)
    (hq : d₀.inBitQ = F ++ List.replicate z false) (hd : exec .dprime d₀ = .next d) : InStep s d F := by
  obtain ⟨hsound, -⟩ := dprimeBody_sat h.sound
  have hstream : stream d₀.inBitQ = stream F := by rw [hq, stream_zeros]
  have hfit : streamVal d₀.pAct.toNat (stream F) ≤ wordMax :=
    (Nat.le_sub_one_of_lt (streamVal_lt _ _)).trans (top_lt h.sound.prec.2)
  have hp0 : s.pending.toNat = 0 := by rw [hpend]; rfl
  have htake := takeBits_streamVal d₀.inBitQ d₀.pAct.toNat
  cases hd
  exact
    { h with
      sound := (complete_inv hsound).toSound
      code := by
        show (BitVec.ofNat 32 (takeBits d₀.pAct.toNat 0 d₀.inBitQ).1).toNat = _
        rw [htake, hstream, ofNat_toNat hfit, hp0, ← h.pAct, futureCode_zero (Nat.le_of_succ_le h.sound.prec.1)]
      bits := by
        show stream (takeBits d₀.pAct.toNat 0 d₀.inBitQ).2 = _
        rw [htake, stream_drop, hstream, hp0, h.pAct]
        rfl }

/-- Settles O46: what the ENCs and FIN emit is a future of the encoder at the start, and DPRIME loads it. -/
theorem encDecLockstep : Obligations.EncDecLockstep := by
  intro ops s u v d₀ d bits z h hd₀ _ hn hparams hP hhist hctx hl hh hpend hlow hhigh hall hfin hv hbits hq hd
  have hs : Settled s.pAct.toNat s.low.toNat s.high.toNat := by
    refine settled_of_renormCase ?_
    rw [hl, hh]
    exact renormCase_full h.prec.1
  obtain ⟨E, hE, hdec⟩ := encodesAll_decodes ops h hs hall
  obtain rfl : bits = E ++ flushBits u := by
    rw [fin_of_noFault hfin hv, hE.out, List.append_assoc] at hbits
    exact (List.append_cancel_left hbits).symm
  exact hdec _ d (fin_validFuture hE.sound.prec.1 hE.settled)
    (dprime_inStep ⟨hd₀, hn, hparams, hP, hhist, hctx, hlow, hhigh⟩ hpend hq hd)

end Sys2Proof.Machine
end

section
/-! PROOFS. Family 43_ppm_context_model: what PUPD's loop does to the store, and what MINIT, PGET, HPUSH and PUPD answer. -/

namespace Sys2Proof.Machine

section
variable {s : State} {x : Sym}

theorem isByte_eq_true (h : x.toNat ≤ 255) : isByte x = true := decide_eq_true h

theorem isByte_eq_false (h : 255 < x.toNat) : isByte x = false := decide_eq_false (Nat.not_le.2 h)

/-- A body that runs through ends a single-step command in completion (spec/60_exceptions.md R269). -/
theorem Body.single_ok {α : Type} {b : Body α} {u : State} {a : α} (h : b = .ok u a) : b.single s = .next (complete u) := by
  rw [h]
  rfl

/-! ### MINIT -/

theorem minitBody_badConfig (h : s.cfgOrder.toInt < -1 ∨ (s.params.maxOrder : Int) < s.cfgOrder.toInt) :
    minitBody s = .raise ⟨.badConfig, 0x60000000⟩ := if_pos h

theorem minitBody_order (h1 : -1 ≤ s.cfgOrder.toInt) (h2 : s.cfgOrder.toInt ≤ s.params.maxOrder) :
    minitBody s = .ok { s with orderAct := s.cfgOrder, ctx := [([], Table.rootSeed)], hist := [] } () :=
  if_neg (not_or.2 ⟨Int.not_lt.2 h1, Int.not_lt.2 h2⟩)

/-! ### PGET -/

/-- PGET raises what SELECT raises (spec/43_ppm_context_model.md R202). -/
theorem pgetBody_raises {t : Tsel} {f : FaultCode} (h : SelectRaises s t f) :
    pgetBody t s = .raise ⟨f, cmdWord 0x19 t.toNat 0⟩ := by
  rw [pgetBody, select_of_raises h, encode, packWord_eq_cmdWord]
  rfl

/-- PGET leaves CTX as SELECT does, and reports the selected table (spec/43_ppm_context_model.md R202). -/
theorem pgetBody_gives {t : Tsel} {T : Table} {c : Bool} {m : Store} (h : Gives s t T c m) :
    pgetBody t s = .ok (setResult { created := c, stale := T.stale }
      ⟨0, 0, if T.stale then 0 else T.total, BitVec.ofNat 32 T.syms.length⟩ { s with ctx := m }) () := by
  obtain ⟨key, hsel⟩ := select_of_gives h (encode (.pget t))
  rw [pgetBody, hsel, Table.syms, List.length_map]

/-! ### HPUSH -/

theorem hpushBody_badSymbol (h : 255 < x.toNat) : hpushBody x s = .raise ⟨.badSymbol, cmdWord 0x1B 0 x.toNat⟩ := by
  rw [hpushBody, isByte_eq_false h, encode, packWord_eq_cmdWord]
  rfl

/-- The history after HPUSH (spec/43_ppm_context_model.md R203). -/
def pushedHist (x : Sym) (s : State) : List Byte :=
  if s.orderAct.toInt ≤ 0 then []
  else last (s.hist ++ [BitVec.ofNat 8 x.toNat]) (min (s.hist.length + 1) s.orderAct.toInt.toNat)

theorem hpushBody_byte (h : x.toNat ≤ 255) : hpushBody x s = .ok { s with hist := pushedHist x s } () := by
  rw [hpushBody, isByte_eq_true h, pushedHist, BitVec.ofNat_toNat]
  rfl

/-- At a positive order the history is a suffix of the old one with the byte appended. -/
theorem pushedHist_suffixOf (h : 0 < s.orderAct.toInt) :
    SuffixOf (s.hist ++ [BitVec.ofNat 8 x.toNat]) (min (s.hist.length + 1) s.orderAct.toInt.toNat) (pushedHist x s) := by
  refine suffixOf_iff.2 ⟨?_, if_neg (by omega)⟩
  rw [List.length_append]
  exact Nat.min_le_left _ _

/-! ### The store after PUPD's loop -/

/-- PUPD's loop keeps the canonical form (log 19). -/
theorem updStore_wf (x : Sym) (ks : List Context) {m : Store} (h : m.wf) : (updStore x ks m).wf := by
  induction ks generalizing m with
  | nil => exact h
  | cons k ks ih => exact ih (Store.wf_put h k _)

theorem newKeys_cons_length (k : Context) (ks : List Context) (m : Store) :
    (newKeys (k :: ks) m).length = (if (m.get k).isNone then 1 else 0) + (newKeys ks m).length := by
  rw [newKeys, List.filter_cons]
  split
  · rw [List.length_cons, Nat.add_comm]; rfl
  · rw [Nat.zero_add]; rfl

/-- PUPD's loop adds one entry for each new context (spec/43_ppm_context_model.md R204). -/
theorem updStore_length (x : Sym) {ks : List Context} (hn : ks.Nodup) {m : Store} (h : m.wf) :
    (updStore x ks m).length = m.length + (newKeys ks m).length := by
  induction ks generalizing m with
  | nil => rfl
  | cons k ks ih =>
    obtain ⟨hk, hn⟩ := List.nodup_cons.1 hn
    rw [updStore, ih hn (Store.wf_put h k _), Store.length_put h, newKeys_put hk, newKeys_cons_length, Nat.add_assoc]

/-! ### The checks of PUPD -/

theorem ctxOverflows_eq_false {p : Params} {n : Nat} : ctxOverflows p n = false ↔ within n p.ctxCapacity := by
  rw [ctxOverflows]
  cases p.ctxCapacity with
  | none => exact ⟨fun _ => trivial, fun _ => rfl⟩
  | some c => exact decide_eq_false_iff_not.trans Nat.not_lt

theorem anyCountFull_eq_true {ks : List Context} {m : Store} :
    anyCountFull ks m = true ↔ ∃ k ∈ ks, ∃ T, Store.get k m = some T ∧ wordMax < cntSum T.alpha + 1 := by
  rw [anyCountFull, List.any_eq_true]
  refine exists_congr fun k => and_congr_right fun _ => ?_
  cases Store.get k m with
  | none => simp
  | some T => simp [Table.countFull_eq_true]

/-- A context without a table starts from its seed (spec/43_ppm_context_model.md R204). -/
theorem ctxSeed_seedOf {k : Context} (hk : k ≠ []) : SeedOf k Table.ctxSeed :=
  ⟨by rw [if_neg hk]; rfl, by decide, ⟨rfl, Table.ctxSeed_ok.ranges rfl⟩, rfl⟩

/-- The table PUPD updates is the one in CTX or, for a new context, its seed; the root is never new. -/
theorem updTable_cases (h : s.Sound) (k : Context) :
    Store.get k s.ctx = some (updTable k s.ctx) ∨ Store.get k s.ctx = none ∧ SeedOf k (updTable k s.ctx) := by
  cases hg : Store.get k s.ctx with
  | some T => simp [updTable, hg]
  | none =>
    have hk : k ≠ [] := by
      rintro rfl
      obtain ⟨R, hR, -⟩ := h.store.root
      rw [hg] at hR
      cases hR
    exact .inr ⟨rfl, by rw [updTable, hg]; exact ctxSeed_seedOf hk⟩

/-- The table PUPD updates has room for one more count, when a table in CTX has. -/
theorem updTable_room {k : Context} {m : Store} (h : ∀ T, Store.get k m = some T → cntSum T.alpha + 1 ≤ wordMax) :
    cntSum (updTable k m).alpha + 1 ≤ wordMax := by
  rw [updTable]
  cases hg : Store.get k m with
  | some T => exact h T hg
  | none => decide

/-! ### PUPD -/

/-- The contexts PUPD updates, from the longest suffix of the history to the root (spec/43_ppm_context_model.md R204). -/
abbrev State.pupdKeys (s : State) : List Context := updKeys s.hist s.orderAct.toInt.toNat

theorem pupdBody_badSymbol (h : 255 < x.toNat) : pupdBody x s = .raise ⟨.badSymbol, cmdWord 0x1A 0 x.toNat⟩ := by
  rw [pupdBody, isByte_eq_false h, encode, packWord_eq_cmdWord]
  rfl

theorem pupdBody_orderM1 (h : x.toNat ≤ 255) (ho : s.orderAct.toInt < 0) : pupdBody x s = .ok s 0 := by
  simp only [pupdBody, isByte_eq_true h, if_true, if_pos ho]

/-- From order 0 on, PUPD of a byte makes its two checks and then updates the store (spec/43_ppm_context_model.md R204). -/
theorem pupdBody_byte (h : x.toNat ≤ 255) (ho : 0 ≤ s.orderAct.toInt) : pupdBody x s =
    if ctxOverflows s.params (s.ctx.length + (newKeys s.pupdKeys s.ctx).length) then
      .raise ⟨.ctxFull, cmdWord 0x1A 0 x.toNat⟩
    else if anyCountFull s.pupdKeys s.ctx then .raise ⟨.countOverflow, cmdWord 0x1A 0 x.toNat⟩
    else .ok { s with ctx := updStore x s.pupdKeys s.ctx } (newKeys s.pupdKeys s.ctx).length := by
  rw [← show encode (.pupd x) = cmdWord 0x1A 0 x.toNat from packWord_eq_cmdWord 0x1A 0 x]
  simp only [pupdBody, isByte_eq_true h, if_true, if_neg (Int.not_lt.2 ho)]

theorem pupdBody_ctxFull (h : x.toNat ≤ 255) (ho : 0 ≤ s.orderAct.toInt)
    (hc : ¬ within (s.ctx.length + (newKeys s.pupdKeys s.ctx).length) s.params.ctxCapacity) :
    pupdBody x s = .raise ⟨.ctxFull, cmdWord 0x1A 0 x.toNat⟩ := by
  rw [← ctxOverflows_eq_false, Bool.not_eq_false] at hc
  rw [pupdBody_byte h ho, if_pos hc]

theorem pupdBody_countOverflow (h : x.toNat ≤ 255) (ho : 0 ≤ s.orderAct.toInt)
    (hc : within (s.ctx.length + (newKeys s.pupdKeys s.ctx).length) s.params.ctxCapacity)
    (hfull : ∃ k ∈ s.pupdKeys, ∃ T, Store.get k s.ctx = some T ∧ wordMax < cntSum T.alpha + 1) :
    pupdBody x s = .raise ⟨.countOverflow, cmdWord 0x1A 0 x.toNat⟩ := by
  rw [pupdBody_byte h ho, ctxOverflows_eq_false.2 hc, anyCountFull_eq_true.2 hfull]
  rfl

theorem pupdBody_updates (h : x.toNat ≤ 255) (ho : 0 ≤ s.orderAct.toInt)
    (hc : within (s.ctx.length + (newKeys s.pupdKeys s.ctx).length) s.params.ctxCapacity)
    (hroom : ∀ k ∈ s.pupdKeys, ∀ T, Store.get k s.ctx = some T → cntSum T.alpha + 1 ≤ wordMax) :
    pupdBody x s = .ok { s with ctx := updStore x s.pupdKeys s.ctx } (newKeys s.pupdKeys s.ctx).length := by
  have hfull : anyCountFull s.pupdKeys s.ctx = false := by
    rw [← Bool.not_eq_true, anyCountFull_eq_true]
    rintro ⟨k, hk, T, hT, hlt⟩
    exact absurd (hroom k hk T hT) (Nat.not_le.2 hlt)
  rw [pupdBody_byte h ho, ctxOverflows_eq_false.2 hc, hfull]
  rfl

/-- Every context PUPD updates holds its old table, or its seed, with one more of the symbol
(spec/43_ppm_context_model.md R204). -/
theorem updStore_updates (h : s.Sound) {ks : List Context} (hn : ks.Nodup)
    (hroom : ∀ k ∈ ks, ∀ T, Store.get k s.ctx = some T → cntSum T.alpha + 1 ≤ wordMax) {k : Context} (hk : k ∈ ks) :
    ∃ T T', (Store.get k s.ctx = some T ∨ (Store.get k s.ctx = none ∧ SeedOf k T)) ∧
      Store.get k (updStore x ks s.ctx) = some T' ∧ AddedTo x T T' ∧ T'.Fresh :=
  have hsum := updTable_room (hroom k hk)
  ⟨updTable k s.ctx, (updTable k s.ctx).eagerAdd x, updTable_cases h k, by rw [updStore_get x ks s.ctx hn, if_pos hk],
    Table.eagerAdd_addedTo x hsum, Table.eagerAdd_fresh x hsum⟩

/-- The contexts as the statement lists them, shortest first. -/
theorem updKeys_eq_reverse (hist : List Byte) (order : Nat) :
    updKeys hist order = ((List.range (min hist.length order + 1)).map (last hist)).reverse := List.map_reverse

end

/-! ### The statements -/

/-- Settles O31: MINIT checks ORDER and then writes the reset model. -/
theorem minitStartsModel : Obligations.MinitStartsModel :=
  ⟨formatN fun p w ho => by simp only [decode, ho], fun _ =>
    ⟨fun ho => Body.traps_single (minitBody_badConfig ho), fun h1 h2 => Body.single_ok (minitBody_order h1 h2)⟩⟩

/-- Settles O32: PGET changes CTX as SELECT does, and reports what SELECT gives. -/
theorem pgetSelectsAndReports : Obligations.PgetSelectsAndReports :=
  ⟨formatT fun p w ho => by simp only [decode, ho], fun _ _ =>
    ⟨fun _ hf => Body.traps_single (pgetBody_raises hf), fun _ _ _ hgives => Body.single_ok (pgetBody_gives hgives)⟩⟩

/-- Settles O33: the new history is `pushedHist`. -/
theorem hpushAdvancesHistory : Obligations.HpushAdvancesHistory :=
  ⟨formatS fun p w ho => by simp only [decode, ho], fun s x =>
    ⟨fun hx => Body.traps_single (hpushBody_badSymbol hx), fun hx =>
      ⟨pushedHist x s, Body.single_ok (hpushBody_byte hx), fun ho => if_pos ho, pushedHist_suffixOf⟩⟩⟩

/-- Settles O34: PUPD's loop runs over the stated contexts in the reverse order, each once, and each end of its body is one
clause. -/
theorem pupdUpdatesEveryOrder : Obligations.PupdUpdatesEveryOrder := by
  refine ⟨formatS fun p w ho => by simp only [decode, ho], fun s x => ?_⟩
  intro w keys new
  have hkeys : s.pupdKeys = keys.reverse := updKeys_eq_reverse s.hist s.orderAct.toInt.toNat
  have hmem (k : Context) : k ∈ keys ↔ k ∈ s.pupdKeys := by rw [hkeys, List.mem_reverse]
  have hnew : new = (newKeys s.pupdKeys s.ctx).length := by rw [hkeys, newKeys, List.filter_reverse, List.length_reverse]
  clear_value keys new
  subst hnew
  simp only [hmem]
  have hnodup : s.pupdKeys.Nodup := updKeys_nodup _ _
  refine ⟨fun hx => Body.traps_single (pupdBody_badSymbol hx), fun hx ho => Body.single_ok (pupdBody_orderM1 hx ho),
    fun hx ho hc => Body.traps_single (pupdBody_ctxFull hx ho hc),
    fun hx ho hc hfull => Body.traps_single (pupdBody_countOverflow hx ho hc hfull), fun h hx ho hc hroom =>
    ⟨updStore x s.pupdKeys s.ctx, Body.single_ok (pupdBody_updates hx ho hc hroom), ?_, ?_, fun k hk => ?_, fun k hk => ?_⟩⟩
  · exact updStore_wf x _ h.store.canonical
  · exact updStore_length x hnodup h.store.canonical
  · rw [updStore_get x _ _ hnodup, if_neg hk]
  · exact updStore_updates h hnodup hroom hk

/-- Settles O59: the laws of `Store.get`, the canonical form and the length after `Store.put`. -/
theorem storeIsMap : Obligations.StoreIsMap := fun m k T =>
  ⟨Store.get_put_same k T m, fun _ hk => Store.get_put_other hk T m, fun h => ⟨Store.wf_put h k T, by
    rw [Store.length_put h, Bool.toNat, Bool.cond_eq_ite]⟩⟩

end Sys2Proof.Machine
end

section
/-! PROOFS. Family 44_drivers, the bodies: what a driver's body leaves alone, and that none reads or writes SEQ. -/

namespace Sys2Proof.Machine

/-! ### What the bodies leave alone -/

/-- Every state a body ends with or keeps has `P`. -/
def Body.Leaves {α : Type} (P : State → Prop) : Body α → Prop
  | .ok t _ => P t
  | .raise _ => True
  | .raiseKeeping _ t => P t
  | .stuck _ => True

theorem Body.Leaves.mono {α : Type} {P P' : State → Prop} {b : Body α} (h : b.Leaves P) (hP : ∀ t, P t → P' t) :
    b.Leaves P' := by
  cases b with
  | ok t a => exact hP t h
  | raise r => trivial
  | raiseKeeping r t => exact hP t h
  | stuck f => trivial

theorem Body.Leaves.map {α β : Type} {P : State → Prop} {b : Body α} (h : b.Leaves P) (f : α → β) :
    (b.map f).Leaves P := by
  cases b <;> exact h

/-- What every body of a driver leaves alone (spec/44_drivers.md R220): the ends of a step, RESULT and the byte queues. -/
structure Quiet (s t : State) : Prop extends SameFault s t, SameResult s t where
  seq : t.seq = s.seq
  doneIp : t.doneIp = s.doneIp
  inByteQ : t.inByteQ = s.inByteQ
  outByteQ : t.outByteQ = s.outByteQ
  params : t.params = s.params

/-- What the bodies inside a symbol also leave alone: P_ACT and ORDER_ACT (spec/44_drivers.md R221, R222). -/
structure SymQuiet (s t : State) : Prop extends Quiet s t where
  pAct : t.pAct = s.pAct
  orderAct : t.orderAct = s.orderAct

/-- What the bodies of CSYM do with the bit queues: IN_BITQ stays, OUT_BITQ only grows (spec/42_arithmetic_coder.md R163). -/
structure CsymQuiet (s t : State) : Prop extends SymQuiet s t where
  inBitQ : t.inBitQ = s.inBitQ
  outBitQ : s.outBitQ <+: t.outBitQ

theorem SymQuiet.refl (s : State) : SymQuiet s s := ⟨⟨⟨rfl, rfl, rfl⟩, ⟨rfl, rfl⟩, rfl, rfl, rfl, rfl, rfl⟩, rfl, rfl⟩

theorem SymQuiet.trans {s t u : State} (h : SymQuiet s t) (h' : SymQuiet t u) : SymQuiet s u where
  fault := h'.fault.trans h.fault
  faultInfo := h'.faultInfo.trans h.faultInfo
  faultIp := h'.faultIp.trans h.faultIp
  result := h'.result.trans h.result
  res := h'.res.trans h.res
  seq := h'.seq.trans h.seq
  doneIp := h'.doneIp.trans h.doneIp
  inByteQ := h'.inByteQ.trans h.inByteQ
  outByteQ := h'.outByteQ.trans h.outByteQ
  params := h'.params.trans h.params
  pAct := h'.pAct.trans h.pAct
  orderAct := h'.orderAct.trans h.orderAct

theorem CsymQuiet.refl (s : State) : CsymQuiet s s := ⟨.refl s, rfl, List.prefix_rfl⟩

theorem CsymQuiet.trans {s t u : State} (h : CsymQuiet s t) (h' : CsymQuiet t u) : CsymQuiet s u :=
  ⟨h.toSymQuiet.trans h'.toSymQuiet, h'.inBitQ.trans h.inBitQ, h.outBitQ.trans h'.outBitQ⟩

section
variable (s : State)

theorem cinitBody_quiet : (cinitBody s).Leaves (Quiet s) := by
  unfold cinitBody
  split
  · trivial
  · exact ⟨⟨rfl, rfl, rfl⟩, ⟨rfl, rfl⟩, rfl, rfl, rfl, rfl, rfl⟩

theorem minitBody_quiet : (minitBody s).Leaves (Quiet s) := by
  unfold minitBody
  simp only
  split
  · trivial
  · exact ⟨⟨rfl, rfl, rfl⟩, ⟨rfl, rfl⟩, rfl, rfl, rfl, rfl, rfl⟩

/-- The encoder writes its registers, OUT_BITQ, OUT_BITCNT and CTX (spec/42_arithmetic_coder.md R171). -/
theorem storeEnc_quiet (r : EncRegs) (m : Store) : CsymQuiet s (storeEnc r { s with ctx := m }) :=
  ⟨⟨⟨⟨rfl, rfl, rfl⟩, ⟨rfl, rfl⟩, rfl, rfl, rfl, rfl, rfl⟩, rfl, rfl⟩, rfl, List.prefix_append _ _⟩

theorem encWith_quiet (w : Word) (sel : Selection) (x : Sym) : (encWith w sel x s).Leaves (CsymQuiet s) := by
  unfold encWith
  split
  · trivial
  · split
    · trivial
    · split
      · trivial
      · split
        · trivial
        · split
          · exact storeEnc_quiet s _ _
          · exact storeEnc_quiet s _ s.ctx
          · trivial

theorem encBody_quiet (t : Tsel) (x : Sym) : (encBody t x s).Leaves (CsymQuiet s) := by
  unfold encBody
  split
  · trivial
  · exact encWith_quiet s _ _ x

theorem decWith_quiet (w : Word) (sel : Selection) : (decWith w sel s).Leaves (SymQuiet s) := by
  unfold decWith
  split
  · trivial
  · split
    · trivial
    · split
      · trivial
      · split
        · trivial
        · split
          · trivial
          · split
            · exact ⟨⟨⟨rfl, rfl, rfl⟩, ⟨rfl, rfl⟩, rfl, rfl, rfl, rfl, rfl⟩, rfl, rfl⟩
            · trivial

theorem decBody_quiet (t : Tsel) : (decBody t s).Leaves (SymQuiet s) := by
  unfold decBody
  split
  · trivial
  · exact decWith_quiet s _ _

theorem pupdBody_quiet (x : Sym) : (pupdBody x s).Leaves (CsymQuiet s) := by
  unfold pupdBody
  split
  · split
    · exact .refl s
    · simp only
      split
      · trivial
      · split
        · trivial
        · exact ⟨⟨⟨⟨rfl, rfl, rfl⟩, ⟨rfl, rfl⟩, rfl, rfl, rfl, rfl, rfl⟩, rfl, rfl⟩, rfl, List.prefix_rfl⟩
  · trivial

theorem hpushBody_quiet (x : Sym) : (hpushBody x s).Leaves (CsymQuiet s) := by
  unfold hpushBody
  split
  · exact ⟨⟨⟨⟨rfl, rfl, rfl⟩, ⟨rfl, rfl⟩, rfl, rfl, rfl, rfl, rfl⟩, rfl, rfl⟩, rfl, List.prefix_rfl⟩
  · trivial

theorem csymDesc_quiet (x : Sym) (o : Tsel) (k : SymLoop) : (csymDesc x o k s).Leaves (CsymQuiet s) := by
  unfold csymDesc
  split
  · trivial
  · split
    · exact (encWith_quiet s _ _ x).map _
    · exact (encWith_quiet s _ _ Sym.esc).map _

theorem dsymFall_quiet (k : SymLoop) : (dsymFall k s).Leaves (SymQuiet s) := by
  unfold dsymFall
  split
  · trivial
  · exact (decBody_quiet s Tsel.m1).map _

/-- A step of CSYM before DONE (spec/44_drivers.md R221). -/
theorem csymStep_quiet (x : Sym) {k : SymLoop} (hk : doneSym k = none) : (csymStep x k s).Leaves (CsymQuiet s) := by
  unfold csymStep
  split
  · exact csymDesc_quiet s x _ k
  · exact (encBody_quiet s _ x).map _
  · exact (pupdBody_quiet s _).map _
  · exact (hpushBody_quiet s _).map _
  · next hp => simp [doneSym, hp] at hk

/-- A step of DSYM before DONE (spec/44_drivers.md R222). -/
theorem dsymStep_quiet {k : SymLoop} (hk : doneSym k = none) : (dsymStep k s).Leaves (SymQuiet s) := by
  unfold dsymStep
  split
  · exact (decBody_quiet s _).map _
  · exact dsymFall_quiet s k
  · exact ((pupdBody_quiet s _).mono fun _ h => h.toSymQuiet).map _
  · exact ((hpushBody_quiet s _).mono fun _ h => h.toSymQuiet).map _
  · next hp => simp [doneSym, hp] at hk

end

/-! ### SEQ is no part of a body -/

/-- A body's answer with SEQ at `q`. -/
def Body.withSeq {α : Type} (q : Seq) : Body α → Body α
  | .ok t a => .ok { t with seq := q } a
  | .raise r => .raise r
  | .raiseKeeping r t => .raiseKeeping r { t with seq := q }
  | .stuck f => .stuck f

theorem Body.withSeq_map {α β : Type} (q : Seq) (f : α → β) (b : Body α) : (b.withSeq q).map f = (b.map f).withSeq q := by
  cases b <;> rfl

/-- A step that overwrites SEQ does not depend on SEQ before it (spec/60_exceptions.md R262, R269). -/
theorem Body.withSeq_finish {α : Type} {q : Seq} {cont : State → α → State}
    (hc : ∀ u a, cont { u with seq := q } a = cont u a) (b : Body α) (s : State) :
    (b.withSeq q).finish { s with seq := q } cont = b.finish s cont := by
  cases b with
  | ok u a => exact congrArg Host.Outcome.next (hc u a)
  | raise r => rfl
  | raiseKeeping r u => rfl
  | stuck f => rfl

section
variable (q : Seq) (s : State)

theorem cinitBody_withSeq : cinitBody { s with seq := q } = (cinitBody s).withSeq q := by
  unfold cinitBody
  split <;> rfl

theorem minitBody_withSeq : minitBody { s with seq := q } = (minitBody s).withSeq q := by
  unfold minitBody
  simp only
  split <;> rfl

theorem finBody_withSeq : finBody { s with seq := q } = (finBody s).withSeq q := by
  unfold finBody
  split <;> rfl

theorem hpushBody_withSeq (x : Sym) : hpushBody x { s with seq := q } = (hpushBody x s).withSeq q := by
  unfold hpushBody
  split <;> rfl

theorem pupdBody_withSeq (x : Sym) : pupdBody x { s with seq := q } = (pupdBody x s).withSeq q := by
  unfold pupdBody
  simp only
  split
  · split
    · rfl
    · split
      · rfl
      · split <;> rfl
  · rfl

theorem encWith_withSeq (w : Word) (sel : Selection) (x : Sym) :
    encWith w sel x { s with seq := q } = (encWith w sel x s).withSeq q := by
  unfold encWith
  simp only
  split
  · rfl
  · split
    · rfl
    · split
      · rfl
      · split
        · rfl
        · split <;> rfl

theorem decWith_withSeq (w : Word) (sel : Selection) :
    decWith w sel { s with seq := q } = (decWith w sel s).withSeq q := by
  unfold decWith
  simp only
  split
  · rfl
  · split
    · rfl
    · split
      · rfl
      · split
        · rfl
        · split
          · rfl
          · split <;> rfl

theorem encBody_withSeq (t : Tsel) (x : Sym) : encBody t x { s with seq := q } = (encBody t x s).withSeq q := by
  have hsel : select (encode (.enc t x)) t { s with seq := q } = select (encode (.enc t x)) t s := rfl
  unfold encBody
  rw [hsel]
  split
  · rfl
  · exact encWith_withSeq q s _ _ x

theorem decBody_withSeq (t : Tsel) : decBody t { s with seq := q } = (decBody t s).withSeq q := by
  have hsel : select (encode (.dec t)) t { s with seq := q } = select (encode (.dec t)) t s := rfl
  unfold decBody
  rw [hsel]
  split
  · rfl
  · exact decWith_withSeq q s _ _

theorem csymDesc_withSeq (x : Sym) (o : Tsel) (k : SymLoop) :
    csymDesc x o k { s with seq := q } = (csymDesc x o k s).withSeq q := by
  have hsel : select (encode (.enc o Sym.esc)) o { s with seq := q } = select (encode (.enc o Sym.esc)) o s := rfl
  unfold csymDesc
  rw [hsel]
  split
  · rfl
  · split
    · rw [encWith_withSeq, Body.withSeq_map]
    · rw [encWith_withSeq, Body.withSeq_map]

theorem dsymFall_withSeq (k : SymLoop) : dsymFall k { s with seq := q } = (dsymFall k s).withSeq q := by
  unfold dsymFall
  simp only
  split
  · rfl
  · rw [decBody_withSeq, Body.withSeq_map]

theorem csymStep_withSeq (x : Sym) (k : SymLoop) : csymStep x k { s with seq := q } = (csymStep x k s).withSeq q := by
  unfold csymStep
  split
  · exact csymDesc_withSeq q s x _ k
  · rw [csymFall, encBody_withSeq, Body.withSeq_map]; rfl
  · rw [updStep, pupdBody_withSeq, Body.withSeq_map]; rfl
  · rw [pushStep, hpushBody_withSeq, Body.withSeq_map]; rfl
  · rfl

theorem outputByte_withSeq (x : Sym) : outputByte x { s with seq := q } = { outputByte x s with seq := q } := by
  unfold outputByte
  split <;> rfl

theorem dsymStep_withSeq (k : SymLoop) : dsymStep k { s with seq := q } = (dsymStep k s).withSeq q := by
  unfold dsymStep
  split
  · rw [dsymDesc, decBody_withSeq, Body.withSeq_map]; rfl
  · exact dsymFall_withSeq q s k
  · rw [updStep, pupdBody_withSeq, Body.withSeq_map]; rfl
  · rw [pushStep, hpushBody_withSeq, Body.withSeq_map]; rfl
  · rw [outputByte_withSeq]; rfl

end

end Sys2Proof.Machine
end

section
/-! PROOFS. Family 44_drivers, the steps: a driver's step runs the body of a single-step command and goes on where that command
completes, so both have the same end. -/

namespace Sys2Proof.Machine

/-! ### What a coder body answers -/

section
variable {s u : State} {t : Tsel} {x : Sym} {T : Table} {c : Bool} {m : Store} {a : Coded} {w : Word}

/-- The word decides only what a fault of SELECT reports (spec/43_ppm_context_model.md R201). -/
theorem select_anyWord {sel : Selection} (h : select w t s = .ok sel) (w' : Word) : select w' t s = .ok sel := by
  rcases select_ok h with ⟨rfl, rfl⟩ | ⟨hm, hl, ⟨T, hget, rfl⟩ | ⟨hget, hc, rfl⟩⟩
  · exact select_m1 w' s
  · exact select_found hm hl hget
  · exact select_new hm hl hget hc

/-- An ENC that ran through reports its symbol and the values of its entry (spec/42_arithmetic_coder.md R171). -/
theorem encWith_ok {sel : Selection} (h : encWith w sel x s = .ok u a) :
    ∃ e, sel.tab.entry? x = some e ∧ a = ⟨x, sel.tab.values e, sel.created⟩ := by
  unfold encWith at h
  split at h
  · cases h
  · split at h
    · cases h
    · split at h
      · cases h
      · next e he =>
        split at h
        · cases h
        · split at h <;> cases h
          exact ⟨e, he, rfl⟩

theorem encBody_ok (hg : Gives s t T c m) (h : encBody t x s = .ok u a) :
    ∃ e, T.entry? x = some e ∧ a = ⟨x, T.values e, c⟩ := by
  obtain ⟨key, hb⟩ := encBody_gives (x := x) hg
  exact encWith_ok (hb.symm.trans h)

theorem encBody_ok_sym (h : encBody t x s = .ok u a) : a.sym = x := by
  unfold encBody at h
  split at h
  · cases h
  · obtain ⟨e, -, rfl⟩ := encWith_ok h
    rfl

/-- Step DESC of CSYM on the table SELECT gives: it codes the symbol, or ESC and goes one order down
(spec/44_drivers.md R221). -/
theorem csymDesc_gives (hg : Gives s t T c m) (k : SymLoop) :
    csymDesc x t k s = (encBody t (if x ∈ T.syms then x else Sym.esc) s).map fun a =>
      some (if x ∈ T.syms then resolved a k.e (k.cr || a.created) else descend t k.e (k.cr || a.created)) := by
  obtain ⟨key, hsel⟩ := select_of_gives hg (encode (.enc t Sym.esc))
  have hpresent : (T.entry? x).isSome = true ↔ x ∈ T.syms := Table.entry?_isSome
  simp only [csymDesc, encBody, hsel, select_anyWord hsel, hpresent]
  split <;> rfl

end

/-! ### A step beside the command that runs the same body -/

section
variable {s u : State} {α : Type} {b : Body α} {cont cont' : State → α → State}

/-- Two steps with one body: both enter its fault, or each goes on in its own way. -/
theorem Body.finish_beside (hb : b.Leaves fun t => t.fault = none) (hc : ∀ t a, (cont t a).fault = t.fault)
    (hu : b.finish s cont = .next u) :
    (u.fault ≠ none ∧ b.finish s cont' = .next u) ∨
      (u.fault = none ∧ ∃ t a, b = .ok t a ∧ u = cont t a ∧ b.finish s cont' = .next (cont' t a)) := by
  rcases Body.finish_next hu with ⟨t, a, rfl, rfl⟩ | ⟨r, rfl, rfl⟩ | ⟨r, t, rfl, rfl⟩
  · exact .inr ⟨(hc t a).trans hb, t, a, rfl, rfl, rfl⟩
  · exact .inl ⟨Option.some_ne_none _, rfl⟩
  · exact .inl ⟨Option.some_ne_none _, rfl⟩

/-- The same as the statements put it: where the command ends without a fault, `u'` is what the step goes on to. -/
theorem Body.finish_beside_iff {u' : State} (hb : b.Leaves fun t => t.fault = none) (hc : ∀ t a, (cont t a).fault = t.fault)
    (hu : b.finish s cont = .next u) (hok : ∀ t a, b = .ok t a → u = cont t a → cont' t a = u') :
    (u.fault ≠ none → b.finish s cont' = .next u) ∧ (u.fault = none → b.finish s cont' = .next u') := by
  rcases Body.finish_beside (cont' := cont') hb hc hu with ⟨hf, h⟩ | ⟨hf, t, a, hta, huc, h⟩
  · exact ⟨fun _ => h, fun hn => absurd hn hf⟩
  · exact ⟨fun hn => absurd hf hn, fun _ => hok t a hta huc ▸ h⟩

theorem Body.map_finish {β : Type} (f : α → β) (g : State → β → State) (b : Body α) (s : State) :
    (b.map f).finish s g = b.finish s fun t a => g t (f a) := by
  cases b <;> rfl

end

/-! ### Symbol commands after step 0 -/

section
variable {s : State} {x : Sym} {k : SymLoop} {w : Word}

theorem exec_csym_sym (h : s.seq = .running w (.sym k)) : exec (.csym x) s =
    (csymStep x k s).finish s (continueSym (fun k => goto (encode (.csym x)) (.sym k)) complete) := by
  show execCsym x s = _
  rw [execCsym, loopOf, h]

theorem exec_dsym_sym (h : s.seq = .running w (.sym k)) : exec .dsym s =
    (dsymStep k s).finish s (continueSym (fun k => goto (encode .dsym) (.sym k)) complete) := by
  show execDsym s = _
  rw [execDsym, loopOf, h]

theorem encode_csym (x : Sym) : encode (.csym x) = cmdWord 0x20 0 x.toNat := packWord_eq_cmdWord 0x20 0 x

theorem getLsbD_eq {n i : Nat} {v : BitVec n} {b : Bool} (h : v.toNat / 2 ^ i % 2 = b.toNat) : v.getLsbD i = b := by
  rw [BitVec.getLsbD, Nat.testBit_eq_decide_div_mod_eq, h]
  cases b <;> rfl

/-- RESULT of a coder command carries the created flag in bit 11 (spec/10_state.md R47). -/
theorem ResultFields.toWord_created (f : ResultFields) : f.toWord.getLsbD 11 = f.created :=
  getLsbD_eq (by
    have := resultLayout f
    have := f.sym.isLt
    have := f.valid.toNat_le
    have := f.present.toNat_le
    have := f.created.toNat_le
    have := f.eof.toNat_le
    omega)

theorem ResultFields.toWord_eof (f : ResultFields) : f.toWord.getLsbD 12 = f.eof :=
  getLsbD_eq (by
    have := resultLayout f
    have := f.sym.isLt
    have := f.valid.toNat_le
    have := f.present.toNat_le
    have := f.created.toNat_le
    have := f.eof.toNat_le
    omega)

theorem ResultFields.toWord_valid (f : ResultFields) : f.toWord.getLsbD 9 = f.valid :=
  getLsbD_eq (by
    have := resultLayout f
    have := f.sym.isLt
    have := f.valid.toNat_le
    have := f.present.toNat_le
    have := f.created.toNat_le
    have := f.eof.toNat_le
    omega)

theorem codedResult_sym (t : State) (a : Coded) : (codedResult t a).result.setWidth 9 = a.sym :=
  ResultFields.toWord_setWidth _

theorem codedResult_created (t : State) (a : Coded) : (codedResult t a).result.getLsbD 11 = a.created :=
  ResultFields.toWord_created _

end

/-- Going on inside a driver instead of completing: RESULT, RES_* and DONE_IP stay (spec/44_drivers.md R220). -/
theorem goto_eq_codedResult {s t : State} (h : Quiet s t) (a : Coded) (w : Word) (l : Loop) :
    goto w l t = { codedResult t a with doneIp := s.doneIp, result := s.result, res := s.res, seq := .running w l } := by
  rw [← h.doneIp, ← h.result, ← h.res]
  rfl

theorem goto_eq_complete {s t : State} (h : Quiet s t) (w : Word) (l : Loop) :
    goto w l t = { complete t with doneIp := s.doneIp, seq := .running w l } := by
  rw [← h.doneIp]
  rfl

theorem Body.Leaves.of_ok {α : Type} {P : State → Prop} {b : Body α} {t : State} {a : α} (h : b.Leaves P) (hb : b = .ok t a) :
    P t := by
  rw [hb] at h
  exact h

/-- A body that leaves the fault alone keeps FAULT = 0. -/
theorem Body.Leaves.noFault {α : Type} {s : State} {b : Body α} (h : b.Leaves (Quiet s)) (hs : s.fault = none) :
    b.Leaves fun t => t.fault = none :=
  h.mono fun _ ht => ht.fault.trans hs

section
variable {s u : State} {x y : Sym} {o : Tsel} {e : Nat} {cr : Bool} {tl : ResRegs} {w : Word} {i : Instr}
  {fin : State → State}

/-- PUPD runs through with as many new contexts as CTX grows by (spec/43_ppm_context_model.md R204). -/
theorem pupdBody_ok_length {t : State} {n : Nat} (h : s.Sound) (hb : pupdBody x s = .ok t n) :
    t.ctx.length = s.ctx.length + n := by
  unfold pupdBody at hb
  simp only at hb
  split at hb
  · split at hb
    · cases hb; rfl
    · split at hb
      · cases hb
      · split at hb
        · cases hb
        · cases hb
          exact updStore_length x (updKeys_nodup _ _) h.store.canonical
  · cases hb

/-- Step UPD of CSYM and DSYM beside PUPD (spec/44_drivers.md R221, R222). -/
theorem updStep_beside (h : s.Sound) (hf : s.fault = none)
    (hi : exec i s = (updStep y tl ⟨.upd y tl, e, cr⟩ s).finish s (continueSym (fun k => goto w (.sym k)) fin))
    (hu : exec (.pupd y) s = .next u) :
    (u.fault ≠ none → exec i s = .next u) ∧
      (u.fault = none → exec i s = .next { u with
        doneIp := s.doneIp, seq := .running w (.sym ⟨.push y tl, e, cr || decide (s.ctx.length < u.ctx.length)⟩) }) := by
  have hquiet := (pupdBody_quiet s y).mono fun _ ht => ht.toQuiet
  rw [hi, updStep, Body.map_finish]
  refine Body.finish_beside_iff (cont := fun t _ => complete t) (hquiet.noFault hf) (fun _ _ => rfl) hu ?_
  rintro t n hb rfl
  have hlen : decide (s.ctx.length < (complete t).ctx.length) = decide (0 < n) := by
    rw [complete_ctx, pupdBody_ok_length h hb, decide_eq_decide]
    omega
  rw [hlen]
  exact goto_eq_complete (hquiet.of_ok hb) ..

/-- Step PUSH of CSYM and DSYM beside HPUSH (spec/44_drivers.md R221, R222). -/
theorem pushStep_beside (hf : s.fault = none)
    (hi : exec i s = (pushStep y tl ⟨.push y tl, e, cr⟩ s).finish s (continueSym (fun k => goto w (.sym k)) fin))
    (hu : exec (.hpush y) s = .next u) :
    (u.fault ≠ none → exec i s = .next u) ∧
      (u.fault = none → exec i s = .next { u with
        doneIp := s.doneIp, seq := .running w (.sym ⟨.done y tl, e, cr⟩) }) := by
  have hquiet := (hpushBody_quiet s y).mono fun _ ht => ht.toQuiet
  rw [hi, pushStep, Body.map_finish]
  refine Body.finish_beside_iff (cont := fun t _ => complete t) (hquiet.noFault hf) (fun _ _ => rfl) hu ?_
  rintro t n hb rfl
  exact goto_eq_complete (hquiet.of_ok hb) ..

theorem csymDesc_beside {T : Table} {c : Bool} {m : Store} (hf : s.fault = none)
    (hseq : s.seq = .running w (.sym ⟨.desc o, e, cr⟩)) (hg : Gives s o T c m)
    (hu : exec (.enc o (if x ∈ T.syms then x else Sym.esc)) s = .next u) :
    (u.fault ≠ none → exec (.csym x) s = .next u) ∧
      (u.fault = none → exec (.csym x) s = .next { u with
        doneIp := s.doneIp, result := s.result, res := s.res
        seq := .running (cmdWord 0x20 0 x.toNat) (.sym
          ⟨if x ∈ T.syms then (if x = Sym.eof then .done x u.res else .upd x u.res) else if o = 0 then .fall else .desc (o - 1),
            if x ∈ T.syms then e else e + 1, cr || c⟩) }) := by
  have hstep : csymStep x ⟨.desc o, e, cr⟩ s = _ := csymDesc_gives hg _
  have hquiet := (encBody_quiet s o (if x ∈ T.syms then x else Sym.esc)).mono fun _ ht => ht.toQuiet
  rw [exec_csym_sym hseq, hstep, Body.map_finish]
  refine Body.finish_beside_iff (cont := codedResult) (hquiet.noFault hf) (fun _ _ => rfl) hu ?_
  rintro t a hb rfl
  obtain ⟨en, -, rfl⟩ := encBody_ok hg hb
  rw [← encode_csym]
  by_cases hx : x ∈ T.syms
  · simp only [if_pos hx]
    exact goto_eq_codedResult (hquiet.of_ok hb) ..
  · simp only [if_neg hx]
    exact goto_eq_codedResult (hquiet.of_ok hb) ..

theorem csymFall_beside (hf : s.fault = none) (hseq : s.seq = .running w (.sym ⟨.fall, e, cr⟩))
    (hu : exec (.enc (if x = Sym.eof then 0 else Tsel.m1) x) s = .next u) :
    (u.fault ≠ none → exec (.csym x) s = .next u) ∧
      (u.fault = none → exec (.csym x) s = .next { u with
        doneIp := s.doneIp, result := s.result, res := s.res
        seq := .running (cmdWord 0x20 0 x.toNat) (.sym ⟨if x = Sym.eof then .done x u.res else .upd x u.res, e, cr⟩) }) := by
  have hquiet := (encBody_quiet s (if x = Sym.eof then 0 else Tsel.m1) x).mono fun _ ht => ht.toQuiet
  have hstep : csymStep x ⟨.fall, e, cr⟩ s = csymFall x ⟨.fall, e, cr⟩ s := rfl
  rw [exec_csym_sym hseq, hstep, csymFall, Body.map_finish]
  refine Body.finish_beside_iff (cont := codedResult) (hquiet.noFault hf) (fun _ _ => rfl) hu ?_
  rintro t a hb rfl
  have hsym := encBody_ok_sym hb
  rw [← encode_csym, ← hsym]
  exact goto_eq_codedResult (hquiet.of_ok hb) ..

theorem dsymDesc_beside (hf : s.fault = none) (hseq : s.seq = .running w (.sym ⟨.desc o, e, cr⟩))
    (hu : exec (.dec o) s = .next u) :
    (u.fault ≠ none → exec .dsym s = .next u) ∧
      (u.fault = none → exec .dsym s = .next { u with
        doneIp := s.doneIp, result := s.result, res := s.res
        seq := .running (cmdWord 0x21 0 0) (.sym
          ⟨if (u.result.setWidth 9 : Sym) ≠ Sym.esc then
              (if (u.result.setWidth 9 : Sym) = Sym.eof then .done (u.result.setWidth 9) u.res
                else .upd (u.result.setWidth 9) u.res)
            else if o = 0 then .fall else .desc (o - 1),
            if (u.result.setWidth 9 : Sym) ≠ Sym.esc then e else e + 1, cr || u.result.getLsbD 11⟩) }) := by
  have hquiet := (decBody_quiet s o).mono fun _ ht => ht.toQuiet
  have hstep : dsymStep ⟨.desc o, e, cr⟩ s = dsymDesc o ⟨.desc o, e, cr⟩ s := rfl
  rw [exec_dsym_sym hseq, hstep, dsymDesc, Body.map_finish]
  refine Body.finish_beside_iff (cont := codedResult) (hquiet.noFault hf) (fun _ _ => rfl) hu ?_
  rintro t a hb rfl
  rw [codedResult_sym, codedResult_created]
  by_cases hx : a.sym = Sym.esc
  · simp only [hx, ne_eq, not_true_eq_false, if_true, if_false]
    exact goto_eq_codedResult (hquiet.of_ok hb) ..
  · simp only [hx, ne_eq, not_false_eq_true, if_true, if_false]
    exact goto_eq_codedResult (hquiet.of_ok hb) ..

theorem dsymFall_beside (hf : s.fault = none) (hseq : s.seq = .running w (.sym ⟨.fall, e, cr⟩))
    (ho : 0 ≤ s.orderAct.toInt) (hu : exec (.dec Tsel.m1) s = .next u) :
    (u.fault ≠ none → exec .dsym s = .next u) ∧
      (u.fault = none → exec .dsym s = .next { u with
        doneIp := s.doneIp, result := s.result, res := s.res
        seq := .running (cmdWord 0x21 0 0) (.sym ⟨.upd (u.result.setWidth 9) u.res, e, cr⟩) }) := by
  have hquiet := (decBody_quiet s Tsel.m1).mono fun _ ht => ht.toQuiet
  have hstep : dsymStep ⟨.fall, e, cr⟩ s = dsymFall ⟨.fall, e, cr⟩ s := rfl
  rw [exec_dsym_sym hseq, hstep, dsymFall, if_neg (Int.not_lt.2 ho), Body.map_finish]
  refine Body.finish_beside_iff (cont := codedResult) (hquiet.noFault hf) (fun _ _ => rfl) hu ?_
  rintro t a hb rfl
  rw [codedResult_sym]
  exact goto_eq_codedResult (hquiet.of_ok hb) ..

end

/-- Settles O35: each phase is one lemma above. -/
theorem csymSteps : Obligations.CsymSteps := by
  refine ⟨formatS fun p w ho => by simp only [decode, ho], fun s x h hf => ?_⟩
  have hstart (hseq : s.seq = .running (cmdWord 0x20 0 x.toNat) .start) : exec (.csym x) s =
      if x = Sym.esc then .next (faultEntry ⟨.badSymbol, cmdWord 0x20 0 x.toNat⟩ s)
      else .next (goto (cmdWord 0x20 0 x.toNat) (.sym (symStart s)) s) := by
    show execCsym x s = _
    rw [execCsym, loopOf, hseq, encode_csym]
  refine ⟨fun hseq => ⟨fun hx => ⟨_, (hstart hseq).trans (if_pos hx), rfl⟩, fun hx => by rw [hstart hseq, if_neg hx]; rfl⟩,
    fun o e cr hseq ho => ⟨fun f hr => ?_, fun T c m hg u hu => csymDesc_beside hf hseq hg hu⟩,
    fun e cr hseq u hu => csymFall_beside hf hseq hu,
    fun y tl e cr hseq u hu => ?_, fun y tl e cr hseq u hu => ?_, fun y tl e cr hseq => ?_⟩
  · have hbody : csymStep x ⟨.desc o, e, cr⟩ s = (encBody o Sym.esc s).map fun a => some (resolved a e cr) := by
      show csymDesc x o _ s = _
      rw [csymDesc, encBody, select_of_raises hr]
      rfl
    rw [exec_csym_sym hseq, hbody, encBody, select_of_raises hr]
    show _ = (encBody o Sym.esc s).finish s codedResult
    rw [encBody, select_of_raises hr]
    rfl
  · exact updStep_beside h hf (by rw [exec_csym_sym hseq, encode_csym]; rfl) hu
  · exact pushStep_beside hf (by rw [exec_csym_sym hseq, encode_csym]; rfl) hu
  · rw [exec_csym_sym hseq]
    rfl

/-- Settles O36: each phase is one lemma above. -/
theorem dsymSteps : Obligations.DsymSteps := by
  refine ⟨formatN fun p w ho => by simp only [decode, ho], fun s h hf => ⟨fun hseq => ?_,
    fun o e cr hseq u hu => dsymDesc_beside hf hseq hu,
    fun e cr hseq => ⟨fun ho => ?_, fun ho u hu => dsymFall_beside hf hseq ho hu⟩,
    fun y tl e cr hseq u hu => updStep_beside h hf (exec_dsym_sym hseq) hu,
    fun y tl e cr hseq u hu => pushStep_beside hf (exec_dsym_sym hseq) hu, fun y tl e cr hseq => ?_⟩⟩
  · show execDsym s = _
    rw [execDsym, loopOf, hseq]
    rfl
  · have hbody : dsymStep ⟨.fall, e, cr⟩ s = .raise ⟨.orderM1Decode, 0x53E00000⟩ := if_pos ho
    rw [exec_dsym_sym hseq]
    exact Body.traps_finish hbody
  · rw [exec_dsym_sym hseq]
    show Host.Outcome.next (complete (symResult y tl ⟨.done y tl, e, cr⟩ (outputByte y s))) = _
    rw [BitVec.ofNat_toNat]
    by_cases hy : y = Sym.eof
    · simp only [outputByte, if_pos hy]; rfl
    · simp only [outputByte, if_neg hy]; rfl

/-! ### The stages of COMPRESS and DECOMPRESS -/

section
variable {s : State} {x : Sym} {k : SymLoop}

/-- Every step of CSYM, DONE too, leaves FAULT and DONE_IP to the end of the step (spec/60_exceptions.md R269). -/
theorem csymStep_keepsEnds (s : State) (x : Sym) (k : SymLoop) :
    (csymStep x k s).Leaves fun t => t.fault = s.fault ∧ t.doneIp = s.doneIp := by
  cases hk : doneSym k with
  | none => exact (csymStep_quiet s x hk).mono fun _ h => ⟨h.fault, h.doneIp⟩
  | some y =>
    obtain ⟨phase, e, cr⟩ := k
    cases phase with
    | done y tl => exact ⟨rfl, rfl⟩
    | _ => cases hk

theorem dsymStep_keepsEnds (s : State) (k : SymLoop) :
    (dsymStep k s).Leaves fun t => t.fault = s.fault ∧ t.doneIp = s.doneIp := by
  cases hk : doneSym k with
  | none => exact (dsymStep_quiet s hk).mono fun _ h => ⟨h.fault, h.doneIp⟩
  | some y =>
    obtain ⟨phase, e, cr⟩ := k
    cases phase with
    | done y tl =>
      show (outputByte y s).fault = s.fault ∧ (outputByte y s).doneIp = s.doneIp
      unfold outputByte
      split <;> exact ⟨rfl, rfl⟩
    | _ => cases hk

/-- A DSYM whose step DONE is through has reported in RESULT.EOF whether its symbol was EOF (spec/44_drivers.md R222). -/
theorem dsymStep_done_eof {t : State} (h : dsymStep k s = .ok t none) :
    t.result.getLsbD 12 = decide (doneSym k = some Sym.eof) := by
  obtain ⟨phase, e, cr⟩ := k
  cases phase with
  | desc o =>
    change dsymDesc o _ s = _ at h
    rw [dsymDesc] at h
    cases hb : decBody o s <;> rw [hb] at h <;> cases h
  | fall =>
    change dsymFall _ s = _ at h
    unfold dsymFall at h
    split at h
    · cases h
    · cases hb : decBody Tsel.m1 s <;> rw [hb] at h <;> cases h
  | upd y tl =>
    change updStep y tl _ s = _ at h
    rw [updStep] at h
    cases hb : pupdBody y s <;> rw [hb] at h <;> cases h
  | push y tl =>
    change pushStep y tl _ s = _ at h
    rw [pushStep] at h
    cases hb : hpushBody y s <;> rw [hb] at h <;> cases h
  | done y tl =>
    cases h
    exact (ResultFields.toWord_eof _).trans (by simp [doneSym])

variable {v w : Word} {u : State} {b : Body (Option SymLoop)} {inside : SymLoop → Loop} {next : Loop}

/-- A step inside a whole-stream command beside the same step of the symbol command, whose body is `b`
(spec/44_drivers.md R223, R224, R231). -/
theorem symStep_beside (hb : b.Leaves fun t => t.fault = s.fault ∧ t.doneIp = s.doneIp) (hf : s.fault = none)
    (hu : b.finish s (continueSym (fun k => goto v (.sym k)) complete) = .next u) :
    (u.fault ≠ none → b.finish s (continueSym (fun k => goto w (inside k)) (goto w next)) = .next u) ∧
      (∀ k', u.seq = .running v (.sym k') →
        b.finish s (continueSym (fun k => goto w (inside k)) (goto w next)) = .next { u with seq := .running w (inside k') }) ∧
      (u.fault = none → u.seq = .idle → (∃ t, b = .ok t none ∧ u = complete t) ∧
        b.finish s (continueSym (fun k => goto w (inside k)) (goto w next)) =
          .next { u with doneIp := s.doneIp, seq := .running w next }) := by
  rcases Body.finish_next hu with ⟨t, a, rfl, rfl⟩ | ⟨r, rfl, rfl⟩ | ⟨r, t, rfl, rfl⟩
  · obtain ⟨hfault, hdone⟩ := hb
    cases a with
    | none => exact ⟨fun hn => absurd (hfault.trans hf) hn, fun k' hk => Seq.noConfusion hk,
        fun _ _ => ⟨⟨t, rfl, rfl⟩, by rw [← hdone]; rfl⟩⟩
    | some k => exact ⟨fun hn => absurd (hfault.trans hf) hn, fun k' hk => by cases hk; rfl, fun _ hi => Seq.noConfusion hi⟩
  · exact ⟨fun _ => rfl, fun k' hk => Seq.noConfusion hk, fun hn => absurd hn (Option.some_ne_none _)⟩
  · exact ⟨fun _ => rfl, fun k' hk => Seq.noConfusion hk, fun hn => absurd hn (Option.some_ne_none _)⟩

/-- A first stage beside the single-step command with the same body (spec/44_drivers.md R220, R223, R224). -/
theorem stage_beside {b : Body Unit} {l : Loop} (hb : b.Leaves (Quiet s)) (hf : s.fault = none)
    (hu : b.single s = .next u) :
    (u.fault ≠ none → (b.finish s fun t _ => goto w l t) = .next u) ∧
      (u.fault = none → (b.finish s fun t _ => goto w l t) = .next { u with doneIp := s.doneIp, seq := .running w l }) := by
  refine Body.finish_beside_iff (cont := fun t _ => complete t) (hb.noFault hf) (fun _ _ => rfl) hu ?_
  rintro t a hok rfl
  exact goto_eq_complete (hb.of_ok hok) ..

/-- A step that goes on or completes overwrites SEQ. -/
theorem continueSym_withSeq {more : SymLoop → State → State} {fin : State → State} {q : Seq}
    (hm : ∀ k u, more k { u with seq := q } = more k u) (hfin : ∀ u, fin { u with seq := q } = fin u) (u : State)
    (k : Option SymLoop) : continueSym more fin { u with seq := q } k = continueSym more fin u k := by
  cases k with
  | none => exact hfin u
  | some k => exact hm k u

end

section
variable {s : State}

/-! One equation for each loop state of COMPRESS and DECOMPRESS (spec/44_drivers.md R223, R224). -/

theorem compress_start (h : loopOf s = .start) :
    exec .compress s = (cinitBody s).finish s fun t _ => goto (encode .compress) .cMinit t := by
  show execCompress s = _
  rw [execCompress, h]

theorem compress_minit (h : loopOf s = .cMinit) :
    exec .compress s = (minitBody s).finish s fun t _ => goto (encode .compress) .cNext t := by
  show execCompress s = _
  rw [execCompress, h]

theorem compress_byte {b : Byte} {rest : List Byte} (h : loopOf s = .cNext) (hq : s.inByteQ = b :: rest) :
    exec .compress s = .next (goto (encode .compress) (.cSym (symOf b) (symStart s)) { s with inByteQ := rest }) := by
  show execCompress s = _
  rw [execCompress, h, hq]

theorem compress_eof (h : loopOf s = .cNext) (hq : s.inByteQ = []) :
    exec .compress s = .next (goto (encode .compress) (.cSym Sym.eof (symStart s)) s) := by
  show execCompress s = _
  rw [execCompress, h, hq]

theorem compress_sym {x : Sym} {k : SymLoop} (h : loopOf s = .cSym x k) : exec .compress s =
    (csymStep x k s).finish s (continueSym (fun k => goto (encode .compress) (.cSym x k))
      (goto (encode .compress) (if x = Sym.eof then .cFin else .cNext))) := by
  show execCompress s = _
  rw [execCompress, h]

theorem compress_fin (h : loopOf s = .cFin) : exec .compress s = exec .fin s := by
  show execCompress s = _
  rw [execCompress, h]
  rfl

theorem decompress_start (h : loopOf s = .start) :
    exec .decompress s = (cinitBody s).finish s fun t _ => goto (encode .decompress) .dMinit t := by
  show execDecompress s = _
  rw [execDecompress, h]

theorem decompress_minit (h : loopOf s = .dMinit) :
    exec .decompress s = (minitBody s).finish s fun t _ => goto (encode .decompress) .dPrime t := by
  show execDecompress s = _
  rw [execDecompress, h]

theorem decompress_prime (h : loopOf s = .dPrime) :
    exec .decompress s = (dprimeBody s).finish s fun t _ => goto (encode .decompress) .dNext t := by
  show execDecompress s = _
  rw [execDecompress, h]

theorem decompress_next (h : loopOf s = .dNext) :
    exec .decompress s = .next (goto (encode .decompress) (.dSym (symStart s)) s) := by
  show execDecompress s = _
  rw [execDecompress, h]

theorem decompress_sym {k : SymLoop} (h : loopOf s = .dSym k) : exec .decompress s =
    (dsymStep k s).finish s (continueSym (fun k => goto (encode .decompress) (.dSym k))
      (goto (encode .decompress) (if doneSym k = some Sym.eof then .dClear else .dNext))) := by
  show execDecompress s = _
  rw [execDecompress, h]

theorem decompress_clear (h : loopOf s = .dClear) : exec .decompress s = .next (complete { s with inBitQ := [] }) := by
  show execDecompress s = _
  rw [execDecompress, h]

theorem loopOf_running {w : Word} {l : Loop} (h : s.seq = .running w l) : loopOf s = l := by rw [loopOf, h]

end

/-- Settles O40: each stage runs the body of its command; SEQ is no part of a body, so inside a symbol the step is CSYM's. -/
theorem compressStages : Obligations.CompressStages := by
  refine ⟨formatN fun p w ho => by simp only [decode, ho], fun s hf => ⟨fun hseq u hu => ?_, fun hseq u hu => ?_,
    fun hseq => ⟨fun b rest hq => ?_, fun hq => ?_⟩, fun x k hseq u hu => ?_, fun hseq => ?_⟩⟩
  all_goals have hloop := loopOf_running hseq
  · rw [compress_start hloop]
    exact stage_beside (cinitBody_quiet s) hf hu
  · rw [compress_minit hloop]
    exact stage_beside (minitBody_quiet s) hf hu
  · rw [compress_byte hloop hq, BitVec.ofNat_toNat]
    rfl
  · rw [compress_eof hloop hq]
    rfl
  · rw [exec_csym_sym rfl, csymStep_withSeq, Body.withSeq_finish (continueSym_withSeq (fun _ _ => rfl) fun _ => rfl),
      encode_csym] at hu
    rw [compress_sym hloop]
    obtain ⟨h1, h2, h3⟩ := symStep_beside (csymStep_keepsEnds s x k) hf hu
    exact ⟨h1, h2, fun hn hi => (h3 hn hi).2⟩
  · have hfin := compress_fin hloop
    exact ⟨hfin, fun hp => ⟨_, hfin.trans ((finFlushes.2 s).2 hp), ⟨rfl, rfl, rfl⟩, rfl, rfl⟩⟩

/-- Settles O41: each stage runs the body of its command; SEQ is no part of a body, so inside a symbol the step is DSYM's. -/
theorem decompressStages : Obligations.DecompressStages := by
  refine ⟨formatN fun p w ho => by simp only [decode, ho], fun s hf => ⟨fun hseq u hu => ?_, fun hseq u hu => ?_,
    fun hseq u hu => ?_, fun hseq => ?_, fun k hseq u hu => ?_, fun hseq => ?_⟩⟩
  all_goals have hloop := loopOf_running hseq
  · rw [decompress_start hloop]
    exact stage_beside (cinitBody_quiet s) hf hu
  · rw [decompress_minit hloop]
    exact stage_beside (minitBody_quiet s) hf hu
  · cases hu
    exact decompress_prime hloop
  · exact decompress_next hloop
  · rw [exec_dsym_sym rfl, dsymStep_withSeq, Body.withSeq_finish (continueSym_withSeq (fun _ _ => rfl) fun _ => rfl)] at hu
    rw [decompress_sym hloop]
    obtain ⟨h1, h2, h3⟩ := symStep_beside (dsymStep_keepsEnds s k) hf hu
    refine ⟨h1, h2, fun hn hi => ?_⟩
    obtain ⟨⟨t, hok, rfl⟩, h4⟩ := h3 hn hi
    rw [h4, complete_result, dsymStep_done_eof hok]
    simp only [decide_eq_true_eq]
    rfl
  · exact decompress_clear hloop

end Sys2Proof.Machine
end

section
/-! PROOFS. Family 44_drivers, runs: a symbol command steps through its phases to DONE or to a fault, and COMPRESS runs one symbol
command after the other, so each ends within a bound. -/

namespace Sys2Proof.Machine

/-! ### Runs of the core -/

/-- At most `n` core steps lead from `s` to `t`. -/
def Reaches (n : Nat) (s t : State) : Prop := ∃ m, m ≤ n ∧ coreRun m s = .next t

section
variable {n m : Nat} {s t u : State}

theorem Reaches.refl (n : Nat) (s : State) : Reaches n s s := ⟨0, Nat.zero_le n, rfl⟩

theorem Reaches.mono (h : Reaches n s t) (hn : n ≤ m) : Reaches m s t := by
  obtain ⟨k, hk, hrun⟩ := h
  exact ⟨k, hk.trans hn, hrun⟩

theorem Reaches.step (h : coreStep s = .next u) (hu : Reaches n u t) : Reaches (n + 1) s t := by
  obtain ⟨k, hk, hrun⟩ := hu
  exact ⟨k + 1, Nat.succ_le_succ hk, (coreRun_succ h).trans hrun⟩

theorem Reaches.trans (h : Reaches n s u) (h' : Reaches m u t) : Reaches (n + m) s t := by
  obtain ⟨k, hk, hrun⟩ := h
  obtain ⟨k', hk', hrun'⟩ := h'
  exact ⟨k + k', Nat.add_le_add hk hk', (coreRun_add hrun).trans hrun'⟩

/-- An idle core stays as it is (spec/60_exceptions.md R268; log 18). -/
theorem coreRun_idle (hs : s.seq = .idle) (n : Nat) : coreRun n s = .next s := by
  induction n with
  | zero => rfl
  | succ n ih => exact (coreRun_succ (coreStep_idle hs)).trans ih

/-- A run has one idle end. -/
theorem Reaches.idle_unique (ht : coreRun m s = .next t) (hti : t.seq = .idle) (h : Reaches n s u) (hui : u.seq = .idle) :
    t = u := by
  obtain ⟨k, -, hrun⟩ := h
  have h1 := (coreRun_add (m := k) ht).trans (coreRun_idle hti k)
  have h2 := (coreRun_add (m := m) hrun).trans (coreRun_idle hui m)
  rw [Nat.add_comm, h2] at h1
  exact (Host.Outcome.next.inj h1).symm

theorem goto_self {w : Word} {l : Loop} (h : s.seq = .running w l) : goto w l s = s := by rw [goto, ← h]

/-- The core runs the command whose word is in SEQ (spec/60_exceptions.md R268). -/
theorem coreStep_goto {i : Instr} (hi : i.wellFormed s.params = true) (l : Loop) :
    coreStep (goto (encode i) l s) = exec i (goto (encode i) l s) := coreStep_ok rfl (decode_encode hi)

end

/-! ### Symbol commands -/

/-- One primitive step of a symbol command after step 0. -/
abbrev SymStep : Type := SymLoop → State → Body (Option SymLoop)

/-- What the runs use of the steps of CSYM and DSYM; `report` is what step DONE does (spec/44_drivers.md R221, R222). -/
structure SymStep.Lawful (step : SymStep) (report : Sym → ResRegs → SymLoop → State → State) : Prop where
  /-- No phase before DONE ends the command, and each leads nearer to DONE (R226). -/
  goesOn : ∀ k s, doneSym k = none → BodyAnswers (fun k' => ∃ k₁, k' = some k₁ ∧ phaseRank k₁.phase < phaseRank k.phase) (step k s)
  /-- No phase before DONE writes what only the end of the command writes. -/
  quiet : ∀ k s, doneSym k = none → (step k s).Leaves (SymQuiet s)
  /-- Step DONE ends the command. -/
  done : ∀ k s y tl, k.phase = .done y tl → step k s = .ok (report y tl k s) none

/-- Step DONE of DSYM (spec/44_drivers.md R222). -/
def dsymReport (y : Sym) (tl : ResRegs) (k : SymLoop) (s : State) : State := symResult y tl k (outputByte y s)

theorem BodyAnswers.of_ok {α : Type} {P : α → Prop} {b : Body α} (h : ∀ t a, b = .ok t a → P a) : BodyAnswers P b := by
  cases b with
  | ok t a => exact h t a rfl
  | _ => trivial

theorem BodyAnswers.apply {α : Type} {P : α → Prop} {b : Body α} {t : State} {a : α} (h : BodyAnswers P b)
    (hb : b = .ok t a) : P a := by
  rw [hb] at h
  exact h

theorem Body.map_eq_ok {α β : Type} {f : α → β} {b : Body α} {t : State} {c : β} (h : b.map f = .ok t c) :
    ∃ a, b = .ok t a ∧ c = f a := by
  cases b <;> cases h
  exact ⟨_, rfl, rfl⟩

/-- A step before DONE answers with a loop state. -/
theorem csymStep_isSome {x : Sym} {k : SymLoop} {s t : State} {k' : Option SymLoop} (hk : doneSym k = none)
    (h : csymStep x k s = .ok t k') : ∃ k₁, k' = some k₁ := by
  unfold csymStep at h
  split at h
  · unfold csymDesc at h
    split at h
    · cases h
    · split at h
      · obtain ⟨a, -, rfl⟩ := Body.map_eq_ok h; exact ⟨_, rfl⟩
      · obtain ⟨a, -, rfl⟩ := Body.map_eq_ok h; exact ⟨_, rfl⟩
  · obtain ⟨a, -, rfl⟩ := Body.map_eq_ok h; exact ⟨_, rfl⟩
  · obtain ⟨a, -, rfl⟩ := Body.map_eq_ok h; exact ⟨_, rfl⟩
  · obtain ⟨a, -, rfl⟩ := Body.map_eq_ok h; exact ⟨_, rfl⟩
  · next hp => simp [doneSym, hp] at hk

theorem dsymStep_isSome {k : SymLoop} {s t : State} {k' : Option SymLoop} (hk : doneSym k = none)
    (h : dsymStep k s = .ok t k') : ∃ k₁, k' = some k₁ := by
  unfold dsymStep at h
  split at h
  · obtain ⟨a, -, rfl⟩ := Body.map_eq_ok h; exact ⟨_, rfl⟩
  · unfold dsymFall at h
    split at h
    · cases h
    · obtain ⟨a, -, rfl⟩ := Body.map_eq_ok h; exact ⟨_, rfl⟩
  · obtain ⟨a, -, rfl⟩ := Body.map_eq_ok h; exact ⟨_, rfl⟩
  · obtain ⟨a, -, rfl⟩ := Body.map_eq_ok h; exact ⟨_, rfl⟩
  · next hp => simp [doneSym, hp] at hk

theorem csymStep_lawful (x : Sym) : SymStep.Lawful (csymStep x) symResult where
  goesOn k s hk := BodyAnswers.of_ok fun t k' h => by
    obtain ⟨k₁, rfl⟩ := csymStep_isSome hk h
    exact ⟨k₁, rfl, (csymStep_rankDown x k s).apply h⟩
  quiet k s hk := (csymStep_quiet s x hk).mono fun _ h => h.toSymQuiet
  done k s y tl hk := by rw [csymStep, hk]

theorem dsymStep_lawful : SymStep.Lawful dsymStep dsymReport where
  goesOn k s hk := BodyAnswers.of_ok fun t k' h => by
    obtain ⟨k₁, rfl⟩ := dsymStep_isSome hk h
    exact ⟨k₁, rfl, (dsymStep_rankDown k s).apply h⟩
  quiet k s hk := dsymStep_quiet s hk
  done k s y tl hk := by rw [dsymStep, hk]; rfl

/-- Steps that run through lead from the loop state `k` in `s` to `k'` in `t`. -/
inductive SymPath (step : SymStep) : SymLoop → State → SymLoop → State → Prop where
  | refl (k : SymLoop) (s : State) : SymPath step k s k s
  | more {k k₁ k' : SymLoop} {s s₁ t : State} : doneSym k = none → step k s = .ok s₁ (some k₁) →
      SymPath step k₁ s₁ k' t → SymPath step k s k' t

/-- The path ends in a step that raises `r`, entered from `v` (spec/60_exceptions.md R261, R266). -/
def SymFaults (step : SymStep) (k : SymLoop) (s : State) (r : Raise) (v : State) : Prop :=
  ∃ k' t, SymPath step k s k' t ∧ doneSym k' = none ∧ (step k' t = .raise r ∧ v = t ∨ step k' t = .raiseKeeping r v)

section
variable {step : SymStep} {report : Sym → ResRegs → SymLoop → State → State} {k k' : SymLoop} {s t : State}

/-- What every step before DONE relates, the path relates. -/
theorem SymPath.relates {R : State → State → Prop} (hrefl : ∀ s, R s s) (htrans : ∀ s t u, R s t → R t u → R s u)
    (hstep : ∀ k s, doneSym k = none → (step k s).Leaves (R s)) (h : SymPath step k s k' t) : R s t := by
  induction h with
  | refl k s => exact hrefl s
  | more hk hok _ ih => exact htrans _ _ _ ((hstep _ _ hk).of_ok hok) ih

/-- What every step before DONE keeps, the path keeps. -/
theorem SymPath.keeps {I : SymLoop → State → Prop} {F : FaultCode → Prop}
    (hstep : ∀ k s, I k s → doneSym k = none →
      (step k s).Sat (fun t k' => ∀ k₁, k' = some k₁ → I k₁ t) F (fun _ => True))
    (h : SymPath step k s k' t) (hI : I k s) : I k' t := by
  induction h with
  | refl k s => exact hI
  | more hk hok _ ih =>
    have := hstep _ _ hI hk
    rw [hok] at this
    exact ih (this _ rfl)

/-- A symbol command ends: what its steps keep holds at DONE, or a step on the way raises one of the faults `F`
(spec/44_drivers.md R226). -/
theorem SymStep.Lawful.ends (hl : SymStep.Lawful step report) {I : SymLoop → State → Prop} {F : FaultCode → Prop}
    (hstep : ∀ k s, I k s → doneSym k = none →
      (step k s).Sat (fun t k' => ∀ k₁, k' = some k₁ → I k₁ t) F (fun _ => True))
    (hI : I k s) :
    (∃ k' t y tl, SymPath step k s k' t ∧ k'.phase = .done y tl ∧ I k' t) ∨ ∃ r v, F r.code ∧ SymFaults step k s r v := by
  induction hn : phaseRank k.phase using Nat.strong_induction_on generalizing k s with
  | _ n ih =>
    cases hk : doneSym k with
    | some y =>
      obtain ⟨phase, e, cr⟩ := k
      cases phase with
      | done y tl => exact .inl ⟨_, s, y, tl, .refl _ s, rfl, hI⟩
      | _ => cases hk
    | none =>
      have hsat := hstep k s hI hk
      cases hb : step k s with
      | raise r => rw [hb] at hsat; exact .inr ⟨r, s, hsat, k, s, .refl k s, hk, .inl ⟨hb, rfl⟩⟩
      | raiseKeeping r v => rw [hb] at hsat; exact .inr ⟨r, v, hsat.1, k, s, .refl k s, hk, .inr hb⟩
      | stuck f => rw [hb] at hsat; exact hsat.elim
      | ok t a =>
        rw [hb] at hsat
        obtain ⟨k₁, rfl, hlt⟩ := (hl.goesOn k s hk).apply hb
        rcases ih _ (hn ▸ hlt) (hsat k₁ rfl) rfl with ⟨k', u, y, tl, hp, hd⟩ | ⟨r, v, hF, k', u, hp, hd⟩
        · exact .inl ⟨k', u, y, tl, .more hk hb hp, hd⟩
        · exact .inr ⟨r, v, hF, k', u, .more hk hb hp, hd⟩

end

/-- The command whose word is `w` runs the steps of a symbol, its loop state at `inside k`, and goes on with `fin` after DONE
(spec/44_drivers.md R221 to R224). -/
def Drives (step : SymStep) (w : Word) (inside : SymLoop → Loop) (fin : SymLoop → State → State) : Prop :=
  ∀ k s, coreStep (goto w (inside k) s) = (step k s).finish s (continueSym (fun k => goto w (inside k)) (fin k))

theorem csym_drives {x : Sym} (hx : symOk x = true) :
    Drives (csymStep x) (encode (.csym x)) .sym fun _ => complete := fun k s => by
  rw [coreStep_goto (i := .csym x) hx, exec_csym_sym rfl, goto, csymStep_withSeq,
    Body.withSeq_finish (continueSym_withSeq (fun _ _ => rfl) fun _ => rfl)]

theorem dsym_drives : Drives dsymStep (encode .dsym) .sym fun _ => complete := fun k s => by
  rw [coreStep_goto (i := .dsym) rfl, exec_dsym_sym rfl, goto, dsymStep_withSeq,
    Body.withSeq_finish (continueSym_withSeq (fun _ _ => rfl) fun _ => rfl)]

theorem compress_drives (x : Sym) : Drives (csymStep x) (encode .compress) (.cSym x)
    fun _ => goto (encode .compress) (if x = Sym.eof then .cFin else .cNext) := fun k s => by
  rw [coreStep_goto (i := .compress) rfl, compress_sym rfl, goto, csymStep_withSeq,
    Body.withSeq_finish (continueSym_withSeq (fun _ _ => rfl) fun _ => rfl)]

theorem decompress_drives : Drives dsymStep (encode .decompress) .dSym
    fun k => goto (encode .decompress) (if doneSym k = some Sym.eof then .dClear else .dNext) := fun k s => by
  rw [coreStep_goto (i := .decompress) rfl, decompress_sym rfl, goto, dsymStep_withSeq,
    Body.withSeq_finish (continueSym_withSeq (fun _ _ => rfl) fun _ => rfl)]

section
variable {step : SymStep} {report : Sym → ResRegs → SymLoop → State → State} {w : Word} {inside : SymLoop → Loop}
  {fin : SymLoop → State → State} {k k' : SymLoop} {s t v : State}

/-- A path is a run of the core, as long as the phases it leaves behind (spec/44_drivers.md R226). -/
theorem SymPath.coreRun_eq (hl : SymStep.Lawful step report) (hd : Drives step w inside fin) (h : SymPath step k s k' t) :
    ∃ n, n + phaseRank k'.phase ≤ phaseRank k.phase ∧ coreRun n (goto w (inside k) s) = .next (goto w (inside k') t) := by
  induction h with
  | refl k s => exact ⟨0, (Nat.zero_add _).le, rfl⟩
  | more hk hok _ ih =>
    obtain ⟨n, hn, hrun⟩ := ih
    obtain ⟨k₁, heq, hlt⟩ := (hl.goesOn _ _ hk).apply hok
    cases heq
    refine ⟨n + 1, by omega, (coreRun_succ ?_).trans hrun⟩
    rw [hd, hok]
    rfl

theorem phaseRank_pos (p : Phase) : 1 ≤ phaseRank p := by cases p <;> simp [phaseRank]

/-- A path to DONE and the step DONE. -/
theorem SymPath.reaches_done (hl : SymStep.Lawful step report) (hd : Drives step w inside fin) (h : SymPath step k s k' t)
    {y : Sym} {tl : ResRegs} (hp : k'.phase = .done y tl) :
    Reaches (phaseRank k.phase) (goto w (inside k) s) (fin k' (report y tl k' t)) := by
  obtain ⟨n, hn, hrun⟩ := h.coreRun_eq hl hd
  have hpos := phaseRank_pos k'.phase
  refine ⟨n + 1, by omega, (coreRun_add hrun).trans (coreRun_succ (n := 0) ?_)⟩
  rw [hd, hl.done _ _ _ _ hp]
  rfl

/-- A path to a step that raises, and that step. -/
theorem SymFaults.reaches (hl : SymStep.Lawful step report) (hd : Drives step w inside fin) {r : Raise}
    (h : SymFaults step k s r v) : Reaches (phaseRank k.phase) (goto w (inside k) s) (faultEntry r v) := by
  obtain ⟨k', t, hpath, -, hb⟩ := h
  obtain ⟨n, hn, hrun⟩ := hpath.coreRun_eq hl hd
  have hpos := phaseRank_pos k'.phase
  refine ⟨n + 1, by omega, (coreRun_add hrun).trans (coreRun_succ (n := 0) ?_)⟩
  rcases hb with ⟨hb, rfl⟩ | hb
  · rw [hd, hb]
    rfl
  · rw [hd, hb]
    rfl

end

/-! ### What the steps of a symbol keep -/

/-- The phase goes on with the symbol `x`, where it has one already (spec/44_drivers.md R221). -/
def Phase.For (x : Sym) : Phase → Prop
  | .desc _ => True
  | .fall => True
  | .upd y _ => y = x
  | .push y _ => y = x
  | .done y _ => y = x

theorem resolved_for {x : Sym} {a : Coded} (ha : a.sym = x) (e : Nat) (cr : Bool) : (resolved a e cr).phase.For x := by
  unfold resolved
  simp only
  split <;> exact ha

theorem descend_for (x : Sym) (o : Tsel) (e : Nat) (cr : Bool) : (descend o e cr).phase.For x := by
  unfold descend
  simp only
  split <;> trivial

/-- CSYM goes on with its own symbol (spec/44_drivers.md R221). -/
theorem csymStep_for {x : Sym} {k k' : SymLoop} {s t : State} (hk : k.phase.For x) (h : csymStep x k s = .ok t (some k')) :
    k'.phase.For x := by
  unfold csymStep at h
  split at h
  · unfold csymDesc at h
    split at h
    · cases h
    · split at h
      · obtain ⟨a, hb, ha⟩ := Body.map_eq_ok h
        obtain ⟨e, -, rfl⟩ := encWith_ok hb
        cases ha
        exact resolved_for rfl _ _
      · obtain ⟨a, -, ha⟩ := Body.map_eq_ok h
        cases ha
        exact descend_for ..
  · obtain ⟨a, hb, ha⟩ := Body.map_eq_ok h
    cases ha
    exact resolved_for (encBody_ok_sym hb) _ _
  · next hp =>
    obtain ⟨a, -, ha⟩ := Body.map_eq_ok h
    cases ha
    rwa [hp] at hk
  · next hp =>
    obtain ⟨a, -, ha⟩ := Body.map_eq_ok h
    cases ha
    rwa [hp] at hk
  · cases h

/-- What holds between two steps of a CSYM of `x`. -/
structure CsymOk (x : Sym) (k : SymLoop) (s : State) : Prop where
  sound : s.Sound
  noFault : s.fault = none
  phase : k.phase.Ok s.hist.length
  forSym : k.phase.For x

/-- What holds between two steps of a DSYM. -/
structure DsymOk (k : SymLoop) (s : State) : Prop where
  sound : s.Sound
  noFault : s.fault = none
  phase : k.phase.Ok s.hist.length

theorem symStart_for (x : Sym) (s : State) : (symStart s).phase.For x := by
  unfold symStart
  simp only
  split <;> trivial

theorem csymOk_start (x : Sym) {s : State} (h : s.Sound) (hf : s.fault = none) : CsymOk x (symStart s) s :=
  ⟨h, hf, symStart_ok h, symStart_for x s⟩

theorem dsymOk_start {s : State} (h : s.Sound) (hf : s.fault = none) : DsymOk (symStart s) s := ⟨h, hf, symStart_ok h⟩

/-- A body that answers well and whose answer has `P` besides. -/
theorem Body.Sat.and_ok {α : Type} {P P' : State → α → Prop} {F : FaultCode → Prop} {Q : State → Prop} {b : Body α}
    (h : b.Sat P F Q) (h' : ∀ t a, b = .ok t a → P t a → P' t a) : b.Sat P' F Q := by
  cases b with
  | ok t a => exact h' t a rfl h
  | _ => exact h

theorem csymStep_csymOk {x : Sym} (hx : Codable x) (k : SymLoop) (s : State) (h : CsymOk x k s) (_ : doneSym k = none) :
    (csymStep x k s).Sat (fun t k' => ∀ k₁, k' = some k₁ → CsymOk x k₁ t) (fun _ => True) (fun _ => True) := by
  refine ((csymStep_sat h.sound hx h.phase).and_ok ?_).mono (fun _ _ hp => hp) (fun _ _ => trivial) (fun _ _ => trivial)
  rintro t k' hok ⟨hs, ⟨hfault, -⟩, hnext⟩ k₁ rfl
  exact ⟨hs, hfault.trans h.noFault, hnext, csymStep_for h.forSym hok⟩

theorem dsymStep_dsymOk (k : SymLoop) (s : State) (h : DsymOk k s) (_ : doneSym k = none) :
    (dsymStep k s).Sat (fun t k' => ∀ k₁, k' = some k₁ → DsymOk k₁ t) (fun _ => True) (fun _ => True) := by
  refine (dsymStep_sat h.sound h.phase).mono ?_ (fun _ _ => trivial) (fun _ _ => trivial)
  rintro t k' ⟨hs, ⟨hfault, -⟩, hnext⟩ k₁ rfl
  exact ⟨hs, hfault.trans h.noFault, hnext⟩

/-! ### Whole symbols -/

/-- A whole CSYM of `x`, its steps from step 0 on, leads from `s` to `t` (spec/44_drivers.md R221). -/
def CsymRuns (x : Sym) (s t : State) : Prop :=
  ∃ k tl u, SymPath (csymStep x) (symStart s) s k u ∧ k.phase = .done x tl ∧ t = symResult x tl k u

/-- A whole DSYM that decodes `x` leads from `s` to `t` (spec/44_drivers.md R222). -/
def DsymRuns (x : Sym) (s t : State) : Prop :=
  ∃ k tl u, SymPath dsymStep (symStart s) s k u ∧ k.phase = .done x tl ∧ t = dsymReport x tl k u

section
variable {x : Sym} {s t : State}

/-- A CSYM of a byte or EOF ends, at DONE or in a fault. -/
theorem csym_ends (hx : Codable x) (h : s.Sound) (hf : s.fault = none) :
    (∃ t, CsymRuns x s t) ∨ ∃ r v, SymFaults (csymStep x) (symStart s) s r v := by
  rcases (csymStep_lawful x).ends (csymStep_csymOk hx) (csymOk_start x h hf) with ⟨k, u, y, tl, hp, hk, hok⟩ | ⟨r, v, -, hfl⟩
  · have hy := hok.forSym
    rw [hk] at hy
    cases hy
    exact .inl ⟨_, k, tl, u, hp, hk, rfl⟩
  · exact .inr ⟨r, v, hfl⟩

theorem dsym_ends (h : s.Sound) (hf : s.fault = none) :
    (∃ x t, DsymRuns x s t) ∨ ∃ r v, SymFaults dsymStep (symStart s) s r v := by
  rcases dsymStep_lawful.ends dsymStep_dsymOk (dsymOk_start h hf) with ⟨k, u, y, tl, hp, hk, -⟩ | ⟨r, v, -, hfl⟩
  · exact .inl ⟨y, _, k, tl, u, hp, hk, rfl⟩
  · exact .inr ⟨r, v, hfl⟩

theorem SymPath.csymQuiet {k : SymLoop} (h : SymPath (csymStep x) k s k' t) : CsymQuiet s t :=
  h.relates .refl (fun _ _ _ => .trans) fun _ s hk => csymStep_quiet s x hk

theorem SymPath.symQuiet {k k' : SymLoop} (h : SymPath dsymStep k s k' t) : SymQuiet s t :=
  h.relates .refl (fun _ _ _ => .trans) fun _ s hk => dsymStep_quiet s hk

/-- What a whole CSYM leaves alone (spec/44_drivers.md R221). -/
structure CsymFrame (s t : State) : Prop extends SameFault s t where
  params : t.params = s.params
  pAct : t.pAct = s.pAct
  orderAct : t.orderAct = s.orderAct
  inBitQ : t.inBitQ = s.inBitQ
  outByteQ : t.outByteQ = s.outByteQ
  outBitQ : s.outBitQ <+: t.outBitQ

theorem CsymFrame.refl (s : State) : CsymFrame s s := ⟨⟨rfl, rfl, rfl⟩, rfl, rfl, rfl, rfl, rfl, List.prefix_rfl⟩

theorem CsymFrame.trans {u : State} (h : CsymFrame s t) (h' : CsymFrame t u) : CsymFrame s u where
  fault := h'.fault.trans h.fault
  faultInfo := h'.faultInfo.trans h.faultInfo
  faultIp := h'.faultIp.trans h.faultIp
  params := h'.params.trans h.params
  pAct := h'.pAct.trans h.pAct
  orderAct := h'.orderAct.trans h.orderAct
  inBitQ := h'.inBitQ.trans h.inBitQ
  outByteQ := h'.outByteQ.trans h.outByteQ
  outBitQ := h.outBitQ.trans h'.outBitQ

theorem CsymRuns.frame (h : CsymRuns x s t) : CsymFrame s t ∧ t.inByteQ = s.inByteQ := by
  obtain ⟨k, tl, u, hp, -, rfl⟩ := h
  have hq := hp.csymQuiet
  exact ⟨⟨⟨hq.fault, hq.faultInfo, hq.faultIp⟩, hq.params, hq.pAct, hq.orderAct, hq.inBitQ, hq.outByteQ, hq.outBitQ⟩, hq.inByteQ⟩

theorem CsymRuns.sound (hx : Codable x) (h : s.Sound) (hf : s.fault = none) (hr : CsymRuns x s t) : t.Sound := by
  obtain ⟨k, tl, u, hp, -, rfl⟩ := hr
  exact setResult_sound (hp.keeps (csymStep_csymOk hx) (csymOk_start x h hf)).sound _ _

end

/-! ### The end of CSYM and DSYM -/

theorem symOk_of_codable {x : Sym} (h : Codable x) : symOk x = true := by
  rcases h with rfl | h
  · rfl
  · exact decide_eq_true (isByte_le h)

/-- From step 1 on a symbol command completes or faults, within the phases it has before it (spec/44_drivers.md R226). -/
theorem SymStep.Lawful.command_ends {step : SymStep} {report : Sym → ResRegs → SymLoop → State → State} {w : Word}
    {k : SymLoop} {s : State} (hl : SymStep.Lawful step report) (hd : Drives step w .sym fun _ => complete)
    (hreport : ∀ y tl k s, SameFault s (report y tl k s))
    (h : (∃ k' t y tl, SymPath step k s k' t ∧ k'.phase = .done y tl) ∨ ∃ r v, SymFaults step k s r v) :
    ∃ t, Reaches (phaseRank k.phase) (goto w (.sym k) s) t ∧ t.seq = .idle ∧ (Completed s t ∨ t.fault ≠ none) := by
  rcases h with ⟨k', u, y, tl, hp, hk⟩ | ⟨r, v, hfl⟩
  · have hq : SymQuiet s u := hp.relates .refl (fun _ _ _ => .trans) hl.quiet
    have hr := hreport y tl k' u
    exact ⟨_, hp.reaches_done hl hd hk, rfl, .inl ⟨⟨hr.fault.trans hq.fault, hr.faultInfo.trans hq.faultInfo,
      hr.faultIp.trans hq.faultIp⟩, rfl, rfl⟩⟩
  · exact ⟨_, hfl.reaches hl hd, rfl, .inr (Option.some_ne_none _)⟩

theorem dsymReport_sameFault (y : Sym) (tl : ResRegs) (k : SymLoop) (s : State) : SameFault s (dsymReport y tl k s) := by
  unfold dsymReport outputByte
  split <;> exact ⟨rfl, rfl, rfl⟩

/-- Settles O37: step 0, then at most the phases from START down, each step nearer to DONE. -/
theorem symbolCommandsEnd : Obligations.SymbolCommandsEnd := by
  intro s w i h hseq hd hi start
  obtain ⟨hexec, hfits⟩ := h.executing hseq hd
  obtain ⟨rfl, hwf⟩ := decode_ok hd
  have hrank := symStart_rank_start s
  have hstep : coreStep s = exec i s := coreStep_ok hseq hd
  have hstart : -1 ≤ start := by simp only [start]; split <;> omega
  have key : ∀ {t : State}, coreStep s = .next (goto (encode i) (.sym (symStart s)) s) →
      Reaches (phaseRank (symStart s).phase) (goto (encode i) (.sym (symStart s)) s) t → t.seq = .idle →
      (Completed s t ∨ t.fault ≠ none) →
      ∃ (n : Nat) (t : State), (n : Int) ≤ 1 + (start + 2) + 3 ∧ coreRun n s = .next t ∧ t.seq = .idle ∧
        (Completed s t ∨ t.fault ≠ none) := by
    intro t h0 hr hidle hend
    obtain ⟨n, hn, hrun⟩ := hr.step h0
    exact ⟨n, t, by simp only [start]; omega, hrun, hidle, hend⟩
  rcases hi with ⟨x, rfl⟩ | rfl
  · by_cases hx : x = Sym.esc
    · refine ⟨1, faultEntry ⟨.badSymbol, encode (.csym x)⟩ s, by omega, coreRun_succ (n := 0) ?_, rfl,
        .inr (Option.some_ne_none _)⟩
      rw [hstep]
      show execCsym x s = _
      rw [execCsym, loopOf_running hseq]
      exact if_pos hx
    · have hcod := codable_of_symOk hwf hx
      obtain ⟨t, hr, hidle, hend⟩ := (csymStep_lawful x).command_ends (csym_drives hwf) (fun _ _ _ _ => ⟨rfl, rfl, rfl⟩)
        ((csym_ends hcod hexec.toSound hexec.noFault).imp (fun ⟨_, k, tl, u, hp, hk, _⟩ => ⟨k, u, x, tl, hp, hk⟩) id)
      refine key ?_ hr hidle hend
      rw [hstep]
      show execCsym x s = _
      rw [execCsym, loopOf_running hseq]
      exact if_neg hx
  · obtain ⟨t, hr, hidle, hend⟩ := dsymStep_lawful.command_ends dsym_drives dsymReport_sameFault
      ((dsym_ends hexec.toSound hexec.noFault).imp (fun ⟨x, _, k, tl, u, hp, hk, _⟩ => ⟨k, u, x, tl, hp, hk⟩) id)
    refine key ?_ hr hidle hend
    rw [hstep]
    show execDsym s = _
    rw [execDsym, loopOf_running hseq]

end Sys2Proof.Machine
end

section
/-! PROOFS. Family 44_drivers, whole streams: how COMPRESS and DECOMPRESS open a session, and the symbols of a COMPRESS. -/

namespace Sys2Proof.Machine

/-! ### The opening of a session -/

/-- CONFIG is legal: CINIT and MINIT accept it (spec/42_arithmetic_coder.md R170, spec/43_ppm_context_model.md R200). -/
structure LegalConfig (s : State) : Prop where
  prec : 2 ≤ s.cfgPrec.toNat ∧ s.cfgPrec.toNat ≤ 32
  order : -1 ≤ s.cfgOrder.toInt ∧ s.cfgOrder.toInt ≤ s.params.maxOrder

/-- The state after CINIT_BODY (spec/42_arithmetic_coder.md R170). -/
def cinitState (s : State) : State :=
  { s with
    pAct := s.cfgPrec, low := 0, high := BitVec.ofNat 32 (top s.cfgPrec.toNat), pending := 0, code := 0
    outBitCnt := 0, inBitCnt := 0 }

/-- The state after CINIT_BODY and MINIT_BODY (spec/44_drivers.md R223, R224). -/
def opened (s : State) : State :=
  { cinitState s with orderAct := s.cfgOrder, ctx := [([], Table.rootSeed)], hist := [] }

section
variable {s t : State}

theorem cinitBody_legal (h : LegalConfig s) : cinitBody s = .ok (cinitState s) () :=
  if_neg (not_or.2 ⟨Nat.not_lt.2 h.prec.1, Nat.not_lt.2 h.prec.2⟩)

theorem minitBody_legal (h : LegalConfig s) : minitBody (cinitState s) = .ok (opened s) () :=
  minitBody_order (s := cinitState s) h.order.1 h.order.2

theorem opened_sound (h : s.Sound) (hc : LegalConfig s) : (opened s).Sound := by
  have h1 := cinitBody_sat h
  rw [cinitBody_legal hc] at h1
  have h2 := minitBody_sat h1.1
  rw [minitBody_legal hc] at h2
  exact h2.1

theorem opened_high (hc : LegalConfig s) : (opened s).high.toNat = top s.cfgPrec.toNat := ofNat_toNat (top_lt hc.prec.2)

variable {w : Word} {l₁ l₂ : Loop}

/-- The first two stages of a whole-stream command (spec/44_drivers.md R223, R224). -/
structure Opens (w : Word) (l₁ l₂ : Loop) : Prop where
  cinit : ∀ s, coreStep (goto w .start s) = (cinitBody s).finish s fun t _ => goto w l₁ t
  minit : ∀ s, coreStep (goto w l₁ s) = (minitBody s).finish s fun t _ => goto w l₂ t

theorem compress_opens : Opens (encode .compress) .cMinit .cNext where
  cinit s := by
    rw [coreStep_goto (i := .compress) rfl, compress_start rfl, goto, cinitBody_withSeq, Body.withSeq_finish fun _ _ => rfl]
  minit s := by
    rw [coreStep_goto (i := .compress) rfl, compress_minit rfl, goto, minitBody_withSeq, Body.withSeq_finish fun _ _ => rfl]

theorem decompress_opens : Opens (encode .decompress) .dMinit .dPrime where
  cinit s := by
    rw [coreStep_goto (i := .decompress) rfl, decompress_start rfl, goto, cinitBody_withSeq,
      Body.withSeq_finish fun _ _ => rfl]
  minit s := by
    rw [coreStep_goto (i := .decompress) rfl, decompress_minit rfl, goto, minitBody_withSeq,
      Body.withSeq_finish fun _ _ => rfl]

theorem Opens.reaches (ho : Opens w l₁ l₂) (hc : LegalConfig s) : Reaches 2 (goto w .start s) (goto w l₂ (opened s)) := by
  refine .step (u := goto w l₁ (cinitState s)) ?_ (.step (u := goto w l₂ (opened s)) ?_ (.refl 0 _))
  · rw [ho.cinit, cinitBody_legal hc]
    rfl
  · rw [ho.minit, minitBody_legal hc]
    rfl

/-- With a CONFIG that is not legal one of the two stages raises BAD_CONFIG. -/
theorem Opens.faults (ho : Opens w l₁ l₂) (hc : ¬ LegalConfig s) :
    ∃ r v, Reaches 2 (goto w .start s) (faultEntry r v) ∧ v.outByteQ = s.outByteQ := by
  by_cases hp : 2 ≤ s.cfgPrec.toNat ∧ s.cfgPrec.toNat ≤ 32
  · have hord : s.cfgOrder.toInt < -1 ∨ (s.params.maxOrder : Int) < s.cfgOrder.toInt := by
      by_contra hn
      exact hc ⟨hp, by omega⟩
    refine ⟨⟨.badConfig, 0x60000000⟩, cinitState s, .step (u := goto w l₁ (cinitState s)) ?_ (.step ?_ (.refl 0 _)), rfl⟩
    · rw [ho.cinit, cinitBody, if_neg (by omega)]
      rfl
    · rw [ho.minit, minitBody_badConfig (s := cinitState s) hord]
      rfl
  · refine ⟨⟨.badConfig, encode .cinit⟩, s, Reaches.mono (n := 1) (.step ?_ (.refl 0 _)) (by omega), rfl⟩
    rw [ho.cinit, cinitBody, if_pos (by omega)]
    rfl

/-- FIN_BODY is the last stage of COMPRESS (spec/44_drivers.md R223). -/
theorem compress_fins (s : State) : coreStep (goto (encode .compress) .cFin s) = exec .fin s := by
  rw [coreStep_goto (i := .compress) rfl, compress_fin rfl]
  show (finBody _).finish _ _ = (finBody s).finish s _
  rw [goto, finBody_withSeq, Body.withSeq_finish fun _ _ => rfl]

end

/-! ### The symbols of COMPRESS -/

/-- The symbols of a COMPRESS from its first step 0 on: a CSYM for each byte of IN_BYTEQ, then one for EOF, all complete
(spec/44_drivers.md R223). -/
inductive Codes : State → State → Prop where
  | eof {s t : State} : s.inByteQ = [] → CsymRuns Sym.eof s t → Codes s t
  | byte {s u t : State} {b : Byte} {rest : List Byte} : s.inByteQ = b :: rest →
      CsymRuns (symOf b) { s with inByteQ := rest } u → Codes u t → Codes s t

section
variable {s t u : State} {x : Sym} {b : Byte} {rest : List Byte}

theorem symOf_ne_eof (b : Byte) : symOf b ≠ Sym.eof := by
  intro h
  have hsym : (symOf b).toNat = b.toNat := BitVec.toNat_setWidth_of_le (by omega)
  have heof : Sym.eof.toNat = 256 := rfl
  have hb := b.isLt
  rw [h] at hsym
  omega

theorem Codes.frame (h : Codes s t) : CsymFrame s t ∧ t.inByteQ = [] := by
  induction h with
  | eof hq hr => exact ⟨hr.frame.1, hr.frame.2.trans hq⟩
  | @byte s u t b rest hq hr _ ih =>
    obtain ⟨hf, -⟩ := hr.frame
    have hf : CsymFrame s u := ⟨⟨hf.fault, hf.faultInfo, hf.faultIp⟩, hf.params, hf.pAct, hf.orderAct, hf.inBitQ,
      hf.outByteQ, hf.outBitQ⟩
    exact ⟨hf.trans ih.1, ih.2⟩

/-- Taking a byte from IN_BYTEQ leaves the data sound. -/
theorem takeByte_sound (h : s.Sound) (hq : s.inByteQ = b :: rest) : State.Sound { s with inByteQ := rest } :=
  h.withInByteQ (within_mono h.queues.1 (by simp [hq]))

/-- Sound data has room for a symbol's steps within MAX_ORDER (spec/44_drivers.md R226). -/
theorem symStart_rank_le (h : s.Sound) : phaseRank (symStart s).phase ≤ s.params.maxOrder + 5 :=
  (symStart_rank s).trans (Nat.add_le_add_right h.hist_le 5)

theorem compress_takes (hq : s.inByteQ = b :: rest) : coreStep (goto (encode .compress) .cNext s) =
    .next (goto (encode .compress) (.cSym (symOf b) (symStart s)) { s with inByteQ := rest }) := by
  rw [coreStep_goto (i := .compress) rfl, compress_byte (s := goto (encode .compress) .cNext s) rfl hq]
  rfl

theorem compress_takesEof (hq : s.inByteQ = []) : coreStep (goto (encode .compress) .cNext s) =
    .next (goto (encode .compress) (.cSym Sym.eof (symStart s)) s) := by
  rw [coreStep_goto (i := .compress) rfl, compress_eof (s := goto (encode .compress) .cNext s) rfl hq]
  rfl

theorem CsymRuns.reaches (hr : CsymRuns x s t) : Reaches (phaseRank (symStart s).phase)
    (goto (encode .compress) (.cSym x (symStart s)) s) (goto (encode .compress) (if x = Sym.eof then .cFin else .cNext) t) := by
  obtain ⟨k, tl, u, hp, hk, rfl⟩ := hr
  exact hp.reaches_done (csymStep_lawful x) (compress_drives x) hk

/-- The symbols are a run of the core, within MAX_ORDER + 6 steps a symbol (spec/44_drivers.md R226). -/
theorem Codes.reaches (h : Codes s t) (hs : s.Sound) (hf : s.fault = none) :
    t.Sound ∧ Reaches ((s.inByteQ.length + 1) * (s.params.maxOrder + 6)) (goto (encode .compress) .cNext s)
      (goto (encode .compress) .cFin t) := by
  induction h with
  | eof hq hr =>
    refine ⟨hr.sound (.inl rfl) hs hf, ?_⟩
    have hsteps := Reaches.step (compress_takesEof hq) hr.reaches
    have := symStart_rank_le hs
    exact hsteps.mono (by simp only [hq, List.length_nil]; omega)
  | @byte s u t b rest hq hr _ ih =>
    have hs' := takeByte_sound hs hq
    obtain ⟨hframe, hq'⟩ := hr.frame
    obtain ⟨ht, hrest⟩ := ih (hr.sound (codable_symOf b) hs' hf) (hframe.fault.trans hf)
    refine ⟨ht, ?_⟩
    have hone := hr.reaches
    rw [if_neg (symOf_ne_eof b)] at hone
    have hsteps := (Reaches.step (compress_takes hq) hone).trans hrest
    have := symStart_rank_le hs'
    refine hsteps.mono ?_
    rw [hq', hframe.params, hq, List.length_cons]
    show phaseRank (symStart s).phase + 1 + (rest.length + 1) * (s.params.maxOrder + 6) ≤ _
    change phaseRank (symStart s).phase ≤ s.params.maxOrder + 5 at this
    rw [Nat.add_mul (rest.length + 1) 1]
    omega

/-- Every COMPRESS codes all its symbols or meets a fault on the way (spec/44_drivers.md R226). -/
theorem codes_or_faults (n : Nat) (hn : s.inByteQ.length = n) (h : s.Sound) (hf : s.fault = none) :
    (∃ t, Codes s t) ∨ ∃ r v, Reaches ((n + 1) * (s.params.maxOrder + 6)) (goto (encode .compress) .cNext s)
      (faultEntry r v) := by
  induction n generalizing s with
  | zero =>
    have hq := List.length_eq_zero_iff.1 hn
    rcases csym_ends (.inl rfl) h hf with ⟨t, hr⟩ | ⟨r, v, hfl⟩
    · exact .inl ⟨t, .eof hq hr⟩
    · have hsteps := Reaches.step (compress_takesEof hq) (hfl.reaches (csymStep_lawful _) (compress_drives _))
      have := symStart_rank_le h
      exact .inr ⟨r, v, hsteps.mono (by omega)⟩
  | succ n ih =>
    obtain ⟨b, rest, hq⟩ := List.exists_cons_of_length_eq_add_one hn
    have hlen : rest.length = n := by simpa [hq] using hn
    have hs' := takeByte_sound h hq
    have hrank : phaseRank (symStart s).phase ≤ s.params.maxOrder + 5 := symStart_rank_le h
    rw [Nat.add_mul (n + 1) 1]
    rcases csym_ends (codable_symOf b) hs' hf with ⟨u, hr⟩ | ⟨r, v, hfl⟩
    · obtain ⟨hframe, hq'⟩ := hr.frame
      rcases ih (hq'.symm ▸ hlen) (hr.sound (codable_symOf b) hs' hf) (hframe.fault.trans hf) with ⟨t, ht⟩ | ⟨r, v, hrest⟩
      · exact .inl ⟨t, .byte hq hr ht⟩
      · have hone := hr.reaches
        rw [if_neg (symOf_ne_eof b)] at hone
        have hsteps := (Reaches.step (compress_takes hq) hone).trans hrest
        refine .inr ⟨r, v, hsteps.mono ?_⟩
        rw [hframe.params]
        show phaseRank (symStart s).phase + 1 + (n + 1) * (s.params.maxOrder + 6) ≤ _
        omega
    · have hsteps := Reaches.step (compress_takes hq) (hfl.reaches (csymStep_lawful _) (compress_drives _))
      refine .inr ⟨r, v, hsteps.mono ?_⟩
      show phaseRank (symStart s).phase + 1 ≤ _
      omega

end

/-! ### The end of COMPRESS -/

section
variable {s t : State}

theorem State.Inv.noFault {w : Word} {k : Loop} (h : s.Inv) (hseq : s.seq = .running w k) : s.fault = none := by
  by_contra hf
  exact Seq.noConfusion (hseq.symm.trans (h.stopped hf))

/-- A COMPRESS that has coded its symbols completes, unless PENDING is full (spec/44_drivers.md R223). -/
theorem Codes.completes (h : Codes (opened s) t) (hp : t.pending ≠ 0xFFFFFFFF) : ∃ u,
    coreStep (goto (encode .compress) .cFin t) = .next u ∧ Completed s u ∧ u.outBitQ = t.outBitQ ++ flushBits t ∧
      u.outBitCnt = t.outBitCnt + BitVec.ofNat 32 (t.pending.toNat + 2) ∧ u.inByteQ = t.inByteQ ∧ u.inBitQ = t.inBitQ ∧
      u.outByteQ = t.outByteQ ∧ u.ctx = t.ctx ∧ u.hist = t.hist ∧ u.result = t.result ∧ u.res = t.res := by
  obtain ⟨hf, -⟩ := h.frame
  refine ⟨_, (compress_fins t).trans ((finFlushes.2 t).2 hp), ⟨⟨hf.fault, hf.faultInfo, hf.faultIp⟩, rfl, rfl⟩, rfl, rfl,
    rfl, rfl, rfl, rfl, rfl, rfl, rfl⟩

/-- Settles O42: the opening, the symbols and FIN, each of them ending in a fault or going on. -/
theorem compressEnds : Obligations.CompressEnds := by
  intro s h hseq
  have hf := h.noFault hseq
  have hself : goto (encode .compress) .start s = s := goto_self hseq
  have hend : ∀ {n t}, n ≤ 3 + (s.inByteQ.length + 1) * (s.params.maxOrder + 6) → Reaches n s t → t.seq = .idle →
      (Completed s t ∨ t.fault ≠ none) → ∃ n t, n ≤ 3 + (s.inByteQ.length + 1) * (s.params.maxOrder + 6) ∧
        coreRun n s = .next t ∧ t.seq = .idle ∧ (Completed s t ∨ t.fault ≠ none) := by
    rintro n t hn ⟨m, hm, hrun⟩ hidle hdone
    exact ⟨m, t, hm.trans hn, hrun, hidle, hdone⟩
  by_cases hc : LegalConfig s
  · have hopen := compress_opens.reaches hc
    rw [hself] at hopen
    rcases codes_or_faults _ rfl (opened_sound h.toSound hc) hf with ⟨t, ht⟩ | ⟨r, v, hsteps⟩
    · have hsteps : Reaches (2 + (s.inByteQ.length + 1) * (s.params.maxOrder + 6)) s (goto (encode .compress) .cFin t) :=
        hopen.trans (ht.reaches (opened_sound h.toSound hc) hf).2
      by_cases hp : t.pending = 0xFFFFFFFF
      · obtain ⟨u, hu, rfl⟩ := (finFlushes.2 t).1 hp
        exact hend (Nat.le_of_eq (by omega)) (hsteps.trans (.step ((compress_fins t).trans hu) (.refl 0 _))) rfl
          (.inr (Option.some_ne_none _))
      · obtain ⟨u, hu, hcomp, -⟩ := ht.completes hp
        exact hend (Nat.le_of_eq (by omega)) (hsteps.trans (.step hu (.refl 0 _))) hcomp.seq (.inl hcomp)
    · exact hend (Nat.add_le_add_right (by omega) _) (hopen.trans hsteps) rfl (.inr (Option.some_ne_none _))
  · obtain ⟨r, v, hsteps, -⟩ := compress_opens.faults hc
    rw [hself] at hsteps
    exact hend (by omega) hsteps rfl (.inr (Option.some_ne_none _))

end

end Sys2Proof.Machine
end

section
/-! PROOFS. Family 44_drivers, completion: under conditions on the state alone no step of a symbol command raises a fault, so CSYM,
DSYM and COMPRESS complete. -/

namespace Sys2Proof.Machine

/-! ### The tables of a store -/

section
variable {s : State} {t : Tsel} {T : Table} {c : Bool} {m : Store} {x : Sym} {ks : List Context} {q : Context × Table}
  {P : Table → Prop}

/-- SELECT adds at most a seed to CTX (spec/43_ppm_context_model.md R201). -/
theorem Gives.tables (hg : Gives s t T c m) (hs : ∀ q ∈ s.ctx, P q.2) (hroot : P Table.rootSeed) (hctx : P Table.ctxSeed) :
    (∀ q ∈ m, P q.2) ∧ (t ≠ Tsel.m1 → P T) := by
  rcases hg with ⟨rfl, -, -, rfl⟩ | ⟨k, ⟨-, -, hsel⟩, hm⟩
  · exact ⟨hs, fun h => absurd rfl h⟩
  · have hT : P T := by
      rcases hsel with ⟨-, hget⟩ | ⟨-, -, -, rfl⟩
      · exact hs _ (Store.mem_of_get hget)
      · split
        · exact hroot
        · exact hctx
    refine ⟨fun q hq => ?_, fun _ => hT⟩
    rcases hm with ⟨-, rfl⟩ | ⟨-, rfl⟩
    · exact hs q hq
    · rcases Store.mem_put hq with rfl | hq
      · exact hT
      · exact hs q hq

/-- An entry after PUPD's loop is an old one, or an old table or a seed with one more symbol
(spec/43_ppm_context_model.md R204). -/
theorem mem_updStore (hm : m.wf) (hn : ks.Nodup) (hq : q ∈ updStore x ks m) :
    q ∈ m ∨ ∃ T, (T = Table.ctxSeed ∨ ∃ k, (k, T) ∈ m) ∧ q.2 = T.eagerAdd x := by
  have hget := Store.get_of_mem (updStore_wf x ks hm) hq
  rw [updStore_get x ks m hn] at hget
  split at hget
  · refine .inr ⟨updTable q.1 m, ?_, (Option.some.inj hget).symm⟩
    rw [updTable]
    cases hold : Store.get q.1 m with
    | none => exact .inl rfl
    | some T => exact .inr ⟨q.1, Store.mem_of_get hold⟩
  · exact .inl (Store.mem_of_get hget)

/-- `updateFreqs` makes the total one more than the count sum was (spec/41_frequency_table.md R144). -/
theorem Table.eagerAdd_total (h : cntSum T.alpha + 1 ≤ wordMax) : (T.eagerAdd x).total.toNat = cntSum T.alpha + 1 := by
  have hsum := cntSum_bump x T.alpha h
  show (BitVec.ofNat 32 (cntSum (bump x T.alpha))).toNat = _
  rw [ofNat_toNat (by omega), hsum]

/-- With an unbounded store every order of the history selects a table. -/
theorem gives_order (h : s.Sound) (hc : s.params.ctxCapacity = none) (ho : t.toNat ≤ s.hist.length) :
    ∃ T c m, Gives s t T c m ∧ T.Has Sym.esc := by
  rcases select_order h ho 0 with ⟨r, hr, hf⟩ | ⟨sel, k, hs, hq, -⟩
  · obtain ⟨-, -, ⟨-, hl⟩ | ⟨-, k, -, -, hcap⟩⟩ := select_error hr
    · omega
    · rw [hc] at hcap; cases hcap
  · exact ⟨_, _, _, gives_of_select hs, hq.hasEsc⟩

/-- The root is always there (spec/43_ppm_context_model.md R205). -/
theorem gives_root (h : s.Sound) : ∃ T, Gives s 0 T false s.ctx ∧ T.Has Sym.eof := by
  obtain ⟨T, hget, heof⟩ := h.store.root
  exact ⟨T, .inr ⟨[], ⟨by decide, ⟨rfl, s.hist, (List.append_nil _).symm⟩, .inl ⟨rfl, hget⟩⟩, .inl ⟨rfl, rfl⟩⟩, heof⟩

theorem gives_m1 (s : State) : Gives s Tsel.m1 Table.m1 false s.ctx := .inl ⟨rfl, rfl, rfl, rfl⟩

end

/-! ### CSYM -/

/-- An encoder whose next symbol completes: wide interval, unbounded store, tables of total at most `b`
(spec/42_arithmetic_coder.md R167). -/
structure EncReady (b : Nat) (s : State) : Prop where
  prec : 10 ≤ s.pAct.toNat
  unbounded : s.params.ctxCapacity = none
  settled : Settled s.pAct.toNat s.low.toNat s.high.toNat
  tables : ∀ q ∈ s.ctx, q.2.stale = false ∧ q.2.total.toNat ≤ b

/-- A settled interval is wider than a quarter (spec/42_arithmetic_coder.md R165). -/
theorem Settled.width {P low high : Nat} (hP : 2 ≤ P) (h : Settled P low high) : 2 ^ (P - 2) + 2 ≤ high - low + 1 := by
  obtain ⟨h1, h2, h3⟩ := h
  obtain ⟨c1, -, -, -⟩ := coder_constants hP
  have e1 : 2 ^ (P - 1) = half P := rfl
  have e2 : 2 ^ (P - 2) = quarter P := rfl
  rw [e1] at h1 h2
  rw [e2] at h3 ⊢
  omega

theorem quarter_ge {P : Nat} (h : 10 ≤ P) : 256 ≤ 2 ^ (P - 2) :=
  Nat.pow_le_pow_right (n := 2) (show 0 < 2 by omega) (show 8 ≤ P - 2 by omega)

section
variable {b : Nat} {s : State} {t : Tsel} {x : Sym} {T : Table} {c : Bool} {m : Store}

theorem Gives.smallTables (hg : Gives s t T c m) (hs : ∀ q ∈ s.ctx, q.2.stale = false ∧ q.2.total.toNat ≤ b) (hb : 2 ≤ b) :
    (∀ q ∈ m, q.2.stale = false ∧ q.2.total.toNat ≤ b) ∧ (t ≠ Tsel.m1 → T.stale = false ∧ T.total.toNat ≤ b) :=
  hg.tables (P := fun T => T.stale = false ∧ T.total.toNat ≤ b) hs ⟨rfl, hb⟩ ⟨rfl, Nat.le_trans (by decide) hb⟩

/-- An ENC of such an encoder runs through, adds at most P_ACT to PENDING and leaves such an encoder
(spec/42_arithmetic_coder.md R165, R167). -/
theorem EncReady.encBody_ok (h : EncReady b s) (hs : s.Sound) (hf : s.fault = none) (hb : 2 ≤ b) (hg : Gives s t T c m)
    (hst : T.stale = false) (hT : T.total.toNat ≤ 2 ^ (s.pAct.toNat - 2) + 2) (hx : x ∈ T.syms)
    (hp : s.pending.toNat + s.pAct.toNat < 2 ^ 32 - 1) :
    ∃ u a, encBody t x s = .ok u a ∧ EncReady b u ∧ u.pending.toNat ≤ s.pending.toNat + s.pAct.toNat := by
  have hwide := h.settled.width hs.prec.1
  obtain ⟨v, hv, hcomp, hctx, -, hP, hpend, hset, -⟩ := encCompletes s t x T c m hs hg hst hx (by omega) hp
  rcases Body.finish_next (b := encBody t x s) hv with ⟨u, a, hok, rfl⟩ | ⟨r, -, rfl⟩ | ⟨r, u, -, rfl⟩
  · have hparams := ((encBody_quiet s t x).of_ok hok).params
    refine ⟨u, a, hok, ⟨hP ▸ h.prec, hparams ▸ h.unbounded, hP ▸ hset, ?_⟩, hpend⟩
    rw [show u.ctx = m from hctx]
    exact (hg.smallTables h.tables hb).1
  · exact absurd (hcomp.fault.trans hf) (Option.some_ne_none _)
  · exact absurd (hcomp.fault.trans hf) (Option.some_ne_none _)

end

/-- How many times a phase still calls the coder (spec/44_drivers.md R226). -/
def Phase.coderCalls : Phase → Nat
  | .desc o => o.toNat + 2
  | .fall => 1
  | .upd _ _ => 0
  | .push _ _ => 0
  | .done _ _ => 0

/-- How many symbols the model has learnt in a phase: one from PUSH on. -/
def Phase.learnt : Phase → Nat
  | .desc _ => 0
  | .fall => 0
  | .upd _ _ => 0
  | .push _ _ => 1
  | .done _ _ => 1

theorem resolved_coderCalls (a : Coded) (e : Nat) (cr : Bool) : (resolved a e cr).phase.coderCalls = 0 := by
  unfold resolved
  simp only
  split <;> rfl

theorem descend_coderCalls {o : Tsel} (e : Nat) (cr : Bool) : (descend o e cr).phase.coderCalls + 1 ≤ o.toNat + 2 := by
  unfold descend
  simp only
  split
  · simp only [Phase.coderCalls]; omega
  · next ho =>
    have hpos : o.toNat ≠ 0 := (field_ne o).1 ho
    have : (o - 1).toNat = o.toNat - 1 := BitVec.toNat_sub_of_le (by rw [BitVec.le_def]; simp; omega)
    simp only [Phase.coderCalls]
    omega

theorem symStart_coderCalls (s : State) : (symStart s).phase.coderCalls ≤ s.hist.length + 2 := by
  have := symStart_rank s
  unfold symStart at this ⊢
  simp only at this ⊢
  split
  · simp only [Phase.coderCalls]; omega
  · next h =>
    rw [if_neg h] at this
    simp only [Phase.coderCalls, phaseRank] at this ⊢
    omega

theorem EncReady.mono {b b' : Nat} {s : State} (h : EncReady b s) (hb : b ≤ b') : EncReady b' s :=
  ⟨h.prec, h.unbounded, h.settled, fun q hq => ⟨(h.tables q hq).1, (h.tables q hq).2.trans hb⟩⟩

/-- What holds between two steps of a CSYM that completes: PENDING and P_ACT for each coder call to come stay within `lim`. -/
structure CsymReady (b lim : Nat) (x : Sym) (k : SymLoop) (s : State) : Prop extends CsymOk x k s where
  ready : EncReady (b + k.phase.learnt) s
  total : b ≤ 2 ^ (s.pAct.toNat - 2) + 2
  pending : s.pending.toNat + s.pAct.toNat * k.phase.coderCalls ≤ lim

section
variable {b lim : Nat} {x : Sym} {k : SymLoop} {s : State} {o : Tsel} {e : Nat} {cr : Bool} {tl : ResRegs}

/-- A step of CSYM runs through and leaves the encoder ready for the next (spec/44_drivers.md R221). -/
def CsymGoesOn (b lim : Nat) (x : Sym) (k : SymLoop) (s : State) : Prop :=
  ∃ u k₁, csymStep x k s = .ok u (some k₁) ∧ EncReady (b + k₁.phase.learnt) u ∧
    u.pending.toNat + s.pAct.toNat * k₁.phase.coderCalls ≤ lim

/-- One coder call takes P_ACT of the room in PENDING. -/
theorem budget_step {p p' P n n' lim : Nat} (h : p + P * n ≤ lim) (hp : p' ≤ p + P) (hn : n' + 1 ≤ n) :
    p' + P * n' ≤ lim := by
  have : P * (n' + 1) ≤ P * n := Nat.mul_le_mul_left P hn
  rw [Nat.mul_succ] at this
  omega

theorem budget_room {p P n lim : Nat} (h : p + P * n ≤ lim) (hn : 1 ≤ n) : p + P ≤ lim := by
  have : P * 1 ≤ P * n := Nat.mul_le_mul_left P hn
  omega

theorem csymDesc_goesOn (hb : 2 ≤ b) (hlim : lim < 2 ^ 32 - 1) (h : CsymReady b lim x ⟨.desc o, e, cr⟩ s) :
    CsymGoesOn b lim x ⟨.desc o, e, cr⟩ s := by
  obtain ⟨T, c, m, hg, hesc⟩ := gives_order h.sound h.ready.unbounded h.phase
  obtain ⟨hst, hT⟩ := (hg.smallTables h.ready.tables hb).2 (order_ne_m1 h.sound h.phase)
  have hy : (if x ∈ T.syms then x else Sym.esc) ∈ T.syms := by
    split
    · assumption
    · exact hesc
  have hroom := budget_room h.pending (show 1 ≤ o.toNat + 2 by omega)
  obtain ⟨u, a, hok, hr, hp⟩ := h.ready.encBody_ok h.sound h.noFault hb hg hst (hT.trans h.total) hy (by omega)
  refine ⟨u, _, (csymDesc_gives hg _).trans (congrArg _ hok), ?_, ?_⟩
  · exact hr.mono (Nat.le_add_right ..)
  · refine budget_step h.pending hp ?_
    split
    · rw [resolved_coderCalls]; exact Nat.le_add_left 1 _
    · exact descend_coderCalls ..

theorem csymFall_goesOn (hx : Codable x) (hb : 2 ≤ b) (hlim : lim < 2 ^ 32 - 1) (h : CsymReady b lim x ⟨.fall, e, cr⟩ s) :
    CsymGoesOn b lim x ⟨.fall, e, cr⟩ s := by
  have hroom := budget_room h.pending (Nat.le_refl 1)
  have hcode : ∃ T c m, Gives s (if x = Sym.eof then 0 else Tsel.m1) T c m ∧ T.stale = false ∧
      T.total.toNat ≤ 2 ^ (s.pAct.toNat - 2) + 2 ∧ x ∈ T.syms := by
    by_cases he : x = Sym.eof
    · obtain ⟨T, hg, heof⟩ := gives_root h.sound
      obtain ⟨hst, hT⟩ := (hg.smallTables h.ready.tables hb).2 (by decide)
      exact ⟨T, _, _, by rw [if_pos he]; exact hg, hst, hT.trans h.total, he ▸ heof⟩
    · have := quarter_ge h.ready.prec
      refine ⟨Table.m1, _, _, by rw [if_neg he]; exact gives_m1 s, rfl, ?_, (Table.m1_has x).2 (hx.resolve_left he)⟩
      show 256 ≤ _
      omega
  obtain ⟨T, c, m, hg, hst, hT, hmem⟩ := hcode
  obtain ⟨u, a, hok, hr, hp⟩ := h.ready.encBody_ok h.sound h.noFault hb hg hst hT hmem (by omega)
  refine ⟨u, resolved a e cr, congrArg (Body.map _) hok, ?_, ?_⟩
  · exact hr.mono (Nat.le_add_right ..)
  · exact budget_step h.pending hp (by rw [resolved_coderCalls]; exact Nat.le_refl 1)

/-- After UPD every total is at most one more (spec/43_ppm_context_model.md R204). -/
theorem EncReady.pupdBody_ok (h : EncReady b s) (hs : s.Sound) (hb : 2 ≤ b) (hq : b ≤ 2 ^ (s.pAct.toNat - 2) + 2)
    (hx : isByte x = true) : ∃ u n, pupdBody x s = .ok u n ∧ EncReady (b + 1) u ∧ u.pending = s.pending := by
  have hxb : x.toNat ≤ 255 := of_decide_eq_true hx
  by_cases ho : s.orderAct.toInt < 0
  · exact ⟨s, 0, pupdBody_orderM1 hxb ho, h.mono (Nat.le_succ b), rfl⟩
  · have hpow : 2 ^ (s.pAct.toNat - 2) ≤ 2 ^ 30 := Nat.pow_le_pow_right (by omega) (by have := hs.prec.2; omega)
    have hsum (k : Context) (T : Table) (hT : (k, T) ∈ s.ctx) : cntSum T.alpha ≤ b := by
      obtain ⟨hst, hle⟩ := h.tables _ hT
      exact (hs.store.tables _ hT).tab.total_eq hst ▸ hle
    have hroom {n : Nat} (hn : n ≤ b) : n + 1 ≤ wordMax := by simp only [wordMax]; omega
    refine ⟨_, _, pupdBody_updates hxb (Int.not_lt.1 ho) (by rw [h.unbounded]; trivial)
      fun k _ T hT => hroom (hsum k T (Store.mem_of_get hT)), ⟨h.prec, h.unbounded, h.settled, fun q hq => ?_⟩, rfl⟩
    rcases mem_updStore hs.store.canonical (updKeys_nodup _ _) hq with hq | ⟨T, hT, hqT⟩
    · exact ⟨(h.tables q hq).1, Nat.le_succ_of_le (h.tables q hq).2⟩
    · have hle : cntSum T.alpha ≤ b := by
        rcases hT with rfl | ⟨k, hT⟩
        · exact Nat.le_trans (by decide) hb
        · exact hsum k T hT
      rw [hqT]
      exact ⟨rfl, by rw [Table.eagerAdd_total (hroom hle)]; exact Nat.succ_le_succ hle⟩

theorem csymUpd_goesOn {y : Sym} (hb : 2 ≤ b) (h : CsymReady b lim x ⟨.upd y tl, e, cr⟩ s) :
    CsymGoesOn b lim x ⟨.upd y tl, e, cr⟩ s := by
  obtain ⟨u, n, hok, hr, hp⟩ := h.ready.pupdBody_ok h.sound hb h.total h.phase
  exact ⟨u, _, congrArg (Body.map _) hok, hr, by rw [hp]; exact h.pending⟩

theorem csymPush_goesOn {y : Sym} (h : CsymReady b lim x ⟨.push y tl, e, cr⟩ s) :
    CsymGoesOn b lim x ⟨.push y tl, e, cr⟩ s := by
  have hy : y.toNat ≤ 255 := of_decide_eq_true h.phase
  exact ⟨_, _, congrArg (Body.map _) (hpushBody_byte hy), ⟨h.ready.prec, h.ready.unbounded, h.ready.settled, h.ready.tables⟩,
    h.pending⟩

/-- No step of a CSYM raises a fault, while the encoder is ready and PENDING has room. -/
theorem csymStep_csymReady (hx : Codable x) (hb : 2 ≤ b) (hlim : lim < 2 ^ 32 - 1) (k : SymLoop) (s : State)
    (h : CsymReady b lim x k s) (hk : doneSym k = none) :
    (csymStep x k s).Sat (fun t k' => ∀ k₁, k' = some k₁ → CsymReady b lim x k₁ t) (fun _ => False) (fun _ => True) := by
  have hgo : CsymGoesOn b lim x k s := by
    obtain ⟨phase, e, cr⟩ := k
    cases phase with
    | desc o => exact csymDesc_goesOn hb hlim h
    | fall => exact csymFall_goesOn hx hb hlim h
    | upd y tl => exact csymUpd_goesOn hb h
    | push y tl => exact csymPush_goesOn h
    | done y tl => cases hk
  obtain ⟨u, k₁, hok, hr, hp⟩ := hgo
  have hbase := csymStep_csymOk hx k s h.toCsymOk hk
  have hP := ((csymStep_quiet s x hk).of_ok hok).pAct
  rw [hok] at hbase ⊢
  rintro k₂ hk₂
  cases hk₂
  exact ⟨hbase k₁ rfl, hr, by rw [hP]; exact h.total, by rw [hP]; exact hp⟩

/-- A whole CSYM of a ready encoder completes, and leaves it ready with totals at most one more
(spec/44_drivers.md R221, spec/42_arithmetic_coder.md R167). -/
theorem csym_completes (hx : Codable x) (hs : s.Sound) (hf : s.fault = none) (h : EncReady b s) (hb : 2 ≤ b)
    (hq : b ≤ 2 ^ (s.pAct.toNat - 2) + 2) (hlim : lim < 2 ^ 32 - 1)
    (hp : s.pending.toNat + s.pAct.toNat * (s.hist.length + 2) ≤ lim) :
    ∃ t, CsymRuns x s t ∧ EncReady (b + 1) t ∧ t.pending.toNat ≤ lim := by
  have hcalls : s.pAct.toNat * (symStart s).phase.coderCalls ≤ s.pAct.toNat * (s.hist.length + 2) :=
    Nat.mul_le_mul_left _ (symStart_coderCalls s)
  have hstart : CsymReady b lim x (symStart s) s :=
    ⟨csymOk_start x hs hf, h.mono (Nat.le_add_right ..), hq, by omega⟩
  rcases (csymStep_lawful x).ends (csymStep_csymReady hx hb hlim) hstart with ⟨k, u, y, tl, hpath, hk, hr⟩ | ⟨r, v, hF, -⟩
  · have hy := hr.forSym
    rw [hk] at hy
    cases hy
    have hlearnt : k.phase.learnt = 1 := by rw [hk]; rfl
    have hready := hr.ready
    rw [hlearnt] at hready
    exact ⟨_, ⟨k, tl, u, hpath, hk, rfl⟩, ⟨hready.prec, hready.unbounded, hready.settled, hready.tables⟩,
      (Nat.le_add_right ..).trans hr.pending⟩
  · exact hF.elim

/-- What a whole CSYM reports (spec/44_drivers.md R221). -/
theorem CsymRuns.reports {t : State} (h : CsymRuns x s t) :
    t.result.setWidth 9 = x ∧ t.result.getLsbD 9 = true ∧ t.result.getLsbD 12 = decide (x = Sym.eof) := by
  obtain ⟨k, tl, u, -, -, rfl⟩ := h
  exact ⟨ResultFields.toWord_setWidth _, ResultFields.toWord_valid _, ResultFields.toWord_eof _⟩

theorem csym_starts (hwf : symOk x = true) (hx : x ≠ Sym.esc) :
    coreStep (goto (encode (.csym x)) .start s) = .next (goto (encode (.csym x)) (.sym (symStart s)) s) := by
  rw [coreStep_goto (i := .csym x) hwf]
  exact if_neg hx

end

theorem codable_ne_esc {x : Sym} (h : Codable x) : x ≠ Sym.esc := by
  rintro rfl
  rcases h with h | h
  · cases h
  · cases h

/-- Settles O38: step 0 and the steps of a ready encoder. -/
theorem csymCompletes : Obligations.CsymCompletes := by
  intro s x h hseq hx hcap hP hset hpend htab
  have hcod : Codable x := hx.symm.imp id isByte_eq_true
  rw [← encode_csym] at hseq
  have hf := h.noFault hseq
  have hready : EncReady (2 ^ (s.pAct.toNat - 2) + 2) s := ⟨hP, hcap, hset, htab⟩
  obtain ⟨t, hr, -, -⟩ := csym_completes hcod h.toSound hf hready (Nat.le_add_left 2 _) (Nat.le_refl _) hpend (Nat.le_refl _)
  obtain ⟨hframe, hq⟩ := hr.frame
  obtain ⟨hsym, hvalid, -⟩ := hr.reports
  obtain ⟨k, tl, u, hpath, hk, rfl⟩ := hr
  have hwf := symOk_of_codable hcod
  have hsteps := Reaches.step (csym_starts (s := s) hwf (codable_ne_esc hcod))
    (hpath.reaches_done (csymStep_lawful x) (csym_drives hwf) hk)
  rw [goto_self hseq] at hsteps
  obtain ⟨n, hn, hrun⟩ := hsteps
  have hrank := symStart_rank s
  exact ⟨n, _, by omega, hrun, ⟨⟨hframe.fault, hframe.faultInfo, hframe.faultIp⟩, rfl, rfl⟩, hsym, hvalid, hq, hframe.outByteQ,
    hframe.outBitQ⟩

/-! ### COMPRESS -/

section
variable {b n : Nat} {s : State} {x : Sym}

/-- A symbol adds at most 1024 to PENDING: 32 coder calls of 32 passes (spec/42_arithmetic_coder.md R165, spec/44_drivers.md
R226). -/
theorem symbol_pending_le (hs : s.Sound) : s.pAct.toNat * (s.hist.length + 2) ≤ 1024 := by
  have hlen : s.hist.length + 2 ≤ 32 := by
    have := hs.hist_le
    have := (legal_maxOrder hs.legal).2
    omega
  exact Nat.mul_le_mul hs.prec.2 hlen

/-- The symbols of a COMPRESS complete, when its totals fit a quarter and PENDING has room for all of them. -/
theorem codes_complete (hn : s.inByteQ.length = n) (hs : s.Sound) (hf : s.fault = none) (h : EncReady b s) (hb : 2 ≤ b)
    (hq : b + n ≤ 2 ^ (s.pAct.toNat - 2) + 2) (hp : s.pending.toNat + (n + 1) * 1024 < 2 ^ 32 - 1) :
    ∃ t, Codes s t ∧ t.pending.toNat < 2 ^ 32 - 1 := by
  have hone := symbol_pending_le hs
  induction n generalizing b s with
  | zero =>
    obtain ⟨t, hr, -, hpend⟩ := csym_completes (lim := s.pending.toNat + 1024) (.inl rfl) hs hf h hb hq (by omega) (by omega)
    exact ⟨t, .eof (List.length_eq_zero_iff.1 hn) hr, by omega⟩
  | succ n ih =>
    obtain ⟨c, rest, hcons⟩ := List.exists_cons_of_length_eq_add_one hn
    have hs' := takeByte_sound hs hcons
    have h' : EncReady b { s with inByteQ := rest } := ⟨h.prec, h.unbounded, h.settled, h.tables⟩
    obtain ⟨u, hr, hready, hpend⟩ := csym_completes (lim := s.pending.toNat + 1024) (codable_symOf c) hs' hf h' hb
      ((Nat.le_add_right b _).trans hq) (by omega) (Nat.add_le_add_left hone _)
    obtain ⟨hframe, hrest⟩ := hr.frame
    have hsu := hr.sound (codable_symOf c) hs' hf
    have hlen : u.inByteQ.length = n := by rw [hrest]; simpa [hcons] using hn
    obtain ⟨t, ht, hlast⟩ := ih hlen hsu (hframe.fault.trans hf) hready (Nat.le_succ_of_le hb)
      (by rw [hframe.pAct]; show b + 1 + n ≤ 2 ^ (s.pAct.toNat - 2) + 2; omega) (by omega) (symbol_pending_le hsu)
    exact ⟨t, .byte hcons hr ht, hlast⟩

theorem opened_settled (hc : LegalConfig s) :
    Settled (opened s).pAct.toNat (opened s).low.toNat (opened s).high.toNat := by
  refine settled_of_renormCase ?_
  rw [opened_high hc]
  exact renormCase_full hc.prec.1

theorem opened_encReady (hc : LegalConfig s) (hP : 10 ≤ s.cfgPrec.toNat) (hcap : s.params.ctxCapacity = none) :
    EncReady 2 (opened s) :=
  ⟨hP, hcap, opened_settled hc, fun q hq => by obtain rfl := List.mem_singleton.1 hq; exact ⟨rfl, Nat.le_refl 2⟩⟩

end

/-- Settles O43: each byte adds at most one to every total, and each symbol at most 1024 to PENDING. -/
theorem compressCompletes : Obligations.CompressCompletes := by
  intro s h hseq hcap hP hP' ho ho' hlen hlen'
  have hc : LegalConfig s := ⟨⟨by omega, hP'⟩, ho, ho'⟩
  have hopened := opened_sound h.toSound hc
  have hf := h.noFault hseq
  obtain ⟨t, ht, hpend⟩ := codes_complete (s := opened s) rfl hopened hf (opened_encReady hc hP hcap) (Nat.le_refl 2)
    (by show 2 + s.inByteQ.length ≤ 2 ^ (s.cfgPrec.toNat - 2) + 2; omega)
    (by show 0 + (s.inByteQ.length + 1) * 1024 < _; omega)
  obtain ⟨hframe, hq⟩ := ht.frame
  have hfull : t.pending ≠ 0xFFFFFFFF := by
    intro e
    rw [e] at hpend
    exact absurd hpend (by decide)
  obtain ⟨u, hu, hcomp, hout, -, hinByte, hinBit, houtByte, -⟩ := ht.completes hfull
  have hsteps := (compress_opens.reaches hc).trans ((ht.reaches hopened hf).2.trans (.step hu (.refl 0 _)))
  rw [show goto (encode .compress) .start s = s from goto_self hseq] at hsteps
  obtain ⟨n, -, hrun⟩ := hsteps
  exact ⟨n, u, hrun, hcomp, hinByte.trans hq, hinBit.trans hframe.inBitQ, houtByte.trans hframe.outByteQ,
    hframe.outBitQ.trans (hout ▸ List.prefix_append _ _)⟩

/-! ### DSYM -/

section
variable {s : State} {t : Tsel} {T : Table} {c : Bool} {m : Store}

/-- CODE lies in the interval (spec/42_arithmetic_coder.md R175). -/
def CodeInside (s : State) : Prop := s.low.toNat ≤ s.code.toNat ∧ s.code.toNat ≤ s.high.toNat

/-- A DEC with CODE in the interval runs through and leaves CODE in the interval (spec/42_arithmetic_coder.md R174, R175(d)). -/
theorem decBody_inside (h : s.Sound) (hg : Gives s t T c m) (hst : T.stale = false) {y : Sym} (hy : T.Has y)
    (hcode : CodeInside s) : ∃ u a, decBody t s = .ok u a ∧ CodeInside u ∧ u.ctx = m := by
  obtain ⟨hT, -⟩ := gives_sound h hg
  obtain ⟨ey, hey⟩ := Table.entry?_of_has hy
  have hz := total_ne_zero hT hst (Table.entry?_some hey).1
  have hlt : valueFor s T < T.total.toNat := by
    have hw : s.high.toNat - s.low.toNat + 1 = s.high.toNat + 1 - s.low.toNat := by have := h.interval.1; omega
    rw [valueFor, hw]
    exact value_lt_total hcode.1 hcode.2 (total_pos_of_ne hz)
  obtain ⟨e, he, hv⟩ := (hT.ranges hst).cover (Nat.zero_le _) hlt
  have hin := (value_in_range h hz hcode.1 hcode.2).1 hv
  obtain ⟨r, hr, -, hb⟩ := decBody_decodes h hg hst he hin
  have hok : (decStart s T e).Ok s.pAct.toNat :=
    ⟨hin.1, Nat.le_sub_one_of_lt hin.2, (lowFor_le h hT hst he (by omega)).2⟩
  obtain ⟨r', hr', ⟨h1, h2, h3⟩, -⟩ := renormDec_total h.prec.1 _ hok
  cases hr.symm.trans hr'
  have hmax := top_lt h.prec.2
  refine ⟨_, _, hb, ⟨?_, ?_⟩, rfl⟩
  · show (BitVec.ofNat 32 r.low).toNat ≤ (BitVec.ofNat 32 r.code).toNat
    rwa [ofNat_toNat (by omega), ofNat_toNat (by omega)]
  · show (BitVec.ofNat 32 r.code).toNat ≤ (BitVec.ofNat 32 r.high).toNat
    rwa [ofNat_toNat (by omega), ofNat_toNat (by omega)]

end

/-- A table that DEC can decode on and PUPD can update. -/
def Table.Usable (T : Table) : Prop := T.stale = false ∧ cntSum T.alpha + 1 ≤ wordMax

/-- What holds between two steps of a DSYM that completes. -/
structure DsymReady (k : SymLoop) (s : State) : Prop extends DsymOk k s where
  order : 0 ≤ s.orderAct.toInt
  unbounded : s.params.ctxCapacity = none
  inside : CodeInside s
  tables : k.phase.learnt = 0 → ∀ q ∈ s.ctx, q.2.Usable

section
variable {k k₁ : SymLoop} {s u : State} {o : Tsel} {e : Nat} {cr : Bool} {tl : ResRegs} {x : Sym}

/-- A step of DSYM runs through and leaves the decoder ready for the next (spec/44_drivers.md R222). -/
def DsymGoesOn (k : SymLoop) (s : State) : Prop :=
  ∃ u k₁, dsymStep k s = .ok u (some k₁) ∧ CodeInside u ∧ (k₁.phase.learnt = 0 → ∀ q ∈ u.ctx, q.2.Usable)

theorem dsymDesc_goesOn (h : DsymReady ⟨.desc o, e, cr⟩ s) : DsymGoesOn ⟨.desc o, e, cr⟩ s := by
  obtain ⟨T, c, m, hg, hesc⟩ := gives_order h.sound h.unbounded h.phase
  obtain ⟨hm, hT⟩ := hg.tables (P := Table.Usable) (h.tables rfl) ⟨rfl, by decide⟩ ⟨rfl, by decide⟩
  obtain ⟨u, a, hok, hin, hctx⟩ := decBody_inside h.sound hg (hT (order_ne_m1 h.sound h.phase)).1 hesc h.inside
  exact ⟨u, _, congrArg (Body.map _) hok, hin, fun _ => hctx ▸ hm⟩

theorem dsymFall_goesOn (h : DsymReady ⟨.fall, e, cr⟩ s) : DsymGoesOn ⟨.fall, e, cr⟩ s := by
  obtain ⟨u, a, hok, hin, hctx⟩ := decBody_inside h.sound (gives_m1 s) rfl ((Table.m1_has 0).2 (by decide)) h.inside
  refine ⟨u, ⟨.upd a.sym a.regs, e, cr⟩, ?_, hin, fun _ => hctx ▸ h.tables rfl⟩
  show dsymFall _ s = _
  rw [dsymFall, if_neg (Int.not_lt.2 h.order), hok]
  rfl

theorem dsymUpd_goesOn (h : DsymReady ⟨.upd x tl, e, cr⟩ s) : DsymGoesOn ⟨.upd x tl, e, cr⟩ s := by
  have hbody := pupdBody_updates (of_decide_eq_true h.phase) h.order (by rw [h.unbounded]; trivial)
    fun k _ T hT => (h.tables rfl _ (Store.mem_of_get hT)).2
  exact ⟨_, _, congrArg (Body.map _) hbody, h.inside, fun hl => absurd hl Nat.one_ne_zero⟩

theorem dsymPush_goesOn (h : DsymReady ⟨.push x tl, e, cr⟩ s) : DsymGoesOn ⟨.push x tl, e, cr⟩ s :=
  ⟨_, _, congrArg (Body.map _) (hpushBody_byte (of_decide_eq_true h.phase)), h.inside, fun hl => absurd hl Nat.one_ne_zero⟩

/-- No step of a DSYM raises a fault, while the decoder is ready. -/
theorem dsymStep_dsymReady (k : SymLoop) (s : State) (h : DsymReady k s) (hk : doneSym k = none) :
    (dsymStep k s).Sat (fun t k' => ∀ k₁, k' = some k₁ → DsymReady k₁ t) (fun _ => False) (fun _ => True) := by
  have hgo : DsymGoesOn k s := by
    obtain ⟨phase, e, cr⟩ := k
    cases phase with
    | desc o => exact dsymDesc_goesOn h
    | fall => exact dsymFall_goesOn h
    | upd y tl => exact dsymUpd_goesOn h
    | push y tl => exact dsymPush_goesOn h
    | done y tl => cases hk
  obtain ⟨u, k₁, hok, hin, htab⟩ := hgo
  have hbase := dsymStep_dsymOk k s h.toDsymOk hk
  have hq := (dsymStep_quiet s hk).of_ok hok
  rw [hok] at hbase ⊢
  rintro k₂ hk₂
  cases hk₂
  exact ⟨hbase k₁ rfl, hq.orderAct ▸ h.order, hq.params ▸ h.unbounded, hin, htab⟩

theorem dsym_starts : coreStep (goto (encode .dsym) .start s) = .next (goto (encode .dsym) (.sym (symStart s)) s) := by
  rw [coreStep_goto (i := .dsym) rfl]
  rfl

/-- What DSYM outputs for a symbol (spec/44_drivers.md R222). -/
theorem outputByte_outByteQ (x : Sym) (s : State) :
    (outputByte x s).outByteQ = s.outByteQ ++ if x = Sym.eof then [] else [byteOf x] := by
  unfold outputByte
  split
  · exact (List.append_nil _).symm
  · rfl

theorem dsymReport_inside (h : CodeInside s) : CodeInside (dsymReport x tl k s) := by
  unfold dsymReport outputByte
  split <;> exact h

theorem isByte_ne_eof (hx : isByte x = true) : x ≠ Sym.eof := by
  rintro rfl
  cases hx

/-- The low byte of a word's SYM field. -/
theorem symField_low {v : Word} (h : v.setWidth 9 = x) : v.setWidth 8 = byteOf x :=
  h ▸ (BitVec.setWidth_setWidth_of_le v (by omega)).symm

/-- The top bit of a byte's SYM field is clear. -/
theorem symField_bit8 {v : Word} (h : v.setWidth 9 = x) (hx : x.toNat ≤ 255) : v.getLsbD 8 = false := by
  have hv : v.toNat % 2 ^ 9 = x.toNat := by rw [← h, BitVec.toNat_setWidth]
  exact getLsbD_eq (show v.toNat / 2 ^ 8 % 2 = 0 by omega)

end

/-- Settles O39: step 0 and the steps of a ready decoder. -/
theorem dsymCompletes : Obligations.DsymCompletes := by
  intro s h hseq ho hcap hlo hhi htab
  have hf := h.noFault hseq
  have hstart : DsymReady (symStart s) s :=
    ⟨dsymOk_start h.toSound hf, ho, hcap, ⟨hlo, hhi⟩, fun _ => htab⟩
  rcases dsymStep_lawful.ends dsymStep_dsymReady hstart with ⟨k, u, y, tl, hpath, hk, hr⟩ | ⟨r, v, hF, -⟩
  case inr => exact hF.elim
  have hsteps := Reaches.step (dsym_starts (s := s)) (hpath.reaches_done dsymStep_lawful dsym_drives hk)
  rw [show goto (encode .dsym) .start s = s from goto_self hseq] at hsteps
  obtain ⟨n, hn, hrun⟩ := hsteps
  have hrank := symStart_rank s
  have hq := hpath.symQuiet
  have hsame := dsymReport_sameFault y tl k u
  obtain ⟨hlo', hhi'⟩ := dsymReport_inside (x := y) (tl := tl) (k := k) hr.inside
  have hout : (dsymReport y tl k u).outByteQ = s.outByteQ ++ if y = Sym.eof then [] else [byteOf y] :=
    (outputByte_outByteQ y u).trans (by rw [hq.outByteQ])
  have hcod : Codable y := by
    have := hr.phase
    rw [hk] at this
    exact this
  refine ⟨n, _, by omega, hrun, ⟨⟨hsame.fault.trans hq.fault, hsame.faultInfo.trans hq.faultInfo,
    hsame.faultIp.trans hq.faultIp⟩, rfl, rfl⟩, ResultFields.toWord_valid _, hlo', hhi', ?_⟩
  rcases hcod with rfl | hy
  · exact .inl ⟨ResultFields.toWord_eof _, hout.trans (List.append_nil _)⟩
  · rw [if_neg (isByte_ne_eof hy)] at hout
    have hy : y.toNat ≤ 255 := of_decide_eq_true hy
    have hsym : (dsymReport y tl k u).result.setWidth 9 = y := ResultFields.toWord_setWidth _
    exact .inr ⟨byteOf y, symField_low hsym, symField_bit8 hsym hy, hout⟩

end Sys2Proof.Machine
end

section
/-! PROOFS. Family 44_drivers, the empty stream: the stages of DECOMPRESS around its symbols, and the one EOF at the opening of a
session on both sides. -/

namespace Sys2Proof.Machine

/-! ### The stages of DECOMPRESS around its symbols -/

section
variable {s t u : State} {x : Sym}

/-- The state after DPRIME_BODY (spec/42_arithmetic_coder.md R173). -/
def primed (s : State) : State :=
  consumeTo (takeBits s.pAct.toNat 0 s.inBitQ).2
    { s with code := BitVec.ofNat 32 (takeBits s.pAct.toNat 0 s.inBitQ).1 }

theorem primed_sound (h : s.Sound) : (primed s).Sound := (dprimeBody_sat h).1

/-- CODE is the first P_ACT bits of the stream (spec/42_arithmetic_coder.md R173). -/
theorem primed_code (h : s.Sound) : (primed s).code.toNat = streamVal s.pAct.toNat (stream s.inBitQ) := by
  show (BitVec.ofNat 32 (takeBits s.pAct.toNat 0 s.inBitQ).1).toNat = _
  rw [takeBits_streamVal]
  exact ofNat_toNat ((Nat.le_sub_one_of_lt (streamVal_lt _ _)).trans (top_lt h.prec.2))

theorem decompress_primes (s : State) : coreStep (goto (encode .decompress) .dPrime s) =
    .next (goto (encode .decompress) .dNext (primed s)) := by
  rw [coreStep_goto (i := .decompress) rfl, decompress_prime rfl]
  rfl

theorem decompress_takes (s : State) : coreStep (goto (encode .decompress) .dNext s) =
    .next (goto (encode .decompress) (.dSym (symStart s)) s) := by
  rw [coreStep_goto (i := .decompress) rfl, decompress_next rfl]
  rfl

theorem decompress_clears (s : State) : coreStep (goto (encode .decompress) .dClear s) =
    .next (complete { s with inBitQ := [] }) := by
  rw [coreStep_goto (i := .decompress) rfl, decompress_clear rfl]
  rfl

/-- The first three stages of a DECOMPRESS with a legal CONFIG (spec/44_drivers.md R224). -/
theorem decompress_opened (hc : LegalConfig s) : Reaches 3 (goto (encode .decompress) .start s)
    (goto (encode .decompress) .dNext (primed (opened s))) :=
  (decompress_opens.reaches hc).trans (.step (decompress_primes _) (.refl 0 _))

/-- One symbol of a DECOMPRESS, its step 0 included. -/
theorem DsymRuns.reaches (hr : DsymRuns x s t) : Reaches (phaseRank (symStart s).phase + 1)
    (goto (encode .decompress) .dNext s) (goto (encode .decompress) (if x = Sym.eof then .dClear else .dNext) t) := by
  obtain ⟨k, tl, u, hp, hk, rfl⟩ := hr
  have hdone : doneSym k = some x := by rw [doneSym, hk]
  have hsteps := hp.reaches_done dsymStep_lawful decompress_drives hk
  simp only [hdone, Option.some.injEq] at hsteps
  exact .step (decompress_takes s) hsteps

/-- What a whole DSYM leaves alone, and what it outputs (spec/44_drivers.md R222). -/
theorem DsymRuns.output (hr : DsymRuns x s t) :
    SameFault s t ∧ t.outByteQ = s.outByteQ ++ if x = Sym.eof then [] else [byteOf x] := by
  obtain ⟨k, tl, u, hp, -, rfl⟩ := hr
  have hq := hp.symQuiet
  have hf := dsymReport_sameFault x tl k u
  refine ⟨⟨hf.fault.trans hq.fault, hf.faultInfo.trans hq.faultInfo, hf.faultIp.trans hq.faultIp⟩, ?_⟩
  exact (outputByte_outByteQ x u).trans (by rw [hq.outByteQ])

end

/-! ### EOF at the opening -/

/-- EOF's entry of ROOT_SEED (spec/10_state.md R44). -/
def eofSeed : Entry := ⟨Sym.eof, 1, 1, 2⟩

/-- What a driver reports for EOF coded in ROOT_SEED (spec/44_drivers.md R223, R224). -/
def eofDone : SymLoop := ⟨.done Sym.eof ⟨1, 2, 2, 1⟩, 0, false⟩

/-- The coder and the model are as CINIT and MINIT leave them (spec/42_arithmetic_coder.md R170, spec/43_ppm_context_model.md
R200). -/
structure Opening (s : State) : Prop where
  sound : s.Sound
  low : s.low = 0
  high : s.high.toNat = top s.pAct.toNat
  pending : s.pending = 0
  ctx : s.ctx = [([], Table.rootSeed)]
  hist : s.hist = []

theorem opened_opening {s : State} (h : s.Sound) (hc : LegalConfig s) : Opening (opened s) :=
  ⟨opened_sound h hc, rfl, opened_high hc, rfl, rfl, rfl⟩

section
variable {s : State}

theorem Opening.primed (h : Opening s) : Opening (primed s) :=
  ⟨primed_sound h.sound, h.low, h.high, h.pending, h.ctx, h.hist⟩

theorem Opening.gives (h : Opening s) : Gives s 0 Table.rootSeed false s.ctx :=
  .inr ⟨[], ⟨by decide, ⟨rfl, s.hist, (List.append_nil _).symm⟩, .inl ⟨rfl, by rw [h.ctx]; rfl⟩⟩, .inl ⟨rfl, rfl⟩⟩

/-- EOF has the upper half of the opening interval. -/
theorem Opening.bounds (h : Opening s) :
    lowFor s Table.rootSeed eofSeed = half s.pAct.toNat ∧ endFor s Table.rootSeed eofSeed = top s.pAct.toNat + 1 := by
  obtain ⟨c1, -, c3, -⟩ := coder_constants h.sound.prec.1
  have hlow : s.low.toNat = 0 := by rw [h.low]; rfl
  have e1 : lowFor s Table.rootSeed eofSeed = s.low.toNat + (s.high.toNat - s.low.toNat + 1) * 1 / 2 := rfl
  have e2 : endFor s Table.rootSeed eofSeed = s.low.toNat + (s.high.toNat - s.low.toNat + 1) * 2 / 2 := rfl
  rw [e1, e2, hlow, h.high]
  omega

/-- Step 0 at the empty history starts at DESC 0, or at FALL below order 0. -/
theorem Opening.symStart (h : Opening s) :
    symStart s = ⟨if s.orderAct.toInt < 0 then .fall else .desc 0, 0, false⟩ := by
  rw [Machine.symStart, h.hist]
  simp [orderVal]

/-- One E2 pass takes the upper half back to the whole interval, and emits a 1 (spec/42_arithmetic_coder.md R162). -/
theorem renormEnc_upperHalf {P : Nat} (hP : 2 ≤ P) : renormEnc P P ⟨half P, top P, 0, []⟩ = .settled ⟨0, top P, 0, [true]⟩ := by
  obtain ⟨c1, -, c3, -⟩ := coder_constants hP
  obtain ⟨n, rfl⟩ : ∃ n, P = n + 1 := ⟨P - 1, by omega⟩
  have hcase : renormCase (n + 1) (half (n + 1)) (top (n + 1)) = some .e2 := by
    unfold renormCase
    rw [if_neg (by omega), if_pos (Nat.le_refl _)]
  have hpass : encPass (n + 1) .e2 ⟨half (n + 1), top (n + 1), 0, []⟩ = ⟨0, top (n + 1), 0, [true]⟩ := by
    simp only [encPass, RenormCase.offset, EncRegs.mk.injEq]
    exact ⟨by omega, by omega, trivial, rfl⟩
  rw [renormEnc_pass hcase (by rintro ⟨h, -⟩; cases h), hpass]
  exact renormEnc_none (renormCase_full hP)

/-- The encoder after EOF at the opening. -/
def eofCoded (s : State) : State := storeEnc ⟨0, top s.pAct.toNat, 0, [true]⟩ s

theorem eofCoded_pending : (eofCoded s).pending ≠ 0xFFFFFFFF := by
  show BitVec.ofNat 32 0 ≠ 0xFFFFFFFF
  decide

/-- EOF at the opening emits the one bit 1 (spec/44_drivers.md R223). -/
theorem Opening.encBody_eof (h : Opening s) :
    encBody 0 Sym.eof s = .ok (eofCoded s) ⟨Sym.eof, ⟨1, 2, 2, 1⟩, false⟩ := by
  obtain ⟨hlo, hend⟩ := h.bounds
  have hP := h.sound.prec.1
  obtain ⟨c1, -, c3, c4⟩ := coder_constants hP
  refine encBody_settled h.sound h.gives rfl (e := eofSeed) (by decide) (by omega) ?_
  have hp : s.pending.toNat = 0 := by rw [h.pending]; rfl
  rw [encStart, hlo, hend, hp]
  exact renormEnc_upperHalf hP

/-- A whole CSYM of EOF at the opening. -/
theorem Opening.csymRuns_eof (h : Opening s) :
    CsymRuns Sym.eof s (symResult Sym.eof ⟨1, 2, 2, 1⟩ eofDone (eofCoded s)) := by
  refine ⟨eofDone, _, eofCoded s, ?_, rfl, rfl⟩
  rw [h.symStart]
  split
  · exact .more rfl (congrArg (Body.map _) h.encBody_eof) (.refl _ _)
  · refine .more rfl ((csymDesc_gives h.gives _).trans ?_) (.refl _ _)
    exact congrArg (Body.map _) h.encBody_eof

/-- At an opening with CODE in the upper half a whole DSYM decodes EOF (spec/44_drivers.md R224). -/
theorem Opening.dsymRuns_eof (h : Opening s) (ho : 0 ≤ s.orderAct.toInt) (hcode : half s.pAct.toNat ≤ s.code.toNat)
    (htop : s.code.toNat ≤ top s.pAct.toNat) : ∃ u, DsymRuns Sym.eof s (dsymReport Sym.eof ⟨1, 2, 2, 1⟩ eofDone u) := by
  obtain ⟨hlo, hend⟩ := h.bounds
  obtain ⟨u, hb⟩ : ∃ u, decBody 0 s = .ok u ⟨Sym.eof, ⟨1, 2, 2, 1⟩, false⟩ := by
    obtain ⟨r, -, -, hb⟩ := decBody_decodes h.sound h.gives rfl (e := eofSeed) (by decide) ⟨by omega, by omega⟩
    exact ⟨_, hb⟩
  refine ⟨u, eofDone, _, u, ?_, rfl, rfl⟩
  rw [h.symStart, if_neg (Int.not_lt.2 ho)]
  exact .more rfl (congrArg (Body.map _) hb) (.refl _ _)

/-- A stream that starts with 1 puts CODE in the upper half. -/
theorem primed_code_upper {rest : List Bool} (h : s.Sound) (hq : s.inBitQ = true :: rest) :
    half s.pAct.toNat ≤ (primed s).code.toNat ∧ (primed s).code.toNat ≤ top s.pAct.toNat := by
  have hP := h.prec.1
  obtain ⟨n, hn⟩ : ∃ n, s.pAct.toNat = n + 1 := ⟨s.pAct.toNat - 1, by omega⟩
  rw [primed_code h, hq, hn]
  refine ⟨?_, Nat.le_sub_one_of_lt (streamVal_lt _ _)⟩
  rw [streamVal_cons]
  show 2 ^ n ≤ 1 * 2 ^ n + _
  omega

end

/-- The bits of the empty stream. -/
theorem flushBits_eof {t : State} (hP : 2 ≤ t.pAct.toNat) (hlow : t.low = 0) (hp : t.pending = 0) :
    flushBits t = [false, true] := by
  obtain ⟨-, -, -, c4⟩ := coder_constants hP
  have hl : t.low.toNat = 0 := by rw [hlow]; rfl
  rw [flushBits, hl, hp, decide_eq_false (by omega)]
  rfl

/-- Settles O44: EOF alone takes the upper half, so it emits 1 and FIN 01, and it is what a first bit of 1 decodes to. -/
theorem emptyStream : Obligations.EmptyStream := by
  refine ⟨fun s h hseq hq hP hP' ho ho' => ?_, fun s rest h hseq hq hP hP' ho ho' => ?_⟩
  · have hc : LegalConfig s := ⟨⟨hP, hP'⟩, ho, ho'⟩
    have hopen := opened_opening h.toSound hc
    have hcodes : Codes (opened s) _ := .eof hq hopen.csymRuns_eof
    obtain ⟨u, hu, hcomp, hout, hcnt, -, -, -, -, -, hresult, hres⟩ := hcodes.completes eofCoded_pending
    have hsteps := (compress_opens.reaches hc).trans
      ((hcodes.reaches hopen.sound (h.noFault hseq)).2.trans (.step hu (.refl 0 _)))
    rw [show goto (encode .compress) .start s = s from goto_self hseq] at hsteps
    obtain ⟨n, -, hrun⟩ := hsteps
    refine ⟨n, u, hrun, hcomp, ?_, hcnt, hresult, hres⟩
    rw [hout, flushBits_eof hP rfl rfl]
    exact List.append_assoc s.outBitQ [true] _
  · have hc : LegalConfig s := ⟨⟨hP, hP'⟩, by omega, ho'⟩
    have hopen := opened_opening h.toSound hc
    obtain ⟨hhalf, htop⟩ := primed_code_upper hopen.sound hq
    obtain ⟨u, hr⟩ := hopen.primed.dsymRuns_eof ho hhalf htop
    obtain ⟨hfault, hout⟩ := hr.output
    have hsteps := (decompress_opened hc).trans (hr.reaches.trans (.step (decompress_clears _) (.refl 0 _)))
    rw [show goto (encode .decompress) .start s = s from goto_self hseq] at hsteps
    obtain ⟨n, -, hrun⟩ := hsteps
    exact ⟨n, _, hrun, ⟨⟨hfault.fault, hfault.faultInfo, hfault.faultIp⟩, rfl, rfl⟩, hout.trans (List.append_nil _), rfl, rfl,
      rfl⟩

end Sys2Proof.Machine
end

section
/-! PROOFS. Family 44_drivers, the end of DECOMPRESS: each byte adds one to the counts of the root, which a word bounds, so the
symbols come to an end. -/

namespace Sys2Proof.Machine

/-! ### The count sum of the root -/

/-- The count sum of the root's table (spec/10_state.md R42). -/
def rootSum (s : State) : Nat := cntSum (updTable [] s.ctx).alpha

section
variable {s u : State} {t : Tsel} {x : Sym} {T : Table} {c : Bool} {m : Store} {a : Coded} {n : Nat}

/-- A count sum is a word (spec/10_state.md R41). -/
theorem rootSum_le (h : s.Sound) : rootSum s ≤ wordMax := by
  obtain ⟨R, hR, -⟩ := h.store.root
  rw [rootSum, updTable, hR]
  exact (h.store.tables _ (Store.mem_of_get hR)).tab.sumBound

/-- SELECT never changes the root's table (spec/43_ppm_context_model.md R201, R205). -/
theorem Gives.root (h : s.Sound) (hg : Gives s t T c m) : Store.get [] m = Store.get [] s.ctx := by
  rcases hg with ⟨-, -, -, rfl⟩ | ⟨k, ⟨-, -, hsel⟩, ⟨-, rfl⟩ | ⟨rfl, rfl⟩⟩
  · rfl
  · rfl
  · obtain ⟨hc, -⟩ | ⟨-, hnone, -⟩ := hsel
    · cases hc
    · obtain ⟨R, hR, -⟩ := h.store.root
      refine Store.get_put_other ?_ T s.ctx
      rintro rfl
      rw [hnone] at hR
      cases hR

/-- A DEC that ran through found an entry of the table SELECT gives (spec/42_arithmetic_coder.md R174). -/
theorem decBody_ok (h : decBody t s = .ok u a) : ∃ T c m e r, Gives s t T c m ∧ e ∈ T.alpha ∧
    a = ⟨e.sym, T.values e, c⟩ ∧ u = storeDec r { s with ctx := m } := by
  unfold decBody at h
  split at h
  · cases h
  · next sel hsel =>
    unfold decWith at h
    split at h
    · cases h
    split at h
    · cases h
    split at h
    · cases h
    split at h
    · cases h
    next e he =>
      split at h
      · cases h
      split at h <;> cases h
      exact ⟨_, _, _, e, _, gives_of_select hsel, (Table.symbolAt_some he).1, rfl, rfl⟩

theorem decBody_rootSum (h : s.Sound) (hb : decBody t s = .ok u a) : rootSum u = rootSum s := by
  obtain ⟨T, c, m, e, r, hg, -, -, rfl⟩ := decBody_ok hb
  show cntSum (updTable [] m).alpha = _
  rw [updTable, hg.root h]
  rfl

/-- From order 0 on PUPD counts the symbol in the root too (spec/43_ppm_context_model.md R204). -/
theorem pupdBody_rootSum (hx : isByte x = true) (ho : 0 ≤ s.orderAct.toInt) (hb : pupdBody x s = .ok u n) :
    rootSum u = rootSum s + 1 := by
  have hroot : [] ∈ s.pupdKeys := mem_updKeys.2 ⟨0, Nat.zero_le _, (last_zero _).symm⟩
  rw [pupdBody_byte (of_decide_eq_true hx) ho] at hb
  split at hb
  · cases hb
  split at hb
  · cases hb
  next hfull =>
    cases hb
    have hroom : cntSum (updTable [] s.ctx).alpha + 1 ≤ wordMax := updTable_room fun T hT => by
      by_contra hlt
      exact hfull (anyCountFull_eq_true.2 ⟨[], hroot, T, hT, Nat.lt_of_not_le hlt⟩)
    have hget := updStore_get x s.pupdKeys s.ctx (updKeys_nodup _ _) []
    rw [if_pos hroot] at hget
    have hnew : updTable [] (updStore x s.pupdKeys s.ctx) = (updTable [] s.ctx).eagerAdd x := by rw [updTable, hget]; rfl
    show cntSum (updTable [] (updStore x s.pupdKeys s.ctx)).alpha = _
    rw [hnew]
    exact (cntSum_layout 0 _).trans (cntSum_bump x _ hroom)

end

/-! ### A whole DSYM -/

/-- What a phase of a DSYM has added to the root's counts (spec/44_drivers.md R222). -/
def Phase.counted : Phase → Nat
  | .desc _ => 0
  | .fall => 0
  | .upd _ _ => 0
  | .push _ _ => 1
  | .done x _ => if x = Sym.eof then 0 else 1

theorem resolved_counted (a : Coded) (e : Nat) (cr : Bool) : (resolved a e cr).phase.counted = 0 := by
  unfold resolved
  simp only
  split
  · next h => exact if_pos h
  · rfl

theorem descend_counted (o : Tsel) (e : Nat) (cr : Bool) : (descend o e cr).phase.counted = 0 := by
  unfold descend
  simp only
  split <;> rfl

/-- What holds between two steps of a DSYM at an order of at least 0 that the root's counts entered with `base`. -/
structure Counted (base : Nat) (k : SymLoop) (s : State) : Prop extends DsymOk k s where
  order : 0 ≤ s.orderAct.toInt
  sum : rootSum s = base + k.phase.counted

section
variable {base : Nat} {k k₁ : SymLoop} {s t v : State} {x : Sym}

theorem dsymStep_rootSum (h : Counted base k s) (hok : dsymStep k s = .ok t (some k₁)) :
    rootSum t = base + k₁.phase.counted := by
  have hs := h.sum
  obtain ⟨phase, e, cr⟩ := k
  cases phase with
  | desc o =>
    obtain ⟨a, hb, ha⟩ := Body.map_eq_ok hok
    rw [decBody_rootSum h.sound hb, hs, Option.some.inj ha]
    split
    · rw [descend_counted]; rfl
    · rw [resolved_counted]; rfl
  | fall =>
    change dsymFall _ s = _ at hok
    rw [dsymFall, if_neg (Int.not_lt.2 h.order)] at hok
    obtain ⟨a, hb, ha⟩ := Body.map_eq_ok hok
    rw [decBody_rootSum h.sound hb, hs, Option.some.inj ha]
    rfl
  | upd y tl =>
    obtain ⟨n, hb, ha⟩ := Body.map_eq_ok hok
    rw [pupdBody_rootSum h.phase h.order hb, hs, Option.some.inj ha]
    rfl
  | push y tl =>
    have hy : isByte y = true := h.phase
    obtain ⟨_, hb, ha⟩ := Body.map_eq_ok hok
    rw [hpushBody_byte (of_decide_eq_true hy)] at hb
    cases hb
    rw [Option.some.inj ha]
    exact hs.trans (congrArg _ (if_neg (isByte_ne_eof hy)).symm)
  | done y tl => cases hok

theorem dsymStep_counted (k : SymLoop) (s : State) (h : Counted base k s) (hk : doneSym k = none) :
    (dsymStep k s).Sat (fun t k' => ∀ k₁, k' = some k₁ → Counted base k₁ t) (fun _ => True) (fun _ => True) := by
  refine (dsymStep_dsymOk k s h.toDsymOk hk).and_ok ?_
  rintro t k' hok hbase k₁ rfl
  have horder := ((dsymStep_quiet s hk).of_ok hok).orderAct
  exact ⟨hbase k₁ rfl, horder ▸ h.order, dsymStep_rootSum h hok⟩

/-- A whole DSYM keeps the data sound, and adds a byte to the root's counts (spec/44_drivers.md R222). -/
theorem DsymRuns.counts (h : s.Sound) (hf : s.fault = none) (ho : 0 ≤ s.orderAct.toInt) (hr : DsymRuns x s t) :
    t.Sound ∧ t.orderAct = s.orderAct ∧ rootSum t = rootSum s + if x = Sym.eof then 0 else 1 := by
  obtain ⟨k, tl, u, hp, hk, rfl⟩ := hr
  have hstart : Counted (rootSum s) (symStart s) s := by
    refine ⟨dsymOk_start h hf, ho, ?_⟩
    rw [symStart, orderVal, if_neg (Int.not_lt.2 ho)]
    rfl
  have hend := hp.keeps dsymStep_counted hstart
  have hsum := hend.sum
  rw [hk] at hsum
  have hreport := dsymStep_sat hend.sound hend.phase
  rw [dsymStep_lawful.done _ _ _ _ hk] at hreport
  obtain ⟨ho', hc'⟩ : (dsymReport x tl k u).orderAct = u.orderAct ∧ (dsymReport x tl k u).ctx = u.ctx := by
    unfold dsymReport outputByte
    split <;> exact ⟨rfl, rfl⟩
  exact ⟨hreport.1, ho'.trans hp.symQuiet.orderAct, by rw [rootSum, hc']; exact hsum⟩

/-- Below order 0 a DSYM raises ORDER_M1_DECODE (spec/44_drivers.md R222). -/
theorem dsymRuns_order (hr : DsymRuns x s t) : 0 ≤ s.orderAct.toInt := by
  by_contra ho
  have ho : s.orderAct.toInt < 0 := Int.not_le.1 ho
  obtain ⟨k, tl, u, hp, hk, -⟩ := hr
  rw [symStart, orderVal, if_pos ho] at hp
  cases hp with
  | refl => cases hk
  | more _ hok =>
    change dsymFall _ s = _ at hok
    rw [dsymFall, orderVal, if_pos ho] at hok
    cases hok

/-- A DSYM that faults has output nothing (spec/60_exceptions.md R266). -/
theorem SymFaults.outByteQ {r : Raise} (h : SymFaults dsymStep k s r v) : v.outByteQ = s.outByteQ := by
  obtain ⟨k', t, hp, hk, ⟨-, rfl⟩ | hb⟩ := h
  · exact hp.symQuiet.outByteQ
  · have hq := dsymStep_quiet t hk
    rw [hb] at hq
    exact hq.outByteQ.trans hp.symQuiet.outByteQ

end

/-! ### The symbols of DECOMPRESS -/

/-- An end of a command that started in `s`, at most `n` bytes output. -/
structure EndsWithin (n : Nat) (s t : State) : Prop where
  idle : t.seq = .idle
  ends : Completed s t ∨ t.fault ≠ none
  bytes : t.outByteQ.length ≤ s.outByteQ.length + n

section
variable {s t v : State} {x : Sym}

theorem EndsWithin.fault {n : Nat} (r : Raise) (h : v.outByteQ = s.outByteQ) : EndsWithin n s (faultEntry r v) :=
  ⟨rfl, .inr (Option.some_ne_none _), (congrArg List.length h).le.trans (Nat.le_add_right _ _)⟩

/-- A DECOMPRESS that goes on after a byte ends as it does from there. -/
theorem EndsWithin.after {n : Nat} (h : EndsWithin n t v) (hs : SameFault s t)
    (hlen : t.outByteQ.length = s.outByteQ.length + 1) : EndsWithin (n + 1) s v where
  idle := h.idle
  ends := h.ends.imp (fun hc => ⟨⟨hc.fault.trans hs.fault, hc.faultInfo.trans hs.faultInfo, hc.faultIp.trans hs.faultIp⟩,
    hc.seq, hc.doneIp⟩) id
  bytes := by
    have := h.bytes
    omega

/-- One symbol of a DECOMPRESS is its last, or a byte after which it goes on. -/
theorem decompress_symbol (n : Nat) (h : s.Sound) (hf : s.fault = none) :
    (∃ m t, Reaches m (goto (encode .decompress) .dNext s) t ∧ EndsWithin n s t) ∨
      ∃ m t, Reaches m (goto (encode .decompress) .dNext s) (goto (encode .decompress) .dNext t) ∧ t.Sound ∧
        SameFault s t ∧ rootSum t = rootSum s + 1 ∧ t.outByteQ.length = s.outByteQ.length + 1 := by
  rcases dsym_ends h hf with ⟨x, t, hr⟩ | ⟨r, v, hfl⟩
  · obtain ⟨hsame, hout⟩ := hr.output
    have hsteps := hr.reaches
    by_cases hx : x = Sym.eof
    · rw [if_pos hx] at hsteps hout
      refine .inl ⟨_, _, hsteps.trans (.step (decompress_clears t) (.refl 0 _)), rfl,
        .inl ⟨⟨hsame.fault, hsame.faultInfo, hsame.faultIp⟩, rfl, rfl⟩, ?_⟩
      show t.outByteQ.length ≤ _
      rw [hout, List.append_nil]
      exact Nat.le_add_right _ _
    · obtain ⟨hs, -, hsum⟩ := hr.counts h hf (dsymRuns_order hr)
      rw [if_neg hx] at hsteps hout hsum
      exact .inr ⟨_, t, hsteps, hs, hsame, hsum, by rw [hout, List.length_append]; rfl⟩
  · exact .inl ⟨_, _, .step (decompress_takes s) (hfl.reaches dsymStep_lawful decompress_drives), .fault r hfl.outByteQ⟩

/-- From the first step 0 on a DECOMPRESS ends within as many bytes as the root has room for (spec/44_drivers.md R233). -/
theorem decompress_ends {n : Nat} (hn : rootSum s + n = wordMax) (h : s.Sound) (hf : s.fault = none) :
    ∃ m t, Reaches m (goto (encode .decompress) .dNext s) t ∧ EndsWithin n s t := by
  induction n generalizing s with
  | zero =>
    rcases decompress_symbol 0 h hf with hend | ⟨m, t, -, hs, -, hsum, -⟩
    · exact hend
    · have := rootSum_le hs
      omega
  | succ n ih =>
    rcases decompress_symbol (n + 1) h hf with hend | ⟨m, t, hsteps, hs, hsame, hsum, hlen⟩
    · exact hend
    · obtain ⟨m', v, hrest, hend⟩ := ih (by omega) hs (hsame.fault.trans hf)
      exact ⟨_, v, hsteps.trans hrest, hend.after hsame hlen⟩

end

/-- Settles O45: the root starts with a count sum of 2, and each byte adds 1. -/
theorem decompressEnds : Obligations.DecompressEnds := by
  intro s h hseq
  suffices hend : ∃ m t, Reaches m (goto (encode .decompress) .start s) t ∧ EndsWithin (2 ^ 32 - 3) s t by
    rw [show goto (encode .decompress) .start s = s from goto_self hseq] at hend
    obtain ⟨m, t, ⟨n, -, hrun⟩, hidle, hdone, hbytes⟩ := hend
    exact ⟨n, t, hrun, hidle, hdone, hbytes⟩
  by_cases hc : LegalConfig s
  · have hsound := primed_sound (opened_sound h.toSound hc)
    have hroot : rootSum (primed (opened s)) = 2 := rfl
    obtain ⟨m, t, hsteps, hidle, hdone, hbytes⟩ :=
      decompress_ends (n := 2 ^ 32 - 3) (by rw [hroot, wordMax]; norm_num) hsound (h.noFault hseq)
    exact ⟨_, t, (decompress_opened hc).trans hsteps, hidle,
      hdone.imp (fun hd => ⟨⟨hd.fault, hd.faultInfo, hd.faultIp⟩, hd.seq, hd.doneIp⟩) id, hbytes⟩
  · obtain ⟨r, v, hsteps, hout⟩ := decompress_opens.faults hc
    exact ⟨_, _, hsteps, .fault r hout⟩

end Sys2Proof.Machine
end

section
/-! PROOFS. Family 44_drivers, the round trip R228: beside each step of a CSYM the step of a DSYM decodes what it codes, so DECOMPRESS
runs in step with COMPRESS. -/

namespace Sys2Proof.Machine

/-! ### The coder bodies side by side -/

section
variable {s d u : State} {t : Tsel} {x : Sym} {T T' : Table} {c c' : Bool} {m m' : Store} {a : Coded}

/-- SELECT has one outcome (spec/43_ppm_context_model.md R201). -/
theorem Gives.unique (h : Gives s t T c m) (h' : Gives s t T' c' m') : T = T' ∧ c = c' := by
  obtain ⟨key, hs⟩ := select_of_gives h 0
  obtain ⟨key', hs'⟩ := select_of_gives h' 0
  cases hs.symm.trans hs'
  exact ⟨rfl, rfl⟩

/-- The root has EOF (spec/43_ppm_context_model.md R205). -/
theorem Gives.root_eof (h : s.Sound) (hg : Gives s 0 T c m) : T.Has Sym.eof := by
  obtain ⟨R, hR, heof⟩ := gives_root h
  exact (hR.unique hg).1 ▸ heof

/-- The decoder `d` is in step with the encoder `s`, at the same order (spec/44_drivers.md R227). -/
structure Paired (s d : State) (F : List Bool) : Prop extends InStep s d F where
  order : d.orderAct = s.orderAct

/-- A DEC beside an ENC answers what the ENC answers (spec/42_arithmetic_coder.md R176). -/
theorem encBody_paired (h : s.Sound) (hf : s.fault = none) (hb : encBody t x s = .ok u a) :
    ∃ E, Emits s u E ∧ ∀ F d, Future u F → Paired s d (E ++ F) → ∃ d', decBody t d = .ok d' a ∧ Paired u d' F := by
  have hq := (encBody_quiet s t x).of_ok hb
  obtain ⟨T, c, m, e, r, he⟩ := encoded_of_noFault h (exec_enc_of_ok hb) (hq.fault.trans hf)
  have hsound := encBody_sat h t x
  rw [hb] at hsound
  have hem := he.emits h
  refine ⟨r.out, ⟨hem.out, hsound.1, hem.settled, hem.future⟩, fun F d hF hd => ?_⟩
  obtain ⟨v, hv, hsym, hin⟩ := he.dec_inStep h hF hd.toInStep
  rcases Body.finish_next (b := decBody t d) hv with ⟨d', a', hdec, rfl⟩ | ⟨f, -, rfl⟩ | ⟨f, v', -, rfl⟩
  case inr.inl => exact absurd hin.noFault (Option.some_ne_none _)
  case inr.inr => exact absurd hin.noFault (Option.some_ne_none _)
  have hsd := decBody_sat hd.sound t
  rw [hdec] at hsd
  have ha : a' = a := by
    obtain ⟨e₁, he₁, rfl⟩ := encBody_ok he.gives hb
    obtain ⟨T', c', m', e', r', hg', hmem, rfl, -⟩ := decBody_ok hdec
    obtain ⟨rfl, rfl⟩ := (he.gives.congr hd.hist hd.ctx hd.params).unique hg'
    obtain ⟨hmem₁, rfl⟩ := Table.entry?_some he₁
    have hsame : e'.sym = e₁.sym := (codedResult_sym _ _).symm.trans hsym
    have hnodup : (T.alpha.map fun e => e.sym).Nodup := (gives_sound h he.gives).1.distinct
    rw [List.inj_on_of_nodup_map hnodup hmem hmem₁ hsame]
  have hqd := (decBody_quiet d t).of_ok hdec
  exact ⟨d', ha ▸ hdec, ⟨⟨hsd.1, hin.noFault, hin.params, hin.pAct, hin.hist, hin.ctx, hin.low, hin.high⟩, hin.code, hin.bits⟩,
    hqd.orderAct.trans (hd.order.trans hq.orderAct.symm)⟩

end

/-! ### The steps of CSYM and DSYM side by side -/

/-- The encoder gets from `s` to `t`; a decoder in step with it gets from `d` to some `d'` as `runs` says, and is in step again
(spec/44_drivers.md R227). -/
def Follows (s t : State) (runs : State → State → Prop) : Prop :=
  ∃ E, Emits s t E ∧ ∀ F d, Future t F → Paired s d (E ++ F) → ∃ d', runs d d' ∧ Paired t d' F

/-- What holds between two steps of a CSYM beside a DSYM. An EOF is coded in the root at the latest, not by FALL. -/
structure CsymPaired (x : Sym) (k : SymLoop) (s : State) : Prop extends CsymOk x k s where
  order : 0 ≤ s.orderAct.toInt
  settled : Settled s.pAct.toNat s.low.toNat s.high.toNat
  eof : x = Sym.eof → k.phase ≠ .fall

section
variable {s t d u v : State} {x : Sym} {k k₁ k' : SymLoop} {F : List Bool} {runs runs' : State → State → Prop}

theorem Follows.trans (h : Follows s u runs) (h' : Follows u t runs') :
    Follows s t fun d d' => ∃ v, runs d v ∧ runs' v d' := by
  obtain ⟨E, hE, hdec⟩ := h
  obtain ⟨E', hE', hdec'⟩ := h'
  refine ⟨E ++ E', hE.trans hE', fun F d hF hd => ?_⟩
  rw [List.append_assoc] at hd
  obtain ⟨v, hv, hpair⟩ := hdec _ d (hE'.future F hF) hd
  obtain ⟨d', hd', hpair'⟩ := hdec' F v hF hpair
  exact ⟨d', ⟨v, hv, hd'⟩, hpair'⟩

theorem Follows.mono (h : Follows s t runs) (hr : ∀ F d d', Paired s d F → runs d d' → runs' d d') : Follows s t runs' := by
  obtain ⟨E, hE, hdec⟩ := h
  refine ⟨E, hE, fun F d hF hd => ?_⟩
  obtain ⟨d', hd', hpair⟩ := hdec F d hF hd
  exact ⟨d', hr _ d d' hd hd', hpair⟩

theorem Follows.settled (h : Follows s t runs) : Settled t.pAct.toNat t.low.toNat t.high.toNat := by
  obtain ⟨E, hE, -⟩ := h
  exact hE.settled

/-- A step of the context model on both sides: the coders and the bits stay. -/
theorem follows_model {m : Store} {l : List Byte} (hset : Settled s.pAct.toNat s.low.toNat s.high.toNat)
    (ht : State.Sound { s with ctx := m, hist := l }) (hk : k.phase.Ok s.hist.length)
    (hd : ∀ F d, Paired s d F → dsymStep k d = .ok { d with ctx := m, hist := l } (some k₁)) :
    Follows s { s with ctx := m, hist := l } fun d d' => dsymStep k d = .ok d' (some k₁) := by
  refine ⟨[], ⟨(List.append_nil _).symm, ht, hset, fun _ hF => hF⟩, fun F d _ hpair => ⟨_, hd F d hpair, ?_⟩⟩
  have hsound := dsymStep_sat hpair.sound (k := k) (hpair.hist.symm ▸ hk)
  rw [hd F d hpair] at hsound
  exact { hpair with sound := hsound.1, hist := rfl, ctx := rfl }

/-- PUPD depends on the model, the order and the parameters alone (spec/43_ppm_context_model.md R204). -/
theorem pupdBody_model {n : Nat} (hx : isByte x = true) (ho : 0 ≤ s.orderAct.toInt) (hb : pupdBody x s = .ok u n) :
    ∃ m, u = { s with ctx := m } ∧ ∀ F d, Paired s d F → pupdBody x d = .ok { d with ctx := m } n := by
  have hxb : x.toNat ≤ 255 := of_decide_eq_true hx
  rw [pupdBody_byte hxb ho] at hb
  split at hb
  · cases hb
  next hcap =>
  split at hb
  · cases hb
  next hfull =>
  cases hb
  refine ⟨_, rfl, fun F d hd => ?_⟩
  rw [pupdBody_byte hxb (hd.order ▸ ho), State.pupdKeys, hd.hist, hd.order, hd.ctx, hd.params, if_neg hcap, if_neg hfull]

theorem csymDesc_selects {o : Tsel} {a : Option SymLoop} (h : csymDesc x o k s = .ok t a) : ∃ T c m, Gives s o T c m := by
  unfold csymDesc at h
  split at h
  · cases h
  · next sel hsel => exact ⟨_, _, _, gives_of_select hsel⟩

/-- One step of a CSYM and the step of the DSYM beside it (spec/44_drivers.md R221, R222). -/
theorem csymStep_follows (hx : Codable x) (h : CsymPaired x k s) (hok : csymStep x k s = .ok t (some k₁)) :
    Follows s t fun d d' => dsymStep k d = .ok d' (some k₁) := by
  have hset := h.settled
  have ht : doneSym k = none → t.Sound := fun hk => by
    have hnext := csymStep_csymOk hx k s h.toCsymOk hk
    rw [hok] at hnext
    exact (hnext k₁ rfl).sound
  obtain ⟨phase, e, cr⟩ := k
  cases phase with
  | desc o =>
    obtain ⟨T, c, m, hg⟩ := csymDesc_selects hok
    obtain ⟨a, hb, ha⟩ := Body.map_eq_ok ((csymDesc_gives hg _).symm.trans hok)
    obtain ⟨E, hE, hdec⟩ := encBody_paired h.sound h.noFault hb
    refine ⟨E, hE, fun F d hF hd => ?_⟩
    obtain ⟨d', hd', hpair⟩ := hdec F d hF hd
    refine ⟨d', ?_, hpair⟩
    show (decBody o d).map _ = _
    rw [hd', ha]
    have hsym := encBody_ok_sym hb
    by_cases hmem : x ∈ T.syms
    · rw [if_pos hmem] at hsym ⊢
      rw [Body.map, hsym, if_neg (codable_ne_esc hx)]
    · rw [if_neg hmem] at hsym ⊢
      rw [Body.map, hsym, if_pos rfl]
  | fall =>
    obtain ⟨a, hb, ha⟩ := Body.map_eq_ok hok
    have hne : x ≠ Sym.eof := fun he => h.eof he rfl
    have hsym := encBody_ok_sym hb
    rw [if_neg hne] at hb
    obtain ⟨E, hE, hdec⟩ := encBody_paired h.sound h.noFault hb
    refine ⟨E, hE, fun F d hF hd => ?_⟩
    obtain ⟨d', hd', hpair⟩ := hdec F d hF hd
    refine ⟨d', ?_, hpair⟩
    show dsymFall _ d = _
    rw [dsymFall, orderVal, hd.order, if_neg (Int.not_lt.2 h.order), hd', ha, resolved, hsym, if_neg hne, Body.map, hsym]
  | upd y tl =>
    obtain ⟨n, hb, ha⟩ := Body.map_eq_ok hok
    obtain ⟨m, rfl, hd⟩ := pupdBody_model h.phase h.order hb
    refine follows_model (l := s.hist) hset (ht rfl) h.phase fun F d hpair => ?_
    rw [ha, ← hpair.hist]
    exact congrArg (Body.map _) (hd F d hpair)
  | push y tl =>
    have hy : y.toNat ≤ 255 := of_decide_eq_true h.phase
    obtain ⟨_, hb, ha⟩ := Body.map_eq_ok hok
    rw [hpushBody_byte hy] at hb
    cases hb
    refine follows_model (m := s.ctx) hset (ht rfl) h.phase fun F d hpair => ?_
    have hpush : pushedHist y s = pushedHist y d := by rw [pushedHist, pushedHist, hpair.hist, hpair.order]
    rw [ha, hpush, ← hpair.ctx]
    exact congrArg (Body.map _) (hpushBody_byte hy)
  | done y tl => cases hok

/-- EOF goes on to DONE at order 0 at the latest. -/
theorem csymStep_eof (h : CsymPaired x k s) (hok : csymStep x k s = .ok t (some k₁)) (he : x = Sym.eof) : k₁.phase ≠ .fall := by
  obtain ⟨phase, e, cr⟩ := k
  cases phase with
  | desc o =>
    obtain ⟨T, c, m, hg⟩ := csymDesc_selects hok
    obtain ⟨a, -, ha⟩ := Body.map_eq_ok ((csymDesc_gives hg _).symm.trans hok)
    rw [Option.some.inj ha]
    split
    · unfold resolved
      simp only
      split <;> exact Phase.noConfusion
    · next hmem =>
      have ho : o ≠ 0 := by
        rintro rfl
        exact hmem (he ▸ hg.root_eof h.sound)
      rw [descend, if_neg ho]
      exact Phase.noConfusion
  | fall => exact absurd rfl (h.eof he)
  | upd y tl =>
    obtain ⟨n, -, ha⟩ := Body.map_eq_ok hok
    rw [Option.some.inj ha]
    exact Phase.noConfusion
  | push y tl =>
    obtain ⟨n, -, ha⟩ := Body.map_eq_ok hok
    rw [Option.some.inj ha]
    exact Phase.noConfusion
  | done y tl => cases hok

theorem SymPath.follows (hx : Codable x) (hp : SymPath (csymStep x) k s k' t) (h : CsymPaired x k s) :
    Follows s t fun d d' => SymPath dsymStep k d k' d' := by
  induction hp with
  | refl k s =>
    exact ⟨[], ⟨(List.append_nil _).symm, h.sound, h.settled, fun _ hF => hF⟩, fun F d _ hd => ⟨d, .refl k d, hd⟩⟩
  | @more k k₁ k' s s₁ t hk hok _ ih =>
    have hstep := csymStep_follows hx h hok
    have hnext := csymStep_csymOk hx k s h.toCsymOk hk
    rw [hok] at hnext
    have horder := ((csymStep_quiet s x hk).of_ok hok).orderAct
    have hrest := ih ⟨hnext k₁ rfl, horder ▸ h.order, hstep.settled, csymStep_eof h hok⟩
    exact (hstep.trans hrest).mono fun _ _ _ _ ⟨_, hv, hpath⟩ => .more hk hv hpath

/-- Step DONE of DSYM keeps the data sound. -/
theorem dsymReport_sound {tl : ResRegs} (h : d.Sound) (hx : Codable x) : (dsymReport x tl k d).Sound :=
  (dsymStep_sat (k := ⟨.done x tl, k.e, k.cr⟩) h hx).1

/-- Step DONE is no step of the coder or the model. -/
theorem Paired.report {tl : ResRegs} (h : Paired s d F) (hx : Codable x) :
    Paired (symResult x tl k s) (dsymReport x tl k d) F := by
  have hsound : (dsymReport x tl k d).Sound := dsymReport_sound h.sound hx
  obtain ⟨q, hq⟩ : ∃ q, outputByte x d = { d with outByteQ := q } := by
    unfold outputByte
    split <;> exact ⟨_, rfl⟩
  rw [dsymReport, hq] at hsound ⊢
  exact { h with sound := hsound }

/-- A whole CSYM and the DSYM beside it, at an order of at least 0 (spec/44_drivers.md R227). -/
theorem CsymRuns.follows (hx : Codable x) (h : s.Sound) (hf : s.fault = none) (ho : 0 ≤ s.orderAct.toInt)
    (hset : Settled s.pAct.toNat s.low.toNat s.high.toNat) (hr : CsymRuns x s t) : Follows s t (DsymRuns x) := by
  obtain ⟨k, tl, u, hp, hk, rfl⟩ := hr
  have hstart : CsymPaired x (symStart s) s := by
    refine ⟨csymOk_start x h hf, ho, hset, fun _ => ?_⟩
    rw [symStart, orderVal, if_neg (Int.not_lt.2 ho)]
    exact Phase.noConfusion
  have hsound := (hp.keeps (csymStep_csymOk hx) (csymOk_start x h hf)).sound
  obtain ⟨E, hE, hdec⟩ := hp.follows hx hstart
  refine ⟨E, ⟨hE.out, setResult_sound hsound _ _, hE.settled, hE.future⟩, fun F d hF hd => ?_⟩
  obtain ⟨d', hpath, hpair⟩ := hdec F d hF hd
  have hsame : symStart d = symStart s := by rw [symStart, symStart, hd.hist, hd.order]
  exact ⟨_, ⟨k, tl, d', hsame ▸ hpath, hk, rfl⟩, hpair.report hx⟩

end

/-! ### COMPRESS and DECOMPRESS side by side -/

/-- A DECOMPRESS decodes `bytes` and then EOF, from a first step 0 in `d` to the end of its symbols in `d'`
(spec/44_drivers.md R224). -/
structure Decompresses (bytes : List Byte) (d d' : State) : Prop extends SameFault d d' where
  reaches : ∃ n, Reaches n (goto (encode .decompress) .dNext d) (goto (encode .decompress) .dClear d')
  outByteQ : d'.outByteQ = d.outByteQ ++ bytes

section
variable {s t d d' u v : State} {b : Byte} {rest bytes : List Byte} {F : List Bool}

theorem byteOf_symOf (b : Byte) : byteOf (symOf b) = b := by
  rw [byteOf, symOf, BitVec.setWidth_setWidth_of_le _ (by omega), BitVec.setWidth_eq]

theorem DsymRuns.decompresses_eof (hr : DsymRuns Sym.eof d d') : Decompresses [] d d' := by
  obtain ⟨hsame, hout⟩ := hr.output
  exact ⟨hsame, ⟨_, hr.reaches⟩, hout⟩

theorem DsymRuns.decompresses_byte (hr : DsymRuns (symOf b) d v) (h : Decompresses bytes v d') :
    Decompresses (b :: bytes) d d' := by
  obtain ⟨hsame, hout⟩ := hr.output
  obtain ⟨n, hrest⟩ := h.reaches
  have hone := hr.reaches
  rw [if_neg (symOf_ne_eof b)] at hone hout
  refine ⟨⟨h.fault.trans hsame.fault, h.faultInfo.trans hsame.faultInfo, h.faultIp.trans hsame.faultIp⟩,
    ⟨_, hone.trans hrest⟩, ?_⟩
  rw [h.outByteQ, hout, byteOf_symOf, List.append_assoc]
  rfl

/-- Taking a byte from IN_BYTEQ is no step of the coder. -/
theorem Follows.takeByte {runs : State → State → Prop} (h : Follows { s with inByteQ := rest } t runs) : Follows s t runs := by
  obtain ⟨E, hE, hdec⟩ := h
  exact ⟨E, { hE with }, fun F d hF hd => hdec F d hF { hd with }⟩

/-- The symbols of a COMPRESS and those of the DECOMPRESS beside it (spec/44_drivers.md R228). -/
theorem Codes.follows (h : Codes s t) (hs : s.Sound) (hf : s.fault = none) (ho : 0 ≤ s.orderAct.toInt)
    (hset : Settled s.pAct.toNat s.low.toNat s.high.toNat) : Follows s t (Decompresses s.inByteQ) := by
  induction h with
  | eof hq hr =>
    rw [hq]
    exact (hr.follows (.inl rfl) hs hf ho hset).mono fun _ _ _ _ hd => hd.decompresses_eof
  | @byte s u t b rest hq hr _ ih =>
    have hs' := takeByte_sound hs hq
    obtain ⟨hframe, hrest⟩ := hr.frame
    have hone : Follows s u (DsymRuns (symOf b)) := (hr.follows (codable_symOf b) hs' hf ho hset).takeByte
    have hmore := ih (hr.sound (codable_symOf b) hs' hf) (hframe.fault.trans hf) (hframe.orderAct.symm ▸ ho) hone.settled
    rw [hrest] at hmore
    rw [hq]
    exact (hone.trans hmore).mono fun _ _ _ _ ⟨_, hb, hd⟩ => hb.decompresses_byte hd

/-- What a COMPRESS that completed has done (spec/44_drivers.md R223). -/
theorem compress_completed {n : Nat} (h : s.Inv) (hseq : s.seq = .running (encode .compress) .start)
    (hrun : coreRun n s = .next t) (hcomp : Completed s t) : LegalConfig s ∧ ∃ u, Codes (opened s) u ∧
      t.outBitQ = u.outBitQ ++ flushBits u ∧ t.ctx = u.ctx ∧ t.hist = u.hist := by
  have hf := h.noFault hseq
  have hnone : t.fault = none := hcomp.fault.trans hf
  rw [← show goto (encode .compress) .start s = s from goto_self hseq] at hrun
  have hfaults {m : Nat} {v : State} (hv : Reaches m (goto (encode .compress) .start s) v) (hidle : v.seq = .idle) :
      v.fault = none := hv.idle_unique hrun hcomp.seq hidle ▸ hnone
  by_cases hc : LegalConfig s
  case neg =>
    obtain ⟨r, v, hv, -⟩ := compress_opens.faults hc
    exact absurd (hfaults hv rfl) (Option.some_ne_none _)
  have hopen := compress_opens.reaches hc
  have hsound := opened_sound h.toSound hc
  rcases codes_or_faults _ rfl hsound hf with ⟨u, hu⟩ | ⟨r, v, hv⟩
  case inr => exact absurd (hfaults (hopen.trans hv) rfl) (Option.some_ne_none _)
  have hcoded := hopen.trans (hu.reaches hsound hf).2
  by_cases hp : u.pending = 0xFFFFFFFF
  · obtain ⟨v, hv, rfl⟩ := (finFlushes.2 u).1 hp
    have hend := hcoded.trans (.step ((compress_fins u).trans hv) (.refl 0 _))
    exact absurd (hfaults hend rfl) (Option.some_ne_none _)
  · obtain ⟨v, hv, hcv, hout, -, -, -, -, hctx, hhist, -⟩ := hu.completes hp
    obtain rfl := (hcoded.trans (.step hv (.refl 0 _))).idle_unique hrun hcomp.seq hcv.seq
    exact ⟨hc, u, hu, hout, hctx, hhist⟩

/-- The two sides after the opening and DPRIME (spec/44_drivers.md R223, R224). -/
theorem primed_paired {z : Nat} (hd : d.Sound) (hf : d.fault = none) (hcd : LegalConfig d) (hparams : d.params = s.params)
    (hord : d.cfgOrder = s.cfgOrder) (hprec : d.cfgPrec = s.cfgPrec) (hq : d.inBitQ = F ++ List.replicate z false) :
    Paired (opened s) (primed (opened d)) F := by
  have hbeside : Beside (opened s) (opened d) := ⟨opened_sound hd hcd, hf, hparams, hprec, rfl, rfl, rfl, by
    show BitVec.ofNat 32 (top d.cfgPrec.toNat) = BitVec.ofNat 32 (top s.cfgPrec.toNat)
    rw [hprec]⟩
  have hin := dprime_inStep hbeside rfl hq rfl
  exact { hin with sound := primed_sound (opened_sound hd hcd), order := hord }

end

/-- Settles O47: what the symbols and FIN of the COMPRESS emit is a future of its opening, DPRIME loads it, and then each symbol
leaves the two sides in step. -/
theorem decompressOfCompress : Obligations.DecompressOfCompress := by
  intro s t d n bits z h hd hseq hdseq hparams hord hprec ho hrun hcomp hbits hq
  obtain ⟨hc, u, hu, hout, hctx, hhist⟩ := compress_completed h hseq hrun hcomp
  have hcd : LegalConfig d := ⟨hprec ▸ hc.prec, hord ▸ hparams ▸ hc.order⟩
  have hsound := opened_sound h.toSound hc
  obtain ⟨E, hE, hdec⟩ := hu.follows hsound (h.noFault hseq) ho (opened_settled hc)
  obtain rfl : bits = E ++ flushBits u := by
    rw [hout, hE.out, List.append_assoc] at hbits
    exact (List.append_cancel_left hbits).symm
  obtain ⟨d', hd', hpair⟩ := hdec _ _ (fin_validFuture hE.sound.prec.1 hE.settled)
    (primed_paired hd.toSound (hd.noFault hdseq) hcd hparams hord hprec hq)
  obtain ⟨m, hsteps⟩ := hd'.reaches
  have hall := (decompress_opened hcd).trans (hsteps.trans (.step (decompress_clears d') (.refl 0 _)))
  rw [show goto (encode .decompress) .start d = d from goto_self hdseq] at hall
  obtain ⟨k, -, hk⟩ := hall
  exact ⟨k, _, hk, ⟨⟨hd'.fault, hd'.faultInfo, hd'.faultIp⟩, rfl, rfl⟩, hd'.outByteQ, rfl, hpair.ctx.trans hctx.symm,
    hpair.hist.trans hhist.symm⟩

end Sys2Proof.Machine
end

section
/-! PROOFS. Family 45_system: what the core's step of NOP and of SRST answers. -/

namespace Sys2Proof.Machine

/-! ### The two system commands -/

/-- NOP is a completion with no body before it (spec/45_system.md R250). -/
theorem exec_nop (s : State) : exec .nop s = .next (complete s) := rfl

/-- SRST resets whatever its ignored bits are (spec/45_system.md R251, spec/30_encoding.md R116). -/
theorem exec_srst (ign : BitVec 26) (s : State) : exec (.srst ign) s = .next (softReset s) := rfl

/-! ### The statements -/

/-- Settles O20: opcode 0x00 decodes in format N, and completion writes SEQ and DONE_IP alone. -/
theorem nopOnlyCompletes : Obligations.NopOnlyCompletes :=
  ⟨formatN fun p w ho => by simp only [decode, ho], exec_nop⟩

/-- Settles O17: the step answers the soft reset, as a CMD write of the word does. -/
theorem srstInSequencerResets : Obligations.SrstInSequencerResets := fun s ign =>
  ⟨softReset s, exec_srst ign s, softReset_atReset s, rfl⟩

end Sys2Proof.Machine
end

section
/-! PROOFS. Family 60_exceptions, the ends of a core step: a body reports nothing before its step ends, so a step faults,
overflows in RENORM_ENC, completes, or, in a driver, goes on. -/

namespace Sys2Proof.Machine

/-! ### What a step can end with -/

/-- The fault registers and DONE_IP are the same: nothing has been reported yet (spec/60_exceptions.md R262, R269). -/
structure Unreported (s t : State) : Prop extends SameFault s t where
  doneIp : t.doneIp = s.doneIp

/-- The commands with RENORM_ENC in a step of theirs: ENC, CSYM and COMPRESS (spec/30_encoding.md R115). -/
def RenormalizesEnc (w : Word) : Prop := w.toNat / 2 ^ 26 = 0x11 ∨ w.toNat / 2 ^ 26 = 0x20 ∨ w.toNat / 2 ^ 26 = 0x22

/-- `t` is `s` with the registers and bits that RENORM_ENC had reached when PENDING was full (spec/60_exceptions.md R266). -/
def KeptByOverflow (s t : State) : Prop := ∃ r : EncRegs, r.pending = wordMax ∧ t = storeEnc r s

/-- The ways the step of the command word `w` can end in `t` (spec/60_exceptions.md R262, R266, R269). -/
inductive StepEnd (w : Word) (s t : State) : Prop where
  /-- In fault entry from the state before it. -/
  | faults (r : Raise) (ht : t = faultEntry r s)
  /-- In fault entry with what a PENDING_OVERFLOW keeps. -/
  | overflows (info : Word) (u : State) (hw : RenormalizesEnc w) (hu : KeptByOverflow s u)
      (ht : t = faultEntry ⟨.pendingOverflow, info⟩ u)
  /-- In completion. -/
  | completes (h : Completed s t)
  /-- In a later loop state of the same driver. -/
  | goesOn (h : Unreported s t) (hw : 0x20 ≤ w.toNat / 2 ^ 26) (k : Loop) (hk : t.seq = .running w k)

section
variable {w : Word} {s t u : State}

theorem Unreported.refl (s : State) : Unreported s s := ⟨⟨rfl, rfl, rfl⟩, rfl⟩

theorem Unreported.complete (h : Unreported s u) : StepEnd w s (complete u) :=
  .completes ⟨⟨h.fault, h.faultInfo, h.faultIp⟩, rfl, rfl⟩

theorem Unreported.codedResult (h : Unreported s u) (c : Coded) : StepEnd w s (codedResult u c) :=
  .completes ⟨⟨h.fault, h.faultInfo, h.faultIp⟩, rfl, rfl⟩

theorem Unreported.goto (h : Unreported s u) (hw : 0x20 ≤ w.toNat / 2 ^ 26) (k : Loop) : StepEnd w s (goto w k u) :=
  .goesOn ⟨⟨h.fault, h.faultInfo, h.faultIp⟩, h.doneIp⟩ hw k rfl

/-- Inside a symbol the driver goes on; after the symbol it ends as `fin` does. -/
theorem Unreported.continueSym (h : Unreported s u) (hw : 0x20 ≤ w.toNat / 2 ^ 26) (inside : SymLoop → Loop)
    {fin : State → State} (hfin : StepEnd w s (fin u)) (k : Option SymLoop) :
    StepEnd w s (continueSym (fun k => Machine.goto w (inside k)) fin u k) := by
  cases k with
  | none => exact hfin
  | some k => exact h.goto hw (inside k)

/-- A body of a step of the word `w` from `s` reports nothing where it runs through, and keeps a state in no fault but a
PENDING_OVERFLOW in RENORM_ENC (spec/60_exceptions.md R266). -/
def Body.Precise {α : Type} (w : Word) (s : State) : Body α → Prop
  | .ok t _ => Unreported s t
  | .raise _ => True
  | .raiseKeeping r t => RenormalizesEnc w ∧ r.code = .pendingOverflow ∧ KeptByOverflow s t
  | .stuck _ => True

theorem Body.Precise.map {α β : Type} {b : Body α} (h : b.Precise w s) (f : α → β) : (b.map f).Precise w s := by
  cases b <;> exact h

theorem Body.Precise.finish {α : Type} {b : Body α} {cont : State → α → State} (hb : b.Precise w s)
    (hc : ∀ u a, Unreported s u → StepEnd w s (cont u a)) (ht : b.finish s cont = .next t) : StepEnd w s t := by
  rcases Body.finish_next ht with ⟨u, a, rfl, rfl⟩ | ⟨r, rfl, rfl⟩ | ⟨⟨code, info⟩, u, rfl, rfl⟩
  · exact hc u a hb
  · exact .faults r rfl
  · obtain ⟨hw, rfl, hu⟩ := hb
    exact .overflows info u hw hu rfl

theorem Body.Precise.single {α : Type} {b : Body α} (hb : b.Precise w s) (ht : b.single s = .next t) : StepEnd w s t :=
  hb.finish (fun _ _ hu => hu.complete) ht

end

/-! ### The bodies -/

/-- RENORM_ENC overflows only where PENDING is full (spec/42_arithmetic_coder.md R162). -/
theorem renormEnc_overflow_pending {P n : Nat} {r r' : EncRegs} (h : renormEnc P n r = .overflow r') : r'.pending = wordMax := by
  cases hc : renormCase P r.low r.high with
  | none => rw [renormEnc_none hc] at h; cases h
  | some c =>
    by_cases hp : c = .e3 ∧ r.pending = wordMax
    · rw [renormEnc_overflow (hp.1 ▸ hc) hp.2] at h
      cases h
      exact hp.2
    · cases n with
      | zero => simp [renormEnc, hc, hp] at h
      | succ n =>
        rw [renormEnc_pass hc hp] at h
        exact renormEnc_overflow_pending h

section
variable (w : Word) (s : State)

theorem cinitBody_precise : (cinitBody s).Precise w s := by
  unfold cinitBody
  split
  · trivial
  · exact ⟨⟨rfl, rfl, rfl⟩, rfl⟩

theorem finBody_precise : (finBody s).Precise w s := by
  unfold finBody
  split
  · trivial
  · exact ⟨⟨rfl, rfl, rfl⟩, rfl⟩

theorem dprimeBody_precise : (dprimeBody s).Precise w s := ⟨⟨rfl, rfl, rfl⟩, rfl⟩

theorem minitBody_precise : (minitBody s).Precise w s := by
  unfold minitBody
  simp only
  split
  · trivial
  · exact ⟨⟨rfl, rfl, rfl⟩, rfl⟩

theorem hpushBody_precise (x : Sym) : (hpushBody x s).Precise w s := by
  unfold hpushBody
  split
  · exact ⟨⟨rfl, rfl, rfl⟩, rfl⟩
  · trivial

theorem pupdBody_precise (x : Sym) : (pupdBody x s).Precise w s := by
  unfold pupdBody
  split
  · split
    · exact .refl s
    · simp only
      split
      · trivial
      · split
        · trivial
        · exact ⟨⟨rfl, rfl, rfl⟩, rfl⟩
  · trivial

theorem pgetBody_precise (t : Tsel) : (pgetBody t s).Precise w s := by
  unfold pgetBody
  split
  · trivial
  · exact ⟨⟨rfl, rfl, rfl⟩, rfl⟩

theorem flookBody_precise (t : Tsel) (x : Sym) : (flookBody t x s).Precise w s := by
  unfold flookBody
  split
  · trivial
  · exact ⟨⟨rfl, rfl, rfl⟩, rfl⟩

/-- FADD, FRECOMP and FUPD report nothing when their effect on the selection does not. -/
theorem updateSelected_precise {v : Word} {t : Tsel} {full : Table → Bool} (eff : Selection → State)
    (h : ∀ sel, Unreported s (eff sel)) : (updateSelected v t full eff s).Precise w s := by
  unfold updateSelected
  split
  · trivial
  · split
    · trivial
    · split
      · trivial
      · exact h _

theorem decWith_precise (v : Word) (sel : Selection) : (decWith v sel s).Precise w s := by
  unfold decWith
  split
  · trivial
  · split
    · trivial
    · split
      · trivial
      · split
        · trivial
        · split
          · trivial
          · split
            · exact ⟨⟨rfl, rfl, rfl⟩, rfl⟩
            · trivial

theorem decBody_precise (t : Tsel) : (decBody t s).Precise w s := by
  unfold decBody
  split
  · trivial
  · exact decWith_precise w s _ _

theorem dsymFall_precise (k : SymLoop) : (dsymFall k s).Precise w s := by
  unfold dsymFall
  split
  · trivial
  · exact (decBody_precise w s Tsel.m1).map _

theorem outputByte_unreported (x : Sym) : Unreported s (outputByte x s) := by
  unfold outputByte
  split
  · exact .refl s
  · exact ⟨⟨rfl, rfl, rfl⟩, rfl⟩

theorem dsymStep_precise (k : SymLoop) : (dsymStep k s).Precise w s := by
  unfold dsymStep
  split
  · exact (decBody_precise w s _).map _
  · exact dsymFall_precise w s k
  · exact (pupdBody_precise w s _).map _
  · exact (hpushBody_precise w s _).map _
  · next x _ _ =>
    obtain ⟨⟨hfault, hinfo, hip⟩, hdone⟩ := outputByte_unreported s x
    exact ⟨⟨hfault, hinfo, hip⟩, hdone⟩

variable {w} (hw : RenormalizesEnc w)
include hw

/-- The one body that can keep a state (spec/60_exceptions.md R266; log 9). -/
theorem encWith_precise (v : Word) (sel : Selection) (x : Sym) : (encWith v sel x s).Precise w s := by
  unfold encWith
  split
  · trivial
  · split
    · trivial
    · split
      · trivial
      · split
        · trivial
        · split
          · exact ⟨⟨rfl, rfl, rfl⟩, rfl⟩
          · next r hr => exact ⟨hw, rfl, r, renormEnc_overflow_pending hr, rfl⟩
          · trivial

theorem encBody_precise (t : Tsel) (x : Sym) : (encBody t x s).Precise w s := by
  unfold encBody
  split
  · trivial
  · exact encWith_precise s hw _ _ x

theorem csymDesc_precise (x : Sym) (o : Tsel) (k : SymLoop) : (csymDesc x o k s).Precise w s := by
  unfold csymDesc
  split
  · trivial
  · split
    · exact (encWith_precise s hw _ _ x).map _
    · exact (encWith_precise s hw _ _ Sym.esc).map _

theorem csymStep_precise (x : Sym) (k : SymLoop) : (csymStep x k s).Precise w s := by
  unfold csymStep
  split
  · exact csymDesc_precise s hw x _ k
  · exact (encBody_precise s hw _ x).map _
  · exact (pupdBody_precise w s _).map _
  · exact (hpushBody_precise w s _).map _
  · exact ⟨⟨rfl, rfl, rfl⟩, rfl⟩

end

/-! ### The commands -/

/-- The opcode of a packed word (spec/30_encoding.md R110). -/
theorem packWord_opcode (o : BitVec 6) (t : Tsel) (x : Sym) (r : BitVec 12) : (packWord o t x r).toNat / 2 ^ 26 = o.toNat := by
  rw [← opc_eq, opcField_packWord]

section
variable {s t : State}

theorem execCsym_stepEnd {x : Sym} (ht : execCsym x s = .next t) : StepEnd (encode (.csym x)) s t := by
  have hop : (encode (.csym x)).toNat / 2 ^ 26 = 0x20 := packWord_opcode 0x20 0 x 0
  unfold execCsym at ht
  generalize loopOf s = l at ht
  cases l with
  | start =>
    dsimp only at ht
    split at ht
    · cases ht; exact .faults _ rfl
    · cases ht; exact (Unreported.refl s).goto hop.ge _
  | sym k =>
    exact (csymStep_precise s (.inr (.inl hop)) x k).finish
      (fun _ k' hu => hu.continueSym hop.ge .sym hu.complete k') ht
  | _ => cases ht

theorem execDsym_stepEnd (ht : execDsym s = .next t) : StepEnd (encode .dsym) s t := by
  have hop : 0x20 ≤ (encode .dsym).toNat / 2 ^ 26 := by decide
  unfold execDsym at ht
  generalize loopOf s = l at ht
  cases l with
  | start => cases ht; exact (Unreported.refl s).goto hop _
  | sym k => exact (dsymStep_precise _ s k).finish (fun _ k' hu => hu.continueSym hop .sym hu.complete k') ht
  | _ => cases ht

theorem execCompress_stepEnd (ht : execCompress s = .next t) : StepEnd (encode .compress) s t := by
  have hop : 0x20 ≤ (encode .compress).toNat / 2 ^ 26 := by decide
  unfold execCompress at ht
  generalize loopOf s = l at ht
  cases l with
  | start => exact (cinitBody_precise _ s).finish (fun _ _ hu => hu.goto hop _) ht
  | cMinit => exact (minitBody_precise _ s).finish (fun _ _ hu => hu.goto hop _) ht
  | cNext =>
    dsimp only at ht
    split at ht
    · next b rest _ =>
      cases ht
      have hu : Unreported s { s with inByteQ := rest } := ⟨⟨rfl, rfl, rfl⟩, rfl⟩
      exact hu.goto hop _
    · cases ht; exact (Unreported.refl s).goto hop _
  | cSym x k =>
    exact (csymStep_precise s (.inr (.inr (by decide))) x k).finish
      (fun _ k' hu => hu.continueSym hop (.cSym x) (hu.goto hop _) k') ht
  | cFin => exact (finBody_precise _ s).single ht
  | _ => cases ht

theorem execDecompress_stepEnd (ht : execDecompress s = .next t) : StepEnd (encode .decompress) s t := by
  have hop : 0x20 ≤ (encode .decompress).toNat / 2 ^ 26 := by decide
  unfold execDecompress at ht
  generalize loopOf s = l at ht
  cases l with
  | start => exact (cinitBody_precise _ s).finish (fun _ _ hu => hu.goto hop _) ht
  | dMinit => exact (minitBody_precise _ s).finish (fun _ _ hu => hu.goto hop _) ht
  | dPrime => exact (dprimeBody_precise _ s).finish (fun _ _ hu => hu.goto hop _) ht
  | dNext => cases ht; exact (Unreported.refl s).goto hop _
  | dSym k =>
    exact (dsymStep_precise _ s k).finish (fun _ k' hu => hu.continueSym hop .dSym (hu.goto hop _) k') ht
  | dClear =>
    cases ht
    have hu : Unreported s { s with inBitQ := [] } := ⟨⟨rfl, rfl, rfl⟩, rfl⟩
    exact hu.complete
  | _ => cases ht

/-- The end of the step of every command but SRST, which resets. -/
theorem exec_stepEnd {i : Instr} (hi : ∀ ign, i ≠ .srst ign) (ht : exec i s = .next t) : StepEnd (encode i) s t := by
  cases i with
  | nop => cases ht; exact (Unreported.refl s).complete
  | srst ign => exact absurd rfl (hi ign)
  | fadd r x =>
    rw [exec_fadd] at ht
    exact (updateSelected_precise _ s (faddEffect x s) fun _ => ⟨⟨rfl, rfl, rfl⟩, rfl⟩).single ht
  | frecomp r =>
    rw [exec_frecomp] at ht
    exact (updateSelected_precise _ s (frecompEffect s) fun _ => ⟨⟨rfl, rfl, rfl⟩, rfl⟩).single ht
  | fupd r x =>
    rw [exec_fupd] at ht
    exact (updateSelected_precise _ s (fupdEffect x s) fun _ => ⟨⟨rfl, rfl, rfl⟩, rfl⟩).single ht
  | flook r x => exact (flookBody_precise _ s r x).single ht
  | cinit => exact (cinitBody_precise _ s).single ht
  | enc r x =>
    exact (encBody_precise s (.inl (packWord_opcode 0x11 r x 0)) r x).finish (fun _ c hu => hu.codedResult c) ht
  | fin => exact (finBody_precise _ s).single ht
  | dprime => exact (dprimeBody_precise _ s).single ht
  | dec r => exact (decBody_precise _ s r).finish (fun _ c hu => hu.codedResult c) ht
  | minit => exact (minitBody_precise _ s).single ht
  | pget r => exact (pgetBody_precise _ s r).single ht
  | pupd x => exact (pupdBody_precise _ s x).single ht
  | hpush x => exact (hpushBody_precise _ s x).single ht
  | csym x => exact execCsym_stepEnd ht
  | dsym => exact execDsym_stepEnd ht
  | compress => exact execCompress_stepEnd ht
  | decompress => exact execDecompress_stepEnd ht

variable {w : Word} {k : Loop}

/-- The end of a core step of a running word that is no SRST word, legal or not (spec/60_exceptions.md R268). -/
theorem coreStep_stepEnd (hseq : s.seq = .running w k) (hw : w.toNat / 2 ^ 26 ≠ 1) (ht : coreStep s = .next t) :
    StepEnd w s t := by
  cases hd : decode s.params w with
  | error e =>
    obtain ⟨u, hu, hfaulted⟩ := coreStep_error hseq hd
    rw [hu] at ht
    cases ht
    exact .faults ⟨.illegalCmd, w⟩ hfaulted
  | ok i =>
    rw [coreStep_ok hseq hd] at ht
    have hi : ∀ ign, i ≠ .srst ign := fun ign hi => hw (opcode_of_decode_srst (hi ▸ hd))
    obtain ⟨rfl, -⟩ := decode_ok hd
    exact exec_stepEnd hi ht

/-- An SRST word in SEQ resets (log 12). -/
theorem coreStep_srst (hseq : s.seq = .running w k) (hw : w.toNat / 2 ^ 26 = 1) : coreStep s = .next (softReset s) := by
  have hd : decode s.params w = .ok (.srst (ignField w)) := by rw [decode, opc_eq, hw]; rfl
  rw [coreStep_ok hseq hd, exec_srst]

end

/-! ### The statements -/

/-- Settles O8: of the four ends of a step two leave FAULT = 0; the other two are the disjuncts, and a reset clears FAULT. -/
theorem faultEntryIsPrecise : Obligations.FaultEntryIsPrecise := by
  intro s t w k f hseq hnone ht hf
  by_cases hw : w.toNat / 2 ^ 26 = 1
  · rw [coreStep_srst hseq hw] at ht
    cases ht
    cases hf
  · cases coreStep_stepEnd hseq hw ht with
    | faults r ht =>
      subst ht
      cases hf
      exact .inl ⟨r.info, rfl⟩
    | overflows info u henc hu ht =>
      obtain ⟨r, hr, rfl⟩ := hu
      subst ht
      cases hf
      have hfull : BitVec.ofNat 32 r.pending = 0xFFFFFFFF := congrArg (BitVec.ofNat 32) hr
      refine .inr ⟨rfl, henc, BitVec.ofNat 32 r.low, BitVec.ofNat 32 r.high, r.out, info, ?_⟩
      rw [← hfull]
      rfl
    | completes h => rw [h.fault, hnone] at hf; cases hf
    | goesOn h _ _ _ => rw [h.fault, hnone] at hf; cases hf

/-- Settles O10: both kinds of fault entry leave DONE_IP, the other two ends are the disjuncts as they stand. -/
theorem coreStepFaultsCompletesOrGoesOn : Obligations.CoreStepFaultsCompletesOrGoesOn := by
  intro s t w k hseq _ hw ht
  cases coreStep_stepEnd hseq hw ht with
  | faults r ht => subst ht; exact .inl ⟨Option.some_ne_none _, rfl, rfl, rfl⟩
  | overflows info u _ hu ht =>
    obtain ⟨r, -, rfl⟩ := hu
    subst ht
    exact .inl ⟨Option.some_ne_none _, rfl, rfl, rfl⟩
  | completes h => exact .inr (.inl h)
  | goesOn h hdriver k' hk => exact .inr (.inr ⟨h.toSameFault, h.doneIp, hdriver, k', hk⟩)

end Sys2Proof.Machine
end

section
/-! PROOFS. Family 60_exceptions, the faults of a command: what its bodies can raise in sound data is in its row of the table of
spec/60_exceptions.md R263. -/

namespace Sys2Proof.Machine

/-- A step that ends with the fault `f`, its body leaving FAULT = 0 where it runs through, has raised `f` in its body. -/
theorem Body.Sat.finish_raises {α : Type} {P : State → α → Prop} {F : FaultCode → Prop} {Q : State → Prop} {b : Body α}
    {s t : State} {cont : State → α → State} {f : FaultCode} (hb : b.Sat P F Q) (hP : ∀ u a, P u a → u.fault = none)
    (ht : b.finish s cont = .next t) (hf : t.fault = some f) (hc : ∀ u a, (cont u a).fault = u.fault) : F f := by
  rcases Body.finish_next ht with ⟨u, a, rfl, rfl⟩ | ⟨r, rfl, rfl⟩ | ⟨r, u, rfl, rfl⟩
  · rw [hc u a, hP u a hb] at hf
    cases hf
  · cases hf
    exact hb
  · cases hf
    exact hb.1

theorem Body.Sat.single_raises {α : Type} {P : State → α → Prop} {F : FaultCode → Prop} {Q : State → Prop} {b : Body α}
    {s t : State} {f : FaultCode} (hb : b.Sat P F Q) (hP : ∀ u a, P u a → u.fault = none) (ht : b.single s = .next t)
    (hf : t.fault = some f) : F f :=
  hb.finish_raises hP ht hf fun _ _ => rfl

/-- Going on inside a symbol command leaves FAULT alone, when each way of going on does. -/
theorem continueSym_fault {more : SymLoop → State → State} {fin : State → State} (hm : ∀ k u, (more k u).fault = u.fault)
    (hfin : ∀ u, (fin u).fault = u.fault) (u : State) (k : Option SymLoop) : (continueSym more fin u k).fault = u.fault := by
  cases k with
  | none => exact hfin u
  | some k => exact hm k u

section
variable {i : Instr} {s t : State} {x : Sym} {f : FaultCode} (h : s.Sound) (hn : s.fault = none) (hf : t.fault = some f)
include h hn hf

theorem execCsym_mayRaise (hk : Loop.Fits s.hist.length (.csym x) (loopOf s)) (ht : execCsym x s = .next t) :
    mayRaise (.csym x) f = true := by
  unfold execCsym at ht
  generalize loopOf s = l at hk ht
  cases l with
  | start =>
    dsimp only at ht
    split at ht
    · cases ht; cases hf; rfl
    · cases ht; cases hn.symm.trans hf
  | sym k =>
    obtain ⟨hx, hp⟩ := hk
    rcases (csymStep_sat h hx hp).finish_raises (fun _ _ hq => hq.2.1.1.trans hn)
      ht hf (continueSym_fault (fun _ _ => rfl) fun _ => rfl) with rfl | rfl | rfl | rfl | rfl <;> rfl
  | _ => exact hk.elim

theorem execDsym_mayRaise (hk : Loop.Fits s.hist.length .dsym (loopOf s)) (ht : execDsym s = .next t) :
    mayRaise .dsym f = true := by
  unfold execDsym at ht
  generalize loopOf s = l at hk ht
  cases l with
  | start => cases ht; cases hn.symm.trans hf
  | sym k =>
    rcases (dsymStep_sat h hk).finish_raises (fun _ _ hq => hq.2.1.1.trans hn)
      ht hf (continueSym_fault (fun _ _ => rfl) fun _ => rfl) with rfl | rfl | rfl | rfl | rfl <;> rfl
  | _ => exact hk.elim

theorem execCompress_mayRaise (hk : Loop.Fits s.hist.length .compress (loopOf s)) (ht : execCompress s = .next t) :
    mayRaise .compress f = true := by
  unfold execCompress at ht
  generalize loopOf s = l at hk ht
  cases l with
  | start =>
    obtain rfl := (cinitBody_sat h).finish_raises (fun _ _ hq => hq.2.fault.trans hn) ht hf fun _ _ => rfl
    rfl
  | cMinit =>
    obtain rfl := (minitBody_sat h).finish_raises (fun _ _ hq => hq.2.1.trans hn) ht hf fun _ _ => rfl
    rfl
  | cNext =>
    dsimp only at ht
    split at ht <;> (cases ht; cases hn.symm.trans hf)
  | cSym x k =>
    obtain ⟨hx, hp⟩ := hk
    rcases (csymStep_sat h hx hp).finish_raises (fun _ _ hq => hq.2.1.1.trans hn)
      ht hf (continueSym_fault (fun _ _ => rfl) fun _ => rfl) with rfl | rfl | rfl | rfl | rfl <;> rfl
  | cFin =>
    obtain rfl := (finBody_sat h).single_raises (fun _ _ hq => hq.2.fault.trans hn) ht hf
    rfl
  | _ => exact hk.elim

theorem execDecompress_mayRaise (hk : Loop.Fits s.hist.length .decompress (loopOf s)) (ht : execDecompress s = .next t) :
    mayRaise .decompress f = true := by
  unfold execDecompress at ht
  generalize loopOf s = l at hk ht
  cases l with
  | start =>
    obtain rfl := (cinitBody_sat h).finish_raises (fun _ _ hq => hq.2.fault.trans hn) ht hf fun _ _ => rfl
    rfl
  | dMinit =>
    obtain rfl := (minitBody_sat h).finish_raises (fun _ _ hq => hq.2.1.trans hn) ht hf fun _ _ => rfl
    rfl
  | dPrime => exact ((dprimeBody_sat h).finish_raises (fun _ _ hq => hq.2.fault.trans hn) ht hf fun _ _ => rfl).elim
  | dNext => cases ht; cases hn.symm.trans hf
  | dSym k =>
    rcases (dsymStep_sat h hk).finish_raises (fun _ _ hq => hq.2.1.1.trans hn)
      ht hf (continueSym_fault (fun _ _ => rfl) fun _ => rfl) with rfl | rfl | rfl | rfl | rfl <;> rfl
  | dClear => cases ht; cases hn.symm.trans hf
  | _ => exact hk.elim

end

/-- The step of an executing command raises only faults of its row (spec/60_exceptions.md R263). -/
theorem exec_mayRaise {i : Instr} {s t : State} {f : FaultCode} (h : Executing i s)
    (hk : Loop.Fits s.hist.length i (loopOf s)) (ht : exec i s = .next t) (hf : t.fault = some f) : mayRaise i f = true := by
  have hs := h.toSound
  have hn := h.noFault
  have hw : i.wellFormed s.params = true := (decode_ok h.word).2
  have steady : ∀ u : State, Steady s u → u.fault = none := fun _ hu => hu.fault.trans hn
  cases i with
  | nop => cases ht; cases hn.symm.trans hf
  | srst ign => cases ht; cases hf
  | fadd r x =>
    rcases (faddBody_sat hs r (symOk_le (Bool.and_eq_true_iff.1 hw).2)).single_raises (fun u _ hq => steady u hq.2) ht hf
      with (rfl | rfl) | rfl | rfl <;> rfl
  | frecomp r =>
    rcases (frecompBody_sat hs r).single_raises (fun u _ hq => steady u hq.2) ht hf with (rfl | rfl) | rfl <;> rfl
  | fupd r x =>
    rcases (fupdBody_sat hs r (symOk_le (Bool.and_eq_true_iff.1 hw).2)).single_raises (fun u _ hq => steady u hq.2) ht hf
      with (rfl | rfl) | rfl | rfl <;> rfl
  | flook r x =>
    rcases (flookBody_sat hs r x).single_raises (fun u _ hq => steady u hq.2) ht hf with rfl | rfl <;> rfl
  | cinit =>
    obtain rfl := (cinitBody_sat hs).single_raises (fun u _ hq => steady u hq.2) ht hf
    rfl
  | enc r x =>
    rcases (encBody_sat hs r x).finish_raises (fun u _ hq => steady u hq.2.1) ht hf fun _ _ => rfl
      with (rfl | rfl) | rfl | rfl | rfl | rfl | rfl <;> rfl
  | fin =>
    obtain rfl := (finBody_sat hs).single_raises (fun u _ hq => steady u hq.2) ht hf
    rfl
  | dprime => exact ((dprimeBody_sat hs).single_raises (s := s) (fun u _ hq => steady u hq.2) ht hf).elim
  | dec r =>
    rcases (decBody_sat hs r).finish_raises (fun u _ hq => steady u hq.2) ht hf fun _ _ => rfl
      with (rfl | rfl) | rfl | rfl | rfl <;> rfl
  | minit =>
    obtain rfl := (minitBody_sat hs).single_raises (fun _ _ hq => hq.2.1.trans hn) ht hf
    rfl
  | pget r =>
    rcases (pgetBody_sat hs r).single_raises (fun u _ hq => steady u hq.2) ht hf with rfl | rfl <;> rfl
  | pupd x =>
    rcases (pupdBody_sat hs x).single_raises (fun u _ hq => steady u hq.2.1) ht hf with ⟨rfl, -⟩ | rfl | rfl <;> rfl
  | hpush x =>
    obtain ⟨rfl, -⟩ := (hpushBody_sat hs x).single_raises (fun _ _ hq => hq.2.2.1.trans hn) ht hf
    rfl
  | csym x => exact execCsym_mayRaise hs hn hf hk ht
  | dsym => exact execDsym_mayRaise hs hn hf hk ht
  | compress => exact execCompress_mayRaise hs hn hf hk ht
  | decompress => exact execDecompress_mayRaise hs hn hf hk ht

/-- Settles O12: the decoder raises ILLEGAL_CMD, an executing command the faults of its row. -/
theorem faultsAreThoseOfTheTable : Obligations.FaultsAreThoseOfTheTable := by
  intro s t w k f h hseq ht hf
  cases hd : decode s.params w with
  | error e =>
    obtain ⟨u, hu, rfl⟩ := coreStep_error hseq hd
    rw [hu] at ht
    cases ht
    cases hf
    exact .inl ⟨rfl, e, rfl⟩
  | ok i =>
    obtain ⟨hexec, hfits⟩ := h.executing hseq hd
    rw [coreStep_ok hseq hd] at ht
    exact .inr ⟨i, rfl, exec_mayRaise hexec hfits ht hf⟩

end Sys2Proof.Machine
end

section
/-! PROOFS. Family 60_exceptions, the host's side: what a stopped block does with every turn, which accesses are performed, and
the interrupt output. -/

namespace Sys2Proof.Machine

/-! ### The stopped block -/

/-- FAULT, FCODE, FAULT_INFO and SEQ are the same (spec/60_exceptions.md R267). -/
structure SameStop (s t : State) : Prop where
  fault : t.fault = s.fault
  faultInfo : t.faultInfo = s.faultInfo
  seq : t.seq = s.seq

section
variable {s t : State} {off : Nat} {v : Word} {op : HostOp}

/-- A read changes nothing but an output queue and the model's own fields (spec/20_memory.md R84, R89, R90). -/
theorem hostRead_sameStop (off : Nat) (s : State) : SameStop s (hostRead off s) := by
  unfold hostRead
  split
  · unfold readOutByte
    split <;> exact ⟨rfl, rfl, rfl⟩
  · split
    · exact ⟨rfl, rfl, rfl⟩
    · split <;> exact ⟨rfl, rfl, rfl⟩

/-- While FAULT = 1 only an SRST write gets past the fault (spec/60_exceptions.md R267). -/
theorem hostWrite_sameStop (hf : s.fault ≠ none) (hs : s.seq = .idle) (h : ¬ (off = 0 ∧ v.toNat / 2 ^ 26 = 1)) :
    SameStop s (hostWrite off v s) := by
  unfold hostWrite
  split
  case h_1 => rw [writeCmd_fault (fun hw => h ⟨rfl, hw⟩) hf]; exact ⟨rfl, rfl, rfl⟩
  case h_2 => rw [writeConfig_idle hs]; exact ⟨rfl, rfl, rfl⟩
  case h_3 | h_4 => exact ⟨rfl, rfl, rfl⟩
  case h_5 => rw [writeInByte_fault hf]; exact ⟨rfl, rfl, rfl⟩
  case h_6 => rw [writeInBits_fault hf]; exact ⟨rfl, rfl, rfl⟩
  case h_7 => exact ⟨rfl, rfl, rfl⟩

theorem hostStep_sameStop (hf : s.fault ≠ none) (hs : s.seq = .idle) (h : ¬ (Turn.host op).Resets)
    (ht : hostStep op s = .next t) : SameStop s t := by
  obtain ⟨-, rfl⟩ := hostStep_eq_next.1 ht
  cases op with
  | read off width => exact hostRead_sameStop off s
  | write off width v => exact hostWrite_sameStop hf hs h

/-- Whoever has the turn, a stopped block stays stopped until a turn resets it (spec/60_exceptions.md R267). -/
theorem step_sameStop (hf : s.fault ≠ none) (hs : s.seq = .idle) (h : ∀ u ∈ s.agenda.head?, ¬ u.Resets)
    (ht : step s = .next t) : SameStop s t := by
  cases ha : s.agenda with
  | nil =>
    rw [step_of_noTurn ha, coreStep_idle hs] at ht
    cases ht
    exact ⟨rfl, rfl, rfl⟩
  | cons turn rest =>
    have hturn : ¬ turn.Resets := h turn (by rw [ha]; rfl)
    cases turn with
    | core =>
      rw [step_of_core ha, coreStep_idle (s := { s with agenda := rest }) hs] at ht
      cases ht
      exact ⟨rfl, rfl, rfl⟩
    | host op =>
      rw [step_of_host ha] at ht
      obtain ⟨hfault, hinfo, hseq⟩ := hostStep_sameStop (s := { s with agenda := rest }) hf hs hturn ht
      exact ⟨hfault, hinfo, hseq⟩
    | rst => exact absurd trivial hturn

/-- No read of an idle block draws a free value (spec/20_memory.md R85). -/
theorem hostRead_draws (hs : s.seq = .idle) (off : Nat) : (hostRead off s).draws = s.draws := by
  by_cases h1 : off = 0x48
  · subst h1
    show (readOutByte s).draws = _
    cases hq : s.outByteQ with
    | nil => rw [readOutByte_nil hq]
    | cons b rest => rw [readOutByte_cons hq]
  · by_cases h2 : off = 0x4C
    · subst h2; rfl
    · rw [hostRead_idle h1 h2 hs]

end

/-! ### The interrupt output -/

/-- STATUS reads exactly in every state (spec/20_memory.md R85). -/
theorem hostRead_status (s : State) : (hostRead 0x04 s).rdata = s.statusWord := by
  rw [hostRead_exact (by decide) (by decide) (volatileReg_exact s.params 0x04 (by decide))]
  rfl

theorem State.busy_eq (s : State) : s.busy = decide (s.seq ≠ .idle) := by
  by_cases hs : s.seq = .idle
  · rw [State.busy_of_idle hs]; simp [hs]
  · rw [State.busy_of_running hs]; simp [hs]

/-- BUSY, FAULT and IRQ are the low bits of STATUS (spec/10_state.md R46). -/
theorem statusWord_bits (s : State) : s.statusWord.getLsbD 0 = s.busy ∧ s.statusWord.getLsbD 1 = s.fault.isSome ∧
    s.statusWord.getLsbD 2 = s.irq := by
  have hword := statusWord_toNat s
  have hbusy := s.busy.toNat_le
  have hfault := s.fault.isSome.toNat_le
  have hirq := s.irq.toNat_le
  exact ⟨getLsbD_eq (by omega), getLsbD_eq (by omega), getLsbD_eq (by omega)⟩

theorem State.irq_eq_true (s : State) :
    s.irq = true ↔ (s.doneIp = true ∧ s.doneIe = true) ∨ (s.faultIp = true ∧ s.faultIe = true) := by
  simp [State.irq]

/-- The two interrupt registers share their layout, so their conjunction is empty when no pending bit meets its enable bit
(spec/10_state.md R50). -/
theorem irqWords_and_ne_zero : ∀ faultIp doneIp faultIe doneIe : Bool,
    ((0 : BitVec 30) ++ (BitVec.ofBool faultIp ++ BitVec.ofBool doneIp)) &&&
      ((0 : BitVec 30) ++ (BitVec.ofBool faultIe ++ BitVec.ofBool doneIe)) ≠ 0 ↔
    (doneIp && doneIe || faultIp && faultIe) = true := by decide

/-! ### The statements -/

/-- Settles O9: a stopped block by `step_sameStop`, and each access by the lemma on its register. -/
theorem faultIsSticky : Obligations.FaultIsSticky := by
  intro s f hf hs
  have hn : s.fault ≠ none := hf ▸ Option.some_ne_none f
  refine ⟨fun t ht hturn => ?_, fun w hw => writeCmd_fault hw hn, fun v => ⟨writeInByte_fault hn, writeInBits_fault hn⟩,
    fun v => writeConfig_idle hs, fun _ => rfl, fun _ => rfl, hostRead_draws hs, fun w hw => ?_⟩
  · obtain ⟨hfault, hinfo, hseq⟩ := step_sameStop hn hs hturn ht
    exact ⟨hfault.trans hf, hinfo, hseq.trans hs⟩
  · show AtReset (writeCmd w s)
    rw [writeCmd_srst hw]
    exact softReset_atReset s

/-- Settles O48: an access is performed or refused, and the contract decides which. -/
theorem accessWidthAndAlignment : Obligations.AccessWidthAndAlignment := by
  refine fun s op => ⟨fun h => ?_, fun hwidth halign hoff => ?_⟩
  · rcases hostStep_cases op s with ⟨t, ht⟩ | ⟨r, hr, -⟩
    · obtain ⟨hwidth, halign, -⟩ := accessRefusal_eq_none.1 (hostStep_eq_next.1 ht).1
      omega
    · exact ⟨r, hr⟩
  · exact ⟨op.perform s, hostStep_eq_next.2 ⟨accessRefusal_eq_none.2 ⟨hwidth, halign, by omega⟩, rfl⟩⟩

/-- Settles O56: the bits of STATUS by its layout, the register form by the shared layout of IRQ_PEND and IRQ_EN. -/
theorem irqIsPendingAndEnabled : Obligations.IrqIsPendingAndEnabled := by
  intro s
  obtain ⟨hbusy, hfault, hirq⟩ := statusWord_bits s
  rw [hostRead_status]
  exact ⟨s.irq_eq_true, hirq, hbusy.trans s.busy_eq, hfault,
    (irqWords_and_ne_zero s.faultIp s.doneIp s.faultIe s.doneIe).symm⟩

end Sys2Proof.Machine
end

section
/-! PROOFS. Family 70_reset_and_hazards: the session that CINIT and then MINIT start is the one a reset leaves. -/

namespace Sys2Proof.Machine

/-! ### A session by single-step commands -/

section
variable {s : State}

/-- CINIT and then MINIT complete in the state in which a whole-stream command has opened its session. -/
theorem exec_cinit_minit (hc : LegalConfig s) : exec .cinit s = .next (complete (cinitState s)) ∧
    exec .minit (complete (cinitState s)) = .next (complete (opened s)) :=
  ⟨(cinitStartsSession.2 s).2 hc.prec.1 hc.prec.2, (minitStartsModel.2 (complete (cinitState s))).2 hc.order.1 hc.order.2⟩

/-! ### CONFIG at its reset value -/

/-- The fields of CONFIG at its reset value (spec/10_state.md R37, R56). -/
theorem config_of_configWord_reset (h : s.configWord = 0x00002002) : s.cfgOrder = 2 ∧ s.cfgPrec = 32 := by
  have hword : s.cfgOrder.toNat + 2 ^ 8 * s.cfgPrec.toNat = 0x2002 := by rw [← configWord_toNat, h]; rfl
  exact ⟨BitVec.eq_of_toNat_eq (show s.cfgOrder.toNat = 2 by omega),
    BitVec.eq_of_toNat_eq (show s.cfgPrec.toNat = 32 by omega)⟩

/-- ORDER = 2 is below the least MAX_ORDER, 3, and PREC = 32 is the largest precision. -/
theorem legalConfig_of_reset (hp : s.params.legal = true) (ho : s.cfgOrder = 2) (hprec : s.cfgPrec = 32) : LegalConfig s where
  prec := by rw [hprec]; decide
  order := by
    have hmax := (legal_maxOrder hp).1
    have horder : s.cfgOrder.toInt = 2 := by rw [ho]; rfl
    omega

/-! ### The opened session and the reset state -/

/-- PREC = 32 makes HIGH the reset value `2^32 - 1`; CINIT writes the other registers whatever CONFIG holds. -/
theorem opened_sameCoder_reset (hprec : s.cfgPrec = 32) (p : Params) : SameCoder (State.resetWith p) (opened s) where
  pAct := hprec
  low := rfl
  high := by show BitVec.ofNat 32 (top s.cfgPrec.toNat) = 0xFFFFFFFF; rw [hprec]; rfl
  pending := rfl
  code := rfl
  outBitCnt := rfl
  inBitCnt := rfl

end

/-! ### The statement -/

/-- Settles O18: CONFIG is legal, so the two commands end in `opened s`, and ORDER = 2 and PREC = 32 make it the reset session. -/
theorem resetIsReadySession : Obligations.ResetIsReadySession := by
  intro s hp hcfg
  obtain ⟨ho, hprec⟩ := config_of_configWord_reset hcfg
  obtain ⟨hcinit, hminit⟩ := exec_cinit_minit (legalConfig_of_reset hp ho hprec)
  exact ⟨_, _, hcinit, hminit, { opened_sameCoder_reset hprec s.params with }, ⟨ho, rfl, rfl⟩, ⟨rfl, rfl, rfl, rfl⟩, ⟨rfl, rfl⟩,
    ⟨rfl, rfl, rfl⟩, ⟨rfl, rfl, rfl, rfl, rfl, rfl, rfl⟩⟩

end Sys2Proof.Machine
end
